-- ==== Sys2Proof/Word.lean ====
section
/-! DEFINITION. The word types of the WZ9-2304 (spec 00 R1, 02 R39) and their plainest arithmetic. -/

namespace Sys2Proof

/-- One byte (R1: multi-byte fields are little-endian). -/
abbrev Byte := BitVec 8

/-- A 32-bit word: a v register, an instruction word, a lane mask (R28, R39). -/
abbrev Word := BitVec 32

/-- A 64-bit value: a w register pair, a literal (R39, R67). -/
abbrev DWord := BitVec 64

/-- A PC value: bits 0-56 the instruction address, bits 60-63 the code index of a DICT (R46). -/
abbrev PC := BitVec 64

/-- A mask with one bit for each of the 32 lanes of a warp. -/
abbrev Mask := BitVec 32

/-- The field of `len` bits of `x` from bit `lo` upward. -/
def bitsAt {n : Nat} (x : BitVec n) (lo len : Nat) : Nat := x.toNat / 2 ^ lo % 2 ^ len

/-- Bit `i` of `x`. -/
def bitAt {n : Nat} (x : BitVec n) (i : Nat) : Bool := x.getLsbD i

/-- The low word of a 64-bit value, which stands in the even register (R67). -/
def lo32 (x : DWord) : Word := x.extractLsb' 0 32

/-- The high word of a 64-bit value. -/
def hi32 (x : DWord) : Word := x.extractLsb' 32 32

/-- The 64-bit value whose low word is `lo` and whose high word is `hi` (R67). -/
def pair (lo hi : Word) : DWord := hi ++ lo

@[simp] theorem lo32_pair (lo hi : Word) : lo32 (pair lo hi) = lo := by
  refine BitVec.eq_of_getLsbD_eq fun i h => ?_
  have e : (pair lo hi).getLsbD i = _ := BitVec.getLsbD_append (x := hi) (y := lo) (i := i)
  simp [lo32, e, h]

@[simp] theorem hi32_pair (lo hi : Word) : hi32 (pair lo hi) = hi := by
  refine BitVec.eq_of_getLsbD_eq fun i h => ?_
  have e : (pair lo hi).getLsbD (32 + i) = _ := BitVec.getLsbD_append (x := hi) (y := lo) (i := 32 + i)
  simp [hi32, e, h]

end Sys2Proof
end

