-- ==== Sys2Proof/Config.lean ====
section
/-! DEFINITION. What the spec leaves open: free values without a body, so that nothing can be proved of the value that one
takes, and the fixed figures of the part. The first argument `n` of most of them is `State.free`, which names the values
of one step; the others say which of the step's values is meant. -/

namespace Sys2Proof.Config

/-- Which of the values that a register may show a read before the switch point returns (R52), for a lane and an operand
of the instruction. -/
opaque early (n lane operand : Nat) : Nat

/-- Whether the pending value, and not the later write, remains in a word or predicate that was written in between
(R52). -/
opaque clash (n lane word : Nat) : Bool

/-- A 32-bit value that the spec calls undefined: a destination after POISON, MATRIX_UE or a restore outside the liveness
(R168, R249, R365). -/
opaque anyWord (n lane word : Nat) : Word

/-- A byte that the spec calls undefined or torn: output ranges after a rollback, the layout of a save record, ranges of
failed copies (R312, R313, R343, R365). -/
opaque anyByte (n i : Nat) : Byte

/-- Whether a part of something that may or may not happen does: the performed pieces of a faulting access, the written
bytes of a failed copy entry, a prefetch (R241, R252, R313). -/
opaque anyBool (n i : Nat) : Bool

/-- The value of a scratchpad byte that its workgroup has not written, and that of one that a restore has left undefined
(R365, R416). -/
opaque scratchByte (wg losses offset : Nat) : Byte

/-- The device key: 512 bits, which the security engine alone knows (R238, R378); the value is taken modulo 2^512. -/
opaque deviceKey : Nat

/-- Whether a store, a load or an atomic of a lane stays with it for a while before it is performed (R235, R279). -/
opaque lingers (n lane : Nat) : Bool

/-- The firmware image passes its verification (R378). -/
opaque imageGood (n : Nat) : Bool

/-- The measurements of the firmware, and the signature of a report with the device identity key (R378). -/
opaque measurements : List Byte
opaque sign (report : List Byte) : List Byte

/-- The CRC-32 of a must-save range, of which the spec gives no polynomial (R368). -/
opaque crc32 (data : List Byte) : Word

/-- The scaling s of an MEXP whose norm is not finite (R213, R221). -/
opaque mexpScale (n lane : Nat) : Nat

/-- Which of the entries that a translation may use it uses (R240). -/
opaque tlbPick (n i : Nat) : Nat

/-- Order and grouping of a float combiner's sums: which two partial sums are added next (R265). -/
opaque combine (n i : Nat) : Nat

/-- The step that the device takes next of those it can take. -/
opaque next (n : Nat) : Nat

/-- Whether an outside agent acts before the device's own next step. -/
opaque agentActs (n : Nat) : Bool

/-- Nanoseconds that pass in a step in which the timestamp advances. -/
opaque elapsed (n : Nat) : Nat

/-- How far the timestamp of a die is ahead of the slowest one, at most 4 ns (R27); the value is taken modulo 5. -/
opaque skew (die : Nat) : Nat

/-- Which permitted die takes the next workgroup of a RESIDENT launch (R335). -/
opaque placeDie (n k : Nat) : Nat

/-- θ that the power controller of a die sets under a temperature or power limit (R344); taken modulo 257. -/
opaque theta (n die : Nat) : Nat

/-- The bits of FSFU.rsq, .exp2, .log2, .sin and .cos where the spec gives only a bound (R145): the part's one fixed
algorithm, as the sub-opcode and the operand. -/
opaque sfu (sub : Nat) (x : Word) : Word

/-- What the spec does not state of a solve: τ of a MEXP whose Q holds a NaN, and the elements and flags of a MEXP whose
norm overflows (R207, R221). -/
opaque solve (n lane i : Nat) : DWord

/-- An element of s64 or z64 that a tile pads: the spec gives no extension of the 32-bit pad value (R307). -/
opaque pad64 (ty : Nat) (pad : Word) : DWord

/-- Scale byte and codes of an NQ4 block whose scale S is a NaN, for which R78 gives no result. -/
opaque nanScale (n i : Nat) : Byte

/-- How far, in entries, the entry of capability `k` lies behind the one before it, and the body of the energy cost table
behind the last (R5, R7); a byte of the area that belongs to neither. -/
opaque capGap (k : Nat) : Nat
opaque capBody : Nat
opaque capFill (offset : Nat) : Byte

/-- The device's place in its scale-up domain, taken modulo 577; 576 stands for a device outside every domain (R23,
R383). -/
opaque domain : Nat

/-- The size of a workgroup record, taken modulo one more than its bound: the layout is private to the part (R365). -/
opaque recordLen (n wg : Nat) : Nat

/-- What Jasper's translation knows beside (R402): the exchanges whose product takes the native PC values of a context to the Nelrak-1
addresses that they stand for, and whether a Nelrak-1 address is the entry of a function of the context's image. -/
opaque swaps (ctx : Nat) : List (DWord × DWord)
opaque isEntry (ctx : Nat) (addr : DWord) : Bool

end Sys2Proof.Config
end

