-- ==== Sys2Proof/Syntax.lean ====
section
/-! DEFINITION. The steps of the device: every row of spec/opcode_table.json is one constructor of `Instr`.
Instruction rows carry what their words carry (R28-R39). A device step (95_what_each_step_holds.md) is
named by its row; what the outside agent or the unit that performs it chooses stands in an `Event`. -/

namespace Sys2Proof

/-- The fields that bits 2-6 of word 0 hold in every instruction: the guard and the switch marker (R29, R31). -/
structure Hdr where
  /-- Predicate number in bits 0-2, invert in bit 3. -/
  grd : BitVec 4
  /-- 1 makes the instruction a switch point (R49). -/
  sw : Bool
deriving DecidableEq, Repr

/-- The lengths an instruction with more than one word can have (R30). -/
inductive ExtLen where
  /-- len 01: words 0, 1 and 2. -/
  | x3
  /-- len 10: word 0 and a 64-bit literal. -/
  | lit3
  /-- len 11: words 0, 1 and 2 and a 64-bit literal. -/
  | x5
deriving DecidableEq, Repr

/-- The operand fields of a form of more than one word (R35, R38). In a len 10 form `d` and `a` hold d6 and a6 and the
other fields are 0. `mod` is bits 11-31 of word 2; in a len 11 form its top bit is lsel. `lit` is 0 in a len 01 form. -/
structure Ext where
  len : ExtLen
  d : BitVec 8
  a : BitVec 8
  b : BitVec 8
  c : BitVec 8
  sub : BitVec 8
  scope : BitVec 3
  mod : BitVec 21
  lit : DWord
deriving DecidableEq, Repr

namespace Ext

/-- The field of `len` bits of word 2 from its bit `lo` upward, for `lo` from 11 (R35). -/
def field (x : Ext) (lo len : Nat) : Nat := bitsAt x.mod (lo - 11) len

/-- Bit `i` of word 2, for `i` from 11. -/
def bit (x : Ext) (i : Nat) : Bool := bitAt x.mod (i - 11)

/-- Whether a literal replaces b8 (R38). -/
def litB (x : Ext) : Bool := x.len = .lit3 || (x.len = .x5 && !x.bit 31)

/-- Whether a literal replaces c8 (R38). -/
def litC (x : Ext) : Bool := x.len = .x5 && x.bit 31

/-- How many words the form has (R30). -/
def words (x : Ext) : Nat := if x.len = .x5 then 5 else 3

end Ext

/-- A host access through CXL.mem (R243). -/
inductive HostAccess where
  | read (len : Nat)
  | write (data : List Byte)
deriving DecidableEq, Repr

/-- What a pre-emption request covers (R364). -/
inductive PreemptTarget where
  | workgroup (wg : Nat)
  | context (ctx : Nat)
deriving DecidableEq, Repr

/-- What a debugger command covers (R373). -/
inductive DebugTarget where
  | warp (wk : Nat)
  | workgroup (wg : Nat)
deriving DecidableEq, Repr

/-- A change of a context's policy, vectors or wait limit (R354). -/
structure CtxUpdate where
  policyHalt : Bool
  trapVec : DWord
  pfailVec : DWord
  waitLimit : Word
deriving DecidableEq, Repr

/-- The window that a collective handle registers at one member (R375, R312). -/
structure HandleMember where
  domain : Nat
  ctx : Nat
  base : Nat
  len : Nat
deriving DecidableEq, Repr

/-- One step of the device: an instruction with the fields of its words, or a device step, whose particulars stand in
the `Event` that `State.event` holds (the constructors without arguments; a Lean type with more than 244 constructors
with arguments cannot be compiled, so the two are kept apart). -/
inductive Instr where
  /-- NOP (R114): No operation. -/
  | nop (h : Hdr)
  /-- BRA (R109): Relative branch of true-guard lanes to the target, splitting slices. -/
  | bra (h : Hdr) (off : BitVec 18)
  /-- BRA_LIT (R34): Branch to an absolute target held in a 64-bit literal. -/
  | braLit (h : Hdr) (target : DWord)
  /-- BRU (R109): Uniform relative branch that never splits a slice. -/
  | bru (h : Hdr) (off : BitVec 18)
  /-- BRU_LIT (R34): Uniform branch to an absolute literal target. -/
  | bruLit (h : Hdr) (target : DWord)
  /-- CALL (R110): Relative branch that writes the return PC value to the link pair. -/
  | call (h : Hdr) (off : BitVec 18)
  /-- CALL_LIT (R110): Call to an absolute literal target. -/
  | callLit (h : Hdr) (target : DWord)
  /-- BRX (R111): Per-lane branch to the PC value held in a w register. -/
  | brx (h : Hdr) (a : BitVec 6)
  /-- CALLX (R111): Per-lane call to the PC value in a w register, writing the link pair. -/
  | callx (h : Hdr) (a : BitVec 6)
  /-- RET (R111): Branch to the PC value in the link pair. -/
  | ret (h : Hdr)
  /-- EXIT (R113): True-guard lanes wait for pending results and become vacant. -/
  | exitItem (h : Hdr)
  /-- YIELD (R114): The arbiter passes over the path for the next 8 cycles. -/
  | yield (h : Hdr)
  /-- BRK (R115): Breakpoint stopping the warp for a debugger or the trap path. -/
  | brk (h : Hdr) (n : BitVec 5)
  /-- RGN (R116): Sets the region register to the next instruction's PC value. -/
  | rgn (h : Hdr)
  /-- PLOP (R117): Writes a predicate from a truth table of three predicates. -/
  | plop (h : Hdr) (x : Ext)
  /-- JSET (R118): Sets a join's expect mask and clears its arrived mask. -/
  | jset (h : Hdr) (x : Ext)
  /-- JARR (R119): Records the executing lanes' arrival at a join. -/
  | jarr (h : Hdr) (x : Ext)
  /-- JWAIT (R119): Parks the executing lanes at a join. -/
  | jwait (h : Hdr) (x : Ext)
  /-- JOIN (R119): Arrives at a join and parks there. -/
  | joinAt (h : Hdr) (x : Ext)
  /-- JGET (R120): Reads a join's expect or arrived mask. -/
  | jget (h : Hdr) (x : Ext)
  /-- VOTE_ANY (R122): Arrives at a vote giving whether any contributing lane's predicate is true. -/
  | voteAny (h : Hdr) (x : Ext)
  /-- VOTE_ALL (R122): Arrives at a vote giving whether all contributing lanes' predicates are true. -/
  | voteAll (h : Hdr) (x : Ext)
  /-- VOTE_UNI (R122): Arrives at a vote giving whether all contributing predicates are equal. -/
  | voteUni (h : Hdr) (x : Ext)
  /-- VOTE_BAL (R122): Arrives at a vote giving the mask of contributing lanes whose predicate is true. -/
  | voteBal (h : Hdr) (x : Ext)
  /-- SHFL_IDX (R123): Arrives at a shuffle reading an indexed lane of the segment. -/
  | shflIdx (h : Hdr) (x : Ext)
  /-- SHFL_UP (R123): Arrives at a shuffle reading a lane a distance below, rotating in the segment. -/
  | shflUp (h : Hdr) (x : Ext)
  /-- SHFL_DOWN (R123): Arrives at a shuffle reading a lane a distance above, rotating in the segment. -/
  | shflDown (h : Hdr) (x : Ext)
  /-- SHFL_XOR (R123): Arrives at a shuffle reading the lane at index XOR b. -/
  | shflXor (h : Hdr) (x : Ext)
  /-- MATCH (R124): Arrives at a match giving the mask of segment lanes holding the same value. -/
  | matchEq (h : Hdr) (x : Ext)
  /-- REDUX (R125): Arrives at an integer reduction across the contributing lanes of the segment. -/
  | redux (h : Hdr) (x : Ext)
  /-- IADD (R130): 32-bit add, base form. -/
  | iadd (h : Hdr) (d a b : BitVec 6)
  /-- IADD_EXT (R130): 32-bit add in extended or literal form, optionally saturating. -/
  | iaddExt (h : Hdr) (x : Ext)
  /-- ISUB (R130): 32-bit subtract, base form. -/
  | isub (h : Hdr) (d a b : BitVec 6)
  /-- ISUB_EXT (R130): 32-bit subtract in extended or literal form. -/
  | isubExt (h : Hdr) (x : Ext)
  /-- IADDC (R131): Add or subtract with carry predicate in and out. -/
  | iaddc (h : Hdr) (x : Ext)
  /-- IMUL (R130): Low 32 bits of a product, base form. -/
  | imul (h : Hdr) (d a b : BitVec 6)
  /-- IMUL_EXT (R130): Low product in extended or literal form. -/
  | imulExt (h : Hdr) (x : Ext)
  /-- IMULH (R130): High 32 bits of a signed product, base form. -/
  | imulh (h : Hdr) (d a b : BitVec 6)
  /-- IMULH_EXT (R130): High product in extended or literal form, signed or unsigned. -/
  | imulhExt (h : Hdr) (x : Ext)
  /-- IMAD (R130): Low 32 bits of a × b + c. -/
  | imad (h : Hdr) (x : Ext)
  /-- IMADW (R130): 64-bit widening multiply-add. -/
  | imadw (h : Hdr) (x : Ext)
  /-- IMIN (R130): Signed minimum, base form. -/
  | imin (h : Hdr) (d a b : BitVec 6)
  /-- IMIN_EXT (R130): Minimum in extended or literal form. -/
  | iminExt (h : Hdr) (x : Ext)
  /-- IMAX (R130): Signed maximum, base form. -/
  | imax (h : Hdr) (d a b : BitVec 6)
  /-- IMAX_EXT (R130): Maximum in extended or literal form. -/
  | imaxExt (h : Hdr) (x : Ext)
  /-- IABS (R130): Absolute value, base form. -/
  | iabs (h : Hdr) (d a : BitVec 6)
  /-- IABS_EXT (R130): Absolute value in extended form, optionally saturating. -/
  | iabsExt (h : Hdr) (x : Ext)
  /-- INEG (R130): Negation, base form. -/
  | ineg (h : Hdr) (d a : BitVec 6)
  /-- INEG_EXT (R130): Negation in extended form, optionally saturating. -/
  | inegExt (h : Hdr) (x : Ext)
  /-- AND (R130): Bitwise AND, base form. -/
  | andBase (h : Hdr) (d a b : BitVec 6)
  /-- AND_EXT (R130): Bitwise AND in extended or literal form. -/
  | andExt (h : Hdr) (x : Ext)
  /-- OR (R130): Bitwise OR, base form. -/
  | orBase (h : Hdr) (d a b : BitVec 6)
  /-- OR_EXT (R130): Bitwise OR in extended or literal form. -/
  | orExt (h : Hdr) (x : Ext)
  /-- XOR (R130): Bitwise XOR, base form. -/
  | xorBase (h : Hdr) (d a b : BitVec 6)
  /-- XOR_EXT (R130): Bitwise XOR in extended or literal form. -/
  | xorExt (h : Hdr) (x : Ext)
  /-- NOT (R130): Bitwise complement, base form. -/
  | notBase (h : Hdr) (d a : BitVec 6)
  /-- NOT_EXT (R130): Bitwise complement in extended form. -/
  | notExt (h : Hdr) (x : Ext)
  /-- LOP3 (R132): Bitwise function of three operands from a truth table. -/
  | lop3 (h : Hdr) (x : Ext)
  /-- SHL (R133): Left shift by an immediate count, base form. -/
  | shl (h : Hdr) (d a : BitVec 6) (n : BitVec 5)
  /-- SHL_EXT (R133): Left shift by an immediate or register count, extended form. -/
  | shlExt (h : Hdr) (x : Ext)
  /-- SHR (R133): Logical right shift by an immediate count, base form. -/
  | shr (h : Hdr) (d a : BitVec 6) (n : BitVec 5)
  /-- SHR_EXT (R133): Logical right shift, extended form. -/
  | shrExt (h : Hdr) (x : Ext)
  /-- SAR (R133): Arithmetic right shift by an immediate count, base form. -/
  | sar (h : Hdr) (d a : BitVec 6) (n : BitVec 5)
  /-- SAR_EXT (R133): Arithmetic right shift, extended form. -/
  | sarExt (h : Hdr) (x : Ext)
  /-- ROT (R133): Left rotate by an immediate count, base form. -/
  | rot (h : Hdr) (d a : BitVec 6) (n : BitVec 5)
  /-- ROT_EXT (R133): Left rotate, extended form. -/
  | rotExt (h : Hdr) (x : Ext)
  /-- SHF (R134): Funnel shift of a 64-bit value formed from two registers. -/
  | shf (h : Hdr) (x : Ext)
  /-- POPC (R130): Population count, base form. -/
  | popc (h : Hdr) (d a : BitVec 6)
  /-- POPC_EXT (R130): Population count, extended form. -/
  | popcExt (h : Hdr) (x : Ext)
  /-- CLZ (R130): Count leading zeros, base form. -/
  | clz (h : Hdr) (d a : BitVec 6)
  /-- CLZ_EXT (R130): Count leading zeros, extended form. -/
  | clzExt (h : Hdr) (x : Ext)
  /-- BREV (R130): Bit reverse, base form. -/
  | brev (h : Hdr) (d a : BitVec 6)
  /-- BREV_EXT (R130): Bit reverse, extended form. -/
  | brevExt (h : Hdr) (x : Ext)
  /-- BFE (R135): Bit-field extract. -/
  | bfe (h : Hdr) (x : Ext)
  /-- BFI (R135): Bit-field insert. -/
  | bfi (h : Hdr) (x : Ext)
  /-- ICMP (R136): Integer compare writing a predicate, optionally combined. -/
  | icmp (h : Hdr) (x : Ext)
  /-- ISEL (R137): Selects one of two operands by a predicate. -/
  | isel (h : Hdr) (x : Ext)
  /-- MOV (R137): Register copy, base form. -/
  | mov (h : Hdr) (d a : BitVec 6)
  /-- MOV_EXT (R137): Register or pair copy, extended form. -/
  | movExt (h : Hdr) (x : Ext)
  /-- MOVI (R137): Writes an immediate or literal into a register or pair. -/
  | movi (h : Hdr) (x : Ext)
  /-- LEA (R138): 64-bit address: base plus a scaled index. -/
  | lea (h : Hdr) (x : Ext)
  /-- IADD64 (R138): 64-bit add of two pairs, base form. -/
  | iadd64 (h : Hdr) (d a b : BitVec 6)
  /-- IADD64_EXT (R138): 64-bit add in extended or literal form. -/
  | iadd64Ext (h : Hdr) (x : Ext)
  /-- FADD (R141): FP32 add, base form. -/
  | fadd (h : Hdr) (d a b : BitVec 6)
  /-- FADD_EXT (R141): FP32 add with mode, saturation and sign modifiers. -/
  | faddExt (h : Hdr) (x : Ext)
  /-- FMUL (R141): FP32 multiply, base form. -/
  | fmul (h : Hdr) (d a b : BitVec 6)
  /-- FMUL_EXT (R141): FP32 multiply, extended or literal form. -/
  | fmulExt (h : Hdr) (x : Ext)
  /-- FFMA (R141): FP32 fused multiply-add. -/
  | ffma (h : Hdr) (x : Ext)
  /-- FMIN (R142): FP32 minimum, base form. -/
  | fmin (h : Hdr) (d a b : BitVec 6)
  /-- FMIN_EXT (R142): FP32 minimum, extended or literal form. -/
  | fminExt (h : Hdr) (x : Ext)
  /-- FMAX (R142): FP32 maximum, base form. -/
  | fmax (h : Hdr) (d a b : BitVec 6)
  /-- FMAX_EXT (R142): FP32 maximum, extended or literal form. -/
  | fmaxExt (h : Hdr) (x : Ext)
  /-- FCMP (R143): FP32 compare writing a predicate. -/
  | fcmp (h : Hdr) (x : Ext)
  /-- FRND (R144): Rounds FP32 to an integral value, base form. -/
  | frnd (h : Hdr) (d a : BitVec 6)
  /-- FRND_EXT (R144): Rounds FP32 to an integral value in a chosen mode. -/
  | frndExt (h : Hdr) (x : Ext)
  /-- FSFU_RCP (R145): FP32 reciprocal, correctly rounded. -/
  | fsfuRcp (h : Hdr) (x : Ext)
  /-- FSFU_RSQ (R145): FP32 reciprocal square root within 1 ulp. -/
  | fsfuRsq (h : Hdr) (x : Ext)
  /-- FSFU_SQRT (R145): FP32 square root, correctly rounded. -/
  | fsfuSqrt (h : Hdr) (x : Ext)
  /-- FSFU_EXP2 (R145): FP32 base-2 exponential within 2 ulp. -/
  | fsfuExp2 (h : Hdr) (x : Ext)
  /-- FSFU_LOG2 (R145): FP32 base-2 logarithm within 2 ulp. -/
  | fsfuLog2 (h : Hdr) (x : Ext)
  /-- FSFU_SIN (R145): FP32 sine within absolute 2^-21. -/
  | fsfuSin (h : Hdr) (x : Ext)
  /-- FSFU_COS (R145): FP32 cosine within absolute 2^-21. -/
  | fsfuCos (h : Hdr) (x : Ext)
  /-- DADD (R141): FP64 add, base form. -/
  | dadd (h : Hdr) (d a b : BitVec 6)
  /-- DADD_EXT (R141): FP64 add, extended or literal form. -/
  | daddExt (h : Hdr) (x : Ext)
  /-- DMUL (R141): FP64 multiply, base form. -/
  | dmul (h : Hdr) (d a b : BitVec 6)
  /-- DMUL_EXT (R141): FP64 multiply, extended or literal form. -/
  | dmulExt (h : Hdr) (x : Ext)
  /-- DFMA (R141): FP64 fused multiply-add. -/
  | dfma (h : Hdr) (x : Ext)
  /-- DMIN (R142): FP64 minimum, base form. -/
  | dmin (h : Hdr) (d a b : BitVec 6)
  /-- DMIN_EXT (R142): FP64 minimum, extended or literal form. -/
  | dminExt (h : Hdr) (x : Ext)
  /-- DMAX (R142): FP64 maximum, base form. -/
  | dmax (h : Hdr) (d a b : BitVec 6)
  /-- DMAX_EXT (R142): FP64 maximum, extended or literal form. -/
  | dmaxExt (h : Hdr) (x : Ext)
  /-- DCMP (R143): FP64 compare writing a predicate. -/
  | dcmp (h : Hdr) (x : Ext)
  /-- DSFU_RCP (R145): FP64 reciprocal, correctly rounded. -/
  | dsfuRcp (h : Hdr) (x : Ext)
  /-- DSFU_SQRT (R145): FP64 square root, correctly rounded. -/
  | dsfuSqrt (h : Hdr) (x : Ext)
  /-- HFMA2 (R146): Paired BF16 fused multiply-add. -/
  | hfma2 (h : Hdr) (x : Ext)
  /-- CVT (R85): Converts a value between type codes. -/
  | cvt (h : Hdr) (x : Ext)
  /-- PACK (R86): Converts consecutive registers and packs them into one word. -/
  | pack (h : Hdr) (x : Ext)
  /-- UNPK (R87): Unpacks and widens packed elements into consecutive registers. -/
  | unpk (h : Hdr) (x : Ext)
  /-- FCLASS (R88): Classifies a float into a class mask or predicate. -/
  | fclass (h : Hdr) (x : Ext)
  /-- HSET (R171): Writes a checked shape value and full row mask to a shape register. -/
  | hset (h : Hdr) (x : Ext)
  /-- HGET (R172): Reads a shape value, row mask or dense footprint. -/
  | hget (h : Hdr) (x : Ext)
  /-- HMOV (R173): Copies a shape register or sets its row mask. -/
  | hmov (h : Hdr) (x : Ext)
  /-- MZERO (R174): Writes zero to every element of a dense view. -/
  | mzero (h : Hdr) (x : Ext)
  /-- MFILL (R174): Fills a dense view, or its diagonal, with a scalar. -/
  | mfill (h : Hdr) (x : Ext)
  /-- MMOV (R175): Copies a view of matching shape. -/
  | mmov (h : Hdr) (x : Ext)
  /-- MLD (R177): Loads a view from scratchpad, optionally setting the row mask from a validity area. -/
  | mld (h : Hdr) (x : Ext)
  /-- MST (R178): Stores a view's admitted rows to scratchpad, optionally writing validity bits. -/
  | mst (h : Hdr) (x : Ext)
  /-- MEXT (R179): Extracts a block of a view. -/
  | mext (h : Hdr) (x : Ext)
  /-- MINS (R179): Inserts a view into a block of another. -/
  | mins (h : Hdr) (x : Ext)
  /-- MMA (R187): Per-lane D := C + A × B with pooled cells and checksums. -/
  | mma (h : Hdr) (x : Ext)
  /-- MMT (R187): Per-lane D := C + A × Bᵀ. -/
  | mmt (h : Hdr) (x : Ext)
  /-- MTM (R187): Per-lane D := C + Aᵀ × B. -/
  | mtm (h : Hdr) (x : Ext)
  /-- MMS (R189): Per-lane multiply of a packed N:M sparse A by a dense B. -/
  | mms (h : Hdr) (x : Ext)
  /-- MMG (R192): Gathered multiply through a scratchpad index block. -/
  | mmg (h : Hdr) (x : Ext)
  /-- MTRN (R193): Transposes a dense or t=1 packed view. -/
  | mtrn (h : Hdr) (x : Ext)
  /-- MEW_ADD (R194): Elementwise add of two views. -/
  | mewAdd (h : Hdr) (x : Ext)
  /-- MEW_SUB (R194): Elementwise subtract of two views. -/
  | mewSub (h : Hdr) (x : Ext)
  /-- MEW_MUL (R194): Elementwise multiply of two views. -/
  | mewMul (h : Hdr) (x : Ext)
  /-- MEW_MAX (R194): Elementwise maximum of two views. -/
  | mewMax (h : Hdr) (x : Ext)
  /-- MEW_MIN (R194): Elementwise minimum of two views. -/
  | mewMin (h : Hdr) (x : Ext)
  /-- MEW_SCALE (R194): Multiplies every element of a view by a scalar. -/
  | mewScale (h : Hdr) (x : Ext)
  /-- MRED_ROW (R195): Reduces each admitted row of a view. -/
  | mredRow (h : Hdr) (x : Ext)
  /-- MRED_COL (R195): Reduces each column over admitted rows. -/
  | mredCol (h : Hdr) (x : Ext)
  /-- MRED_ALL (R195): Reduces all admitted elements to one. -/
  | mredAll (h : Hdr) (x : Ext)
  /-- MPRN (R196): Prunes a dense view into a packed N:M tile. -/
  | mprn (h : Hdr) (x : Ext)
  /-- MTOPK (R201): Merges a block of scores into a running top-k state. -/
  | mtopk (h : Hdr) (x : Ext)
  /-- MGNORM (R203): Renormalises the gate weights of a top-k state. -/
  | mgnorm (h : Hdr) (x : Ext)
  /-- MLU (R215): LU factorisation with partial pivoting and a pivot vector. -/
  | mlu (h : Hdr) (x : Ext)
  /-- MCHOL (R216): Cholesky factorisation from the lower triangle. -/
  | mchol (h : Hdr) (x : Ext)
  /-- MQR (R217): Householder QR factorisation. -/
  | mqr (h : Hdr) (x : Ext)
  /-- MTRS (R218): Triangular solve. -/
  | mtrs (h : Hdr) (x : Ext)
  /-- MSOLV (R219): General solve, factoring A or using an MLU result. -/
  | msolv (h : Hdr) (x : Ext)
  /-- MINV (R220): Matrix inverse. -/
  | minv (h : Hdr) (x : Ext)
  /-- MEXP (R221): Matrix exponential by scaled Padé approximation. -/
  | mexp (h : Hdr) (x : Ext)
  /-- MPOW (R222): Integer matrix power by binary powering. -/
  | mpow (h : Hdr) (x : Ext)
  /-- LD (R247): 32-bit relaxed global load, base form. -/
  | ld (h : Hdr) (d a i : BitVec 6)
  /-- LD_EXT (R247): Global load of any size, ordering, hint and index. -/
  | ldExt (h : Hdr) (x : Ext)
  /-- ST (R247): 32-bit relaxed global store, base form. -/
  | st (h : Hdr) (d a i : BitVec 6)
  /-- ST_EXT (R247): Global store of any size, ordering, hint and index. -/
  | stExt (h : Hdr) (x : Ext)
  /-- LDS (R247): 32-bit relaxed scratchpad load, base form. -/
  | lds (h : Hdr) (d a i : BitVec 6)
  /-- LDS_EXT (R247): Scratchpad or cluster load of any size and ordering. -/
  | ldsExt (h : Hdr) (x : Ext)
  /-- STS (R247): 32-bit relaxed scratchpad store, base form. -/
  | sts (h : Hdr) (d a i : BitVec 6)
  /-- STS_EXT (R247): Scratchpad or cluster store of any size and ordering. -/
  | stsExt (h : Hdr) (x : Ext)
  /-- TAGL (R251): Looks up a key in the tag region. -/
  | tagl (h : Hdr) (x : Ext)
  /-- TAGI (R251): Installs a key in the tag region, returning the victim's key. -/
  | tagi (h : Hdr) (x : Ext)
  /-- TAGE (R251): Evicts or unpins a tag slot by key or slot number. -/
  | tage (h : Hdr) (x : Ext)
  /-- PREF (R252): Asks the die L2 to prefetch lines. -/
  | pref (h : Hdr) (x : Ext)
  /-- ATOM_ADD (R258): Global atomic add returning the old value. -/
  | atomAdd (h : Hdr) (x : Ext)
  /-- ATOM_MIN (R258): Global atomic minimum. -/
  | atomMin (h : Hdr) (x : Ext)
  /-- ATOM_MAX (R258): Global atomic maximum. -/
  | atomMax (h : Hdr) (x : Ext)
  /-- ATOM_AND (R258): Global atomic AND. -/
  | atomAnd (h : Hdr) (x : Ext)
  /-- ATOM_OR (R258): Global atomic OR. -/
  | atomOr (h : Hdr) (x : Ext)
  /-- ATOM_XOR (R258): Global atomic XOR. -/
  | atomXor (h : Hdr) (x : Ext)
  /-- ATOM_EXCH (R258): Global atomic exchange. -/
  | atomExch (h : Hdr) (x : Ext)
  /-- ATOM_CAS (R258): Global atomic compare-and-swap. -/
  | atomCas (h : Hdr) (x : Ext)
  /-- ATOMS_ADD (R258): Scratchpad atomic add. -/
  | atomsAdd (h : Hdr) (x : Ext)
  /-- ATOMS_MIN (R258): Scratchpad atomic minimum. -/
  | atomsMin (h : Hdr) (x : Ext)
  /-- ATOMS_MAX (R258): Scratchpad atomic maximum. -/
  | atomsMax (h : Hdr) (x : Ext)
  /-- ATOMS_AND (R258): Scratchpad atomic AND. -/
  | atomsAnd (h : Hdr) (x : Ext)
  /-- ATOMS_OR (R258): Scratchpad atomic OR. -/
  | atomsOr (h : Hdr) (x : Ext)
  /-- ATOMS_XOR (R258): Scratchpad atomic XOR. -/
  | atomsXor (h : Hdr) (x : Ext)
  /-- ATOMS_EXCH (R258): Scratchpad atomic exchange. -/
  | atomsExch (h : Hdr) (x : Ext)
  /-- ATOMS_CAS (R258): Scratchpad atomic compare-and-swap. -/
  | atomsCas (h : Hdr) (x : Ext)
  /-- RED_ADD (R263): Fire-and-forget far reduction add. -/
  | redAdd (h : Hdr) (x : Ext)
  /-- RED_MIN (R263): Far reduction minimum. -/
  | redMin (h : Hdr) (x : Ext)
  /-- RED_MAX (R263): Far reduction maximum. -/
  | redMax (h : Hdr) (x : Ext)
  /-- RED_AND (R263): Far reduction AND. -/
  | redAnd (h : Hdr) (x : Ext)
  /-- RED_OR (R263): Far reduction OR. -/
  | redOr (h : Hdr) (x : Ext)
  /-- RED_XOR (R263): Far reduction XOR. -/
  | redXor (h : Hdr) (x : Ext)
  /-- FENCE (R267): Orders the lane's accesses and REDs at a scope. -/
  | fence (h : Hdr) (x : Ext)
  /-- BAR_ARRIVE (R270): Records a barrier arrival as a release and goes on. -/
  | barArrive (h : Hdr) (x : Ext)
  /-- BAR_WAIT (R270): Parks until the phase of the lane's last arrival completes. -/
  | barWait (h : Hdr) (x : Ext)
  /-- BAR_SYNC (R270): Arrives at a barrier and then waits. -/
  | barSync (h : Hdr) (x : Ext)
  /-- WAITV (R274): Parks lanes re-reading a location with acquire loads until a condition holds. -/
  | waitv (h : Hdr) (x : Ext)
  /-- DCADD (R277): Adds a value once to a dependence counter as a release at .wg. -/
  | dcadd (h : Hdr) (x : Ext)
  /-- DCWAIT (R278): Parks lanes until a dependence counter holds 0. -/
  | dcwait (h : Hdr) (x : Ext)
  /-- CPYQ (R315): Writes one copy entry per executing lane and advances the queue tail as a release. -/
  | cpyq (h : Hdr) (x : Ext)
  /-- CPYF (R316): Writes a QFENCE entry joining named queues. -/
  | cpyf (h : Hdr) (x : Ext)
  /-- CPYS (R317): Reads queue state, or with .clr returns and clears the err word and stopped bit. -/
  | cpys (h : Hdr) (x : Ext)
  /-- LAUNCH (R352): Writes a 64-byte packet into a launch queue and advances write_idx as a release at .sy. -/
  | launch (h : Hdr) (x : Ext)
  /-- REFILL (R348): Fills eligible vacant lanes with the die's next identifiers and marks them in a predicate. -/
  | refill (h : Hdr) (x : Ext)
  /-- REGRP (R350): Arrives at a workgroup-wide regrouping of items by key. -/
  | regrp (h : Hdr) (x : Ext)
  /-- SIGWAKE (R353): ORs a value into a queue's wake register and posts a soft-interrupt record. -/
  | sigwake (h : Hdr) (x : Ext)
  /-- SIGWAKE_MB (R353): Posts a value to Jasper's mailbox on the issuing die. -/
  | sigwakeMb (h : Hdr) (x : Ext)
  /-- TRAP (R379): Raises SWTRAP with a code for the executing lanes. -/
  | trap (h : Hdr) (x : Ext)
  /-- TRET (R380): Parks handler lanes until the warp resumes at the cause's resumption point or a given PC. -/
  | tret (h : Hdr) (x : Ext)
  /-- PPOINT (R381): Pre-emption point that stops lanes with the given liveness when a request is pending. -/
  | ppoint (h : Hdr) (lit : DWord)
  /-- SRD (R382): Reads a special register. -/
  | srd (h : Hdr) (x : Ext)
  /-- SWR (R382): Replaces %fst or %slv. -/
  | swr (h : Hdr) (x : Ext)
  /-- CAPQ (R383): Reads a capability-area word, the domain index or the ISA revision and stepping. -/
  | capq (h : Hdr) (x : Ext)
  /-- PFDONE (R384): In a PFAIL handler, releases at .dv and parks the lane for good. -/
  | pfdone (h : Hdr) (x : Ext)
  /-- DICT (R46): Issues five or nine dictionary entries from 16-bit codes in ascending order. -/
  | dict (codes : List (BitVec 16))
  /-- ISSUE_ARBITRATION (R346): Each cycle a quarter's arbiter picks one candidate gang by override, priority class and energy bucket, deducts its charge and updates wait counts. -/
  | issueArbitration
  /-- WARP_WIDE_ISSUE (R103): A warp-wide instruction or REGRP issues from the park state in a full or partial issue once its members are parked or stuck. -/
  | warpWideIssue
  /-- PENDING_RESULT_WRITE (R49): A variable-latency result (register, predicate or %fst bit) returns and is written into the lane. -/
  | pendingResultWrite
  /-- CHAIN_DRAIN (R167): When a multiply chain ends, its row and column checksums are compared against the destination. -/
  | chainDrain
  /-- TRAP_DELIVERY (R358): After a trap cause, once pending results are written and chains drained, the warp stops, the frame is written and the masked lanes run the handler at trap_vec. -/
  | trapDelivery
  /-- PAGE_FAULT_RESOLUTION (R241): Jasper resolves a translation fault and the faulting path re-executes from its lanes' region entries, or the fault is delivered. -/
  | pageFaultResolution
  /-- OWNERSHIP_MIGRATION (R242): On OWNERSHIP, Jasper asks the host to release the page, sets own 0, invalidates its TLB entries and lets the path re-execute. -/
  | ownershipMigration
  /-- HOST_PAGE_REQUEST (R243): At the host's request Jasper waits until all device accesses to a page are performed and written back, then sets own to 1. -/
  | hostPageRequest
  /-- HOST_MEM_ACCESS (R243): A host CXL.mem access to a device page is performed at the home if pinned, or poisoned/dropped with a Jasper event if unpinned. -/
  | hostMemAccess
  /-- TLB_INVALIDATE (R240): A Jasper invalidation command for a range completes once every access that used the old entry has been performed. -/
  | tlbInvalidate
  /-- WAITV_RELEASE (R274): A lane parked at WAITV leaves its loop when an acquire re-read finds the condition true. -/
  | waitvRelease
  /-- WATCHDOG (R275): A lane's wait at BAR or WAITV reaching the context's wait limit makes the warp take the WATCHDOG trap. -/
  | watchdog
  /-- RED_APPLY (R263): A near-memory reduction unit decrypts the line, applies an accepted RED atomically, re-encrypts and writes it back. -/
  | redApply
  /-- ENERGY_REFILL (R344): Every 1 µs the die power controller adds refill_max × θ / 256 to each core's energy bucket, capped at bucket_cap. -/
  | energyRefill
  /-- CHUNK_CLAIM (R20): A die claims the next chunk of 4,096 consecutive identifiers from the launch's hub counter. -/
  | chunkClaim
  /-- WORKGROUP_PLACEMENT (R333): A die distributor places a workgroup of a launch on the first fitting core of the lowest fitting cluster and its warps on quarters. -/
  | workgroupPlacement
  /-- DICTIONARY_LOAD (R45): A core loads a launch's dictionary into a bank before the workgroup's first instruction, or completes the launch with DICT_BAD. -/
  | dictionaryLoad
  /-- WARP_REFILL (R338): A wholly vacant warp is refilled with a 32-aligned block of identifiers and starts at the refill entry. -/
  | warpRefill
  /-- WORKGROUP_RETIRE (R339): A workgroup retires when all its warps have left, its queues are drained and its REDs accepted, freeing core resources. -/
  | workgroupRetire
  /-- LAUNCH_COMPLETION (R332): A launch completes once its items have exited, its workgroups retired and its REDs applied, and its completion record is written. -/
  | launchCompletion
  /-- LAUNCH_SIGNAL (R331): After the record write is acknowledged the launch's signal is performed as a release at .sy. -/
  | launchSignal
  /-- EVENT_RECORD_POST (R323): A 32-byte event record is written to a queue's event ring once the ring has room. -/
  | eventRecordPost
  /-- DISPENSER_CLOSE (R338): Jasper closes a launch's dispenser so every later request finds no identifier. -/
  | dispenserClose
  /-- DOORBELL (R327): A host write of write_idx is compared with read_idx and lets the queue processor parse new packets. -/
  | doorbell
  /-- QUEUE_ENABLE (R320): A host write of state 0 to a disabled queue checks its configuration and makes it running, or leaves it disabled with QUEUE_CFG. -/
  | queueEnable
  /-- QUEUE_RESTART (R320): A host write of state 0 to a stopped queue clears err and resumes parsing at read_idx. -/
  | queueRestart
  /-- WAKE_CLEAR (R319): A host write of 0 to a queue's wake register clears its soft-interrupt bits. -/
  | wakeClear
  /-- REGISTER_WRITE (R320): A host write to a queue-window field without its own behaviour, such as ring_base, ev_base or ev_read, is taken or ignored by queue state. -/
  | registerWrite
  /-- TICK_GENERATOR_COMMIT (R322): A host write of a generator's period commits start and period, refusing periods 1–999 and stopping it at 0. -/
  | tickGeneratorCommit
  /-- TICK (R321): A tick generator reaches a boundary, a hub event that starts waiting tick packets and posts tick records. -/
  | tick
  /-- TICKWAIT_COMPLETE (R326): A TICKWAIT completes at its count-th boundary, or on a non-zero wake which it reads and clears. -/
  | tickwaitComplete
  /-- LAUNCH_PACKET (R326): A LAUNCH packet starts: its header is read and checked and the launch begins or completes at once with a refusal status. -/
  | launchPacket
  /-- FENCE_PACKET (R326): A FENCE packet starts and holds back later packets while its conditions are read as acquire loads. -/
  | fencePacket
  /-- FENCE_PACKET_COMPLETE (R326): A FENCE packet completes when every one of its conditions has been seen to hold. -/
  | fencePacketComplete
  /-- SIGNAL_PACKET (R326): A SIGNAL packet performs its store or atomic add as a release at .sy after all earlier packets complete. -/
  | signalPacket
  /-- TICKWAIT_PACKET (R326): A TICKWAIT packet starts counting boundaries of the bound generator and holds back later packets. -/
  | tickwaitPacket
  /-- GRAPH_PACKET (R341): A GRAPH packet gives the task-graph walker its root nodes. -/
  | graphPacket
  /-- KERNEL_NODE (R341): A ready KERNEL node is started as a LAUNCH with its header and record. -/
  | kernelNode
  /-- COPY_NODE (R342): A ready COPY node's entry is checked and performed by a chosen copy engine, its status written to rec. -/
  | copyNode
  /-- SIGNAL_NODE (R341): A ready SIGNAL node stores its value as a release at .sy. -/
  | signalNode
  /-- NODE_COMPLETE (R341): On a node's completion the walker decrements each successor's dep and readies those that reach 0, completing the graph when all reached nodes are done. -/
  | nodeComplete
  /-- NODE_ROLLBACK (R343): On a containment cause an idem node with retries left is stopped, its outputs unpublished and rerun; otherwise its context is killed. -/
  | nodeRollback
  /-- TLOAD (R307): A copy entry loads a clipped, padded tensor tile into scratchpad, expanding its storage format and writing validity bits. -/
  | tload
  /-- TSTORE (R307): A copy entry packs a scratchpad tile into its storage format and writes its in-range elements to the tensor. -/
  | tstore
  /-- LCOPY (R310): A copy entry copies a byte count between global memory and scratchpad in the direction its mode gives. -/
  | lcopy
  /-- GATHER (R307): A copy entry loads tensor rows named by an index list into a scratchpad tile. -/
  | gather
  /-- SCATTER (R307): A copy entry stores tile rows to the tensor rows named by an index list. -/
  | scatter
  /-- FILL (R310): A copy entry writes a 32-bit pattern across a byte count in scratchpad or global memory. -/
  | fill
  /-- HINT_L2 (R311): A HINT entry in mode 0 asks the die L2 to fetch lines as PREF does. -/
  | hintL2
  /-- HINT_TAG (R311): A HINT entry in mode 1 checks a tag slot's key and copies global bytes into the slot, or completes STALE. -/
  | hintTag
  /-- RCOPY_PUT (R312): An RCOPY entry in mode 0 moves local bytes into a peer's registered window. -/
  | rcopyPut
  /-- RCOPY_GET (R312): An RCOPY entry in mode 1 moves bytes from a peer's registered window to local memory. -/
  | rcopyGet
  /-- QFENCE (R312): A QFENCE entry holds its queue until each named queue's done count reaches its recorded tail. -/
  | qfence
  /-- COPY_ENTRY_COMPLETE (R299): A copy entry completes: last_bytes and err are set, its counter decremented, its event record written and the done count advanced. -/
  | copyEntryComplete
  /-- COPY_ENTRY_SKIP (R300): An entry taken from a stopped queue completes at once with SKIPPED, still decrementing its counter and writing its record. -/
  | copyEntrySkip
  /-- PREEMPT_REQUEST (R364): Jasper issues a pre-emption request and the covered warps stop at PPOINTs or where they wait. -/
  | preemptRequest
  /-- PREEMPT_TIMEOUT (R364): If a workgroup is not saved within 200 µs of the request, its running warps stop at the next instruction boundary with full liveness. -/
  | preemptTimeout
  /-- WORKGROUP_SAVE (R365): When all warps are ready, the save engine writes the workgroup's state into the context's save area. -/
  | workgroupSave
  /-- WORKGROUP_RESTORE (R366): A saved workgroup is restored on a fitting core and its lanes continue where they stopped. -/
  | workgroupRestore
  /-- PFAIL (R367): Opal detects loss of supply; the hub numbers PFAIL, packets and dispensers stop, and handler gangs start at pfail_vec. -/
  | pfail
  /-- PFAIL_WINDOW_CLOSE (R367): 20 µs after PFAIL, or when every handler warp has finished, issue stops device-wide. -/
  | pfailWindowClose
  /-- QUIESCE (R368): After issue stops, stores reach their homes, accepted REDs are applied and started copy entries complete. -/
  | quiesce
  /-- KEEP_SAVE (R368): After quiescing, the save engine writes must-save ranges, CRCs, commit words and queue read_idx values to the keep store. -/
  | keepSave
  /-- POWER_UP (R378): At power-up firmware images are verified, key 0 is loaded and numbering and timestamp start. -/
  | powerUp
  /-- WARM_RESET (R372): An uncorrectable shared-structure error or host request kills implicated contexts, saves the others and resets the dies. -/
  | warmReset
  /-- CONTEXT_CREATE (R354): Jasper checks a context descriptor and creates the context, or fails with a status. -/
  | contextCreate
  /-- CONTEXT_DESTROY (R320): A context is destroyed; its queues end their started packets and become disabled. -/
  | contextDestroy
  /-- CONTEXT_UPDATE (R354): Jasper changes a context's policy, vectors or wait limit, effective at each warp's next stop. -/
  | contextUpdate
  /-- LOAD_TABLE (R82): Jasper reads, checks and installs a compand table for a context, or refuses with COMPAND_BAD. -/
  | loadTable
  /-- KEY_LOAD (R378): A host command loads a memory key with a key id from 1 to 4,095 into the security engine. -/
  | keyLoad
  /-- COLLECTIVE_HANDLE_CREATE (R375): Jasper creates a collective handle registering a window at each member context. -/
  | collectiveHandleCreate
  /-- PEER_RECOVERING (R375): The fabric marks a peer RECOVERING while its link recovers, stalling transfers on the handle. -/
  | peerRecovering
  /-- TOKEN_RETRANSMIT (R376): A token not acknowledged is retransmitted and the receiver suppresses duplicates. -/
  | tokenRetransmit
  /-- DEBUG_HALT (R373): A debugger halts a warp or workgroup, stopping it with a frame marked as a debugger stop. -/
  | debugHalt
  /-- DEBUG_RESUME (R373): A debugger resumes a halted warp or workgroup. -/
  | debugResume
  /-- DEBUG_STEP (R373): A debugger single-steps one path by one instruction while the warp's other paths stay stopped. -/
  | debugStep
  /-- HALTED_WARP_RESUME (R360): A host command through Jasper resumes a warp halted by the HALT policy. -/
  | haltedWarpResume
  /-- DRAIN (R403): Jasper closes a context's dispensers, lets running work finish and writes a drain report of undispensed identifiers. -/
  | drain
  /-- TRANSLATION_CLAIM (R402): A warp entering an unpublished Nelrak-1 function stops and its Jasper claims the binding slot or parks the warp. -/
  | translationClaim
  /-- TRANSLATION_PUBLISH (R402): The claiming Jasper publishes the translated native address, releasing parked warps, or marks the function failed. -/
  | translationPublish
  /-- PEER_LOST (R377): An abort of a collective handle arrives over the fabric because a member context on another device was killed; pending RCOPYs on the handle complete with PEER_LOST and later ones with HANDLE_BAD. -/
  | peerLost
  /-- PEER_RECOVERED (R375): A peer's link finishes recovering, the peer leaves the RECOVERING state, stalled transfers on the handle resume and wait-limit counts start again. -/
  | peerRecovered
  /-- TOKEN_RECEIVED (R376): A token of a peer's RCOPY put or get reaches this device's registered window; it is performed once, with duplicates suppressed by token tag, and acknowledged. -/
  | tokenReceived
  /-- HOST_KILL_COMMAND (R360): A host command through Jasper kills a context, for example one whose warp was halted by policy. -/
  | hostKillCommand
  /-- DEBUGGER_ATTACH (R373): A debugger is attached through Jasper, so that BRK stops and halts go to it instead of the trap path. -/
  | debuggerAttach
  /-- DRAINED_LAUNCH (R403): On the receiving device Jasper starts a drained launch from its header, with the dispenser restricted to the reported ranges, once the source's record and signal are done. -/
  | drainedLaunch
deriving DecidableEq, Repr

/-- What another device has drained and this one takes up (R403): the LAUNCH packet at an index of a queue; a KERNEL node of a graph that this
device has taken up; or the GRAPH packet at an index of a queue, with its ready nodes and those of which a launch is still to come. -/
inductive Drained where
  | packet (queue : Nat) (idx : Word)
  | node (graph : Nat) (node : DWord)
  | graph (queue : Nat) (idx : Word) (ready rest : List DWord)
deriving DecidableEq, Repr

/-- The unit whose uncorrectable error starts a warm reset, if one does (R371). -/
inductive FailUnit where
  /-- An L2 tag, a TLB or the sequencer of a die. -/
  | l2 (die : Nat)
  | tlb (die : Nat)
  | sequencer (die : Nat)
  | hub
  /-- No unit has failed: the host has asked for the reset. -/
  | host
deriving DecidableEq, Repr

/-- A device step that is about to happen, with what the outside agent or the unit that performs it chooses. Warps are
named by their hardware position, the trap-frame index of R359; cores by die × 48 + core; launches, workgroups, contexts
and graphs by the numbers the model gives them when they start. -/
inductive Event where
  /-- ISSUE_ARBITRATION (R346) -/
  | issueArbitration (core quarter : Nat)
  /-- WARP_WIDE_ISSUE (R103) -/
  | warpWideIssue (wk : Nat) (pc : PC)
  /-- PENDING_RESULT_WRITE (R49) -/
  | pendingResultWrite (wk lane idx : Nat)
  /-- CHAIN_DRAIN (R167) -/
  | chainDrain (wk lane : Nat)
  /-- TRAP_DELIVERY (R358) -/
  | trapDelivery (wk : Nat)
  /-- PAGE_FAULT_RESOLUTION (R241) -/
  | pageFaultResolution (wk : Nat) (fix : Option (Nat × DWord))
  /-- OWNERSHIP_MIGRATION (R242) -/
  | ownershipMigration (wk : Nat) (released : Bool)
  /-- HOST_PAGE_REQUEST (R243) -/
  | hostPageRequest (ctx : Nat) (va : DWord)
  /-- HOST_MEM_ACCESS (R243) -/
  | hostMemAccess (ctx : Nat) (va : DWord) (acc : HostAccess)
  /-- TLB_INVALIDATE (R240) -/
  | tlbInvalidate (ctx lo hi : Nat)
  /-- WAITV_RELEASE (R274) -/
  | waitvRelease (wk lane : Nat)
  /-- WATCHDOG (R275) -/
  | watchdog (wk : Nat)
  /-- RED_APPLY (R263) -/
  | redApply (idx : Nat)
  /-- ENERGY_REFILL (R344) -/
  | energyRefill (die : Nat)
  /-- CHUNK_CLAIM (R20) -/
  | chunkClaim (launch die : Nat)
  /-- WORKGROUP_PLACEMENT (R333) -/
  | workgroupPlacement (launch die : Nat)
  /-- DICTIONARY_LOAD (R45) -/
  | dictionaryLoad (launch core : Nat)
  /-- WARP_REFILL (R338) -/
  | warpRefill (wk : Nat)
  /-- WORKGROUP_RETIRE (R339) -/
  | workgroupRetire (wg : Nat)
  /-- LAUNCH_COMPLETION (R332) -/
  | launchCompletion (launch : Nat)
  /-- LAUNCH_SIGNAL (R331) -/
  | launchSignal (launch : Nat)
  /-- EVENT_RECORD_POST (R323) -/
  | eventRecordPost (queue : Nat)
  /-- DISPENSER_CLOSE (R338) -/
  | dispenserClose (launch : Nat)
  /-- DOORBELL (R327) -/
  | doorbell (queue : Nat) (val : Word)
  /-- QUEUE_ENABLE (R320) -/
  | queueEnable (queue : Nat) (val : Word)
  /-- QUEUE_RESTART (R320) -/
  | queueRestart (queue : Nat) (val : Word)
  /-- WAKE_CLEAR (R319) -/
  | wakeClear (queue : Nat)
  /-- REGISTER_WRITE (R320) -/
  | registerWrite (queue off : Nat) (wide : Bool) (val : DWord)
  /-- TICK_GENERATOR_COMMIT (R322) -/
  | tickGeneratorCommit (gen : Nat) (start : DWord) (period : Word)
  /-- TICK (R321) -/
  | tick (gen : Nat)
  /-- TICKWAIT_COMPLETE (R326) -/
  | tickwaitComplete (queue : Nat)
  /-- LAUNCH_PACKET (R326) -/
  | launchPacket (queue : Nat)
  /-- FENCE_PACKET (R326) -/
  | fencePacket (queue : Nat)
  /-- FENCE_PACKET_COMPLETE (R326) -/
  | fencePacketComplete (queue : Nat)
  /-- SIGNAL_PACKET (R326) -/
  | signalPacket (queue : Nat)
  /-- TICKWAIT_PACKET (R326) -/
  | tickwaitPacket (queue : Nat)
  /-- GRAPH_PACKET (R341) -/
  | graphPacket (queue : Nat)
  /-- KERNEL_NODE (R341) -/
  | kernelNode (graph : Nat) (node : DWord)
  /-- COPY_NODE (R342) -/
  | copyNode (graph : Nat) (node : DWord)
  /-- SIGNAL_NODE (R341) -/
  | signalNode (graph : Nat) (node : DWord)
  /-- NODE_COMPLETE (R341) -/
  | nodeComplete (graph : Nat) (node : DWord)
  /-- NODE_ROLLBACK (R343) -/
  | nodeRollback (launch : Nat)
  /-- TLOAD (R307) -/
  | tload (wg q : Nat)
  /-- TSTORE (R307) -/
  | tstore (wg q : Nat)
  /-- LCOPY (R310) -/
  | lcopy (wg q : Nat)
  /-- GATHER (R307) -/
  | gather (wg q : Nat)
  /-- SCATTER (R307) -/
  | scatter (wg q : Nat)
  /-- FILL (R310) -/
  | fill (wg q : Nat)
  /-- HINT_L2 (R311) -/
  | hintL2 (wg q : Nat)
  /-- HINT_TAG (R311) -/
  | hintTag (wg q : Nat)
  /-- RCOPY_PUT (R312) -/
  | rcopyPut (wg q : Nat)
  /-- RCOPY_GET (R312) -/
  | rcopyGet (wg q : Nat) (data : List Byte)
  /-- QFENCE (R312) -/
  | qfence (wg q : Nat)
  /-- COPY_ENTRY_COMPLETE (R299) -/
  | copyEntryComplete (wg q : Nat)
  /-- COPY_ENTRY_SKIP (R300) -/
  | copyEntrySkip (wg q : Nat)
  /-- PREEMPT_REQUEST (R364) -/
  | preemptRequest (target : PreemptTarget)
  /-- PREEMPT_TIMEOUT (R364) -/
  | preemptTimeout (wg : Nat)
  /-- WORKGROUP_SAVE (R365) -/
  | workgroupSave (wg : Nat)
  /-- WORKGROUP_RESTORE (R366) -/
  | workgroupRestore (wg core : Nat)
  /-- PFAIL (R367) -/
  | pfail
  /-- PFAIL_WINDOW_CLOSE (R367) -/
  | pfailWindowClose
  /-- QUIESCE (R368) -/
  | quiesce
  /-- KEEP_SAVE (R368) -/
  | keepSave
  /-- POWER_UP (R378) -/
  | powerUp
  /-- WARM_RESET (R372) -/
  | warmReset (unit : FailUnit)
  /-- CONTEXT_CREATE (R354) -/
  | contextCreate (desc : List Byte) (queues : List Nat)
  /-- CONTEXT_DESTROY (R320) -/
  | contextDestroy (ctx : Nat)
  /-- CONTEXT_UPDATE (R354) -/
  | contextUpdate (ctx : Nat) (upd : CtxUpdate)
  /-- LOAD_TABLE (R82) -/
  | loadTable (ctx table : Nat) (addr : DWord)
  /-- KEY_LOAD (R378) -/
  | keyLoad (key : Nat) (ctx : Nat) (bits : Nat)
  /-- COLLECTIVE_HANDLE_CREATE (R375) -/
  | collectiveHandleCreate (handle : Nat) (members : List HandleMember)
  /-- PEER_RECOVERING (R375) -/
  | peerRecovering (peer : Nat)
  /-- TOKEN_RETRANSMIT (R376) -/
  | tokenRetransmit (handle token : Nat)
  /-- DEBUG_HALT (R373) -/
  | debugHalt (target : DebugTarget)
  /-- DEBUG_RESUME (R373) -/
  | debugResume (target : DebugTarget)
  /-- DEBUG_STEP (R373) -/
  | debugStep (wk : Nat) (pc : PC)
  /-- HALTED_WARP_RESUME (R360) -/
  | haltedWarpResume (wk : Nat)
  /-- DRAIN (R403) -/
  | drain (ctx : Nat)
  /-- TRANSLATION_CLAIM (R402) -/
  | translationClaim (wk : Nat) (slot : DWord)
  /-- TRANSLATION_PUBLISH (R402) -/
  | translationPublish (die ctx : Nat) (slot : DWord) (native : Option (DWord × Nat))
  /-- PEER_LOST (R377) -/
  | peerLost (handle : Nat)
  /-- PEER_RECOVERED (R375) -/
  | peerRecovered (peer : Nat)
  /-- TOKEN_RECEIVED (R376) -/
  | tokenReceived (handle token : Nat) (addr : DWord) (data : List Byte)
  /-- HOST_KILL_COMMAND (R360) -/
  | hostKillCommand (ctx : Nat)
  /-- DEBUGGER_ATTACH (R373) -/
  | debuggerAttach (on : Bool)
  /-- DRAINED_LAUNCH (R403) -/
  | drainedLaunch (what : Drained) (ranges : List (Nat × Nat)) (recorded signalled : Bool)
deriving DecidableEq, Repr

/-- The row of the table of steps that an event is. -/
def Event.row (e : Event) : Instr :=
  match e with
  | .issueArbitration .. => .issueArbitration
  | .warpWideIssue .. => .warpWideIssue
  | .pendingResultWrite .. => .pendingResultWrite
  | .chainDrain .. => .chainDrain
  | .trapDelivery .. => .trapDelivery
  | .pageFaultResolution .. => .pageFaultResolution
  | .ownershipMigration .. => .ownershipMigration
  | .hostPageRequest .. => .hostPageRequest
  | .hostMemAccess .. => .hostMemAccess
  | .tlbInvalidate .. => .tlbInvalidate
  | .waitvRelease .. => .waitvRelease
  | .watchdog .. => .watchdog
  | .redApply .. => .redApply
  | .energyRefill .. => .energyRefill
  | .chunkClaim .. => .chunkClaim
  | .workgroupPlacement .. => .workgroupPlacement
  | .dictionaryLoad .. => .dictionaryLoad
  | .warpRefill .. => .warpRefill
  | .workgroupRetire .. => .workgroupRetire
  | .launchCompletion .. => .launchCompletion
  | .launchSignal .. => .launchSignal
  | .eventRecordPost .. => .eventRecordPost
  | .dispenserClose .. => .dispenserClose
  | .doorbell .. => .doorbell
  | .queueEnable .. => .queueEnable
  | .queueRestart .. => .queueRestart
  | .wakeClear .. => .wakeClear
  | .registerWrite .. => .registerWrite
  | .tickGeneratorCommit .. => .tickGeneratorCommit
  | .tick .. => .tick
  | .tickwaitComplete .. => .tickwaitComplete
  | .launchPacket .. => .launchPacket
  | .fencePacket .. => .fencePacket
  | .fencePacketComplete .. => .fencePacketComplete
  | .signalPacket .. => .signalPacket
  | .tickwaitPacket .. => .tickwaitPacket
  | .graphPacket .. => .graphPacket
  | .kernelNode .. => .kernelNode
  | .copyNode .. => .copyNode
  | .signalNode .. => .signalNode
  | .nodeComplete .. => .nodeComplete
  | .nodeRollback .. => .nodeRollback
  | .tload .. => .tload
  | .tstore .. => .tstore
  | .lcopy .. => .lcopy
  | .gather .. => .gather
  | .scatter .. => .scatter
  | .fill .. => .fill
  | .hintL2 .. => .hintL2
  | .hintTag .. => .hintTag
  | .rcopyPut .. => .rcopyPut
  | .rcopyGet .. => .rcopyGet
  | .qfence .. => .qfence
  | .copyEntryComplete .. => .copyEntryComplete
  | .copyEntrySkip .. => .copyEntrySkip
  | .preemptRequest .. => .preemptRequest
  | .preemptTimeout .. => .preemptTimeout
  | .workgroupSave .. => .workgroupSave
  | .workgroupRestore .. => .workgroupRestore
  | .pfail .. => .pfail
  | .pfailWindowClose .. => .pfailWindowClose
  | .quiesce .. => .quiesce
  | .keepSave .. => .keepSave
  | .powerUp .. => .powerUp
  | .warmReset .. => .warmReset
  | .contextCreate .. => .contextCreate
  | .contextDestroy .. => .contextDestroy
  | .contextUpdate .. => .contextUpdate
  | .loadTable .. => .loadTable
  | .keyLoad .. => .keyLoad
  | .collectiveHandleCreate .. => .collectiveHandleCreate
  | .peerRecovering .. => .peerRecovering
  | .tokenRetransmit .. => .tokenRetransmit
  | .debugHalt .. => .debugHalt
  | .debugResume .. => .debugResume
  | .debugStep .. => .debugStep
  | .haltedWarpResume .. => .haltedWarpResume
  | .drain .. => .drain
  | .translationClaim .. => .translationClaim
  | .translationPublish .. => .translationPublish
  | .peerLost .. => .peerLost
  | .peerRecovered .. => .peerRecovered
  | .tokenReceived .. => .tokenReceived
  | .hostKillCommand .. => .hostKillCommand
  | .debuggerAttach .. => .debuggerAttach
  | .drainedLaunch .. => .drainedLaunch

end Sys2Proof
end

