-- ==== Sys2Proof/WellFormed.lean ====
section
/-! DEFINITION. Which instructions are well formed: the conditions of steps 2 and 4 of R54 on a decoded instruction,
and the registers that an instruction names (R39, R40). -/

namespace Sys2Proof

/-- What an 8-bit (or 6-bit) operand field holds (R39). -/
inductive Kind where
  /-- Not used, or replaced by a literal: must be 0 (R36, R38). -/
  | unused
  | v
  | w
  /-- The first of a run of `n` v registers. -/
  | vrun (n : Nat)
  /-- The first of a run of four v registers, a multiple of 4 (R246). -/
  | v4
  /-- First word of a matrix view: its extent is checked per lane (R40). -/
  | m
  | h
  | p
  | j
  /-- Dependence counter: only d0-d15 can be assigned to a workgroup (R39, R276). -/
  | ctr
  /-- Special register that SRD reads (R41). -/
  | spr
  /-- Special register that SWR writes (R41). -/
  | sprw
  /-- Any 8-bit number. -/
  | raw
deriving DecidableEq, Repr

/-- The number `n` is one that a field of kind `k` may hold: otherwise ILLEGAL_ENC (R39). -/
def Kind.ok (k : Kind) (n : Nat) : Bool :=
  match k with
  | .unused => n = 0
  | .w => n % 2 = 0
  | .v4 => n % 4 = 0
  | .h => n < 16
  | .p | .j => n < 8
  | .ctr => n < 16
  | .spr => n ≤ 0x13
  | .sprw => n = 0x0E || n = 0x0F
  | .v | .vrun _ | .m | .raw => true

/-- The registers that a field of kind `k` with number `n` names lie below v(g): otherwise REG_RANGE (R40). That the base of an
empty run, b8 of a REGRP with n = 0, is not tested is the model's choice (log 104). -/
def Kind.inRange (k : Kind) (g n : Nat) : Bool :=
  match k with
  | .v => n < g
  | .w => n + 1 < g
  | .vrun len => len = 0 || n + len ≤ g
  | .v4 => n + 4 ≤ g
  | _ => true

/-- What an instruction's entry says of its form of more than one word. -/
structure Entry where
  /-- Lengths accepted (R55). -/
  lens : List ExtLen := [.x3]
  /-- lsel = 1 is accepted (R38). -/
  lsel : Bool := false
  /-- Sub-opcodes (R55). -/
  subs : List Nat := [0]
  d : Kind := .unused
  a : Kind := .unused
  b : Kind := .unused
  c : Kind := .unused
  /-- Scopes accepted; [0] where no scope is taken (R36). -/
  scopes : List Nat := [0]
  /-- The fields of word 2 that the entry defines, as (first bit, width). -/
  bits : List (Nat × Nat) := []
  /-- The entry's own conditions on them. -/
  extra : Bool := true

/-- The mask of the bits of `mod` that the fields in `l` cover. -/
def fieldMask (l : List (Nat × Nat)) : Nat := l.foldl (fun m f => m ||| ((2 ^ f.2 - 1) <<< (f.1 - 11))) 0

/-- The kind of b8: none where a literal replaces it. -/
def Entry.kb (e : Entry) (x : Ext) : Kind := if x.litB then .unused else e.b

/-- The kind of c8: none where a literal replaces it. -/
def Entry.kc (e : Entry) (x : Ext) : Kind := if x.litC then .unused else e.c

/-- Step 4 of R54 for a form of more than one word, with the accepted lengths of step 2. -/
def Entry.ok (e : Entry) (x : Ext) : Bool :=
  e.lens.contains x.len && e.subs.contains x.sub.toNat
  && e.d.ok x.d.toNat && e.a.ok x.a.toNat && (e.kb x).ok x.b.toNat && (e.kc x).ok x.c.toNat
  && e.scopes.contains x.scope.toNat
  && (x.mod.toNat &&& (2 ^ 21 - 1 - fieldMask (if x.len = .x5 then (31, 1) :: e.bits else e.bits)) == 0)
  && (!(x.len = .x5 && x.bit 31) || e.lsel)
  && (x.len ≠ .lit3 || (x.d.toNat < 64 && x.a.toNat < 64 && x.c = 0 && x.sub = 0 && x.scope = 0 && x.mod = 0))
  && (x.len ≠ .x3 || x.lit = 0)
  && e.extra

/-- The registers that the form names lie below v(g) (R40). -/
def Entry.inRange (e : Entry) (g : Nat) (x : Ext) : Bool :=
  e.d.inRange g x.d.toNat && e.a.inRange g x.a.toNat && (e.kb x).inRange g x.b.toNat && (e.kc x).inRange g x.c.toNat

/-- v, or the even pair w when `wide` holds. -/
def vw (wide : Bool) : Kind := if wide then .w else .v

/-- `k` when `used` holds, else a field that must be 0. -/
def only (used : Bool) (k : Kind) : Kind := if used then k else .unused

/-- A rounding-mode field that is not reserved (R68). -/
def rndOk (x : Ext) (lo : Nat) : Bool := x.field lo 3 ≤ 4

/-- The lengths of an opcode with a B3 base form and literals (R55). -/
def allLens : List ExtLen := [.x3, .lit3, .x5]

/-- Width in bits of a type code (R60); 0 for the reserved code. -/
def tyWidth (code : Nat) : Nat :=
  match code with
  | 0 | 10 | 14 => 64
  | 1 | 6 | 13 => 32
  | 2 | 7 | 9 | 12 => 16
  | 3 | 4 | 8 | 11 => 8
  | 5 => 4
  | _ => 0

/-- The type code is a float type (R60). -/
def tyIsFloat (code : Nat) : Bool := [0, 1, 2, 3, 7, 8].contains code

/-- How many elements of a narrow type PACK and UNPK move (R86). -/
def packCount (code : Nat) : Nat := 32 / max 1 (tyWidth code)

namespace Entry

/-- Two v sources and a v destination with all literal forms. -/
def int2 (bits : List (Nat × Nat)) (extra : Bool := true) : Entry :=
  { lens := allLens, d := .v, a := .v, b := .v, bits := bits, extra := extra }

/-- One v source. -/
def int1 (bits : List (Nat × Nat)) : Entry := { d := .v, a := .v, bits := bits }

/-- A shift by an immediate (sub 0x00) or by a register (sub 0x01) (R129). -/
def shift (x : Ext) : Entry :=
  { subs := [0, 1], d := .v, a := .v, b := only (x.sub = 1) .v, bits := if x.sub = 1 then [] else [(11, 5)] }

/-- FADD and its like (R139). -/
def float2 (wide : Bool) (x : Ext) : Entry :=
  { lens := allLens, d := vw wide, a := vw wide, b := vw wide, extra := rndOk x 11,
    bits := [(11, 3), (14, 1), (15, 1), (16, 1), (18, 1), (19, 1)] }

/-- FMIN and its like (R139). -/
def floatMin (wide : Bool) : Entry :=
  { lens := allLens, d := vw wide, a := vw wide, b := vw wide, bits := [(15, 1), (16, 1), (18, 1), (19, 1)] }

/-- FFMA and its like (R139, R141). -/
def float3 (wide : Bool) (x : Ext) : Entry :=
  { lens := [.x3, .x5], lsel := true, d := vw wide, a := vw wide, b := vw wide, c := vw wide, extra := rndOk x 11,
    bits := [(11, 3), (14, 1), (15, 1), (16, 1), (17, 1), (18, 1), (19, 1), (20, 1)] }

/-- FCMP, DCMP (R143). -/
def fcmp (wide : Bool) (x : Ext) : Entry :=
  { lens := [.x3, .x5], d := .p, a := vw wide, b := vw wide, c := only (x.field 15 2 ≠ 0) .p,
    bits := [(11, 3), (15, 2)], extra := x.field 15 2 ≠ 3 }

/-- FSFU, DSFU (R145). -/
def sfu (wide : Bool) (sub : Nat) : Entry := { subs := [sub], d := vw wide, a := vw wide }

/-- VOTE (R121): `bal` writes a v register. -/
def vote (sub : Nat) (bal : Bool) (x : Ext) : Entry :=
  { subs := [sub], d := if bal then .v else .p, a := .p, b := only (!x.bit 11) .v, bits := [(11, 1), (18, 2)] }

/-- SHFL (R121, R123). -/
def shfl (sub : Nat) (x : Ext) : Entry :=
  { subs := [sub], d := .v, a := .v, b := only (!x.bit 12) .v, c := only (!x.bit 11) .v,
    bits := [(11, 1), (12, 1), (13, 5), (18, 2)], extra := x.bit 12 || x.field 13 5 = 0 }

/-- MMA, MMT and MMS (R181, R182). -/
def mma (x : Ext) : Entry :=
  { d := .m, a := .m, b := if x.bit 27 then .v else .m,
    c := if x.bit 27 then .raw else only (!x.bit 29) .m,
    bits := [(11, 4), (15, 4), (19, 4), (27, 1), (28, 1), (29, 1)]
      ++ (if x.bit 27 || x.bit 29 then [] else [(23, 4)]),
    extra := !x.bit 28 || x.bit 27 }

/-- MEW with two matrix sources (R194). -/
def mew (sub : Nat) (rounds : Bool) (x : Ext) : Entry :=
  { subs := [sub], d := .m, a := .m, b := .m, extra := !rounds || rndOk x 27,
    bits := [(11, 4), (15, 4), (19, 4)] ++ (if rounds then [(27, 3), (30, 1)] else []) }

/-- MRED (R195). -/
def mred (sub : Nat) : Entry := { subs := [sub], d := .m, a := .m, bits := [(11, 4), (15, 4), (27, 2)] }

/-- The extended forms of LD, ST, LDS and STS (R246). -/
def mem (load scratch : Bool) (x : Ext) : Entry :=
  let size := x.field 11 3
  let ord := x.field 15 2
  { d := if size = 3 then .w else if size = 4 then .v4 else .v,
    a := if scratch then .v else .w, b := only (x.bit 19) .v,
    scopes := if ord = 0 then [0] else if scratch then [1, 2, 3] else [1, 2, 3, 4, 5, 6],
    bits := [(11, 3), (14, 1), (15, 2), (17, 1), (19, 1), (20, 12)] ++ (if scratch then [] else [(18, 1)]),
    extra := size ≤ 4 && (ord = 0 || (load && ord = 1) || (!load && ord = 2))
      && (!x.bit 14 || (load && (size = 1 || size = 2))) }

/-- ATOM, ATOMS and RED (R253, R256, R257). -/
def atom (scratch red : Bool) (op : Nat) (x : Ext) : Entry :=
  let size := x.field 11 3
  let ord := x.field 15 2
  let narrow := size = 1 || size = 2
  { lens := [.x3, .x5], lsel := op = 7, subs := [op],
    d := only (!red) (vw (size = 3)), a := if scratch then .v else .w, b := vw (size = 3),
    c := only (op = 7) (vw (size = 3)),
    scopes := if red then [1, 2, 3, 4, 5, 6] else if ord = 0 then [0] else if scratch then [1, 2, 3] else [1, 2, 3, 4, 5, 6],
    bits := [(11, 3), (14, 1), (15, 2), (18, 1), (20, 11)] ++ (if scratch then [(17, 1)] else []),
    extra := size ≤ 3 && (scratch || !narrow) && (!red || ord = 0)
      && (!x.bit 18 || (!narrow && op ≤ 2 && !x.bit 14))
      && (!x.bit 14 || narrow || op = 1 || op = 2) }

/-- BAR (R272). -/
def bar (sub : Nat) : Entry := { subs := [sub], scopes := [2, 3], bits := [(11, 3)] }

end Entry

/-- The entry of each instruction that has a form of more than one word of the layout of R35, with its fields.
Instructions of one word, literal branches, PPOINT, DICT and the device's own steps have none. -/
def Instr.entry (i : Instr) : Option (Entry × Ext) :=
  match i with
  | .plop _ x => some ({ d := .p, a := .p, b := .p, c := .p, bits := [(11, 8)] }, x)
  | .jset _ x => some ({ subs := [0], d := .j, a := only (!x.bit 11) .v, bits := [(11, 1)] }, x)
  | .jarr _ x => some ({ subs := [1], d := .j }, x)
  | .jwait _ x => some ({ subs := [2], d := .j }, x)
  | .joinAt _ x => some ({ subs := [3], d := .j }, x)
  | .jget _ x => some ({ subs := [4], d := .v, a := .j, bits := [(11, 1)] }, x)
  | .voteAny _ x => some (Entry.vote 0 false x, x)
  | .voteAll _ x => some (Entry.vote 1 false x, x)
  | .voteUni _ x => some (Entry.vote 2 false x, x)
  | .voteBal _ x => some (Entry.vote 3 true x, x)
  | .shflIdx _ x => some (Entry.shfl 8 x, x)
  | .shflUp _ x => some (Entry.shfl 9 x, x)
  | .shflDown _ x => some (Entry.shfl 10 x, x)
  | .shflXor _ x => some (Entry.shfl 11 x, x)
  | .matchEq _ x => some ({ subs := [16], d := .v, a := vw (x.bit 15), b := only (!x.bit 11) .v, bits := [(11, 1), (15, 1), (18, 2)] }, x)
  | .redux _ x => some ({ subs := [24], d := .v, a := .v, b := only (!x.bit 11) .v, bits := [(11, 1), (12, 3), (15, 1), (18, 2)], extra := x.field 12 3 ≤ 5 && (!x.bit 15 || x.field 12 3 = 1 || x.field 12 3 = 2) }, x)
  | .iaddExt _ x | .isubExt _ x => some (Entry.int2 [(11, 1), (12, 1)] (!x.bit 12 || x.bit 11), x)
  | .iaddc _ x => some ({ lens := [.x3, .x5], d := .v, a := .v, b := .v, c := .p, bits := [(11, 3), (14, 1)] }, x)
  | .imulExt _ x | .andExt _ x | .orExt _ x | .xorExt _ x => some (Entry.int2 [], x)
  | .imulhExt _ x | .iminExt _ x | .imaxExt _ x => some (Entry.int2 [(11, 1)], x)
  | .imad _ x => some ({ lens := [.x3, .x5], lsel := true, d := .v, a := .v, b := .v, c := .v }, x)
  | .imadw _ x => some ({ lens := [.x3, .x5], lsel := true, d := .w, a := .v, b := .v, c := .w, bits := [(11, 1)] }, x)
  | .iabsExt _ x | .inegExt _ x => some (Entry.int1 [(11, 1)], x)
  | .notExt _ x | .popcExt _ x | .clzExt _ x | .brevExt _ x => some (Entry.int1 [], x)
  | .lop3 _ x => some ({ lens := [.x3, .x5], lsel := true, d := .v, a := .v, b := .v, c := .v, bits := [(11, 8)] }, x)
  | .shlExt _ x | .shrExt _ x | .sarExt _ x | .rotExt _ x => some (Entry.shift x, x)
  | .shf _ x => some ({ d := .v, a := .v, b := .v, c := only (!x.bit 12) .v, bits := [(11, 1), (12, 1), (13, 6)], extra := x.bit 12 || x.field 13 6 = 0 }, x)
  | .bfe _ x => some ({ d := .v, a := .v, b := only (!x.bit 12) .v, bits := [(11, 1), (12, 1), (13, 5), (18, 6)], extra := x.field 18 6 ≤ 32 && (x.bit 12 || (x.field 13 5 = 0 && x.field 18 6 = 0)) }, x)
  | .bfi _ x => some ({ d := .v, a := .v, b := .v, c := only (!x.bit 12) .v, bits := [(12, 1), (13, 5), (18, 6)], extra := x.field 18 6 ≤ 32 && (x.bit 12 || (x.field 13 5 = 0 && x.field 18 6 = 0)) }, x)
  | .icmp _ x => some ({ lens := [.x3, .x5], d := .p, a := vw (x.bit 17), b := vw (x.bit 17), c := only (x.field 15 2 ≠ 0) .p, bits := [(11, 3), (14, 1), (15, 2), (17, 1)], extra := x.field 11 3 ≤ 5 && x.field 15 2 ≠ 3 }, x)
  | .isel _ x => some ({ lens := [.x3, .x5], d := vw (x.bit 11), a := vw (x.bit 11), b := vw (x.bit 11), c := .p, bits := [(11, 1)] }, x)
  | .movExt _ x => some ({ d := vw (x.bit 11), a := vw (x.bit 11), bits := [(11, 1)] }, x)
  | .movi _ x => some ({ lens := allLens, d := vw (x.bit 11), bits := if x.len = .x3 then [(11, 1), (12, 20)] else [(11, 1)] }, x)
  | .lea _ x => some ({ lens := [.x3, .x5], d := .w, a := .w, b := .v, bits := [(11, 3), (14, 1)] }, x)
  | .iadd64Ext _ x => some ({ lens := allLens, d := .w, a := .w, b := .w }, x)
  | .faddExt _ x | .fmulExt _ x => some (Entry.float2 false x, x)
  | .ffma _ x | .hfma2 _ x => some (Entry.float3 false x, x)
  | .fminExt _ x | .fmaxExt _ x => some (Entry.floatMin false, x)
  | .fcmp _ x => some (Entry.fcmp false x, x)
  | .frndExt _ x => some ({ d := .v, a := .v, bits := [(11, 3)], extra := rndOk x 11 }, x)
  | .fsfuRcp _ x => some (Entry.sfu false 0, x)
  | .fsfuRsq _ x => some (Entry.sfu false 1, x)
  | .fsfuSqrt _ x => some (Entry.sfu false 2, x)
  | .fsfuExp2 _ x => some (Entry.sfu false 3, x)
  | .fsfuLog2 _ x => some (Entry.sfu false 4, x)
  | .fsfuSin _ x => some (Entry.sfu false 5, x)
  | .fsfuCos _ x => some (Entry.sfu false 6, x)
  | .daddExt _ x | .dmulExt _ x => some (Entry.float2 true x, x)
  | .dfma _ x => some (Entry.float3 true x, x)
  | .dminExt _ x | .dmaxExt _ x => some (Entry.floatMin true, x)
  | .dcmp _ x => some (Entry.fcmp true x, x)
  | .dsfuRcp _ x => some (Entry.sfu true 0, x)
  | .dsfuSqrt _ x => some (Entry.sfu true 1, x)
  | .cvt _ x => some ({ d := vw (tyWidth (x.field 11 4) = 64), a := vw (tyWidth (x.field 15 4) = 64), bits := [(11, 4), (15, 4), (19, 3), (22, 1)], extra := x.field 11 4 ≠ 15 && x.field 15 4 ≠ 15 && rndOk x 19 }, x)
  | .pack _ x => some ({ d := .v, a := .vrun (packCount (x.field 11 4)), bits := [(11, 4), (15, 4), (19, 3), (22, 1)], extra := [1, 6, 13].contains (x.field 15 4) && [2, 7, 8, 3, 4, 11, 9, 12, 5].contains (x.field 11 4) && rndOk x 19 }, x)
  | .unpk _ x => some ({ d := .vrun (packCount (x.field 15 4)), a := .v, bits := [(11, 4), (15, 4)], extra := if tyIsFloat (x.field 15 4) then [2, 7, 8, 3].contains (x.field 15 4) && x.field 11 4 = 1 else [4, 11, 9, 12, 5].contains (x.field 15 4) && (x.field 11 4 = 6 || x.field 11 4 = 13) }, x)
  | .fclass _ x => some ({ d := if x.bit 15 then .p else .v, a := vw (x.field 11 4 = 0), bits := [(11, 4), (15, 1), (16, 10)], extra := tyIsFloat (x.field 11 4) && (x.bit 15 || x.field 16 10 = 0) }, x)
  | .hset _ x => some ({ lens := [.x3, .x5], d := .h, b := only (!x.bit 11) .v, bits := if x.len = .x3 then (11, 1) :: (if x.bit 11 then [(12, 18)] else []) else [] }, x)
  | .hget _ x => some ({ d := .v, a := .h, bits := [(11, 2)], extra := x.field 11 2 ≠ 3 }, x)
  | .hmov _ x => some ({ d := .h, a := if x.bit 11 then .v else .h, bits := [(11, 1)] }, x)
  | .mzero _ x => some ({ d := .m, bits := [(11, 4)] }, x)
  | .mfill _ x => some ({ lens := [.x3, .x5], d := .m, b := .v, bits := [(11, 4), (27, 1)] }, x)
  | .mmov _ x => some ({ d := .m, a := .m, bits := [(11, 4), (15, 4)] }, x)
  | .mld _ x => some ({ lens := [.x3, .x5], subs := [0], d := .m, a := .v, b := .v, c := .raw, bits := [(11, 4), (27, 1)] }, x)
  | .mst _ x => some ({ lens := [.x3, .x5], subs := [1], d := .m, a := .v, b := .v, c := .raw, bits := [(15, 4), (27, 1)] }, x)
  | .mext _ x => some ({ subs := [0], d := .m, a := .m, b := .v, bits := [(11, 4), (15, 4)] }, x)
  | .mins _ x => some ({ subs := [1], d := .m, a := .m, b := .v, bits := [(11, 4), (15, 4)] }, x)
  | .mma _ x | .mmt _ x | .mms _ x => some (Entry.mma x, x)
  | .mtm _ x => some ({ d := .m, a := .m, b := .m, c := only (!x.bit 29) .m, bits := [(11, 4), (15, 4), (19, 4), (29, 1)] ++ (if x.bit 29 then [] else [(23, 4)]) }, x)
  | .mmg _ x => some ({ d := .m, a := .m, b := if x.bit 30 then .unused else if x.bit 27 then .v else .m, c := .v, bits := [(11, 4), (15, 4), (19, 4), (27, 1), (28, 1), (29, 1), (30, 1)], extra := (!x.bit 28 || x.bit 27) && (!x.bit 30 || !x.bit 27) }, x)
  | .mtrn _ x => some ({ d := .m, a := .m, bits := [(11, 4), (15, 4)] }, x)
  | .mewAdd _ x => some (Entry.mew 0 true x, x)
  | .mewSub _ x => some (Entry.mew 1 true x, x)
  | .mewMul _ x => some (Entry.mew 2 true x, x)
  | .mewMax _ x => some (Entry.mew 3 false x, x)
  | .mewMin _ x => some (Entry.mew 4 false x, x)
  | .mewScale _ x => some ({ subs := [5], d := .m, a := .m, b := .v, extra := rndOk x 27, bits := [(11, 4), (15, 4), (27, 3), (30, 1)] }, x)
  | .mredRow _ x => some (Entry.mred 0, x)
  | .mredCol _ x => some (Entry.mred 1, x)
  | .mredAll _ x => some (Entry.mred 2, x)
  | .mprn _ x | .mtopk _ x => some ({ d := .m, a := .m, b := .v, bits := [(11, 4), (15, 4), (27, 1)] }, x)
  | .mgnorm _ x => some ({ d := .m, bits := [(11, 4)] }, x)
  | .mlu _ x => some ({ d := .m, a := .m, c := .v, bits := [(11, 4), (15, 4)] }, x)
  | .mchol _ x | .minv _ x | .mexp _ x => some ({ d := .m, a := .m, bits := [(11, 4), (15, 4)] }, x)
  | .mqr _ x => some ({ d := .m, a := .m, b := only (!x.bit 27) .m, bits := [(11, 4), (15, 4), (27, 1)] ++ (if x.bit 27 then [] else [(19, 4)]) }, x)
  | .mtrs _ x => some ({ d := .m, a := .m, b := .m, bits := [(11, 4), (15, 4), (19, 4), (27, 1), (28, 1), (29, 1)] }, x)
  | .msolv _ x => some ({ d := .m, a := .m, b := .m, c := only (x.bit 27) .v, bits := [(11, 4), (15, 4), (19, 4), (27, 1)] }, x)
  | .mpow _ x => some ({ d := .m, a := .m, b := .v, bits := [(11, 4), (15, 4)] }, x)
  | .ldExt _ x => some (Entry.mem true false x, x)
  | .stExt _ x => some (Entry.mem false false x, x)
  | .ldsExt _ x => some (Entry.mem true true x, x)
  | .stsExt _ x => some (Entry.mem false true x, x)
  | .tagl _ x => some ({ d := .v, a := .w, bits := [(11, 1)] }, x)
  | .tagi _ x => some ({ d := .v, a := .w, c := .w, bits := [(11, 1), (12, 1)] }, x)
  | .tage _ x => some ({ d := .v, a := vw (!x.bit 11), c := .w, bits := [(11, 1), (12, 1)] }, x)
  | .pref _ x => some ({ a := .w, b := only (x.bit 19) .v, bits := [(11, 3), (19, 1), (20, 12)], extra := x.field 11 3 ≤ 4 }, x)
  | .atomAdd _ x => some (Entry.atom false false 0 x, x)
  | .atomMin _ x => some (Entry.atom false false 1 x, x)
  | .atomMax _ x => some (Entry.atom false false 2 x, x)
  | .atomAnd _ x => some (Entry.atom false false 3 x, x)
  | .atomOr _ x => some (Entry.atom false false 4 x, x)
  | .atomXor _ x => some (Entry.atom false false 5 x, x)
  | .atomExch _ x => some (Entry.atom false false 6 x, x)
  | .atomCas _ x => some (Entry.atom false false 7 x, x)
  | .atomsAdd _ x => some (Entry.atom true false 0 x, x)
  | .atomsMin _ x => some (Entry.atom true false 1 x, x)
  | .atomsMax _ x => some (Entry.atom true false 2 x, x)
  | .atomsAnd _ x => some (Entry.atom true false 3 x, x)
  | .atomsOr _ x => some (Entry.atom true false 4 x, x)
  | .atomsXor _ x => some (Entry.atom true false 5 x, x)
  | .atomsExch _ x => some (Entry.atom true false 6 x, x)
  | .atomsCas _ x => some (Entry.atom true false 7 x, x)
  | .redAdd _ x => some (Entry.atom false true 0 x, x)
  | .redMin _ x => some (Entry.atom false true 1 x, x)
  | .redMax _ x => some (Entry.atom false true 2 x, x)
  | .redAnd _ x => some (Entry.atom false true 3 x, x)
  | .redOr _ x => some (Entry.atom false true 4 x, x)
  | .redXor _ x => some (Entry.atom false true 5 x, x)
  | .fence _ x => some ({ a := only (x.bit 11) .v, scopes := if x.bit 11 then [0] else [1, 2, 3, 4, 5, 6], bits := [(11, 1), (15, 2)], extra := x.field 15 2 ≠ 0 }, x)
  | .barArrive _ x => some (Entry.bar 0, x)
  | .barWait _ x => some (Entry.bar 1, x)
  | .barSync _ x => some (Entry.bar 2, x)
  | .waitv _ x => some ({ d := vw (x.bit 15), a := vw (!x.bit 16), b := vw (x.bit 15), c := only (x.bit 18) .v, scopes := if x.bit 18 then [0] else if x.bit 16 then [1, 2, 3] else [1, 2, 3, 4, 5, 6], bits := [(11, 3), (14, 1), (15, 1), (16, 1), (17, 1), (18, 1), (20, 11)], extra := x.field 11 3 ≤ 5 && (!x.bit 17 || x.bit 16) }, x)
  | .dcadd _ x => some ({ subs := [0, 1, 2], d := only (x.sub ≠ 2) .ctr, a := only (x.sub = 2) .v, b := only (x.sub ≠ 1) .v, bits := if x.sub = 1 then [(11, 21)] else [] }, x)
  | .dcwait _ x => some ({ subs := [0, 1], a := if x.sub = 0 then .ctr else .v }, x)
  | .cpyq _ x => some ({ subs := [0], a := .vrun 8, b := only (x.bit 13) .v, bits := [(11, 2), (13, 1)], extra := !x.bit 13 || x.field 11 2 = 0 }, x)
  | .cpyf _ x => some ({ subs := [1], b := only (x.bit 13) .v, bits := [(11, 2), (13, 1), (14, 4)], extra := (!x.bit 13 || x.field 11 2 = 0) && x.field 14 4 ≠ 0 }, x)
  | .cpys _ x => some ({ subs := [2], d := .v, b := only (x.bit 13) .v, bits := [(11, 2), (13, 1), (14, 3)], extra := (!x.bit 13 || x.field 11 2 = 0) && x.field 14 3 ≤ 4 }, x)
  | .launch _ x => some ({ a := .vrun 16, b := .v }, x)
  | .refill _ x => some ({ subs := [0], d := .p }, x)
  | .regrp _ x => some ({ subs := [1], a := .v, b := .vrun (x.field 11 7), bits := [(11, 7), (18, 1)], extra := x.field 11 7 ≤ 64 }, x)
  | .sigwake _ x => some ({ a := .v, b := .v }, x)
  | .sigwakeMb _ x => some ({ b := .v, bits := [(11, 1)], extra := x.bit 11 }, x)
  | .trap _ x => some ({ subs := [0], bits := [(11, 8)] }, x)
  | .tret _ x => some ({ subs := [1], a := only (x.bit 11) .w, bits := [(11, 1)] }, x)
  | .srd _ x => some ({ subs := [0], d := vw (x.a = 0x10 || (5 ≤ x.a.toNat && x.a.toNat ≤ 0x0B) || x.a = 0x12), a := .spr }, x)
  | .swr _ x => some ({ subs := [1], d := .sprw, a := .v }, x)
  | .capq _ x => some ({ subs := [2], d := .v, a := only (x.field 11 2 = 0) .v, bits := [(11, 2)], extra := x.field 11 2 ≠ 3 }, x)
  | .pfdone _ x => some ({ subs := [3] }, x)
  | _ => none

/-- The register fields of a one-word form with their kinds (R33, R55). -/
def Instr.baseRegs (i : Instr) : List (Kind × Nat) :=
  match i with
  | .brx _ a | .callx _ a => [(.w, a.toNat)]
  | .iadd _ d a b | .isub _ d a b | .imul _ d a b | .imulh _ d a b | .imin _ d a b | .imax _ d a b
  | .andBase _ d a b | .orBase _ d a b | .xorBase _ d a b | .fadd _ d a b | .fmul _ d a b | .fmin _ d a b
  | .fmax _ d a b => [(.v, d.toNat), (.v, a.toNat), (.v, b.toNat)]
  | .iadd64 _ d a b | .dadd _ d a b | .dmul _ d a b | .dmin _ d a b | .dmax _ d a b =>
    [(.w, d.toNat), (.w, a.toNat), (.w, b.toNat)]
  | .iabs _ d a | .ineg _ d a | .notBase _ d a | .popc _ d a | .clz _ d a | .brev _ d a | .mov _ d a | .frnd _ d a
  | .shl _ d a _ | .shr _ d a _ | .sar _ d a _ | .rot _ d a _ => [(.v, d.toNat), (.v, a.toNat)]
  | .ld _ d a _ | .st _ d a _ => [(.v, d.toNat), (.w, a.toNat)]
  | .lds _ d a _ | .sts _ d a _ => [(.v, d.toNat), (.v, a.toNat)]
  | _ => []

/-- Step 4 of R54, and the lengths of step 2: the instruction's own words are an instruction. A device step, which has
no words, is well formed. -/
def Instr.wf (i : Instr) : Bool :=
  (match i.entry with
    | some (e, x) => e.ok x
    | none => true)
  && i.baseRegs.all (fun r => r.1.ok r.2)
  && (match i with
    | .dict codes => codes.length = 5 || codes.length = 9
    | _ => true)

/-- Step 6 of R54: every named register lies below v(g) (R40). CALL, CALLX and RET name the link pair w(g−2), which
always does. -/
def Instr.inRange (i : Instr) (g : Nat) : Bool :=
  (match i.entry with
    | some (e, x) => e.inRange g x
    | none => true)
  && i.baseRegs.all (fun r => r.1.inRange g r.2)

end Sys2Proof
end

