-- ==== Sys2Proof/Decode.lean ====
section
/-! DEFINITION. The decoder, total on any words, in the order of R54, and the encoder, both written from the encodings
of spec 02 (R28-R55). Lengths are the codes of R30: 0 one word, 1 extended, 2 literal, 3 extended with a literal. -/

namespace Sys2Proof

/-- Why words are not an instruction (steps 1 to 4 of R54). -/
inductive DecodeFault where
  | illegalOp
  | illegalEnc
deriving DecidableEq, Repr

/-- What the decoder answers. -/
inductive Decoded where
  | ok (i : Instr)
  | bad (f : DecodeFault)
deriving DecidableEq, Repr

/-- The operation that a major opcode and a sub-opcode name in a form of more than one word of the layout of R35;
`none` where the sub-opcode is unassigned (R55). -/
def extInstr (opc sub : Nat) (h : Hdr) (x : Ext) : Option Instr :=
  match opc with
  | 0x0B => if sub = 0 then some (.plop h x) else none
  | 0x0C =>
    match sub with
    | 0 => some (.jset h x)
    | 1 => some (.jarr h x)
    | 2 => some (.jwait h x)
    | 3 => some (.joinAt h x)
    | 4 => some (.jget h x)
    | _ => none
  | 0x0D =>
    match sub with
    | 0 => some (.voteAny h x)
    | 1 => some (.voteAll h x)
    | 2 => some (.voteUni h x)
    | 3 => some (.voteBal h x)
    | 8 => some (.shflIdx h x)
    | 9 => some (.shflUp h x)
    | 10 => some (.shflDown h x)
    | 11 => some (.shflXor h x)
    | 16 => some (.matchEq h x)
    | 24 => some (.redux h x)
    | _ => none
  | 0x10 => if sub = 0 then some (.iaddExt h x) else none
  | 0x11 => if sub = 0 then some (.isubExt h x) else none
  | 0x12 => if sub = 0 then some (.iaddc h x) else none
  | 0x13 => if sub = 0 then some (.imulExt h x) else none
  | 0x14 => if sub = 0 then some (.imulhExt h x) else none
  | 0x15 => if sub = 0 then some (.imad h x) else none
  | 0x16 => if sub = 0 then some (.imadw h x) else none
  | 0x17 => if sub = 0 then some (.iminExt h x) else none
  | 0x18 => if sub = 0 then some (.imaxExt h x) else none
  | 0x19 => if sub = 0 then some (.iabsExt h x) else none
  | 0x1A => if sub = 0 then some (.inegExt h x) else none
  | 0x1B => if sub = 0 then some (.andExt h x) else none
  | 0x1C => if sub = 0 then some (.orExt h x) else none
  | 0x1D => if sub = 0 then some (.xorExt h x) else none
  | 0x1E => if sub = 0 then some (.notExt h x) else none
  | 0x1F => if sub = 0 then some (.lop3 h x) else none
  | 0x20 => if sub < 2 then some (.shlExt h x) else none
  | 0x21 => if sub < 2 then some (.shrExt h x) else none
  | 0x22 => if sub < 2 then some (.sarExt h x) else none
  | 0x23 => if sub = 0 then some (.shf h x) else none
  | 0x24 => if sub < 2 then some (.rotExt h x) else none
  | 0x25 => if sub = 0 then some (.popcExt h x) else none
  | 0x26 => if sub = 0 then some (.clzExt h x) else none
  | 0x27 => if sub = 0 then some (.brevExt h x) else none
  | 0x28 => if sub = 0 then some (.bfe h x) else none
  | 0x29 => if sub = 0 then some (.bfi h x) else none
  | 0x2A => if sub = 0 then some (.icmp h x) else none
  | 0x2B => if sub = 0 then some (.isel h x) else none
  | 0x2C => if sub = 0 then some (.movExt h x) else none
  | 0x2D => if sub = 0 then some (.movi h x) else none
  | 0x2E => if sub = 0 then some (.lea h x) else none
  | 0x2F => if sub = 0 then some (.iadd64Ext h x) else none
  | 0x30 => if sub = 0 then some (.faddExt h x) else none
  | 0x31 => if sub = 0 then some (.fmulExt h x) else none
  | 0x32 => if sub = 0 then some (.ffma h x) else none
  | 0x33 => if sub = 0 then some (.fminExt h x) else none
  | 0x34 => if sub = 0 then some (.fmaxExt h x) else none
  | 0x35 => if sub = 0 then some (.fcmp h x) else none
  | 0x36 => if sub = 0 then some (.frndExt h x) else none
  | 0x37 =>
    match sub with
    | 0 => some (.fsfuRcp h x)
    | 1 => some (.fsfuRsq h x)
    | 2 => some (.fsfuSqrt h x)
    | 3 => some (.fsfuExp2 h x)
    | 4 => some (.fsfuLog2 h x)
    | 5 => some (.fsfuSin h x)
    | 6 => some (.fsfuCos h x)
    | _ => none
  | 0x38 => if sub = 0 then some (.daddExt h x) else none
  | 0x39 => if sub = 0 then some (.dmulExt h x) else none
  | 0x3A => if sub = 0 then some (.dfma h x) else none
  | 0x3B => if sub = 0 then some (.dminExt h x) else none
  | 0x3C => if sub = 0 then some (.dmaxExt h x) else none
  | 0x3D => if sub = 0 then some (.dcmp h x) else none
  | 0x3E =>
    match sub with
    | 0 => some (.dsfuRcp h x)
    | 1 => some (.dsfuSqrt h x)
    | _ => none
  | 0x3F => if sub = 0 then some (.hfma2 h x) else none
  | 0x40 => if sub = 0 then some (.cvt h x) else none
  | 0x41 => if sub = 0 then some (.pack h x) else none
  | 0x42 => if sub = 0 then some (.unpk h x) else none
  | 0x43 => if sub = 0 then some (.fclass h x) else none
  | 0x48 => if sub = 0 then some (.hset h x) else none
  | 0x49 => if sub = 0 then some (.hget h x) else none
  | 0x4A => if sub = 0 then some (.hmov h x) else none
  | 0x4B => if sub = 0 then some (.mzero h x) else none
  | 0x4C => if sub = 0 then some (.mmov h x) else none
  | 0x4D =>
    match sub with
    | 0 => some (.mld h x)
    | 1 => some (.mst h x)
    | _ => none
  | 0x4E =>
    match sub with
    | 0 => some (.mext h x)
    | 1 => some (.mins h x)
    | _ => none
  | 0x4F => if sub = 0 then some (.mfill h x) else none
  | 0x50 => if sub = 0 then some (.mma h x) else none
  | 0x51 => if sub = 0 then some (.mmt h x) else none
  | 0x52 => if sub = 0 then some (.mtm h x) else none
  | 0x53 => if sub = 0 then some (.mms h x) else none
  | 0x54 => if sub = 0 then some (.mmg h x) else none
  | 0x55 => if sub = 0 then some (.mtrn h x) else none
  | 0x56 =>
    match sub with
    | 0 => some (.mewAdd h x)
    | 1 => some (.mewSub h x)
    | 2 => some (.mewMul h x)
    | 3 => some (.mewMax h x)
    | 4 => some (.mewMin h x)
    | 5 => some (.mewScale h x)
    | _ => none
  | 0x57 =>
    match sub with
    | 0 => some (.mredRow h x)
    | 1 => some (.mredCol h x)
    | 2 => some (.mredAll h x)
    | _ => none
  | 0x58 => if sub = 0 then some (.mprn h x) else none
  | 0x59 => if sub = 0 then some (.mtopk h x) else none
  | 0x5A => if sub = 0 then some (.mgnorm h x) else none
  | 0x60 => if sub = 0 then some (.mlu h x) else none
  | 0x61 => if sub = 0 then some (.mchol h x) else none
  | 0x62 => if sub = 0 then some (.mqr h x) else none
  | 0x63 => if sub = 0 then some (.mtrs h x) else none
  | 0x64 => if sub = 0 then some (.msolv h x) else none
  | 0x65 => if sub = 0 then some (.minv h x) else none
  | 0x66 => if sub = 0 then some (.mexp h x) else none
  | 0x67 => if sub = 0 then some (.mpow h x) else none
  | 0x68 => if sub = 0 then some (.ldExt h x) else none
  | 0x69 => if sub = 0 then some (.stExt h x) else none
  | 0x6A => if sub = 0 then some (.ldsExt h x) else none
  | 0x6B => if sub = 0 then some (.stsExt h x) else none
  | 0x6C => if sub = 0 then some (.tagl h x) else none
  | 0x6D => if sub = 0 then some (.tagi h x) else none
  | 0x6E => if sub = 0 then some (.tage h x) else none
  | 0x6F => if sub = 0 then some (.pref h x) else none
  | 0x70 =>
    match sub with
    | 0 => some (.atomAdd h x)
    | 1 => some (.atomMin h x)
    | 2 => some (.atomMax h x)
    | 3 => some (.atomAnd h x)
    | 4 => some (.atomOr h x)
    | 5 => some (.atomXor h x)
    | 6 => some (.atomExch h x)
    | 7 => some (.atomCas h x)
    | _ => none
  | 0x71 =>
    match sub with
    | 0 => some (.atomsAdd h x)
    | 1 => some (.atomsMin h x)
    | 2 => some (.atomsMax h x)
    | 3 => some (.atomsAnd h x)
    | 4 => some (.atomsOr h x)
    | 5 => some (.atomsXor h x)
    | 6 => some (.atomsExch h x)
    | 7 => some (.atomsCas h x)
    | _ => none
  | 0x72 =>
    match sub with
    | 0 => some (.redAdd h x)
    | 1 => some (.redMin h x)
    | 2 => some (.redMax h x)
    | 3 => some (.redAnd h x)
    | 4 => some (.redOr h x)
    | 5 => some (.redXor h x)
    | _ => none
  | 0x73 => if sub = 0 then some (.fence h x) else none
  | 0x74 =>
    match sub with
    | 0 => some (.barArrive h x)
    | 1 => some (.barWait h x)
    | 2 => some (.barSync h x)
    | _ => none
  | 0x75 => if sub = 0 then some (.waitv h x) else none
  | 0x76 => if sub < 2 then some (.dcwait h x) else none
  | 0x77 => if sub < 3 then some (.dcadd h x) else none
  | 0x78 =>
    match sub with
    | 0 => some (.cpyq h x)
    | 1 => some (.cpyf h x)
    | 2 => some (.cpys h x)
    | _ => none
  | 0x79 => if sub = 0 then some (.launch h x) else none
  | 0x7A =>
    match sub with
    | 0 => some (.refill h x)
    | 1 => some (.regrp h x)
    | _ => none
  | 0x7B => if sub = 0 then (if x.bit 11 then some (.sigwakeMb h x) else some (.sigwake h x)) else none
  | 0x7C =>
    match sub with
    | 0 => some (.trap h x)
    | 1 => some (.tret h x)
    | _ => none
  | 0x7E =>
    match sub with
    | 0 => some (.srd h x)
    | 1 => some (.swr h x)
    | 2 => some (.capq h x)
    | 3 => some (.pfdone h x)
    | _ => none
  | _ => none

/-- The instruction of one word with the major opcode `opc` and word 0 `w` (R33); `none` where a field that the form
does not use is not 0 (R36), or a count or code is negative (R115, R129). -/
def baseInstr (opc : Nat) (h : Hdr) (w : Word) : Option Instr :=
  let d : BitVec 6 := w.extractLsb' 14 6
  let a : BitVec 6 := w.extractLsb' 20 6
  let b : BitVec 6 := w.extractLsb' 26 6
  let n : BitVec 5 := w.extractLsb' 26 5
  let off : BitVec 18 := w.extractLsb' 14 18
  match opc with
  | 0x00 => if off = 0 then some (.nop h) else none
  | 0x01 => some (.bra h off)
  | 0x02 => some (.bru h off)
  | 0x03 => if d = 0 ∧ b = 0 then some (.brx h a) else none
  | 0x04 => some (.call h off)
  | 0x05 => if d = 0 ∧ b = 0 then some (.callx h a) else none
  | 0x06 => if off = 0 then some (.ret h) else none
  | 0x07 => if off = 0 then some (.exitItem h) else none
  | 0x08 => if off = 0 then some (.yield h) else none
  | 0x09 => if d = 0 ∧ a = 0 ∧ !bitAt w 31 then some (.brk h n) else none
  | 0x0A => if off = 0 then some (.rgn h) else none
  | 0x10 => some (.iadd h d a b)
  | 0x11 => some (.isub h d a b)
  | 0x13 => some (.imul h d a b)
  | 0x14 => some (.imulh h d a b)
  | 0x17 => some (.imin h d a b)
  | 0x18 => some (.imax h d a b)
  | 0x19 => if b = 0 then some (.iabs h d a) else none
  | 0x1A => if b = 0 then some (.ineg h d a) else none
  | 0x1B => some (.andBase h d a b)
  | 0x1C => some (.orBase h d a b)
  | 0x1D => some (.xorBase h d a b)
  | 0x1E => if b = 0 then some (.notBase h d a) else none
  | 0x20 => if bitAt w 31 then none else some (.shl h d a n)
  | 0x21 => if bitAt w 31 then none else some (.shr h d a n)
  | 0x22 => if bitAt w 31 then none else some (.sar h d a n)
  | 0x24 => if bitAt w 31 then none else some (.rot h d a n)
  | 0x25 => if b = 0 then some (.popc h d a) else none
  | 0x26 => if b = 0 then some (.clz h d a) else none
  | 0x27 => if b = 0 then some (.brev h d a) else none
  | 0x2C => if b = 0 then some (.mov h d a) else none
  | 0x2F => some (.iadd64 h d a b)
  | 0x30 => some (.fadd h d a b)
  | 0x31 => some (.fmul h d a b)
  | 0x33 => some (.fmin h d a b)
  | 0x34 => some (.fmax h d a b)
  | 0x36 => if b = 0 then some (.frnd h d a) else none
  | 0x38 => some (.dadd h d a b)
  | 0x39 => some (.dmul h d a b)
  | 0x3B => some (.dmin h d a b)
  | 0x3C => some (.dmax h d a b)
  | 0x68 => some (.ld h d a b)
  | 0x69 => some (.st h d a b)
  | 0x6A => some (.lds h d a b)
  | 0x6B => some (.sts h d a b)
  | _ => none

/-- The len values that a major opcode accepts; none for an unassigned opcode (R55). -/
def lensOf (opc : Nat) : List Nat :=
  match opc with
  | 0x00 | 0x03 | 0x05 | 0x06 | 0x07 | 0x08 | 0x09 | 0x0A => [0]
  | 0x01 | 0x02 | 0x04 => [0, 2]
  | 0x0B | 0x0C | 0x0D | 0x23 | 0x28 | 0x29 | 0x37 | 0x3E | 0x40 | 0x41 | 0x42 | 0x43 | 0x49 | 0x4A
  | 0x4B | 0x4C | 0x4E | 0x50 | 0x51 | 0x52 | 0x53 | 0x54 | 0x55 | 0x56 | 0x57 | 0x58 | 0x59 | 0x5A
  | 0x60 | 0x61 | 0x62 | 0x63 | 0x64 | 0x65 | 0x66 | 0x67 | 0x6C | 0x6D | 0x6E | 0x6F | 0x73 | 0x74
  | 0x75 | 0x76 | 0x77 | 0x78 | 0x79 | 0x7A | 0x7B | 0x7C | 0x7E => [1]
  | 0x10 | 0x11 | 0x13 | 0x14 | 0x17 | 0x18 | 0x1B | 0x1C | 0x1D | 0x2F | 0x30 | 0x31 | 0x33 | 0x34
  | 0x38 | 0x39 | 0x3B | 0x3C => [0, 1, 2, 3]
  | 0x12 | 0x15 | 0x16 | 0x1F | 0x2A | 0x2B | 0x2E | 0x32 | 0x35 | 0x3A | 0x3D | 0x3F | 0x48 | 0x4D
  | 0x4F | 0x70 | 0x71 | 0x72 | 0x7F => [1, 3]
  | 0x19 | 0x1A | 0x1E | 0x20 | 0x21 | 0x22 | 0x24 | 0x25 | 0x26 | 0x27 | 0x2C | 0x36 | 0x68 | 0x69
  | 0x6A | 0x6B => [0, 1]
  | 0x2D => [1, 2, 3]
  | 0x7D => [2]
  | _ => []

/-- The instruction of a one-word opcode's literal form, or of PPOINT, with the literal `lit` (R34, R381). -/
def litInstr (opc : Nat) (h : Hdr) (lit : DWord) : Option Instr :=
  match opc with
  | 0x01 => some (.braLit h lit)
  | 0x02 => some (.bruLit h lit)
  | 0x04 => some (.callLit h lit)
  | 0x7D => some (.ppoint h lit)
  | _ => none

/-- The length code of a word 0 (R29). -/
def lenOf (w0 : Word) : Nat := bitsAt w0 0 2

/-- How many words an instruction with this word 0 has (R30). -/
def wordCount (w0 : Word) : Nat :=
  match lenOf w0 with
  | 0 => 1
  | 3 => 5
  | _ => 3

/-- The operand fields of a form of more than one word, from its words (R35, R38). -/
def extOf (ws : List Word) : Ext :=
  let w0 := ws.getD 0 0
  let w1 := ws.getD 1 0
  let w2 := ws.getD 2 0
  if lenOf w0 = 2 then
    { len := .lit3, d := (w0.extractLsb' 14 6).setWidth 8, a := (w0.extractLsb' 20 6).setWidth 8, b := 0, c := 0, sub := 0,
      scope := 0, mod := 0, lit := pair w1 w2 }
  else
    { len := if lenOf w0 = 3 then .x5 else .x3,
      d := w1.extractLsb' 0 8, a := w1.extractLsb' 8 8, b := w1.extractLsb' 16 8, c := w1.extractLsb' 24 8,
      sub := w2.extractLsb' 0 8, scope := w2.extractLsb' 8 3, mod := w2.extractLsb' 11 21,
      lit := if lenOf w0 = 3 then pair (ws.getD 3 0) (ws.getD 4 0) else 0 }

/-- The two codes of one further word of a DICT, the lower first (R42). -/
def codesOf (w : Word) : List (BitVec 16) := [w.extractLsb' 0 16, w.extractLsb' 16 16]

/-- The codes of a DICT instruction in ascending order (R42). -/
def dictCodes (ws : List Word) : List (BitVec 16) :=
  (ws.getD 0 0).extractLsb' 14 16 :: codesOf (ws.getD 1 0) ++ codesOf (ws.getD 2 0)
    ++ (if lenOf (ws.getD 0 0) = 3 then codesOf (ws.getD 3 0) ++ codesOf (ws.getD 4 0) else [])

/-- An instruction that passes step 4 of R54. -/
def orIllegalEnc (o : Option Instr) : Decoded :=
  match o with
  | some i => if i.wf then .ok i else .bad .illegalEnc
  | none => .bad .illegalEnc

/-- Steps 1 to 4 of R54 on the words of one instruction, of which missing ones read 0. -/
def decode (ws : List Word) : Decoded :=
  let w0 := ws.getD 0 0
  let opc := bitsAt w0 7 7
  let h : Hdr := { grd := w0.extractLsb' 3 4, sw := bitAt w0 2 }
  let len := lenOf w0
  if lensOf opc = [] then .bad .illegalOp
  else if !(lensOf opc).contains len || h.grd = 15 then .bad .illegalEnc
  else if opc = 0x7F then
    if h.grd = 7 && !h.sw && bitsAt w0 30 2 = 0 then orIllegalEnc (some (.dict (dictCodes ws))) else .bad .illegalEnc
  else if len = 0 then orIllegalEnc (baseInstr opc h w0)
  else if len = 2 && (litInstr opc h 0).isSome then
    if bitsAt w0 14 18 = 0 then orIllegalEnc (litInstr opc h (pair (ws.getD 1 0) (ws.getD 2 0))) else .bad .illegalEnc
  else
    let x := extOf ws
    match extInstr opc x.sub.toNat h x with
    | none => .bad .illegalOp
    | some i => if (if len = 2 then bitsAt w0 26 6 = 0 else bitsAt w0 14 18 = 0) && i.wf then .ok i else .bad .illegalEnc

/-- Word 0 (R29). -/
def word0 (h : Hdr) (opc len : Nat) (top : BitVec 18) : Word :=
  top ++ BitVec.ofNat 7 opc ++ h.grd ++ BitVec.ofBool h.sw ++ BitVec.ofNat 2 len

/-- The major opcode of each instruction (R55); 0 for a device step, which has no words. -/
def Instr.opcode (i : Instr) : Nat :=
  match i with
  | .nop .. => 0x00
  | .bra .. | .braLit .. => 0x01
  | .bru .. | .bruLit .. => 0x02
  | .brx .. => 0x03
  | .call .. | .callLit .. => 0x04
  | .callx .. => 0x05
  | .ret .. => 0x06
  | .exitItem .. => 0x07
  | .yield .. => 0x08
  | .brk .. => 0x09
  | .rgn .. => 0x0A
  | .plop .. => 0x0B
  | .jarr .. | .jget .. | .joinAt .. | .jset .. | .jwait .. => 0x0C
  | .matchEq .. | .redux .. | .shflDown .. | .shflIdx .. | .shflUp .. | .shflXor .. | .voteAll .. | .voteAny .. | .voteBal .. | .voteUni .. => 0x0D
  | .iadd .. | .iaddExt .. => 0x10
  | .isub .. | .isubExt .. => 0x11
  | .iaddc .. => 0x12
  | .imul .. | .imulExt .. => 0x13
  | .imulh .. | .imulhExt .. => 0x14
  | .imad .. => 0x15
  | .imadw .. => 0x16
  | .imin .. | .iminExt .. => 0x17
  | .imax .. | .imaxExt .. => 0x18
  | .iabs .. | .iabsExt .. => 0x19
  | .ineg .. | .inegExt .. => 0x1A
  | .andBase .. | .andExt .. => 0x1B
  | .orBase .. | .orExt .. => 0x1C
  | .xorBase .. | .xorExt .. => 0x1D
  | .notBase .. | .notExt .. => 0x1E
  | .lop3 .. => 0x1F
  | .shl .. | .shlExt .. => 0x20
  | .shr .. | .shrExt .. => 0x21
  | .sar .. | .sarExt .. => 0x22
  | .shf .. => 0x23
  | .rot .. | .rotExt .. => 0x24
  | .popc .. | .popcExt .. => 0x25
  | .clz .. | .clzExt .. => 0x26
  | .brev .. | .brevExt .. => 0x27
  | .bfe .. => 0x28
  | .bfi .. => 0x29
  | .icmp .. => 0x2A
  | .isel .. => 0x2B
  | .mov .. | .movExt .. => 0x2C
  | .movi .. => 0x2D
  | .lea .. => 0x2E
  | .iadd64 .. | .iadd64Ext .. => 0x2F
  | .fadd .. | .faddExt .. => 0x30
  | .fmul .. | .fmulExt .. => 0x31
  | .ffma .. => 0x32
  | .fmin .. | .fminExt .. => 0x33
  | .fmax .. | .fmaxExt .. => 0x34
  | .fcmp .. => 0x35
  | .frnd .. | .frndExt .. => 0x36
  | .fsfuCos .. | .fsfuExp2 .. | .fsfuLog2 .. | .fsfuRcp .. | .fsfuRsq .. | .fsfuSin .. | .fsfuSqrt .. => 0x37
  | .dadd .. | .daddExt .. => 0x38
  | .dmul .. | .dmulExt .. => 0x39
  | .dfma .. => 0x3A
  | .dmin .. | .dminExt .. => 0x3B
  | .dmax .. | .dmaxExt .. => 0x3C
  | .dcmp .. => 0x3D
  | .dsfuRcp .. | .dsfuSqrt .. => 0x3E
  | .hfma2 .. => 0x3F
  | .cvt .. => 0x40
  | .pack .. => 0x41
  | .unpk .. => 0x42
  | .fclass .. => 0x43
  | .hset .. => 0x48
  | .hget .. => 0x49
  | .hmov .. => 0x4A
  | .mzero .. => 0x4B
  | .mmov .. => 0x4C
  | .mld .. | .mst .. => 0x4D
  | .mext .. | .mins .. => 0x4E
  | .mfill .. => 0x4F
  | .mma .. => 0x50
  | .mmt .. => 0x51
  | .mtm .. => 0x52
  | .mms .. => 0x53
  | .mmg .. => 0x54
  | .mtrn .. => 0x55
  | .mewAdd .. | .mewMax .. | .mewMin .. | .mewMul .. | .mewScale .. | .mewSub .. => 0x56
  | .mredAll .. | .mredCol .. | .mredRow .. => 0x57
  | .mprn .. => 0x58
  | .mtopk .. => 0x59
  | .mgnorm .. => 0x5A
  | .mlu .. => 0x60
  | .mchol .. => 0x61
  | .mqr .. => 0x62
  | .mtrs .. => 0x63
  | .msolv .. => 0x64
  | .minv .. => 0x65
  | .mexp .. => 0x66
  | .mpow .. => 0x67
  | .ld .. | .ldExt .. => 0x68
  | .st .. | .stExt .. => 0x69
  | .lds .. | .ldsExt .. => 0x6A
  | .sts .. | .stsExt .. => 0x6B
  | .tagl .. => 0x6C
  | .tagi .. => 0x6D
  | .tage .. => 0x6E
  | .pref .. => 0x6F
  | .atomAdd .. | .atomAnd .. | .atomCas .. | .atomExch .. | .atomMax .. | .atomMin .. | .atomOr .. | .atomXor .. => 0x70
  | .atomsAdd .. | .atomsAnd .. | .atomsCas .. | .atomsExch .. | .atomsMax .. | .atomsMin .. | .atomsOr .. | .atomsXor .. => 0x71
  | .redAdd .. | .redAnd .. | .redMax .. | .redMin .. | .redOr .. | .redXor .. => 0x72
  | .fence .. => 0x73
  | .barArrive .. | .barSync .. | .barWait .. => 0x74
  | .waitv .. => 0x75
  | .dcwait .. => 0x76
  | .dcadd .. => 0x77
  | .cpyf .. | .cpyq .. | .cpys .. => 0x78
  | .launch .. => 0x79
  | .refill .. | .regrp .. => 0x7A
  | .sigwake .. | .sigwakeMb .. => 0x7B
  | .trap .. | .tret .. => 0x7C
  | .ppoint .. => 0x7D
  | .capq .. | .pfdone .. | .srd .. | .swr .. => 0x7E
  | .dict .. => 0x7F
  | _ => 0

/-- The header fields of an instruction; a DICT and a device step count as unguarded and unmarked (R42). -/
def Instr.hdr (i : Instr) : Hdr :=
  match i with
  | .andBase h .. | .andExt h .. | .atomAdd h .. | .atomAnd h .. | .atomCas h .. | .atomExch h .. | .atomMax h .. | .atomMin h .. | .atomOr h ..
  | .atomXor h .. | .atomsAdd h .. | .atomsAnd h .. | .atomsCas h .. | .atomsExch h .. | .atomsMax h .. | .atomsMin h .. | .atomsOr h .. | .atomsXor h ..
  | .barArrive h .. | .barSync h .. | .barWait h .. | .bfe h .. | .bfi h .. | .bra h .. | .braLit h .. | .brev h .. | .brevExt h ..
  | .brk h .. | .bru h .. | .bruLit h .. | .brx h .. | .call h .. | .callLit h .. | .callx h .. | .capq h .. | .clz h ..
  | .clzExt h .. | .cpyf h .. | .cpyq h .. | .cpys h .. | .cvt h .. | .dadd h .. | .daddExt h .. | .dcadd h .. | .dcmp h ..
  | .dcwait h .. | .dfma h .. | .dmax h .. | .dmaxExt h .. | .dmin h .. | .dminExt h .. | .dmul h .. | .dmulExt h .. | .dsfuRcp h ..
  | .dsfuSqrt h .. | .exitItem h .. | .fadd h .. | .faddExt h .. | .fclass h .. | .fcmp h .. | .fence h .. | .ffma h .. | .fmax h ..
  | .fmaxExt h .. | .fmin h .. | .fminExt h .. | .fmul h .. | .fmulExt h .. | .frnd h .. | .frndExt h .. | .fsfuCos h .. | .fsfuExp2 h ..
  | .fsfuLog2 h .. | .fsfuRcp h .. | .fsfuRsq h .. | .fsfuSin h .. | .fsfuSqrt h .. | .hfma2 h .. | .hget h .. | .hmov h .. | .hset h ..
  | .iabs h .. | .iabsExt h .. | .iadd h .. | .iadd64 h .. | .iadd64Ext h .. | .iaddExt h .. | .iaddc h .. | .icmp h .. | .imad h ..
  | .imadw h .. | .imax h .. | .imaxExt h .. | .imin h .. | .iminExt h .. | .imul h .. | .imulExt h .. | .imulh h .. | .imulhExt h ..
  | .ineg h .. | .inegExt h .. | .isel h .. | .isub h .. | .isubExt h .. | .jarr h .. | .jget h .. | .joinAt h .. | .jset h ..
  | .jwait h .. | .launch h .. | .ld h .. | .ldExt h .. | .lds h .. | .ldsExt h .. | .lea h .. | .lop3 h .. | .matchEq h ..
  | .mchol h .. | .mewAdd h .. | .mewMax h .. | .mewMin h .. | .mewMul h .. | .mewScale h .. | .mewSub h .. | .mexp h .. | .mext h ..
  | .mfill h .. | .mgnorm h .. | .mins h .. | .minv h .. | .mld h .. | .mlu h .. | .mma h .. | .mmg h .. | .mmov h ..
  | .mms h .. | .mmt h .. | .mov h .. | .movExt h .. | .movi h .. | .mpow h .. | .mprn h .. | .mqr h .. | .mredAll h ..
  | .mredCol h .. | .mredRow h .. | .msolv h .. | .mst h .. | .mtm h .. | .mtopk h .. | .mtrn h .. | .mtrs h .. | .mzero h ..
  | .nop h .. | .notBase h .. | .notExt h .. | .orBase h .. | .orExt h .. | .pack h .. | .pfdone h .. | .plop h .. | .popc h ..
  | .popcExt h .. | .ppoint h .. | .pref h .. | .redAdd h .. | .redAnd h .. | .redMax h .. | .redMin h .. | .redOr h .. | .redXor h ..
  | .redux h .. | .refill h .. | .regrp h .. | .ret h .. | .rgn h .. | .rot h .. | .rotExt h .. | .sar h .. | .sarExt h ..
  | .shf h .. | .shflDown h .. | .shflIdx h .. | .shflUp h .. | .shflXor h .. | .shl h .. | .shlExt h .. | .shr h .. | .shrExt h ..
  | .sigwake h .. | .sigwakeMb h .. | .srd h .. | .st h .. | .stExt h .. | .sts h .. | .stsExt h .. | .swr h .. | .tage h ..
  | .tagi h .. | .tagl h .. | .trap h .. | .tret h .. | .unpk h .. | .voteAll h .. | .voteAny h .. | .voteBal h .. | .voteUni h ..
  | .waitv h .. | .xorBase h .. | .xorExt h .. | .yield h .. => h
  | _ => { grd := 7, sw := false }

/-- Bits 14-31 of word 0 of a one-word instruction (R33). -/
def Instr.baseField (i : Instr) : BitVec 18 :=
  match i with
  | .andBase _ d a b | .dadd _ d a b | .dmax _ d a b | .dmin _ d a b | .dmul _ d a b | .fadd _ d a b | .fmax _ d a b
  | .fmin _ d a b | .fmul _ d a b | .iadd _ d a b | .iadd64 _ d a b | .imax _ d a b | .imin _ d a b | .imul _ d a b
  | .imulh _ d a b | .isub _ d a b | .ld _ d a b | .lds _ d a b | .orBase _ d a b | .st _ d a b | .sts _ d a b
  | .xorBase _ d a b => b ++ a ++ d
  | .brev _ d a | .clz _ d a | .frnd _ d a | .iabs _ d a | .ineg _ d a | .mov _ d a | .notBase _ d a | .popc _ d a => (0 : BitVec 6) ++ a ++ d
  | .rot _ d a n | .sar _ d a n | .shl _ d a n | .shr _ d a n => (0 : BitVec 1) ++ n ++ a ++ d
  | .bra _ off | .bru _ off | .call _ off => off
  | .brx _ a | .callx _ a => (0 : BitVec 6) ++ a ++ (0 : BitVec 6)
  | .brk _ n => (0 : BitVec 1) ++ n ++ (0 : BitVec 12)
  | _ => 0
/-- The instruction has one word (R30). -/
def Instr.isBase (i : Instr) : Bool :=
  match i with
  | .andBase .. | .bra .. | .brev .. | .brk .. | .bru .. | .brx .. | .call .. | .callx .. | .clz .. | .dadd ..
  | .dmax .. | .dmin .. | .dmul .. | .exitItem .. | .fadd .. | .fmax .. | .fmin .. | .fmul .. | .frnd .. | .iabs ..
  | .iadd .. | .iadd64 .. | .imax .. | .imin .. | .imul .. | .imulh .. | .ineg .. | .isub .. | .ld .. | .lds ..
  | .mov .. | .nop .. | .notBase .. | .orBase .. | .popc .. | .ret .. | .rgn .. | .rot .. | .sar .. | .shl ..
  | .shr .. | .st .. | .sts .. | .xorBase .. | .yield .. => true
  | _ => false

/-- The words of a form of more than one word (R35, R38). -/
def encodeExt (h : Hdr) (opc : Nat) (x : Ext) : List Word :=
  let w1 : Word := x.c ++ x.b ++ x.a ++ x.d
  let w2 : Word := x.mod ++ x.scope ++ x.sub
  match x.len with
  | .lit3 => [word0 h opc 2 ((0 : BitVec 6) ++ x.a.setWidth 6 ++ x.d.setWidth 6), lo32 x.lit, hi32 x.lit]
  | .x3 => [word0 h opc 1 0, w1, w2]
  | .x5 => [word0 h opc 3 0, w1, w2, lo32 x.lit, hi32 x.lit]

/-- Two codes in one word (R42). -/
def codeWord (codes : List (BitVec 16)) (k : Nat) : Word := codes.getD (k + 1) 0 ++ codes.getD k 0

/-- The words of an instruction; none for a device step. -/
def encode (i : Instr) : List Word :=
  match i with
  | .dict codes =>
    let w0 := word0 { grd := 7, sw := false } 0x7F (if codes.length = 9 then 3 else 1) ((codes.getD 0 0).setWidth 18)
    if codes.length = 9 then w0 :: [codeWord codes 1, codeWord codes 3, codeWord codes 5, codeWord codes 7]
    else w0 :: [codeWord codes 1, codeWord codes 3]
  | .braLit h t | .bruLit h t | .callLit h t | .ppoint h t => [word0 h i.opcode 2 0, lo32 t, hi32 t]
  | _ =>
    match i.entry with
    | some (_, x) => encodeExt i.hdr i.opcode x
    | none => if i.isBase then [word0 i.hdr i.opcode 0 i.baseField] else []

/-- The instruction that the decoder reads from `nbits` bits `w`, bit 0 the least significant bit of the first word,
every later bit 0. -/
def decodeTableWord (nbits w : Nat) : Option Instr :=
  let w := w % 2 ^ nbits
  match decode ((List.range 5).map fun k => BitVec.ofNat 32 (w / 2 ^ (32 * k))) with
  | .ok i => some i
  | .bad _ => none

end Sys2Proof
end

