-- ==== Sys2Proof/Machine/Map.lean ====
section
/-! DEFINITION. Sparse data by key: a list of keys and values with strictly rising keys, and the plain list helpers that
the machine uses. A bank of registers lists only the entries that differ from its default, so equal banks are equal
lists. -/

namespace Sys2Proof.Machine

/-- Values by number, keys strictly rising. -/
abbrev FMap (α : Type) := List (Nat × α)

/-- The value listed at `k`. -/
def fget? {α : Type} (m : FMap α) (k : Nat) : Option α :=
  match m with
  | [] => none
  | (j, a) :: t => if j = k then some a else fget? t k

/-- The value at `k`, or `d` where none is listed. -/
def fgetD {α : Type} (m : FMap α) (k : Nat) (d : α) : α := (fget? m k).getD d

/-- List `a` at `k`, in place of what was listed there. -/
def fset {α : Type} (m : FMap α) (k : Nat) (a : α) : FMap α :=
  match m with
  | [] => [(k, a)]
  | (j, b) :: t => if k < j then (k, a) :: (j, b) :: t else if k = j then (k, a) :: t else (j, b) :: fset t k a

/-- List nothing at `k`. -/
def ferase {α : Type} (m : FMap α) (k : Nat) : FMap α :=
  match m with
  | [] => []
  | (j, b) :: t => if k = j then ferase t k else (j, b) :: ferase t k

/-- Hold `a` at `k` in a bank whose unlisted entries are `d`. -/
def fput {α : Type} [DecidableEq α] (d : α) (m : FMap α) (k : Nat) (a : α) : FMap α :=
  if a = d then ferase m k else fset m k a

/-- Change the value listed at `k`, if any. -/
def fmod {α : Type} (m : FMap α) (k : Nat) (f : α → α) : FMap α :=
  match m with
  | [] => []
  | (j, b) :: t => if j = k then (j, f b) :: t else (j, b) :: fmod t k f

/-- Every key lies above `k`, and the keys rise strictly. -/
def fsorted {α : Type} (lo : Nat) (m : FMap α) : Bool :=
  match m with
  | [] => true
  | (j, _) :: t => lo ≤ j && fsorted (j + 1) t

/-- Apply `f` to the entries of a list and their places, counted from `k`. -/
def mapFrom {α β : Type} (f : Nat → α → β) (k : Nat) (l : List α) : List β :=
  match l with
  | [] => []
  | a :: t => f k a :: mapFrom f (k + 1) t

/-- Replace the entry at place `k`, if there is one. -/
def setAt {α : Type} (l : List α) (k : Nat) (a : α) : List α :=
  match l, k with
  | [], _ => []
  | _ :: t, 0 => a :: t
  | b :: t, k + 1 => b :: setAt t k a

/-- Remove the entry at place `k`, if there is one. -/
def dropAt {α : Type} (l : List α) (k : Nat) : List α :=
  match l, k with
  | [], _ => []
  | _ :: t, 0 => t
  | b :: t, k + 1 => b :: dropAt t k

/-- Insert before the first entry that does not go before `a`. -/
def insertBy {α : Type} (before : α → α → Bool) (a : α) (l : List α) : List α :=
  match l with
  | [] => [a]
  | b :: t => if before b a then b :: insertBy before a t else a :: b :: t

/-- Stable insertion sort, `lt` the strict order. -/
def sortBy {α : Type} (lt : α → α → Bool) (l : List α) : List α :=
  l.foldl (fun acc a => insertBy (fun b x => !lt x b) a acc) []

/-- The numbers of the lanes of a mask, ascending. -/
def lanesOf (m : Mask) : List Nat := (List.range 32).filter fun i => bitAt m i

/-- The number whose bit `i` is `p i` for `i` below `n`, every other bit 0. -/
def bitsNat (p : Nat → Bool) (n : Nat) : Nat :=
  match n with
  | 0 => 0
  | n + 1 => bitsNat p n + (if p n then 2 ^ n else 0)

/-- The mask of the lanes that satisfy `p`. -/
def maskOf (p : Nat → Bool) : Mask := BitVec.ofNat 32 (bitsNat p 32)

/-- The mask of one lane. -/
def laneBit (i : Nat) : Mask := BitVec.ofNat 32 (2 ^ i)

/-- The lowest lane of a mask, 32 for an empty one. -/
def lowest (m : Mask) : Nat := (lanesOf m).headD 32

/-- How many lanes a mask holds. -/
def popCount (m : Mask) : Nat := (lanesOf m).length

/-- The bytes of a number, lowest first (R1). -/
def bytesOf (n x : Nat) : List Byte :=
  match n with
  | 0 => []
  | n + 1 => BitVec.ofNat 8 (x % 256) :: bytesOf n (x / 256)

/-- The number whose bytes are given, lowest first (R1). -/
def ofBytes (l : List Byte) : Nat :=
  match l with
  | [] => 0
  | b :: t => b.toNat + 256 * ofBytes t

/-- Division rounding up. -/
def cdiv (a b : Nat) : Nat := (a + b - 1) / b

/-- `n` rounded up to a multiple of `k`. -/
def roundUp (n k : Nat) : Nat := cdiv n k * k

end Sys2Proof.Machine
end

