-- ==== Sys2Proof/Machine/State.lean ====
section
/-! DEFINITION. The state of the device as plain data: lanes, slices, warps, workgroups, cores, memory, and the state of
the hub, the die sequencers and Jasper, each field with the rule of spec/ that names it. -/

namespace Sys2Proof.Machine

/-- Why a step stops. No step of `step` does: they answer a meaning that is asked for out of its place. -/
inductive Fault where
  /-- The meaning of an instruction was asked for in a state in which no gang has been picked to issue (R90): raised by
  every instruction's meaning, reached by no step. Safe: the machine stops. -/
  | notIssued
  /-- The meaning of a device step was asked for in a state in which no such step is about to happen: raised by every
  device step's meaning, reached by no step. Safe: the machine stops. -/
  | notPosted
deriving DecidableEq, Repr

/-- Why an instruction has no meaning. -/
inductive Refusal where
  /-- The row named has no meaning in the model yet: raised by no arm of `exec`. Safe: the machine stops. -/
  | notModelled (mnemonic : String)
deriving DecidableEq, Repr

/-- A trap that a result raises when it returns (R209, R226, R249): cause code, subcode, %tpc and resumption PC. -/
structure Raise where
  code : Nat
  sub : Nat
  pc : PC
  cont : PC
deriving DecidableEq, Repr

/-- A translated piece of an access. -/
structure Piece where
  pa : Nat
  key : Nat
  len : Nat
  /-- The entry used, for the TLB. -/
  leaf : DWord
  log : Nat
  va : Nat
deriving DecidableEq, Repr

/-- The operation of an atomic or a far reduction: sub-opcode of R257, size in bytes, signed and float operands. -/
structure AtomOp where
  op : Nat
  n : Nat
  sgn : Bool
  flt : Bool
deriving DecidableEq, Repr

/-- A global load or atomic of one lane that has issued and has not read its location yet (R49, R279): the step in which it issued, its
pieces, the register and the size and sign of its result, the trap that a poisoned line raises, and, of an atomic, its operation with
operand and comparand (R258). -/
structure LateRead where
  id : Nat
  pieces : List Piece
  d : Nat
  n : Nat
  sgn : Bool
  raise : Raise
  rmw : Option (AtomOp × Nat × Nat) := none
  /-- The widest scope of a releasing FENCE of its lane since it issued, or 0: later REDs of no wider scope come after it (R267, R282). -/
  fence : Nat := 0
deriving DecidableEq, Repr

/-- The pending result of one variable-latency instruction in one lane (R49). -/
structure Pend where
  /-- Destination words with the values that return. -/
  regs : List (Nat × Word) := []
  /-- Destination predicates. -/
  preds : List (Nat × Bool) := []
  /-- Sticky %fst bits to set (R73). -/
  fst : Word := 0
  /-- Row masks of shape registers that MLD writes (R177). -/
  rows : List (Nat × Word) := []
  /-- A result of opcodes 0x4B to 0x67: these complete in issue order (R53). -/
  matrix : Bool := false
  /-- Destination words that another instruction has written since (R52). -/
  clashV : List Nat := []
  /-- Destination predicates that another instruction has written since. -/
  clashP : List Nat := []
  /-- %fst bits that an SWR has written since (R73). -/
  clashF : Bool := false
  /-- Row masks of shape registers that HSET or HMOV have written since. -/
  clashH : List Nat := []
  raise : Option Raise := none
  /-- The access that is to bring the result, while it has not been performed: `regs` then names the destination words alone. -/
  read : Option LateRead := none
deriving DecidableEq, Repr

/-- What a lane that keeps its slot waits for (R95). -/
inductive Wait where
  /-- EXIT, before the lane becomes vacant (R113). -/
  | exit
  /-- The end of phase `phase` of a barrier, at the BAR.sync or BAR.wait with PC value `pc`; `waited` in ns toward the wait
  limit (R270, R275). -/
  | bar (cluster : Bool) (id phase : Nat) (sync : Bool) (pc next : PC) (waited : Nat)
  /-- The end of phase `phase`, after which the lane arrives, and then waits if `sync` (R269). -/
  | barNext (cluster : Bool) (id phase : Nat) (sync : Bool) (pc next : PC) (waited : Nat)
  /-- WAITV at `pc`: its form, address, operand, and the executing lanes with which it issued (R274). -/
  | waitv (x : Ext) (addr : DWord) (val : DWord) (pc : PC) (gang : Mask) (waited : Nat)
  /-- Past a WAITV, until every lane of `gang` is (R274). -/
  | waitvLeft (gang : Mask)
  /-- DCWAIT on a counter (R278). -/
  | dcwait (ctr : Nat) (pc : PC)
  /-- Jasper resolves a fault of the lane's path (R241, R242). -/
  | jasper
  /-- At the entry of a Nelrak-1 function, waiting for its translation; its binding slot, once Jasper has looked at it, else 0
  (R402). -/
  | translation (slot : DWord)
  /-- At a Nelrak-1 address to which a computed branch has gone, until Jasper has found the function that it enters or lies in (R402). -/
  | midway
deriving DecidableEq, Repr

/-- What a parked lane waits on (R95). -/
inductive ParkAt where
  | join (j : Nat)
  /-- VOTE, SHFL, MATCH or REDUX; whether the lane's guard was true as it arrived (R102). -/
  | warpWide (i : Instr) (guard : Bool)
  /-- REGRP, with the lane's guard (R349). -/
  | regrp (i : Instr) (guard : Bool)
  | tret
  /-- TRET.pc with its target (R380). -/
  | tretPc (target : PC)
  /-- PPOINT with its literal, while a pre-emption request is pending (R364, R381). -/
  | ppoint (live : DWord)
  | pfdone
  /-- Lanes that could not re-enter for want of stack depth, until their trap is delivered (R96). -/
  | overflow
deriving DecidableEq, Repr

/-- A parked lane: its PC value, which for `join`, `ppoint` and `overflow` is where it continues. -/
structure Park where
  pc : PC
  why : ParkAt
deriving DecidableEq, Repr

/-- The multiply chain that is open in a lane, with its checks (R166, R185). -/
structure Chain where
  /-- First word and shape of the destination view. -/
  dst : Nat
  shape : Word
  /-- PC value after the chain's last instruction (R356). -/
  next : PC
  /-- Unbiased exponent E of R166; the last place of a float check is 2^(E − 135). -/
  exp : Int
  /-- Row and column checks: integers, or multiples of the last place. -/
  rows : List Int
  cols : List Int
  /-- Rows and columns that a non-finite term would enter. -/
  badRows : List Bool
  badCols : List Bool
  /-- Rows that some instruction of the chain admits. -/
  admitted : List Bool
  /-- The rows that take part in the checks, if not all do (R192). -/
  part : Option (List Bool) := none
  /-- The chain has ended and waits to drain (R161). -/
  ended : Bool
deriving DecidableEq, Repr

/-- One lane of a warp, the registers that a kernel names. -/
structure Lane where
  /-- v0 to v255; an unlisted register holds 0 (R39). -/
  regs : FMap Word := []
  /-- p0 to p6 (R107). -/
  preds : BitVec 7 := 0
  /-- h0 to h15; an unlisted register holds 0 (R148). -/
  shapes : FMap Word := []
  /-- Row masks of h0 to h15; an unlisted one holds 1 (R151). -/
  rowMasks : FMap Word := []
  /-- %wid, %wgen, %fst, %slv (R41). -/
  wid : DWord := 0
  wgen : Word := 0
  fst : Word := 0
  slv : Word := 0x28
  /-- The region register (R108). -/
  region : PC := 0
  /-- The lane has no item (R97). -/
  vacant : Bool := true
  pend : List Pend := []
  wait : Option Wait := none
  /-- The gang with which the lane has passed a switch point and still waits; 0 for none (R49). -/
  sw : Mask := 0
  park : Option Park := none
  chain : Option Chain := none
  /-- A matrix cell that serves the lane has a parity error, a soft error that its solves meet (R212). -/
  parity : Bool := false
  /-- Phase of the lane's last arrival on each barrier: workgroup barriers 0 to 7, cluster barriers 8 to 15 (R270). -/
  arrivals : FMap Nat := []
  /-- The lane runs a trap or power-fail handler (R358). -/
  handler : Bool := false
  /-- First cycle of the quarter at which the lane's path may issue after a branch (R112). -/
  readyAt : Nat := 0
  /-- Cycle of the quarter before which the arbiter passes over the lane's path (R114). -/
  yieldTo : Nat := 0
deriving DecidableEq, Repr

/-- A live PC slot: the lanes 4s + k of its slice s (R89). -/
structure Slot where
  pc : PC
  mask : BitVec 4
deriving DecidableEq, Repr

/-- One slice: its live slots, the older first, and its part of the divergence stack, the top first (R89, R92). During a
handler `aside` holds the slots that are set aside and `base` the depth below which nothing is popped (R358). -/
structure Slice where
  slots : List Slot := []
  stack : List DWord := []
  aside : List Slot := []
  base : Nat := 0
deriving DecidableEq, Repr

/-- A join register (R98). -/
structure Join where
  expect : Mask := 0
  arrived : Mask := 0
deriving DecidableEq, Repr

/-- Where a trap resumes (R356). -/
inductive Resume where
  | region
  /-- At `Cause.cont`. -/
  | cont
  /-- Each lane at its own continuation (R96). -/
  | own
  | wait
  | none
deriving DecidableEq, Repr

/-- A trap cause that has arisen in a warp and is not yet delivered (R355, R356). -/
structure Cause where
  code : Nat
  sub : Nat := 0
  /-- %tmask: the lanes that the cause's own rule names. -/
  mask : Mask
  /-- The lanes of the faulting path. -/
  path : Mask
  /-- %tpc. -/
  pc : PC
  resume : Resume
  /-- PC value at which the cause's lanes resume when that is not their region entry. -/
  cont : PC
  /-- The address that failed to translate, for Jasper, and the number of the event that told Jasper (R24). -/
  va : DWord := 0
  seq : Nat := 0
deriving DecidableEq, Repr

/-- What the trap frame records for one handler lane: its region entry, its PC value and its wait (R359, R362). -/
structure SavedLane where
  lane : Nat
  region : PC
  pc : PC
  wait : Option Wait
deriving DecidableEq, Repr

/-- The trap that a warp's handler serves (R358, R362). -/
structure TrapRec where
  cause : Cause
  /-- What %tcause, %tmask and %tpc read: the cause, or the second one of a double fault (R357, R358). -/
  shown : Cause
  saved : List SavedLane
  /-- Causes that arose with it, and are taken after the return if they still hold (R355). -/
  later : List Cause := []
deriving DecidableEq, Repr

/-- Whether a warp may issue (R355, R360, R373). -/
inductive Stop where
  | running
  /-- Stopped by a debugger; `step` names the one path that may issue one instruction. -/
  | debugger (step : Option PC)
  /-- Halted by the HALT policy; the cause. -/
  | halted (cause : Cause)
  /-- Stopped at an instruction boundary for a save (R364). -/
  | preempted
  /-- Ended: its part in the launch is over (R361, R367). -/
  | ended
deriving DecidableEq, Repr

/-- A warp in its hardware position, die, core, quarter and warp slot (R359). -/
structure Warp where
  /-- Number of its workgroup. -/
  wg : Nat
  /-- Number that names this stay of the warp. -/
  uid : Nat
  /-- %warp. -/
  widx : Nat
  /-- Dispatch order on the core (R346). -/
  age : Nat := 0
  lanes : List Lane
  slices : List Slice
  joins : List Join
  /-- Member masks fixed for the warp-wide instructions at which lanes are parked (R102). -/
  members : List (PC × Mask) := []
  /-- Wait count of the issue arbiter (R346). -/
  waitCount : Nat := 0
  /-- Causes that have arisen, and causes that Jasper is resolving. -/
  causes : List Cause := []
  jasper : List Cause := []
  trap : Option TrapRec := none
  stop : Stop := .running
  /-- In a power-fail handler (R367). -/
  pfail : Bool := false
  /-- The wait limit that holds for the warp, in ns; 0 disables it (R275, R354). -/
  limit : Nat := 0
deriving DecidableEq, Repr

/-- A barrier; the masks are listed by warp, or by 32 × rank + warp for a cluster barrier (R268). -/
structure Barrier where
  phase : Nat := 0
  required : FMap Mask := []
  arrived : FMap Mask := []
deriving DecidableEq, Repr

/-- The status and the bytes read of a copy entry whose accesses have been performed (R299). -/
structure CopyResult where
  status : Nat
  bytes : Nat
deriving DecidableEq, Repr

/-- What a copy entry has read once, as it started: its tensor descriptor, if it has reached it, and the bytes of its compand table, if one has
been loaded (R82, R303, R311). -/
structure Begun where
  desc : List Byte := []
  table : Option (List Byte) := none
deriving DecidableEq, Repr

/-- A copy queue (R298). -/
structure CopyQueue where
  /-- The 32 ring slots; an unlisted slot holds 0. -/
  ring : FMap (BitVec 256) := []
  tail : Word := 0
  done : Word := 0
  err : Word := 0
  last : Word := 0
  stopped : Bool := false
  /-- The entry at `done` has started, and is delayed (R313). -/
  begun : Option Begun := none
  /-- The entry at `done` has been performed and is not complete yet. -/
  performed : Option CopyResult := none
  /-- Its event record has gone to the event stream, and holds back the done count until it is written (R299, R323). -/
  posted : Option (List Byte) := none
deriving DecidableEq, Repr

/-- A tag slot (R229); a greater stamp is more recent. -/
structure TagSlot where
  valid : Bool := false
  key : DWord := 0
  pin : Bool := false
  stamp : Nat := 0
deriving DecidableEq, Repr

/-- A resident workgroup. -/
structure Workgroup where
  launch : Nat
  /-- %wg. -/
  num : Nat
  /-- die × 48 + core. -/
  core : Nat
  /-- Number of its cluster set, if it belongs to one (R334). -/
  cset : Option Nat := none
  /-- Bytes of the scratchpad allocation that have been written (R224, R416). -/
  scratch : FMap Byte := []
  /-- Scratchpad words with one or two bits in error (R226). -/
  scratchErr : FMap Nat := []
  bars : List Barrier := []
  /-- d0 to d15 when granted, else empty (R276). -/
  counters : List Word := []
  queues : List CopyQueue := []
  /-- The granules of the core's scratchpad that its allocation takes, in order (R416). -/
  granules : List Nat := []
  tags : List TagSlot := []
  stamp : Nat := 0
  /-- Positions of its warps that have not left, by %warp. -/
  warps : FMap Nat := []
  /-- The time, in ns, that a pre-emption request has covered it, without the pauses (R364). -/
  preempt : Option Nat := none
  /-- How often a restore has left part of the scratchpad undefined (R365). -/
  losses : Nat := 0
deriving DecidableEq, Repr

/-- A cluster set: its eight cluster barriers, and the member workgroups that have not retired, by rank (R268, R334). -/
structure ClusterSet where
  launch : Nat
  /-- die × 12 + cluster. -/
  cluster : Nat
  bars : List Barrier
  members : FMap Nat
deriving DecidableEq, Repr

/-- A loaded dictionary bank with its identity (R44). -/
structure Bank where
  ctx : Nat
  addr : DWord
  size : Nat
  words : List Word
deriving DecidableEq, Repr

/-- What a core holds beside its workgroups. -/
structure Core where
  /-- Energy bucket in pJ (R344). -/
  energy : Int := 46875000
  /-- Quarters that have overdrawn in this refill period (R346). -/
  overdrawn : BitVec 4 := 0
  /-- Cycle count of each quarter. -/
  cycles : FMap Nat := []
  /-- Cycle of each quarter at which its matrix pipe is free, and at which it may issue again (R48, R161). -/
  pipeFree : FMap Nat := []
  issueFree : FMap Nat := []
  banks : List Bank := []
  /-- The context whose workgroup last wrote each granule of the scratchpad (R416). -/
  writers : FMap Nat := []
  /-- Warps dispatched so far (R346). -/
  dispatched : Nat := 0
deriving DecidableEq, Repr

/-- A translation held by a TLB: the leaf entry of the page at `page`, of `2^log` bytes (R239). -/
structure TlbEntry where
  ctx : Nat
  page : Nat
  log : Nat
  leaf : DWord
deriving DecidableEq, Repr

/-- An accepted RED that has not been applied (R263). -/
structure Red where
  launch : Nat
  /-- Die of the issuing core. -/
  die : Nat
  wg : Nat
  /-- The stay of the warp, and its lanes whose values the combiner merged. -/
  warp : Nat
  lanes : Mask
  scope : Nat
  ctx : Nat
  va : Nat
  pa : Nat
  key : Nat
  /-- The arbiter that numbers what its unit reports: the issuing die, or the hub when the unit lies on another one or may (R24). -/
  arb : Nat
  /-- Sub-opcode of R257, size in bytes, signed and float operands, and the value. -/
  op : Nat
  size : Nat
  signed : Bool
  float : Bool
  val : DWord
deriving DecidableEq, Repr

/-- A store of one lane that has issued and is not performed yet: its warp's stay, its lane, the step in which it issued, and its pieces
with their bytes (R235, R279). -/
structure Late where
  id : Nat
  warp : Nat
  lane : Nat
  pieces : List Piece
  bytes : List Byte
  /-- As in `LateRead`. -/
  fence : Nat := 0
deriving DecidableEq, Repr

/-- Memory and its translation. -/
structure MemSys where
  /-- Physical memory: addresses strictly rising, no byte equal to what an unlisted address reads as. -/
  cells : List Host.Cell := []
  /-- Key that last wrote each 64-byte unit, by unit number: its id + 4,096 × the number of its load; an unlisted unit has key 0
  (R238). -/
  keys : FMap Nat := []
  /-- How often the security engine has loaded a key into each id (R378), and the 512 bits of each key loaded, by its number in
  `keys` (R238). -/
  keyGens : FMap Nat := []
  keyBits : FMap Nat := []
  /-- Poisoned 64-byte lines, by line number (R249). -/
  poison : FMap Unit := []
  tlb : List TlbEntry := []
  reds : List Red := []
  late : List Late := []
deriving DecidableEq, Repr

/-- A context (R354). -/
structure Ctx where
  root : DWord := 0
  trapVec : DWord := 0
  pfailVec : DWord := 0
  trapArea : DWord := 0
  saveArea : DWord := 0
  saveLen : Nat := 0
  waitLimit : Word := 0
  policyHalt : Bool := false
  mmMode : Nat := 3
  savePrio : Nat := 0
  keepTag : DWord := 0
  /-- Must-save ranges, address and length (R354). -/
  keeps : List (DWord × Nat) := []
  /-- Creation order (R368). -/
  order : Nat := 0
  /-- Killed, and not yet destroyed (R360). -/
  killed : Bool := false
  /-- Being moved to another device: its task-graph nodes start no more (R403). -/
  drained : Bool := false
  /-- Key ids assigned to it (R378). -/
  keys : List Nat := []
  /-- Compand tables 1 to 7 that have been loaded, by number: the bytes of each (R82). -/
  tables : FMap (List Byte) := []
deriving DecidableEq, Repr

/-- A packet that has started and is not yet passed by read_idx (R326). -/
structure Started where
  idx : Word
  done : Bool
deriving DecidableEq, Repr

/-- A condition of a FENCE packet (R325, R326). -/
structure FenceCond where
  addr : DWord
  val : DWord
  ge : Bool
  held : Bool
deriving DecidableEq, Repr

/-- A packet that holds back every later one (R326). -/
inductive Hold where
  | fence (idx : Word) (conds : List FenceCond)
  | tickwait (idx : Word) (left : Nat) (wake : Bool)
deriving DecidableEq, Repr

/-- An event record that waits for room in the event ring: its 32 bytes (R323, R324). -/
abbrev Record := List Byte

/-- A launch queue (R319). -/
structure Queue where
  ctx : Option Nat := none
  ringBase : DWord := 0
  writeIdx : Word := 0
  readIdx : Word := 0
  wake : Word := 0
  ringLog : Nat := 0
  tickSel : Nat := 0
  /-- 0 running, 1 stopped, 2 disabled. -/
  state : Nat := 2
  err : Nat := 0
  evBase : DWord := 0
  evLog : Nat := 0
  evWrite : Word := 0
  evRead : Word := 0
  /-- Index of the first packet that has not started (R326). -/
  nextIdx : Word := 0
  started : List Started := []
  hold : Option Hold := none
  /-- Records that wait to be posted, in order. -/
  records : List Record := []
deriving DecidableEq, Repr

/-- A tick generator (R321, R322). -/
structure Gen where
  start : DWord := 0
  period : Word := 0
  /-- Number of its next boundary. -/
  next : Nat := 0
deriving DecidableEq, Repr

/-- What a die has claimed of a launch: the rest of its chunk and of its lane block, as from and to (R336). -/
structure Dispense where
  chunkLo : Nat := 0
  chunkHi : Nat := 0
  laneLo : Nat := 0
  laneHi : Nat := 0
deriving DecidableEq, Repr

/-- The fields of a launch header (R329). -/
structure Header where
  code : DWord := 0
  dict : DWord := 0
  args : DWord := 0
  items : DWord := 0
  scratch : Word := 0
  entryOff : Word := 0
  refillOff : Word := 0
  widths : List Nat := []
  regs : Nat := 8
  warps : Nat := 1
  prio : Nat := 0
  queues : Nat := 0
  resident : Bool := false
  clset : Bool := false
  dctr : Bool := false
  dictSize : Nat := 0
  isaRev : Nat := 3
  mmRev : Nat := 3
  dieMask : Nat := 0
  tagSlots : Nat := 0
  tagLog : Nat := 0
  tagBase : Word := 0
  /-- Every reserved bit is 0 (R330). -/
  clean : Bool := true
deriving DecidableEq, Repr

/-- How far the completion of a launch or a graph has come (R331). -/
inductive Stage where
  | running
  /-- The record has been written, or dropped; the signal is next. -/
  | recorded
  | complete
deriving DecidableEq, Repr

/-- Who started a launch: a packet of a queue, or a node of a graph (R326, R341). -/
inductive Starter where
  | packet (queue : Nat) (idx : Word)
  | node (graph : Nat) (node : DWord)
deriving DecidableEq, Repr

/-- A launch in flight. -/
structure Launch where
  ctx : Nat
  by_ : Starter
  hdr : Header
  recAt : DWord := 0
  sig : DWord := 0
  sigVal : DWord := 0
  /-- May be rolled back, reruns allowed and taken (R343). -/
  idem : Bool := false
  retry : Nat := 0
  tries : Nat := 0
  /-- Output ranges of its node, address and length. -/
  outs : List (DWord × Nat) := []
  /-- Identifiers that no die has claimed, as from and to (R20). -/
  pool : List (Nat × Nat) := []
  /-- The ranges with which `pool` begins each run: all of them, or, once the dispenser has closed, those dispensed before (R338, R403). -/
  ranges : List (Nat × Nat) := []
  dies : FMap Dispense := []
  status : Nat := 0
  closed : Bool := false
  rollback : Bool := false
  /-- Boundaries left before the deadline passes, on a queue's generator (R328). -/
  deadline : Option Nat := none
  missed : Bool := false
  itemsDone : Nat := 0
  lostJoins : Nat := 0
  matCorr : Nat := 0
  scrCorr : Nat := 0
  wgRetired : Nat := 0
  /-- Number of the next workgroup. -/
  nextWg : Nat := 0
  /-- The workgroups of a RESIDENT launch are placed (R335). -/
  placed : Bool := false
  tStart : Option Nat := none
  tBegin : Nat := 0
  /-- Dies on which it has run (R24). -/
  usedDies : List Nat := []
  /-- A containment cause has arisen and waits for the task-graph walker (R343, R361). -/
  contain : Bool := false
  /-- Start order (R333). -/
  order : Nat := 0
  stage : Stage := .running
  /-- The record could not be written, so the signal is not performed (R417). -/
  recLost : Bool := false
  /-- Sequence number of the completion event (R24), and its time (R331). -/
  seq : Nat := 0
  tEnd : Nat := 0
deriving DecidableEq, Repr

/-- A task graph that a GRAPH packet started (R341). -/
structure Graph where
  ctx : Nat
  queue : Nat
  idx : Word
  recAt : DWord
  sig : DWord
  sigVal : DWord
  ready : List DWord
  /-- Nodes that have started, and nodes whose work is done and whose successors are not yet released. -/
  running : List DWord := []
  finished : List DWord := []
  /-- On the device that a drain leaves: nodes that move to the other device, whole or with the rest of their launch. On the other one:
  nodes whose drained launch has not started again here (R403). -/
  moved : List DWord := []
  /-- COPY nodes whose entry has started and is delayed, with the entry as it was read (R342, R375). -/
  copying : List (DWord × BitVec 256) := []
  deadline : Option Nat := none
  missed : Bool := false
  tBegin : Nat := 0
  status : Nat := 0
  stage : Stage := .running
  recLost : Bool := false
  seq : Nat := 0
  tEnd : Nat := 0
deriving DecidableEq, Repr

/-- A collective handle (R375, R377). -/
structure Handle where
  members : List HandleMember
  aborted : Bool := false
  /-- Tokens of puts that this device has sent and no peer has acknowledged, and tokens received (R376). -/
  sent : List Nat := []
  received : List Nat := []
  /-- The copy queues that had an entry at their head when the handle was aborted, as 4 × workgroup + queue, with the entry's
  number (R377). -/
  atAbort : List (Nat × Word) := []
deriving DecidableEq, Repr

/-- A workgroup that has been saved, with its warps by %warp (R365). -/
structure SavedWg where
  /-- Its number. -/
  id : Nat
  wg : Workgroup
  warps : FMap Warp
  /-- Bytes that its record takes in the save area. -/
  len : Nat
deriving DecidableEq, Repr

/-- One range of a keep image as the save engine has left it (R368). -/
structure KeepRange where
  tag : DWord
  addr : DWord
  len : Nat
  idx : Nat
  /-- Bytes written so far. -/
  data : List Byte := []
  /-- A poisoned line has stopped the range. -/
  stopped : Bool := false
  /-- The CRC-32 that follows the data, and whether the commit word follows it. -/
  crc : Option Word := none
  commit : Bool := false
deriving DecidableEq, Repr

/-- A keep image (R368, R369). -/
structure KeepImage where
  seq : Nat
  ranges : List KeepRange
  /-- keep_tag, queue number and read_idx. -/
  queues : List (DWord × Nat × Word)
deriving DecidableEq, Repr

/-- A drain report (R403): launch, and the identifiers that were not dispensed. -/
structure DrainReport where
  ctx : Nat
  launch : Nat
  hdr : Header
  ranges : List (Nat × Nat)
deriving DecidableEq, Repr

/-- What Jasper of a die has been told. -/
inductive Notice where
  /-- SIGWAKE.mb (R353): sequence number and value. -/
  | mail (seq : Nat) (val : Word)
  /-- A copy entry that completed with a status other than OK and SKIPPED (R313). -/
  | copyError (seq status : Nat)
  /-- A host access to an unpinned page (R243). -/
  | unpinned (seq : Nat) (va : DWord)
  /-- A save that was abandoned (R366). -/
  | saveFault (seq wg : Nat)
  /-- A fault that Jasper tries to resolve: its cause code, the warp, and the address (R241, R242). -/
  | fault (seq code wk : Nat) (va : DWord)
  /-- The same of an access of a copy engine, the hub or a loader: its cause code, the context, and the address (R242, R313, R417). -/
  | unitFault (seq code ctx : Nat) (va : DWord)
deriving DecidableEq, Repr

/-- The device's phase through a loss of supply (R367, R368). -/
inductive Phase where
  | running
  /-- The handler window, begun at the time given; the number of the PFAIL event. -/
  | window (began seq : Nat)
  | closed (seq : Nat)
  | quiesced (seq : Nat)
  | off
  /-- Kept in reset, because a firmware image has failed its verification (R378). -/
  | held
deriving DecidableEq, Repr

/-- What the last host read of memory has returned (R243). -/
inductive HostRead where
  | none
  | data (bs : List Byte)
  | poisoned
deriving DecidableEq, Repr

/-- How the last host command that Jasper or the security engine took has ended (R82, R354). -/
inductive Reply where
  | done
  /-- The context created, by number. -/
  | created (ctx : Nat)
  | descBad
  | unpinned
  | pfBudget
  | noContext
  | compandBad
  /-- A firmware image that has failed its verification, as CXL.io reports it (R378). -/
  | imageBad
deriving DecidableEq, Repr

/-- A fault of a copy engine, the hub or a loader of which Jasper has been told and that stands: the arbiter that numbered it, the context,
the cause code, the address, and whether the access was a store (R24, R242). -/
structure Asked where
  arb : Nat
  ctx : Nat
  code : Nat
  va : Nat
  store : Bool
deriving DecidableEq, Repr

/-- A function of Nelrak-1 code for which Jasper has claimed a binding slot: its context, its Nelrak-1 entry, its slot, and, once it is
translated, the address and the length of its native code (R402). -/
structure Func where
  ctx : Nat
  entry : DWord
  slot : DWord
  native : Option (DWord × Nat) := none
  /-- Its translation has failed. -/
  failed : Bool := false
deriving DecidableEq, Repr

/-- The hub, the die sequencers and Jasper. -/
structure Hub where
  ctxs : FMap Ctx := []
  queues : FMap Queue := []
  gens : FMap Gen := []
  launches : FMap Launch := []
  graphs : FMap Graph := []
  csets : FMap ClusterSet := []
  handles : FMap Handle := []
  /-- Domain indexes of the peers that are RECOVERING (R375). -/
  recovering : List Nat := []
  /-- Last number given by each event arbiter: dies 0 to 3, hub 4 (R24). -/
  seqs : FMap Nat := []
  /-- Notices to Jasper of each die, oldest first. -/
  notices : FMap (List Notice) := []
  /-- The soft interrupts that the quarters of a core have posted to Jasper in its present cycle and that are not numbered yet: the core and
  the value of each (R25, R353). -/
  soft : List (Nat × Word) := []
  /-- Faults of which Jasper has been told and that stand (R242). -/
  asked : List Asked := []
  /-- The functions of Nelrak-1 code that Jasper knows (R402). -/
  funcs : List Func := []
  /-- θ of each die; an unlisted one is 256 (R344). -/
  theta : FMap Nat := []
  /-- Energy refills of each die so far (R344). -/
  refills : FMap Nat := []
  /-- Core used last in each cluster, by die × 12 + cluster; an unlisted one is 3 (R333). -/
  lastCore : FMap Nat := []
  /-- Key ids that the security engine has loaded beside key 0 (R378). -/
  keys : List Nat := []
  saved : List SavedWg := []
  drains : List DrainReport := []
  debugger : Bool := false
  /-- Contexts created so far. -/
  created : Nat := 0
  started : Nat := 0
  reply : Reply := .done
  hostRead : HostRead := .none
deriving DecidableEq, Repr

/-- What survives a loss of supply, and the phase of the device. -/
structure Power where
  phase : Phase := .running
  /-- The two image slots of the keep store, and the newest (R368). -/
  slot0 : Option KeepImage := none
  slot1 : Option KeepImage := none
  newest : Nat := 1
deriving DecidableEq, Repr

/-- The code of a DICT that is about to issue: its word with the code's guard and marker, and the PC value after it
(R46). -/
structure DictCode where
  word : Word
  next : PC
deriving DecidableEq, Repr

/-- The gang that the last arbitration picked: its warp and its PC value (R90). -/
structure Issue where
  wk : Nat
  pc : PC
  dict : Option DictCode := none
deriving DecidableEq, Repr

/-- The whole machine. -/
structure State where
  /-- Warps by position, the index f of R359. -/
  warps : FMap Warp := []
  wgs : FMap Workgroup := []
  /-- Cores by die × 48 + core; an unlisted one is as after reset. -/
  cores : FMap Core := []
  mem : MemSys := {}
  hub : Hub := {}
  power : Power := {}
  /-- Device timestamp in ns (R27). -/
  time : Nat := 0
  /-- Numbers that name launches, workgroups, warps and graphs. The model's own. -/
  uid : Nat := 0
  /-- The gang that issues in this step, if one has been picked. The model's own. -/
  issue : Option Issue := none
  /-- The device step that happens in this step. The model's own. -/
  event : Option Event := none
  /-- What agents outside the model will do, in order. The model's own. -/
  agenda : List Event := []
  /-- Names the free values of the next step. The model's own. -/
  free : Nat := 0
deriving DecidableEq, Repr

/-- The machine just after POWER_UP (R378): no context, every queue disabled, every bucket full, memory with nothing
listed. -/
def State.reset : State := {}

end Sys2Proof.Machine
end

