-- ==== Sys2Proof/Machine/Operands.lean ====
section
/-! DEFINITION. Reading and writing the registers of one lane, with the rules of pending results (R49-R53, R73), and
every operand form: fields, literals and immediates (R33-R39). -/

namespace Sys2Proof.Machine

/-- What an instruction sees beside the lane's own registers. -/
structure Env where
  /-- Names the free values of the step. -/
  free : Nat := 0
  /-- %lane. -/
  lane : Nat := 0
  /-- Registers per thread. -/
  g : Nat := 256
  /-- PC value of the instruction and of the one that follows it. -/
  pc : PC := 0
  next : PC := 0
  /-- The executing lanes of the gang, and the gang (R14, R31). -/
  exec : Mask := 0
  gang : Mask := 0
deriving DecidableEq, Repr

/-- The value listed for `n`, if any: the last one. -/
def lastFor {α : Type} (l : List (Nat × α)) (n : Nat) : Option α :=
  l.foldl (fun r p => if p.1 = n then some p.2 else r) none

namespace Lane

/-- The word of register `n` without regard to pending results. -/
def v (l : Lane) (n : Nat) : Word := fgetD l.regs n 0

/-- A pair without regard to pending results. -/
def w (l : Lane) (n : Nat) : DWord := pair (l.v n) (l.v (n + 1))

/-- Predicate `n`; p7 reads 1 (R107). -/
def p (l : Lane) (n : Nat) : Bool := n = 7 || bitAt l.preds n

/-- Shape register `n` (R148). -/
def h (l : Lane) (n : Nat) : Word := fgetD l.shapes n 0

/-- Row mask of shape register `n` (R151). -/
def rm (l : Lane) (n : Nat) : Word := fgetD l.rowMasks n 1

/-- The values that pending results will write to register `n`, so far as they have returned (R52). -/
def pendV (l : Lane) (n : Nat) : List Word := l.pend.filterMap fun p => if p.read.isNone then lastFor p.regs n else none

/-- The values that pending results will write to predicate `n`. -/
def pendP (l : Lane) (n : Nat) : List Bool := l.pend.filterMap fun p => lastFor p.preds n

/-- The values that pending results will write to row mask `n`. -/
def pendR (l : Lane) (n : Nat) : List Word := l.pend.filterMap fun p => lastFor p.rows n

/-- A read of register `n` as operand `i`: the old value, or a pending one, without promise (R52). -/
def rd (l : Lane) (e : Env) (i n : Nat) : Word :=
  match l.pendV n with
  | [] => l.v n
  | ps => (l.v n :: ps).getD (Config.early e.free e.lane i % (ps.length + 1)) 0

/-- A read of a pair: the choice is independent for each word (R52). -/
def rdW (l : Lane) (e : Env) (i n : Nat) : DWord := pair (l.rd e i n) (l.rd e (i + 1) (n + 1))

/-- A read of predicate `n` (R52); p7 reads 1. -/
def rdP (l : Lane) (e : Env) (i n : Nat) : Bool :=
  if n = 7 then true else
  match l.pendP n with
  | [] => l.p n
  | ps => (l.p n :: ps).getD (Config.early e.free e.lane i % (ps.length + 1)) false

/-- A read of row mask `n` by an instruction outside 0x4B to 0x67 (R170). -/
def rdRm (l : Lane) (e : Env) (i n : Nat) : Word :=
  match l.pendR n with
  | [] => l.rm n
  | ps => (l.rm n :: ps).getD (Config.early e.free e.lane i % (ps.length + 1)) 0

/-- A read of %fst: each pending bit may be missing (R73). -/
def rdFst (l : Lane) (e : Env) (i : Nat) : Word :=
  mapFrom (fun k (p : Pend) => (k, p.fst)) 0 l.pend |>.foldl
    (fun acc kp => if Config.early e.free e.lane (i + kp.1) % 2 = 1 then acc ||| kp.2 else acc) l.fst

/-- A read of register `n` by a matrix instruction: it sees the completed results of the path's earlier matrix
instructions (R53, R170), and any other pending word under R52. -/
def rdM (l : Lane) (e : Env) (i n : Nat) : Word :=
  if l.pend.any fun p => (lastFor p.regs n).isSome && (!p.matrix || p.clashV.contains n) then l.rd e i n
  else (l.pendV n).getLastD (l.v n)

/-- Row mask `n` as a matrix instruction sees it (R170). That it is still the mask of a pending MLD when HSET or HMOV has written the
shape register since is the model's choice (log 87). -/
def rmM (l : Lane) (n : Nat) : Word := (l.pendR n).getLastD (l.rm n)

/-- Note in the pending results that register `n` has been written since (R52). -/
def clashV (l : Lane) (n : Nat) : List Pend :=
  l.pend.map fun p => if (lastFor p.regs n).isSome then { p with clashV := n :: p.clashV } else p

/-- Note in the pending results that predicate `n` has been written since. -/
def clashP (l : Lane) (n : Nat) : List Pend :=
  l.pend.map fun p => if (lastFor p.preds n).isSome then { p with clashP := n :: p.clashP } else p

/-- Write register `n`. -/
def wr (l : Lane) (n : Nat) (x : Word) : Lane := { l with regs := fput 0 l.regs n x, pend := l.clashV n }

/-- Write the pair at `n`, low word in the even register (R67). -/
def wrW (l : Lane) (n : Nat) (x : DWord) : Lane := (l.wr n (lo32 x)).wr (n + 1) (hi32 x)

/-- Write predicate `n`; a write to p7 is discarded (R39, R107). -/
def wrP (l : Lane) (n : Nat) (b : Bool) : Lane :=
  if n < 7 then
    { l with preds := BitVec.ofNat 7 (bitsNat (fun i => if i = n then b else bitAt l.preds i) 7), pend := l.clashP n }
  else l

/-- Write consecutive registers from `n`. -/
def wrRun (l : Lane) (n : Nat) (xs : List Word) : Lane :=
  match xs with
  | [] => l
  | x :: t => (l.wr n x).wrRun (n + 1) t

/-- Set sticky bits (R73). -/
def orFst (l : Lane) (fl : Word) : Lane := { l with fst := l.fst ||| fl }

/-- Write a shape register and its row mask (R151). -/
def wrH (l : Lane) (n : Nat) (x rows : Word) : Lane :=
  { l with shapes := fput 0 l.shapes n x, rowMasks := fput 1 l.rowMasks n rows,
           pend := l.pend.map fun p => if (lastFor p.rows n).isSome then { p with clashH := n :: p.clashH } else p }

/-- Add a pending result (R49). -/
def addPend (l : Lane) (p : Pend) : Lane := { l with pend := l.pend ++ [p] }

/-- Set the region register (R108). -/
def setRegion (l : Lane) (pc : PC) : Lane := { l with region := pc }

/-- A pending result is written: a word that another instruction has written since keeps either value (R52). -/
def land (l : Lane) (free lane : Nat) (p : Pend) : Lane :=
  let l₁ := p.regs.foldl (fun (l : Lane) r =>
    if p.clashV.contains r.1 && !Config.clash free lane r.1 then l else { l with regs := fput 0 l.regs r.1 r.2 }) l
  let l₂ := p.preds.foldl (fun (l : Lane) r =>
    if r.1 ≥ 7 || (p.clashP.contains r.1 && !Config.clash free lane (256 + r.1)) then l
    else { l with preds := BitVec.ofNat 7 (bitsNat (fun i => if i = r.1 then r.2 else bitAt l.preds i) 7) }) l₁
  let l₃ := p.rows.foldl (fun (l : Lane) r =>
    if p.clashH.contains r.1 && !Config.clash free lane (264 + r.1) then l
    else { l with rowMasks := fput 1 l.rowMasks r.1 r.2 }) l₂
  { l₃ with fst := l.fst ||| (if p.clashF then
      maskOf (fun i => bitAt p.fst i && Config.clash free lane (280 + i)) else p.fst) }

/-- Result `p` has been written: note in the other pending results which of their words it wrote (R52). Results of opcodes 0x4B to
0x67 follow one another in order and never clash (R53). -/
def noteLanded (p r : Pend) : Pend :=
  if p.matrix && r.matrix then r
  else { r with
    clashV := ((p.regs.map (·.1)).filter fun n => (lastFor r.regs n).isSome) ++ r.clashV
    clashP := ((p.preds.map (·.1)).filter fun n => (lastFor r.preds n).isSome) ++ r.clashP
    clashH := ((p.rows.map (·.1)).filter fun n => (lastFor r.rows n).isSome) ++ r.clashH }

/-- No result is pending. -/
def idle (l : Lane) : Bool := l.pend = []

end Lane

/-- Sign extension of an `n`-bit number to an integer. -/
def sextInt (n x : Nat) : Int := if x % 2 ^ n < 2 ^ (n - 1) then ((x % 2 ^ n : Nat) : Int) else (x % 2 ^ n : Nat) - 2 ^ n

/-- A signed field of an instruction, `n` bits, as an integer. -/
def simm (n x : Nat) : Int := sextInt n x

/-- 32-bit operand b8, or the low word of the literal that replaces it (R38, R128). -/
def opB (l : Lane) (e : Env) (i : Nat) (x : Ext) : Word := if x.litB then lo32 x.lit else l.rd e i x.b.toNat

/-- 32-bit operand c8, or the low word of the literal that replaces it. -/
def opC (l : Lane) (e : Env) (i : Nat) (x : Ext) : Word := if x.litC then lo32 x.lit else l.rd e i x.c.toNat

/-- 64-bit operand b8, or the literal that replaces it. -/
def opBW (l : Lane) (e : Env) (i : Nat) (x : Ext) : DWord := if x.litB then x.lit else l.rdW e i x.b.toNat

/-- 64-bit operand c8, or the literal that replaces it. -/
def opCW (l : Lane) (e : Env) (i : Nat) (x : Ext) : DWord := if x.litC then x.lit else l.rdW e i x.c.toNat

/-- The guard of a lane (R31). -/
def guardOf (l : Lane) (e : Env) (h : Hdr) : Bool :=
  if h.grd = 7 then true else (l.rdP e 90 (bitsAt h.grd 0 3)) != bitAt h.grd 3

end Sys2Proof.Machine
end

