-- ==== Sys2Proof/Machine/Flow.lean ====
section
/-! DEFINITION. Paths, PC slots and the divergence stack of one warp (R89-R97), parking and re-entry (R95, R96), and the
tests of join registers and warp-wide instructions (R98-R103). -/

namespace Sys2Proof.Machine

/-- The lanes of slice `s` in a mask of the warp. -/
def sub4 (m : Mask) (s : Nat) : BitVec 4 := m.extractLsb' (4 * s) 4

/-- The lanes of a slice as a mask of the warp. -/
def widen4 (b : BitVec 4) (s : Nat) : Mask := b.setWidth 32 <<< (4 * s)

/-- An entry of the divergence stack (R92). -/
def entryOf (sl : Slot) : DWord :=
  (sl.pc.extractLsb' 60 4 ++ (1 : BitVec 1) ++ sl.mask.extractLsb' 2 2 ++ sl.pc.extractLsb' 2 55 ++ sl.mask.extractLsb' 0 2 :
    BitVec 64)

/-- The PC value and the mask that an entry holds (R92). -/
def slotOf (e : DWord) : Slot :=
  { pc := (e.extractLsb' 60 4 ++ (0 : BitVec 3) ++ e.extractLsb' 2 55 ++ (0 : BitVec 2) : BitVec 64),
    mask := e.extractLsb' 57 2 ++ e.extractLsb' 0 2 }

/-- Add a group to a list of slots: into the one with the same PC value, or as the youngest (R94). -/
def joinSlot (l : List Slot) (a : Slot) : List Slot :=
  match l with
  | [] => [a]
  | b :: t => if b.pc = a.pc then { b with mask := b.mask ||| a.mask } :: t else b :: joinSlot t a

/-- Free the empty slots and merge equal PC values into the older one (R94). -/
def tidySlots (l : List Slot) : List Slot := l.foldl (fun acc a => if a.mask = 0 then acc else joinSlot acc a) []

/-- Pop into free slots while the depth is above `base` (R94). -/
def popFree (fuel : Nat) (slots : List Slot) (stack : List DWord) (base : Nat) : List Slot × List DWord :=
  match fuel, stack with
  | fuel + 1, e :: t =>
    if slots.length < 2 ∧ base < stack.length then
      let a := slotOf e
      popFree fuel (if a.mask = 0 then slots else joinSlot slots a) t base
    else (slots, stack)
  | _, _ => (slots, stack)

namespace Slice

/-- Bring a slice to the form of R94. -/
def settle (sl : Slice) : Slice :=
  let p := popFree sl.stack.length (tidySlots sl.slots) sl.stack sl.base
  { sl with slots := p.1, stack := p.2 }

/-- Take lanes out of the slots and of every stack entry (R97); the entries keep their places. -/
def remove (sl : Slice) (m : BitVec 4) : Slice :=
  { sl with
    slots := sl.slots.map fun a => { a with mask := a.mask &&& ~~~m }
    stack := sl.stack.map fun e => let a := slotOf e; entryOf { a with mask := a.mask &&& ~~~m }
    aside := (sl.aside.map fun a => { a with mask := a.mask &&& ~~~m }).filter fun a => a.mask ≠ 0 }

/-- Place groups of lanes, each at its PC value, in ascending order, the lanes being in no slot: a group merges into a slot
with its PC value or takes one, and what is then too much is pushed, the slots first and the new groups in descending PC
order (R91, R96). `none` when the depth would exceed 8 (R93). -/
def place (sl : Slice) (groups : List Slot) : Option Slice :=
  let old := tidySlots sl.slots
  let merged := groups.foldl (fun l a => if l.any (fun b => b.pc == a.pc) then joinSlot l a else l) old
  let fresh := groups.filter fun a => !old.any fun b => b.pc == a.pc
  let order := merged ++ fresh.reverse
  let n := order.length - 2
  let pushed := order.take n
  let kept := order.drop n
  if sl.stack.length + n > 8 then none
  else
    some (settle { sl with
      slots := (merged ++ fresh).filter fun a => kept.any fun b => b.pc == a.pc
      stack := pushed.foldl (fun st a => entryOf a :: st) sl.stack })

/-- The lanes `m` of the slot at `pc` go on to `next`. The slot goes with them and keeps its age (R89, R90), unless lanes that wait
hold it (R95): then the moving lanes take another slot, from which an older group is pushed as by a branch (R91). -/
def advance (sl : Slice) (pc next : PC) (m : BitVec 4) : Slice :=
  let here (a : Slot) : Bool := a.pc == pc && decide (a.mask &&& m ≠ 0)
  if sl.slots.any fun a => here a && decide (a.mask &&& ~~~m ≠ 0) then
    let moved : Slot := { pc := next, mask := sl.slots.foldl (fun n a => if here a then n ||| (a.mask &&& m) else n) 0 }
    let rest := sl.slots.map fun a => if here a then { a with mask := a.mask &&& ~~~m } else a
    if rest.any fun a => a.pc == next then settle { sl with slots := joinSlot rest moved }
    else settle { sl with
      slots := (rest.filter fun a => a.pc == pc) ++ [moved]
      stack := (rest.filter fun a => a.pc != pc).foldl (fun st a => entryOf a :: st) sl.stack }
  else settle { sl with slots := sl.slots.map fun a => if here a then { a with pc := next } else a }

end Slice

/-- The distinct PC values of the lanes in `m` of slice `s`, with the lanes of each, in ascending order. -/
def groupsOf (m : BitVec 4) (s : Nat) (target : Nat → PC) : List Slot :=
  let one (l : List Slot) (k : Nat) : List Slot :=
    if bitAt m k then
      let a : Slot := { pc := target (4 * s + k), mask := BitVec.ofNat 4 (2 ^ k) }
      if l.any (fun b => b.pc == a.pc) then joinSlot l a else insertBy (fun b x => b.pc.toNat < x.pc.toNat) a l
    else l
  [0, 1, 2, 3].foldl one []

/-- The lane waits at EXIT, BAR, DCWAIT or WAITV. It keeps its slot (R95) and is none of the gang that goes on from there: lanes whose
guard was false go to the next instruction (R113, R270, R274, R278), and so does another path that comes there. -/
def Lane.standsApart (l : Lane) : Bool :=
  match l.wait with
  | some .exit | some (.bar ..) | some (.barNext ..) | some (.dcwait ..) | some (.waitv ..) | some (.waitvLeft _) => true
  | _ => false

/-- The waiting instruction of a lane whose wait counts toward the wait limit, with its count in ns (R275). -/
def Lane.counted (l : Lane) : Option (PC × Nat) :=
  match l.wait with
  | some (.bar _ _ _ _ pc _ t) => some (pc, t)
  | some (.barNext _ _ _ true pc _ t) => some (pc, t)
  | some (.waitv _ _ _ pc _ t) => some (pc, t)
  | _ => none

/-- Set the count of a lane's wait. -/
def Lane.setCount (l : Lane) (f : Nat → Nat) : Lane :=
  { l with wait := match l.wait with
      | some (.bar c i p y pc n t) => some (.bar c i p y pc n (f t))
      | some (.barNext c i p y pc n t) => some (.barNext c i p y pc n (if y then f t else t))
      | some (.waitv x a v pc g t) => some (.waitv x a v pc g (f t))
      | w => w }

namespace Warp

/-- Lane `i`. -/
def lane (w : Warp) (i : Nat) : Lane := w.lanes.getD i {}

/-- Apply `f` to every lane with its number. -/
def mapLanes (w : Warp) (f : Nat → Lane → Lane) : Warp := { w with lanes := mapFrom f 0 w.lanes }

/-- Apply `f` to the lanes of a mask. -/
def mapIn (w : Warp) (m : Mask) (f : Nat → Lane → Lane) : Warp := w.mapLanes fun i l => if bitAt m i then f i l else l

/-- Change one lane. -/
def modLane (w : Warp) (i : Nat) (f : Lane → Lane) : Warp := w.mapLanes fun j l => if j = i then f l else l

/-- Apply `f` to every slice with its number. -/
def mapSlices (w : Warp) (f : Nat → Slice → Slice) : Warp := { w with slices := mapFrom f 0 w.slices }

/-- The lanes that hold an item (R97). -/
def live (w : Warp) : Mask := maskOf fun i => !(w.lane i).vacant

/-- The lanes whose slots hold exactly `pc` (R90). -/
def standing (w : Warp) (pc : PC) : Mask :=
  maskOf fun i => ((w.slices.getD (i / 4) {}).slots.any fun a => a.pc == pc && bitAt a.mask (i % 4))

/-- The gang at a PC value (R90): the lanes whose slots hold it, but for those that wait by themselves just before it. -/
def gang (w : Warp) (pc : PC) : Mask := w.standing pc &&& ~~~maskOf fun i => (w.lane i).standsApart

/-- The PC values of the live slots, in ascending order and each once (R90). -/
def paths (w : Warp) : List PC :=
  w.slices.foldl (fun l sl => sl.slots.foldl (fun l a =>
    if l.contains a.pc then l else insertBy (fun b x => decide (b.toNat < x.toNat)) a.pc l) l) []

/-- The PC value at which lane `i` stands: its slot, its park, or its stack entry (R89). -/
def pcOf (w : Warp) (i : Nat) : PC :=
  let sl := w.slices.getD (i / 4) {}
  match (w.lane i).park with
  | some p => p.pc
  | none =>
    match (sl.slots ++ sl.aside ++ sl.stack.map slotOf).find? fun a => bitAt a.mask (i % 4) with
    | some a => a.pc
    | none => 0

/-- Join register `j` (R98). -/
def join (w : Warp) (j : Nat) : Join := w.joins.getD j {}

/-- Change join register `j`. -/
def setJoin (w : Warp) (j : Nat) (x : Join) : Warp := { w with joins := setAt w.joins j x }

/-- The gang `m` goes on from `pc` to `next` (R90). -/
def advance (w : Warp) (pc next : PC) (m : Mask) : Warp := w.mapSlices fun s sl => sl.advance pc next (sub4 m s)

/-- The gang at `pc` has room to go on in every slice in which waiting lanes hold its slot (R89, R93). That the path waits for
room and no DIVERGE_OVF is raised is the model's choice (log 106). -/
def roomAt (w : Warp) (pc : PC) : Bool :=
  (mapFrom (fun s sl => (sub4 (w.gang pc) s, sl)) 0 w.slices).all fun (p : BitVec 4 × Slice) =>
    p.2.stack.length < 8 || !(p.2.slots.any fun a => a.pc == pc && decide (a.mask &&& p.1 ≠ 0) && decide (a.mask &&& ~~~p.1 ≠ 0))

/-- Take lanes out of their slots and stack entries. -/
def takeOut (w : Warp) (m : Mask) : Warp := w.mapSlices fun s sl => (sl.remove (sub4 m s)).settle

/-- The slices of the gang `g` at `pc` after each of its lanes goes to its target, or `none` when a slice would push too much
(R91, R93). Lanes that wait in a slot of the gang stay at `pc`, as one group more. -/
def split (w : Warp) (pc : PC) (g : Mask) (target : Nat → PC) : Option (List Slice) :=
  (mapFrom (fun s sl => (s, sl)) 0 w.slices).foldr (fun (p : Nat × Slice) acc =>
    let m := (p.2.slots.filter fun a => a.pc = pc).foldl (fun m a => m ||| a.mask) (0 : BitVec 4)
    let rest := { p.2 with slots := p.2.slots.filter fun a => a.pc ≠ pc }
    match (if m &&& sub4 g p.1 = 0 then some p.2 else rest.place (groupsOf m p.1 fun i => if bitAt g i then target i else pc)), acc with
    | some sl, some l => some (sl :: l)
    | _, _ => none) (some [])

/-- Park lanes (R95): they leave their slots. -/
def parkAt (w : Warp) (m : Mask) (f : Nat → Park) : Warp :=
  (w.takeOut m).mapIn m fun i l => { l with park := some (f i) }

/-- Lanes that are in no slot re-enter at their PC values (R96): the warp, and the lanes of the slices that overflow, which
stay parked. -/
def reenter (w : Warp) (m : Mask) (target : Nat → PC) : Warp × Mask :=
  let r := mapFrom (fun s sl =>
    let b := sub4 m s
    if b = 0 then (sl, (0 : Mask))
    else match sl.place (groupsOf b s target) with
      | some sl' => (sl', 0)
      | none => (sl, widen4 b s)) 0 w.slices
  let excess := r.foldl (fun acc p => acc ||| p.2) 0
  let w' : Warp := { w with slices := r.map fun p => p.1 }
  (w'.mapLanes fun i l =>
    if bitAt m i then { l with park := if bitAt excess i then some { pc := target i, why := .overflow } else none } else l, excess)

/-- The lanes parked for the reason `p` accepts. -/
def parkedAt (w : Warp) (p : Park → Bool) : Mask := maskOf fun i => ((w.lane i).park.map p).getD false

/-- Lanes become vacant (R97): out of slots, stack and park, and out of every join's masks. -/
def vacate (w : Warp) (m : Mask) : Warp :=
  let w' := (w.takeOut m).mapIn m fun _ l =>
    { l with vacant := true, park := none, wait := none, sw := 0, handler := false, chain := none, arrivals := [] }
  { w' with joins := w'.joins.map fun j => { expect := j.expect &&& ~~~m, arrived := j.arrived &&& ~~~m } }

/-- The lane is parked at a join, or at a warp-wide instruction or REGRP that has not issued (R100, R103). That REGRP counts as a
warp-wide instruction here is the model's choice (log 94). -/
def stuckPark (p : Park) : Bool :=
  match p.why with
  | .join _ | .warpWide _ _ | .regrp _ _ => true
  | _ => false

/-- How join `j` stands at the start of a cycle: not ready, or released normally or by lost reconvergence (R99, R100).
While a handler runs, a join that holds a lane set aside is not tested (R358). -/
inductive JoinTest where
  | holds
  | releases
  | lost
deriving DecidableEq, Repr

/-- The lanes parked at join `j`. -/
def parkedJoin (w : Warp) (j : Nat) : Mask :=
  w.parkedAt fun p => p.why == ParkAt.join j

/-- A handler runs and sets some lane of `m` aside (R358). -/
def setAside (w : Warp) (m : Mask) : Bool := w.trap.isSome && (lanesOf m).any fun i => !(w.lane i).handler

/-- R99 and R100 for join `j`. -/
def testJoin (w : Warp) (j : Nat) : JoinTest :=
  let here := w.parkedJoin j
  let miss := (w.join j).expect &&& ~~~(w.join j).arrived
  if here = 0 || w.setAside here then .holds
  else if miss = 0 then .releases
  else if (lanesOf miss).all fun i => ((w.lane i).park.map stuckPark).getD false then .lost
  else .holds

/-- Some join of the warp releases in this cycle (R101). -/
def joinReleases (w : Warp) : Bool := (List.range 8).any fun j => w.testJoin j != .holds

/-- The lanes parked at the warp-wide instruction with PC value `pc`. -/
def parkedWide (w : Warp) (pc : PC) : Mask :=
  w.parkedAt fun p => p.pc == pc && (match p.why with
    | .warpWide _ _ => true
    | _ => false)

/-- The member mask in force at `pc` (R102). -/
def memberMask (w : Warp) (pc : PC) : Mask :=
  ((w.members.find? fun p => p.1 == pc).map (·.2)).getD 0xFFFFFFFF

/-- The lanes that a member mask counts: every non-vacant one, set aside by a handler or not (R103, R358). -/
def present (w : Warp) : Mask := w.live

/-- Whether the warp-wide instruction at `pc` may issue, and whether partially (R103, R101). While a handler runs, a set that holds a lane
set aside does not issue (R358; log 101). -/
def wideReady (w : Warp) (pc : PC) : Option Bool :=
  let here := w.parkedWide pc
  let absent := w.memberMask pc &&& w.present &&& ~~~here
  if here = 0 || w.setAside here then none
  else if absent = 0 then some false
  else if !w.joinReleases && (lanesOf absent).all fun i =>
      ((w.lane i).park.map fun p => stuckPark p && (p.pc != pc || (match p.why with
        | .warpWide _ _ => false
        | _ => true))).getD false then some true
  else none

end Warp

end Sys2Proof.Machine
end

