-- ==== Sys2Proof/Machine/Access.lean ====
section
/-! DEFINITION. The named reads and updates of the whole state. -/

namespace Sys2Proof.Machine

namespace State

/-- Hold `w` as the warp at position `k`. -/
def setWarp (s : State) (k : Nat) (w : Warp) : State := { s with warps := fset s.warps k w }

/-- Change the warp at position `k`. -/
def modWarp (s : State) (k : Nat) (f : Warp → Warp) : State := { s with warps := fmod s.warps k f }

/-- The position holds no warp any more. -/
def dropWarp (s : State) (k : Nat) : State := { s with warps := ferase s.warps k }

/-- Change workgroup `k`. -/
def modWg (s : State) (k : Nat) (f : Workgroup → Workgroup) : State := { s with wgs := fmod s.wgs k f }

/-- Core `c`, as after reset where nothing is listed. -/
def coreOf (s : State) (c : Nat) : Core := fgetD s.cores c {}

/-- Change core `c`. -/
def modCore (s : State) (c : Nat) (f : Core → Core) : State := { s with cores := fset s.cores c (f (s.coreOf c)) }

def setMem (s : State) (m : MemSys) : State := { s with mem := m }

def setHub (s : State) (h : Hub) : State := { s with hub := h }

def modHub (s : State) (f : Hub → Hub) : State := { s with hub := f s.hub }

/-- Change launch `k`. -/
def modLaunch (s : State) (k : Nat) (f : Launch → Launch) : State :=
  s.modHub fun h => { h with launches := fmod h.launches k f }

/-- Change queue `q`, as after reset where nothing is listed. -/
def modQueue (s : State) (q : Nat) (f : Queue → Queue) : State :=
  s.modHub fun h => { h with queues := fset h.queues q (f (fgetD h.queues q {})) }

/-- Change context `c`. -/
def modCtx (s : State) (c : Nat) (f : Ctx → Ctx) : State := s.modHub fun h => { h with ctxs := fmod h.ctxs c f }

/-- Change graph `k`. -/
def modGraph (s : State) (k : Nat) (f : Graph → Graph) : State := s.modHub fun h => { h with graphs := fmod h.graphs k f }

/-- Change handle `k`. -/
def modHandle (s : State) (k : Nat) (f : Handle → Handle) : State :=
  s.modHub fun h => { h with handles := fmod h.handles k f }

/-- The step ends: its free values are used up, and no gang is picked any more. -/
def done (s : State) : State := { s with issue := none, free := s.free + 1 }

def warp? (s : State) (k : Nat) : Option Warp := fget? s.warps k
def wg? (s : State) (k : Nat) : Option Workgroup := fget? s.wgs k
def launch? (s : State) (k : Nat) : Option Launch := fget? s.hub.launches k
def ctx? (s : State) (c : Nat) : Option Ctx := fget? s.hub.ctxs c
def queueOf (s : State) (q : Nat) : Queue := fgetD s.hub.queues q {}
def graph? (s : State) (k : Nat) : Option Graph := fget? s.hub.graphs k

/-- The workgroup of a warp, as if empty when none is listed. -/
def wgOf (s : State) (w : Warp) : Workgroup := fgetD s.wgs w.wg { launch := 0, num := 0, core := 0 }

/-- The launch of a workgroup, as if empty when none is listed. -/
def launchOf (s : State) (g : Workgroup) : Launch :=
  fgetD s.hub.launches g.launch { ctx := 0, by_ := .packet 0 0, hdr := {} }

/-- The launch of a warp. -/
def launchOfWarp (s : State) (w : Warp) : Launch := s.launchOf (s.wgOf w)

/-- Registers per thread of a warp (R329). -/
def regsOf (s : State) (w : Warp) : Nat := (s.launchOfWarp w).hdr.regs

/-- The context of a warp. -/
def ctxOf (s : State) (w : Warp) : Nat := (s.launchOfWarp w).ctx

/-- The context's fields, empty when it does not exist. -/
def ctxFields (s : State) (c : Nat) : Ctx := fgetD s.hub.ctxs c {}

/-- Post a number from an event arbiter: die 0 to 3, or the hub 4 (R24). -/
def number (s : State) (arb : Nat) : Nat × State :=
  let n := fgetD s.hub.seqs arb 0 + 1
  (n, s.modHub fun h => { h with seqs := fset h.seqs arb n })

/-- Tell Jasper of a die. -/
def notify (s : State) (die : Nat) (n : Notice) : State :=
  s.modHub fun h => { h with notices := fset h.notices die (fgetD h.notices die [] ++ [n]) }

end State

/-- Trap-frame index of a warp slot (R359). -/
def warpKey (die core quarter slot : Nat) : Nat := ((die * 48 + core) * 4 + quarter) * 16 + slot

/-- Core number die × 48 + core of a position. -/
def coreOfKey (k : Nat) : Nat := k / 64

/-- Die of a position. -/
def dieOfKey (k : Nat) : Nat := k / 3072

/-- Quarter of a position. -/
def quarterOfKey (k : Nat) : Nat := k / 16 % 4

/-- The device timestamp on a die: at most 4 ns ahead of the slowest (R27). -/
def clockOf (s : State) (die : Nat) : Nat := s.time + Config.skew die % 5

/-- The device's domain index, 0xFFFF_FFFF outside a domain (R23, R383). -/
def domainIndex : Word := if Config.domain % 577 = 576 then 0xFFFFFFFF else BitVec.ofNat 32 (Config.domain % 577)

end Sys2Proof.Machine
end

