-- ==== Sys2Proof/Machine/Aes.lean ====
section
/-! DEFINITION. AES-256 in the XTS mode, with which memory is encrypted (R238). The spec names the algorithm; its content is that of FIPS 197
and IEEE 1619 (PRESUMED, log 81). -/

namespace Sys2Proof.Machine.Aes

/-- A block, or a column of four bytes. -/
abbrev Bytes := List Nat

/-- The substitution of FIPS 197 and its inverse: byte x in bits 8x to 8x + 7. -/
def sboxBits : Nat := 0x16bb54b00f2d99416842e6bf0d89a18cdf2855cee9871e9b948ed9691198f8e19e1dc186b95735610ef6034866b53e708a8bbd4b1f74dde8c6b4a61c2e2578ba08ae7a65eaf4566ca94ed58d6d37c8e779e4959162acd3c25c2406490a3a32e0db0b5ede14b8ee4688902a22dc4f816073195d643d7ea7c41744975fec130ccdd2f3ff1021dab6bcf5389d928f40a351a89f3c507f02f94585334d43fbaaefd0cf584c4a39becb6a5bb1fc20ed00d153842fe329b3d63b52a05a6e1b1a2c830975b227ebe28012079a059618c323c7041531d871f1e5a534ccf73f362693fdb7c072a49cafa2d4adf04759fa7dc982ca76abd7fe2b670130c56f6bf27b777c63
def invSboxBits : Nat := 0x7d0c2155631469e126d677ba7e042b17619953833cbbebc8b0f52aae4d3be0a0ef9cc9939f7ae52d0d4ab519a97f51605fec8027591012b131c7078833a8dd1ff45acd78fec0db9a2079d2c64b3e56fc1bbe18aa0e62b76f89c5291d711af1476edf751ce837f9e28535ade72274ac9673e6b4f0cecff297eadc674f4111913a6b8a130103bdafc1020f3fca8f1e2cd00645b3b80558e4f70ad3bc8c00abd890849d8da75746155edab9edfd5048706c92b6655dcc5ca4d41698688664f6f87225d18b6d49a25b76b224d92866a12e084ec3fa420b954cee3d23c2a632947b54cbe9dec444438e3487ff2f9b8239e37cfbd7f3819ea340bf38a53630d56a0952

def sbox (x : Nat) : Nat := sboxBits / 2 ^ (8 * x) % 256
def invSbox (x : Nat) : Nat := invSboxBits / 2 ^ (8 * x) % 256

/-- The product with x, and with k below 16, in the field of FIPS 197. -/
def xtime (b : Nat) : Nat := if b < 128 then 2 * b else (2 * b % 256) ^^^ 0x1B
def mul (k b : Nat) : Nat :=
  let b₂ := xtime b
  let b₄ := xtime b₂
  (if k.testBit 0 then b else 0) ^^^ (if k.testBit 1 then b₂ else 0) ^^^ (if k.testBit 2 then b₄ else 0) ^^^ (if k.testBit 3 then xtime b₄ else 0)

/-- Sum of blocks. -/
def add (a b : Bytes) : Bytes := List.zipWith (· ^^^ ·) a b

/-- Byte `i` of a block. -/
def at_ (a : Bytes) (i : Nat) : Nat := a.getD i 0

/-- Row r of the block moves r columns to the left, or to the right: byte r + 4 c is the row r of column c. -/
def shiftRows (a : Bytes) : Bytes := (List.range 16).map fun i => at_ a ((i + 4 * (i % 4)) % 16)
def invShiftRows (a : Bytes) : Bytes := (List.range 16).map fun i => at_ a ((i + 12 * (i % 4)) % 16)

/-- Each column times the circulant of `ks`. -/
def mixWith (ks : List Nat) (a : Bytes) : Bytes :=
  (List.range 16).map fun i => (List.range 4).foldl (fun x j => x ^^^ mul (ks.getD ((j + 4 - i % 4) % 4) 0) (at_ a (i / 4 * 4 + j))) 0
def mixColumns : Bytes → Bytes := mixWith [2, 3, 1, 1]
def invMixColumns : Bytes → Bytes := mixWith [14, 11, 13, 9]

/-- The next word of the key schedule, from the words so far, the latest first; `rcon` is the constant of the next multiple of 8. -/
def nextWord (i rcon : Nat) (ws : List Bytes) : Bytes :=
  let t := ws.headD []
  let t' := if i % 8 = 0 then add ((t.drop 1 ++ t.take 1).map sbox) [rcon, 0, 0, 0] else if i % 8 = 4 then t.map sbox else t
  add (ws.getD 7 []) t'

/-- `n` further words of the key schedule from word `i`. -/
def schedule (n i rcon : Nat) (ws : List Bytes) : List Bytes :=
  match n with
  | 0 => ws
  | n + 1 => schedule n (i + 1) (if i % 8 = 0 then xtime rcon else rcon) (nextWord i rcon ws :: ws)

/-- The 15 round keys of a key of 32 bytes. -/
def roundKeys (key : Bytes) : List Bytes :=
  let ws := (schedule 52 8 1 ((List.range 8).reverse.map fun k => (key.drop (4 * k)).take 4)).reverse
  (List.range 15).map fun r => (ws.drop (4 * r)).take 4 |>.flatten

/-- Rounds of encryption with the round keys that remain; the last has no mixing of columns. -/
def rounds (ks : List Bytes) (a : Bytes) : Bytes :=
  match ks with
  | [] => a
  | [k] => add (shiftRows (a.map sbox)) k
  | k :: ks => rounds ks (add (mixColumns (shiftRows (a.map sbox))) k)

/-- Encrypt a block. -/
def encrypt (ks : List Bytes) (a : Bytes) : Bytes := rounds (ks.drop 1) (add a (ks.headD []))

/-- Rounds of decryption with the round keys that remain, the last one first. -/
def invRounds (ks : List Bytes) (a : Bytes) : Bytes :=
  match ks with
  | [] => a
  | [k] => add ((invShiftRows a).map invSbox) k
  | k :: ks => invRounds ks (invMixColumns (add ((invShiftRows a).map invSbox) k))

/-- Decrypt a block. -/
def decrypt (ks : List Bytes) (a : Bytes) : Bytes := invRounds (ks.reverse.drop 1) (add a (ks.reverse.headD []))

/-- The bytes of a number, the low one first. -/
def bytes (n x : Nat) : Bytes := (List.range n).map fun i => x / 2 ^ (8 * i) % 256

/-- The tweak of the next block: times α in the field of IEEE 1619. -/
def times (t : Bytes) : Bytes :=
  let x := (t.reverse.foldl (fun a b => 256 * a + b) 0) * 2
  bytes 16 (if x < 2 ^ 128 then x else x % 2 ^ 128 ^^^ 0x87)

/-- An XTS key of 512 bits: the round keys of its first half, for the data, and of its second half, for the tweak. -/
structure Key where
  data : List Bytes
  tweak : List Bytes

def keyOf (bits : Nat) : Key := { data := roundKeys (bytes 32 bits), tweak := roundKeys (bytes 32 (bits / 2 ^ 256)) }

/-- The tweak of block `j` of a data unit. -/
def tweakAt (k : Key) (unit j : Nat) : Bytes := j.repeat times (encrypt k.tweak (bytes 16 unit))

/-- One block of a data unit, encrypted and decrypted. -/
def xtsEncrypt (k : Key) (unit j : Nat) (p : Bytes) : Bytes := add (encrypt k.data (add p (tweakAt k unit j))) (tweakAt k unit j)
def xtsDecrypt (k : Key) (unit j : Nat) (c : Bytes) : Bytes := add (decrypt k.data (add c (tweakAt k unit j))) (tweakAt k unit j)

end Sys2Proof.Machine.Aes
end

