-- ==== Sys2Proof/Machine/Memory.lean ====
section
/-! DEFINITION. Physical memory with its keys and poison, page walks and translation (R223, R232-R242), and the scratchpad
(R224-R227, R416). -/

namespace Sys2Proof.Machine

/-- What an unlisted address of physical memory reads as (the spec gives no contents at power-up). -/
def unlisted : Byte := 0

/-- The canonical form of physical memory: addresses strictly rising, and nothing listed that an unlisted address reads
as. -/
def Memory.wf (m : List Host.Cell) : Bool := fsorted 0 m && m.all fun c => c.2 != unlisted

/-- The byte at physical address `a`. -/
def cellGet (m : List Host.Cell) (a : Nat) : Byte := fgetD m a unlisted

/-- Hold `b` at physical address `a`. -/
def cellPut (m : List Host.Cell) (a : Nat) (b : Byte) : List Host.Cell := fput unlisted m a b

/-- Hold bytes from physical address `a` upward. -/
def cellPuts (m : List Host.Cell) (a : Nat) (bs : List Byte) : List Host.Cell :=
  match bs with
  | [] => m
  | b :: t => cellPuts (cellPut m a b) (a + 1) t

/-- The key that an id holds now (R238, R378). -/
def keyTag (m : MemSys) (key : Nat) : Nat := key + 4096 * fgetD m.keyGens key 0

/-- The key that last wrote the unit of an address (R238). -/
def unitKey (m : MemSys) (a : Nat) : Nat := fgetD m.keys (a / 64) 0

/-- The bytes of the 64-byte unit of `a`, as written. -/
def unitBytes (m : MemSys) (a : Nat) : List Byte := (List.range 64).map fun i => cellGet m.cells (a / 64 * 64 + i)

/-- The 512 bits of a key, by its tag; the device key has tag 0 (R238, R378). -/
def keyBits (m : MemSys) (tag : Nat) : Nat := fgetD m.keyBits tag Config.deviceKey

/-- What unit `u` reads as under the key with tag `reads`, another one than its own: its ciphertext, decrypted with that key. The tweak is the
address of the unit (R238). -/
def crossUnit (m : MemSys) (u reads : Nat) : List Byte :=
  (List.range 4).flatMap fun j =>
    (Aes.xtsDecrypt (Aes.keyOf (keyBits m reads)) (64 * u) j
      (Aes.xtsEncrypt (Aes.keyOf (keyBits m (unitKey m (64 * u)))) (64 * u) j
        (((unitBytes m (64 * u)).drop (16 * j)).take 16 |>.map BitVec.toNat))).map (BitVec.ofNat 8)

/-- The byte at `a` as read under `key` (R238). -/
def physByte (m : MemSys) (key a : Nat) : Byte :=
  if unitKey m a = keyTag m key then cellGet m.cells a else (crossUnit m (a / 64) (keyTag m key)).getD (a % 64) 0

/-- `n` bytes from `a` as read under `key`. -/
def physRead (m : MemSys) (key a n : Nat) : List Byte := (List.range n).map fun i => physByte m key (a + i)

/-- The 64 bytes of the unit of `a` as read under `key`, another one than its own. -/
def underKey (m : MemSys) (key a : Nat) : List Byte := (List.range 64).map fun i => (crossUnit m (a / 64) (keyTag m key)).getD i 0

/-- Give the unit of `a` the key: a write of part of a unit decrypts it, merges and encrypts it again (R238). -/
def rekey (m : MemSys) (key a : Nat) : MemSys :=
  if unitKey m a = keyTag m key then m
  else { m with cells := cellPuts m.cells (a / 64 * 64) (underKey m key a), keys := fput 0 m.keys (a / 64) (keyTag m key) }

/-- Write one byte under `key`. -/
def physPut (m : MemSys) (key a : Nat) (b : Byte) : MemSys :=
  let m' := rekey m key a
  { m' with cells := cellPut m'.cells a b }

/-- Write bytes under `key`. -/
def physPuts (m : MemSys) (key a : Nat) (bs : List Byte) : MemSys :=
  match bs with
  | [] => m
  | b :: t => physPuts (physPut m key a b) key (a + 1) t

/-- Clear the poison of the lines that `n` bytes from `a` cover whole (R249). -/
def unpoison (m : MemSys) (a n : Nat) : MemSys :=
  { m with poison := m.poison.filter fun p => !(decide (a ≤ p.1 * 64) && decide (p.1 * 64 + 64 ≤ a + n)) }

/-- Write bytes under `key`; a whole line loses its poison (R238, R249). -/
def physWrite (m : MemSys) (key a : Nat) (bs : List Byte) : MemSys := unpoison (physPuts m key a bs) a bs.length

/-- A byte of the range lies in a poisoned line (R249). -/
def poisoned (m : MemSys) (a n : Nat) : Bool := m.poison.any fun p => decide (p.1 * 64 < a + n) && decide (a < p.1 * 64 + 64)

/-- What an access is for; its number is the subcode of R357. -/
inductive Access where
  | fetch
  | load
  | store
deriving DecidableEq, Repr

/-- The subcode (R357). -/
def Access.sub (a : Access) : Nat :=
  match a with
  | .fetch => 0
  | .load => 1
  | .store => 2

-- Trap cause codes (R356).
namespace Code
def illegalOp : Nat := 0x01
def illegalEnc : Nat := 0x02
def illegalDict : Nat := 0x03
def regRange : Nat := 0x04
def uniform : Nat := 0x05
def memberMask : Nat := 0x06
def divergeOvf : Nat := 0x07
def joinBusy : Nat := 0x08
def align : Nat := 0x09
def shape : Nat := 0x0A
def mvOverlap : Nat := 0x0B
def sparseMeta : Nat := 0x0C
def scratchBounds : Nat := 0x0D
def pageFault : Nat := 0x0E
def prot : Nat := 0x0F
def ownership : Nat := 0x10
def queueRef : Nat := 0x11
def tretOut : Nat := 0x12
def singTrap : Nat := 0x20
def watchdog : Nat := 0x21
def brk : Nat := 0x22
def swTrap : Nat := 0x23
def pfail : Nat := 0x24
def matrixUe : Nat := 0x30
def scratchUe : Nat := 0x31
def poison : Nat := 0x32
end Code

/-- A leaf entry with the size of its page, or the cause of a fault. -/
inductive Walk where
  | leaf (e : DWord) (log : Nat)
  | fault (code : Nat)
deriving DecidableEq, Repr

/-- Fields of a page entry (R233). -/
def Pte.bit (e : DWord) (i : Nat) : Bool := bitAt e i

/-- The 8 bytes of a page-table entry, read with key 0 (R239). -/
def pteAt (m : MemSys) (a : Nat) : DWord := BitVec.ofNat 64 (ofBytes (physRead m 0 a 8))

/-- The conditions on a leaf entry (R234): reserved codes and bits, alignment of pa to the page, placement, and the key. -/
def leafOk (keys : List Nat) (e : DWord) (log : Nat) : Bool :=
  bitsAt e 2 2 ≠ 3 && bitsAt e 8 2 ≠ 3 && bitsAt e 13 3 = 0 && bitsAt e 0 52 / 65536 * 65536 % 2 ^ log = 0
  && (bitAt e 10 || bitsAt e 11 2 = 0) && (bitsAt e 52 12 = 0 || keys.contains (bitsAt e 52 12))

/-- One level of the walk (R232-R234): `fuel` levels remain, the index of this one starts at VA bit `bit`. -/
def walkFrom (m : MemSys) (keys : List Nat) (va : Nat) (fuel level table : Nat) : Walk :=
  match fuel with
  | 0 => .fault Code.pageFault
  | fuel + 1 =>
    let lo := match level with
      | 0 => 48
      | 1 => 39
      | 2 => 30
      | 3 => 21
      | _ => 16
    let idx := va / 2 ^ lo % (if level = 4 then 32 else 512)
    let e := pteAt m (table + 8 * idx)
    if !bitAt e 0 then .fault Code.pageFault
    else if bitAt e 1 then
      if level < 2 || !leafOk keys e lo then .fault Code.pageFault else .leaf e lo
    else if level = 4 || bitsAt e 2 6 ≠ 0 || bitsAt e 52 12 ≠ 0 || (level < 3 && bitsAt e 8 4 ≠ 0) then .fault Code.pageFault
    else walkFrom m keys va fuel (level + 1) (bitsAt e 8 44 * 256)

/-- A full walk from a root (R232). -/
def walk (m : MemSys) (keys : List Nat) (root : DWord) (va : Nat) : Walk := walkFrom m keys va 5 0 root.toNat

/-- The TLB entries of a context that cover an address (R240). -/
def tlbHits (m : MemSys) (ctx va : Nat) : List TlbEntry := m.tlb.filter fun t => t.ctx = ctx && va / 2 ^ t.log = t.page

/-- What a translation gives. -/
inductive Xlat (α : Type) where
  | ok (a : α)
  | fault (code : Nat)
deriving DecidableEq, Repr

/-- The keys that a context may name (R378). -/
def ctxKeys (s : State) (ctx : Nat) : List Nat := (s.ctxFields ctx).keys.filter fun k => s.hub.keys.contains k

/-- The entry that an access to `va` uses: that of a walk, or one that a TLB still holds (R240). `i` tells the accesses of
one step apart. -/
def lookup (s : State) (ctx va i : Nat) : Walk :=
  let w := walk s.mem (ctxKeys s ctx) (s.ctxFields ctx).root va
  match tlbHits s.mem ctx va with
  | [] => w
  | hits => (w :: hits.map fun t => Walk.leaf t.leaf t.log).getD (Config.tlbPick s.free i % (hits.length + 1)) w

/-- Translate and check one piece of an access of `len` bytes at `va`, on one page (R223, R234, R242, R249 steps 3
and 4). The spec gives a physical address beyond the 2,304 GB of R12 neither a fault nor an effect; that such an address holds bytes
as any other is the model's choice (log 86). -/
def translate (s : State) (ctx va len i : Nat) (acc : Access) : Xlat Piece :=
  if va ≥ 2 ^ 57 then .fault Code.pageFault
  else
    match lookup s ctx va i with
    | .fault c => .fault c
    | .leaf e log =>
      if (acc = .store && !bitAt e 6) || (acc = .fetch && !bitAt e 7) then .fault Code.prot
      else if bitAt e 4 then .fault Code.ownership
      else .ok { pa := bitsAt e 16 36 * 65536 + va % 2 ^ log, key := bitsAt e 52 12, len := len, leaf := e, log := log, va := va }

/-- The pieces of `n` bytes at `va`, one for each 64 KiB part they touch (R236). -/
def pagePieces (fuel va n : Nat) : List (Nat × Nat) :=
  match fuel with
  | 0 => []
  | fuel + 1 =>
    let k := min n (65536 - va % 65536)
    if n = 0 then [] else (va, k) :: pagePieces fuel (va + k) (n - k)

/-- Translate every piece of an access; the first that fails decides (R236, R241). -/
def translateAll (s : State) (ctx i : Nat) (acc : Access) (l : List (Nat × Nat)) : Xlat (List Piece) :=
  match l with
  | [] => .ok []
  | (va, n) :: t =>
    match translate s ctx va n i acc with
    | .fault c => .fault c
    | .ok p =>
      match translateAll s ctx i acc t with
      | .fault c => .fault c
      | .ok ps => .ok (p :: ps)

/-- Translate `n` bytes at `va`, a 64-bit address (R223). -/
def translateRange (s : State) (ctx va n i : Nat) (acc : Access) : Xlat (List Piece) :=
  translateAll s ctx i acc (pagePieces (n / 65536 + 2) va n)

/-- The bytes of translated pieces. -/
def readPieces (m : MemSys) (ps : List Piece) : List Byte := ps.flatMap fun p => physRead m p.key p.pa p.len

/-- Some byte of the pieces is poisoned. -/
def piecesPoisoned (m : MemSys) (ps : List Piece) : Bool := ps.any fun p => poisoned m p.pa p.len

/-- Write bytes to translated pieces, in order. -/
def writePieces (m : MemSys) (ps : List Piece) (bs : List Byte) : MemSys :=
  match ps with
  | [] => m
  | p :: t => writePieces (physWrite m p.key p.pa (bs.take p.len)) t (bs.drop p.len)

/-- Clear the poison of the lines that the pieces of one store cover whole between them (R249). -/
def unpoisonAll (m : MemSys) (ps : List Piece) : MemSys :=
  { m with poison := m.poison.filter fun p => !((List.range 64).all fun k => ps.any fun x =>
      decide (x.pa ≤ 64 * p.1 + k) && decide (64 * p.1 + k < x.pa + x.len)) }

/-- Two lists of pieces have a byte in common. -/
def piecesMeet (xs ys : List Piece) : Bool :=
  xs.any fun x => ys.any fun y => decide (x.pa < y.pa + y.len) && decide (y.pa < x.pa + x.len)

/-- All the pieces lie on UN pages (R235). -/
def allUn (ps : List Piece) : Bool := ps.all fun p => bitsAt p.leaf 2 2 = 2

/-- Which of a list of late stores are performed when those that `p` accepts are: also each that comes before one of them to the same bytes,
from its thread or from a lane below it of the same instruction (R248, R282). -/
def lateChoice (p : Late → Bool) (l : List Late) : List (Late × Bool) :=
  l.foldr (fun a r => (a, p a || r.any fun b => b.2 && piecesMeet a.pieces b.1.pieces
    && ((a.warp = b.1.warp && a.lane = b.1.lane) || a.id = b.1.id)) :: r) []

/-- Perform the late stores that `p` accepts, in the order in which they issued (R235, R282). -/
def performLate (m : MemSys) (p : Late → Bool) : MemSys :=
  let c := lateChoice p m.late
  ((c.filter (·.2)).map (·.1)).foldl (fun m a => writePieces m a.pieces a.bytes) { m with late := (c.filter fun x => !x.2).map (·.1) }

/-- The TLBs hold the entries that an access used (R239). -/
def cacheEntries (m : MemSys) (ctx : Nat) (ps : List Piece) : MemSys :=
  { m with tlb := ps.foldl (fun l p =>
      let t : TlbEntry := { ctx := ctx, page := p.va / 2 ^ p.log, log := p.log, leaf := p.leaf }
      if l.contains t then l else t :: l) m.tlb }

/-- Physical address of the entry at which a walk ends in a leaf, with the size of its page (R232). -/
def leafAt (m : MemSys) (va fuel level table : Nat) : Option (Nat × Nat) :=
  match fuel with
  | 0 => none
  | fuel + 1 =>
    let lo := match level with
      | 0 => 48
      | 1 => 39
      | 2 => 30
      | 3 => 21
      | _ => 16
    let a := table + 8 * (va / 2 ^ lo % (if level = 4 then 32 else 512))
    let e := pteAt m a
    if !bitAt e 0 then none else if bitAt e 1 then some (a, lo) else leafAt m va fuel (level + 1) (bitsAt e 8 44 * 256)

/-- The TLB entries of a context that lie wholly outside a range of addresses (R240). -/
def tlbOutside (m : MemSys) (ctx lo hi : Nat) : MemSys :=
  { m with tlb := m.tlb.filter fun t => !(t.ctx = ctx && t.page * 2 ^ t.log < hi && lo < (t.page + 1) * 2 ^ t.log) }

/-- Set or clear the own bit of the page at `va` and invalidate its TLB entries (R242, R243). -/
def setOwner (s : State) (ctx va : Nat) (host : Bool) : State :=
  match leafAt s.mem va 5 0 (s.ctxFields ctx).root.toNat with
  | none => s
  | some (a, log) =>
    let e := pteAt s.mem a
    let e' : DWord := if host then e ||| 0x10 else e &&& ~~~0x10
    s.setMem (tlbOutside (physPuts s.mem 0 a (bytesOf 8 e'.toNat)) ctx (va / 2 ^ log * 2 ^ log) ((va / 2 ^ log + 1) * 2 ^ log))

/-- The page at `va` is mapped and pinned. -/
def pinnedPage (s : State) (ctx va : Nat) : Bool :=
  match leafAt s.mem va 5 0 (s.ctxFields ctx).root.toNat with
  | none => false
  | some (a, _) => bitAt (pteAt s.mem a) 5

/-- Read `n` bytes through a context for the hub, Jasper or a copy engine: the bytes, or the cause. Poison counts as a
cause of its own. -/
def readVa (s : State) (ctx va n i : Nat) : Xlat (List Byte) :=
  match translateRange s ctx va n i .load with
  | .fault c => .fault c
  | .ok ps => if piecesPoisoned s.mem ps then .fault Code.poison else .ok (readPieces s.mem ps)

/-- Write bytes through a context, or answer the cause. -/
def writeVa (s : State) (ctx va i : Nat) (bs : List Byte) : Xlat State :=
  match translateRange s ctx va bs.length i .store with
  | .fault c => .fault c
  | .ok ps => .ok (s.setMem (writePieces s.mem ps bs))

/-- The page at `va` is pinned and owned by the device (R243), for every byte of a range. -/
def pinnedRange (s : State) (ctx va n i : Nat) : Bool :=
  match translateRange s ctx va n i .load with
  | .fault _ => false
  | .ok ps => ps.all fun p => bitAt p.leaf 5 && !bitAt p.leaf 4

/-- Size of the scratchpad allocation (R224). -/
def allocOf (h : Header) : Nat := roundUp h.scratch.toNat 1024

/-- A scratchpad byte; one that the workgroup has not written is a free value (R416). -/
def scratchGet (id : Nat) (g : Workgroup) (off : Nat) : Byte := (fget? g.scratch off).getD (Config.scratchByte id g.losses off)

/-- `n` scratchpad bytes from `off`. -/
def scratchRead (id : Nat) (g : Workgroup) (off n : Nat) : List Byte := (List.range n).map fun i => scratchGet id g (off + i)

/-- Hold bytes in the scratchpad from `off` upward. -/
def scratchPuts (m : FMap Byte) (off : Nat) (bs : List Byte) : FMap Byte :=
  match bs with
  | [] => m
  | b :: t => scratchPuts (fset m off b) (off + 1) t

/-- Write scratchpad bytes; a bank word covered whole loses its error (R226). -/
def scratchWrite (g : Workgroup) (off : Nat) (bs : List Byte) : Workgroup :=
  { g with scratch := scratchPuts g.scratch off bs
           scratchErr := g.scratchErr.filter fun p => !(decide (off ≤ p.1 * 4) && decide (p.1 * 4 + 4 ≤ off + bs.length)) }

/-- The words with errors that a read, or the merge of a partial write, of `n` bytes at `off` finds (R226). -/
def scratchErrs (g : Workgroup) (off n : Nat) : List (Nat × Nat) :=
  g.scratchErr.filter fun p => decide (p.1 * 4 < off + n) && decide (off < p.1 * 4 + 4)

/-- A double-bit error in the range (R226). -/
def scratchUe (g : Workgroup) (off n : Nat) : Bool := (scratchErrs g off n).any fun p => p.2 ≥ 2

/-- Correct the single-bit errors that a read of the range finds: the workgroup, and how many words (R226). -/
def scratchFix (g : Workgroup) (off n : Nat) : Workgroup × Nat :=
  let fixed := (scratchErrs g off n).filter fun p => p.2 = 1
  ({ g with scratchErr := g.scratchErr.filter fun p => !(fixed.any fun q => q.1 = p.1) }, fixed.length)

/-- Where a scratchpad access goes: the workgroup and the offset; `none` is SCRATCH_BOUNDS (R224, R225). -/
def scratchTarget (s : State) (wgId : Nat) (cl : Bool) (addr : Word) (n : Nat) : Option (Nat × Nat) :=
  let g := fgetD s.wgs wgId { launch := 0, num := 0, core := 0 }
  let size := allocOf (s.launchOf g).hdr
  if !cl then (if addr.toNat + n ≤ size then some (wgId, addr.toNat) else none)
  else
    let off := bitsAt addr 0 19
    match g.cset with
    | none => none
    | some c =>
      match (fget? s.hub.csets c).bind fun cs => fget? cs.members (bitsAt addr 19 2) with
      | some t => if bitsAt addr 21 11 = 0 ∧ off + n ≤ size then some (t, off) else none
      | none => none

end Sys2Proof.Machine
end

