-- ==== Sys2Proof/Machine/Barrier.lean ====
section
/-! DEFINITION. Barriers of a workgroup and of a cluster set (R268-R271), and dependence counters (R276-R278). -/

namespace Sys2Proof.Machine

/-- The warps that take part in a barrier, each with its place in the barrier's masks: by %warp, or by
32 × rank + %warp in a cluster set (R268). -/
def barMembers (s : State) (wgId : Nat) (cl : Bool) : FMap Nat :=
  match fget? s.wgs wgId with
  | none => []
  | some g =>
    if !cl then g.warps
    else
      match g.cset.bind fun c => fget? s.hub.csets c with
      | none => []
      | some cs => cs.members.flatMap fun m =>
          ((fget? s.wgs m.2).map fun g' => g'.warps.map fun p => (32 * m.1 + p.1, p.2)).getD []

/-- The place of a warp in the masks of a barrier. -/
def barKey (s : State) (w : Warp) (cl : Bool) : Nat :=
  if cl then 32 * ((s.wgOf w).core % 4) + w.widx else w.widx

/-- Barrier `id` (R268). -/
def barOf (s : State) (wgId : Nat) (cl : Bool) (id : Nat) : Barrier :=
  match fget? s.wgs wgId with
  | none => {}
  | some g =>
    if !cl then g.bars.getD id {}
    else ((g.cset.bind fun c => fget? s.hub.csets c).map fun cs => cs.bars.getD id {}).getD {}

/-- Hold a barrier. -/
def setBar (s : State) (wgId : Nat) (cl : Bool) (id : Nat) (b : Barrier) : State :=
  if !cl then s.modWg wgId fun g => { g with bars := setAt g.bars id b }
  else
    match (fget? s.wgs wgId).bind fun g => g.cset with
    | none => s
    | some c => s.modHub fun h => { h with csets := fmod h.csets c fun cs => { cs with bars := setAt cs.bars id b } }

/-- Record the arrival of a lane in the current phase; a warp's first arrival fixes its required mask (R268, R269). -/
def barArriveLane (s : State) (wk lane : Nat) (cl : Bool) (id : Nat) : State :=
  match s.warp? wk with
  | none => s
  | some w =>
    let b := barOf s w.wg cl id
    let k := barKey s w cl
    let b' : Barrier := { b with
      required := if (fget? b.required k).isSome then b.required else fset b.required k w.live
      arrived := fset b.arrived k (fgetD b.arrived k 0 ||| laneBit lane) }
    (setBar s w.wg cl id b').modWarp wk fun w => w.modLane lane fun l =>
      { l with arrivals := fset l.arrivals (id + if cl then 8 else 0) b.phase }

/-- Every warp that has not left has arrived (R269). -/
def barFull (s : State) (wgId : Nat) (cl : Bool) (id : Nat) : Bool :=
  let b := barOf s wgId cl id
  let ms := barMembers s wgId cl
  ms ≠ [] && ms.all fun m => match fget? b.required m.1 with
    | some r => r &&& ~~~(fgetD b.arrived m.1 0) = 0
    | none => false

/-- Release what waits for the phase `ph` in one lane; a lane that could not arrive yet is left for the next step. -/
def barRelease (cl : Bool) (id ph : Nat) (l : Lane) : Lane :=
  match l.wait with
  | some (.bar c i p sync _ next _) =>
    if c = cl ∧ i = id ∧ p ≤ ph then
      let l' := { l with wait := none }
      if sync then l'.setRegion next else l'
    else l
  | _ => l

/-- The lanes of a warp that arrive in the phase after `ph`, with whether they then wait. -/
def barLate (w : Warp) (cl : Bool) (id ph : Nat) : List (Nat × Bool × PC × PC) :=
  (List.range 32).filterMap fun i => match (w.lane i).wait with
    | some (.barNext c j p sync pc next _) => if c = cl ∧ j = id ∧ p ≤ ph then some (i, sync, pc, next) else none
    | _ => none

/-- A lane that waited to arrive arrives, and then waits or goes on (R269). That its count starts again from 0 is the model's choice (R275;
log 109). -/
def barLateArrive (s : State) (wk : Nat) (cl : Bool) (id ph : Nat) (a : Nat × Bool × PC × PC) : State :=
  (barArriveLane s wk a.1 cl id).modWarp wk fun w => w.modLane a.1 fun l =>
    if a.2.1 then { l with wait := some (.bar cl id (ph + 1) true a.2.2.1 a.2.2.2 0) }
    else { l with wait := none }.setRegion a.2.2.2

/-- Complete the phase, if it is full, and any phase that its late arrivals fill in turn (R269). -/
def barSettle (fuel : Nat) (s : State) (wgId : Nat) (cl : Bool) (id : Nat) : State :=
  match fuel with
  | 0 => s
  | fuel + 1 =>
    if !barFull s wgId cl id then s
    else
      let ph := (barOf s wgId cl id).phase
      let s₁ := setBar s wgId cl id { phase := ph + 1, required := [], arrived := [] }
      let ms := barMembers s wgId cl
      let s₂ := ms.foldl (fun s m => s.modWarp m.2 fun w => w.mapLanes fun _ l => barRelease cl id ph l) s₁
      let s₃ := ms.foldl (fun s m => ((s.warp? m.2).map fun w =>
        (barLate w cl id ph).foldl (fun s a => barLateArrive s m.2 cl id ph a) s).getD s) s₂
      barSettle fuel s₃ wgId cl id

/-- Test every barrier that a change of a workgroup's lanes or warps may complete (R269). -/
def barSettleAll (s : State) (wgId : Nat) : State :=
  (List.range 8).foldl (fun s id => barSettle 3 (barSettle 3 s wgId false id) wgId true id) s

/-- Lanes that became vacant are not required any more (R269). -/
def barForget (s : State) (w : Warp) (m : Mask) : State :=
  (List.range 8).foldl (fun s id => [false, true].foldl (fun s cl =>
    let b := barOf s w.wg cl id
    let k := barKey s w cl
    if (fget? b.required k).isSome then
      setBar s w.wg cl id { b with required := fset b.required k (fgetD b.required k 0 &&& ~~~m) }
    else s) s) s

/-- Release the lanes that wait at DCWAIT on counter `c`, which has taken the value 0 (R278). -/
def counterRelease (s : State) (wgId c : Nat) : State :=
  (barMembers s wgId false).foldl (fun s m => s.modWarp m.2 fun w => w.mapLanes fun _ l => match l.wait with
    | some (.dcwait d _) => if d = c then { l with wait := none } else l
    | _ => l) s

/-- Add to a dependence counter, and release its waiters when it becomes 0 (R276-R278). -/
def counterAdd (s : State) (wgId c : Nat) (x : Word) : State :=
  match fget? s.wgs wgId with
  | none => s
  | some g =>
    let v := g.counters.getD c 0 + x
    let s' := s.modWg wgId fun g => { g with counters := setAt g.counters c v }
    if v = 0 then counterRelease s' wgId c else s'

end Sys2Proof.Machine
end

