-- ==== Sys2Proof/Machine/Float.lean ====
section
/-! DEFINITION. Floating-point formats, exact values and the one rounding function (R61-R71). A finite value is kept
exactly, as an integer times a power of two. -/

namespace Sys2Proof.Machine

/-- A floating-point format: fraction width, exponent width, bias, and E4M3's own codes (R61, R62). -/
structure Fmt where
  fw : Nat
  ew : Nat
  bias : Int
  e4m3 : Bool := false
deriving DecidableEq, Repr

namespace Fmt
def f64 : Fmt := { fw := 52, ew := 11, bias := 1023 }
def f32 : Fmt := { fw := 23, ew := 8, bias := 127 }
def bf16 : Fmt := { fw := 7, ew := 8, bias := 127 }
def f16 : Fmt := { fw := 10, ew := 5, bias := 15 }
def e5m2 : Fmt := { fw := 2, ew := 5, bias := 15 }
def e4m3fmt : Fmt := { fw := 3, ew := 4, bias := 7, e4m3 := true }

/-- Width in bits. -/
def width (f : Fmt) : Nat := f.fw + f.ew + 1

/-- Exponent of the smallest subnormal. -/
def minExp (f : Fmt) : Int := 1 - f.bias - f.fw

/-- Magnitude code of the largest finite value. -/
def maxCode (f : Fmt) : Nat := if f.e4m3 then 0x7E else (2 ^ f.ew - 1) * 2 ^ f.fw - 1

/-- Code of an infinity of the sign; E4M3 has none (R62). -/
def inf (f : Fmt) (neg : Bool) : Nat := (if neg then 2 ^ (f.fw + f.ew) else 0) + (2 ^ f.ew - 1) * 2 ^ f.fw

/-- The canonical NaN (R61). -/
def nan (f : Fmt) : Nat := if f.e4m3 then 0x7F else (2 ^ f.ew - 1) * 2 ^ f.fw + 2 ^ (f.fw - 1)

/-- A zero or finite magnitude code with a sign. -/
def signed (f : Fmt) (neg : Bool) (mag : Nat) : Nat := (if neg then 2 ^ (f.fw + f.ew) else 0) + mag
end Fmt

/-- The format of a float type code (R60). -/
def fmtOf (code : Nat) : Fmt :=
  match code with
  | 0 => .f64
  | 2 => .bf16
  | 3 => .e4m3fmt
  | 7 => .f16
  | 8 => .e5m2
  | _ => .f32

/-- A floating-point operand or an exact result. A finite one is `m` × 2^`e`; a zero has the sign `zneg`. -/
inductive FReal where
  | nan (signalling : Bool)
  | inf (neg : Bool)
  | fin (zneg : Bool) (m : Int) (e : Int)
deriving DecidableEq, Repr

namespace Flag
def inv : Word := 0x1
def dz : Word := 0x2
def ovf : Word := 0x4
def unf : Word := 0x8
def inx : Word := 0x10
def sat : Word := 0x20
def iovf : Word := 0x40
def q4z : Word := 0x80
def sing : Word := 0x100
def reg : Word := 0x200
def gate : Word := 0x400
def wpart : Word := 0x800
def jlost : Word := 0x1000
end Flag

/-- The bits of %fst that exist (R72). -/
def fstMask : Word := 0x1FFF

/-- The value of a code (R61, R62). -/
def unpack (f : Fmt) (code : Nat) : FReal :=
  let mag := code % 2 ^ (f.fw + f.ew)
  let neg := code / 2 ^ (f.fw + f.ew) % 2 = 1
  let ex := mag / 2 ^ f.fw
  let fr := mag % 2 ^ f.fw
  if f.e4m3 && mag = 0x7F then .nan false
  else if !f.e4m3 && ex = 2 ^ f.ew - 1 then
    if fr = 0 then .inf neg else .nan (fr < 2 ^ (f.fw - 1))
  else
    let m : Int := if ex = 0 then fr else fr + 2 ^ f.fw
    .fin neg (if neg then -m else m) (f.minExp + (if ex = 0 then 0 else ex - 1 : Nat))

/-- `m` × 2^`e` as an integer multiple of 2^`q`, for `q` at most `e`. -/
def alignTo (m e q : Int) : Int := m * 2 ^ (e - q).toNat

/-- Exact sum of two finite values. -/
def addExact (m₁ e₁ m₂ e₂ : Int) : Int × Int :=
  let q := min e₁ e₂
  (alignTo m₁ e₁ q + alignTo m₂ e₂ q, q)

/-- Order of two finite values. -/
def cmpExact (m₁ e₁ m₂ e₂ : Int) : Ordering :=
  let q := min e₁ e₂
  compare (alignTo m₁ e₁ q) (alignTo m₂ e₂ q)

/-- Whether a quotient with floor `k`, remainder `r` and divisor `d` is rounded up in magnitude in mode `rnd` (R68). -/
def roundsUp (rnd : Nat) (neg : Bool) (k r d : Nat) : Bool :=
  match rnd with
  | 0 => 2 * r > d || (2 * r = d && k % 2 = 1)
  | 2 => neg && r ≠ 0
  | 3 => !neg && r ≠ 0
  | 4 => 2 * r ≥ d && r ≠ 0
  | _ => false

/-- floor(log2(n / d)) for positive n and d. -/
def log2Ratio (n d : Nat) : Int :=
  let g : Int := (n.log2 : Int) - d.log2
  -- g − 1 or g
  if g ≥ 0 then (if n ≥ d * 2 ^ g.toNat then g else g - 1) else (if n * 2 ^ (-g).toNat ≥ d then g else g - 1)

/-- round() of R69 on the finite value ± n / d × 2^e with n and d positive: code and flags. -/
def roundRat (f : Fmt) (rnd : Nat) (sat neg : Bool) (n d : Nat) (e : Int) : Nat × Word :=
  let q := max f.minExp (log2Ratio n d + e - f.fw)
  let sh := e - q
  let num := if sh ≥ 0 then n * 2 ^ sh.toNat else n
  let den := if sh ≥ 0 then d else d * 2 ^ (-sh).toNat
  let k := num / den
  let r := num % den
  let k' := if roundsUp rnd neg k r den then k + 1 else k
  let mag := (q - f.minExp).toNat * 2 ^ f.fw + k'
  let excess := mag > f.maxCode
  let toInf := match rnd with
    | 1 => false
    | 2 => neg
    | 3 => !neg
    | _ => true
  let clamp := excess && toInf && (sat || f.e4m3)
  let flags : Word := (if r ≠ 0 || excess then Flag.inx else 0) ||| (if r ≠ 0 && mag < 2 ^ f.fw then Flag.unf else 0)
    ||| (if excess then Flag.ovf else 0) ||| (if clamp then Flag.sat else 0)
  if excess then (if toInf && !clamp then f.inf neg else f.signed neg f.maxCode, flags) else (f.signed neg mag, flags)

/-- round() of R69, and the canonical NaN for a NaN (R63): code and flags. -/
def roundTo (f : Fmt) (rnd : Nat) (sat : Bool) (x : FReal) : Nat × Word :=
  match x with
  | .nan _ => (f.nan, 0)
  | .inf neg => if f.e4m3 || sat then (f.signed neg f.maxCode, Flag.sat) else (f.inf neg, 0)
  | .fin zneg m e => if m = 0 then (f.signed zneg 0, 0) else roundRat f rnd sat (m < 0) m.natAbs 1 e

/-- The flag of a signalling NaN operand (R63). -/
def sigFlag (x : FReal) : Word := if x = .nan true then Flag.inv else 0

/-- Sign of a value that is not a NaN. -/
def FReal.neg? (x : FReal) : Bool :=
  match x with
  | .nan _ => false
  | .inf n => n
  | .fin z m _ => if m = 0 then z else m < 0

/-- The value is a NaN. -/
def FReal.isNan (x : FReal) : Bool :=
  match x with
  | .nan _ => true
  | _ => false

/-- Exact sum with its flags (R64, R140); `rd` is the rounding mode toward −∞. -/
def FReal.add (rd : Bool) (x y : FReal) : FReal × Word :=
  let fl := sigFlag x ||| sigFlag y
  match x, y with
  | .nan _, _ | _, .nan _ => (.nan false, fl)
  | .inf a, .inf b => if a = b then (.inf a, 0) else (.nan false, Flag.inv)
  | .inf a, _ => (.inf a, 0)
  | _, .inf b => (.inf b, 0)
  | .fin z₁ m₁ e₁, .fin z₂ m₂ e₂ =>
    let s := addExact m₁ e₁ m₂ e₂
    let n₁ := FReal.neg? (.fin z₁ m₁ e₁)
    let n₂ := FReal.neg? (.fin z₂ m₂ e₂)
    (.fin (if n₁ = n₂ then n₁ else rd) s.1 s.2, 0)

/-- Exact product with its flags (R140). -/
def FReal.mul (x y : FReal) : FReal × Word :=
  let fl := sigFlag x ||| sigFlag y
  let neg := x.neg? != y.neg?
  match x, y with
  | .nan _, _ | _, .nan _ => (.nan false, fl)
  | .inf _, .fin _ m _ | .fin _ m _, .inf _ => if m = 0 then (.nan false, Flag.inv) else (.inf neg, 0)
  | .inf _, .inf _ => (.inf neg, 0)
  | .fin _ m₁ e₁, .fin _ m₂ e₂ => (.fin neg (m₁ * m₂) (e₁ + e₂), 0)

/-- Exact x × y + z with its flags: 0 × ∞ sets INV even when z is a quiet NaN (R140). -/
def FReal.fma (rd : Bool) (x y z : FReal) : FReal × Word :=
  let p := FReal.mul x y
  let s := FReal.add rd p.1 z
  (s.1, p.2 ||| s.2)

/-- The largest root whose square is at most `n`, found bit by bit from bit `b − 1` down, from the root `r`. -/
def isqrtFrom (n : Nat) (b r : Nat) : Nat :=
  match b with
  | 0 => r
  | b + 1 => let t := r + 2 ^ b; if t * t ≤ n then isqrtFrom n b t else isqrtFrom n b r

/-- floor(√n). -/
def isqrt (n : Nat) : Nat := isqrtFrom n (n.log2 / 2 + 1) 0

/-- √(m × 2^e) of a positive value to more bits than any format holds, with a last bit that says it is inexact: rounding
it gives the rounded exact root. -/
def sqrtWide (m : Nat) (e : Int) : Nat × Int :=
  let t : Nat := 128 + (if (e - 128) % 2 = 0 then 0 else 1)
  let n := m * 2 ^ t
  let s := isqrt n
  (2 * s + (if s * s = n then 0 else 1), (e - t) / 2 - 1)

/-- Exact conversion of a finite value to the nearest integer in mode `rnd`, and whether that changed it (R70). -/
def roundInt (rnd : Nat) (m e : Int) : Int × Bool :=
  if e ≥ 0 then (m * 2 ^ e.toNat, false)
  else
    let d := 2 ^ (-e).toNat
    let k := m.natAbs / d
    let r := m.natAbs % d
    let k' : Nat := if roundsUp rnd (m < 0) k r d then k + 1 else k
    (if m < 0 then -(k' : Int) else k', r ≠ 0)

/-- Negate and take the absolute value of a code, by its sign bit (R139). -/
def signMod (f : Fmt) (absolute negate : Bool) (code : Nat) : Nat :=
  let s := 2 ^ (f.fw + f.ew)
  let c := if absolute then code % s else code % (2 * s)
  if negate then (c + s) % (2 * s) else c

/-- The order of R142 and R143: −0 equals +0. -/
def FReal.cmp (x y : FReal) : Ordering :=
  match x, y with
  | .inf a, .inf b => if a = b then .eq else if a then .lt else .gt
  | .inf a, _ => if a then .lt else .gt
  | _, .inf b => if b then .gt else .lt
  | .fin _ m₁ e₁, .fin _ m₂ e₂ => cmpExact m₁ e₁ m₂ e₂
  | _, _ => .eq

/-- FMIN and FMAX on codes (R142): the operand chosen, unchanged, and flags. -/
def minMax (f : Fmt) (max : Bool) (a b : Nat) : Nat × Word :=
  let x := unpack f a
  let y := unpack f b
  let fl := sigFlag x ||| sigFlag y
  if x.isNan && y.isNan then (f.nan, fl)
  else if x.isNan then (b, fl)
  else if y.isNan then (a, fl)
  else
    let lt := match FReal.cmp x y with
      | .lt => true
      | .gt => false
      | .eq => x.neg? && !y.neg?
    (if lt != max then a else b, fl)

end Sys2Proof.Machine
end

