-- ==== Sys2Proof/Machine/Flags.lean ====
section
/-! DEFINITION. The flag computations of lane arithmetic: saturation, carries, integer conversions and float results with
the %fst bits that each sets (R65-R73, R127-R146). -/

namespace Sys2Proof.Machine

/-- Clamp an exact integer to a range; SAT when it was outside (R65, R70). -/
def clampTo (lo hi x : Int) : Int × Word := if x < lo then (lo, Flag.sat) else if x > hi then (hi, Flag.sat) else (x, 0)

/-- Range of an integer type code (R65). -/
def intRange (code : Nat) : Int × Int :=
  let n := tyWidth code
  if code = 5 then (-7, 7)
  else if 4 ≤ code ∧ code ≤ 10 then (-(2 ^ (n - 1)), 2 ^ (n - 1) - 1)
  else (0, 2 ^ n - 1)

/-- The integer type code is signed (R60). -/
def tySigned (code : Nat) : Bool := [4, 5, 6, 9, 10].contains code

/-- An integer operand of a type, from its low bits; s4 0b1000 is 0 with Q4Z (R66, R67). -/
def readInt (code x : Nat) : Int × Word :=
  let n := tyWidth code
  if code = 5 && x % 16 = 8 then (0, Flag.q4z)
  else if tySigned code then (sextInt n x, 0)
  else ((x % 2 ^ n : Nat), 0)

/-- The bits of an integer, `n` of them. -/
def intBits (n : Nat) (x : Int) : Nat := (x % 2 ^ n).toNat

/-- How a value narrower than 32 bits is held in a v register: sign-extended for signed types, else zero-extended (R67). -/
def holdBits (code bits : Nat) : Nat :=
  if tySigned code && tyWidth code < 32 then intBits 32 (sextInt (tyWidth code) bits) else bits

/-- One conversion of CVT (R70, R71, R85): result bits of the destination type and flags. -/
def convert (dt st rnd : Nat) (sat : Bool) (x : Nat) : Nat × Word :=
  if tyIsFloat st then
    let v := unpack (fmtOf st) (x % 2 ^ tyWidth st)
    if tyIsFloat dt then
      let r := roundTo (fmtOf dt) rnd sat v
      (r.1, r.2 ||| sigFlag v)
    else
      let (lo, hi) := intRange dt
      match v with
      | .nan _ => (0, Flag.inv)
      | .inf neg => (intBits (tyWidth dt) (if neg then lo else hi), Flag.inv ||| Flag.sat)
      | .fin _ m e =>
        let (k, changed) := roundInt rnd m e
        let c := clampTo lo hi k
        (intBits (tyWidth dt) c.1, (if changed then Flag.inx else 0) ||| (if c.2 = 0 then 0 else Flag.inv ||| Flag.sat))
  else
    let (v, fl) := readInt st x
    if tyIsFloat dt then
      let r := roundTo (fmtOf dt) rnd sat (.fin false v 0)
      (r.1, r.2 ||| fl)
    else
      let (lo, hi) := intRange dt
      let c := clampTo lo hi v
      (intBits (tyWidth dt) c.1, c.2 ||| fl)

/-- Sum or difference clamped to 32 bits, with SAT (R130). -/
def satAdd (uns : Bool) (x : Int) : Word × Word :=
  let c := if uns then clampTo 0 (2 ^ 32 - 1) x else clampTo (-(2 ^ 31)) (2 ^ 31 - 1) x
  (BitVec.ofInt 32 c.1, c.2)

/-- An integer compare by the codes of R136. -/
def intCmp (cc : Nat) (uns : Bool) {n : Nat} (a b : BitVec n) : Bool :=
  let lt := if uns then decide (a.toNat < b.toNat) else decide (a.toInt < b.toInt)
  match cc with
  | 0 => a == b
  | 1 => a != b
  | 2 => lt
  | 3 => lt || a == b
  | 4 => !(lt || a == b)
  | _ => !lt

/-- Combination of a compare with pc (R136). -/
def combine (comb : Nat) (t pc : Bool) : Bool :=
  match comb with
  | 1 => t && pc
  | 2 => t || pc
  | _ => t

/-- FADD and DADD (R141): code and flags. -/
def floatAdd (f : Fmt) (rnd : Nat) (sat : Bool) (a b : Nat) : Nat × Word :=
  let t := FReal.add (rnd = 2) (unpack f a) (unpack f b)
  let r := roundTo f rnd sat t.1
  (r.1, r.2 ||| t.2)

/-- FMUL and DMUL (R141). -/
def floatMul (f : Fmt) (rnd : Nat) (sat : Bool) (a b : Nat) : Nat × Word :=
  let t := FReal.mul (unpack f a) (unpack f b)
  let r := roundTo f rnd sat t.1
  (r.1, r.2 ||| t.2)

/-- FFMA and DFMA (R141). -/
def floatFma (f : Fmt) (rnd : Nat) (sat : Bool) (a b c : Nat) : Nat × Word :=
  let t := FReal.fma (rnd = 2) (unpack f a) (unpack f b) (unpack f c)
  let r := roundTo f rnd sat t.1
  (r.1, r.2 ||| t.2)

/-- FCMP and DCMP (R143): result and flags. -/
def floatCmp (f : Fmt) (cc a b : Nat) : Bool × Word :=
  let x := unpack f a
  let y := unpack f b
  let un := x.isNan || y.isNan
  let o := FReal.cmp x y
  let t := match cc with
    | 0 => !un && o == .eq
    | 1 => un || o != .eq
    | 2 => !un && o == .lt
    | 3 => !un && o != .gt
    | 4 => !un && o == .gt
    | 5 => !un && o != .lt
    | 6 => !un
    | _ => un
  (t, sigFlag x ||| sigFlag y)

/-- FRND (R144): zeros and infinities unchanged, only INV. -/
def floatRound (rnd a : Nat) : Nat × Word :=
  match unpack .f32 a with
  | .nan s => (Fmt.f32.nan, if s then Flag.inv else 0)
  | .inf _ => (a, 0)
  | .fin _ m e =>
    if m = 0 then (a, 0)
    else
      let k := (roundInt rnd m e).1
      ((roundTo .f32 0 false (.fin (m < 0) k 0)).1, 0)

/-- Reciprocal, correctly rounded (R145). -/
def floatRcp (f : Fmt) (a : Nat) : Nat × Word :=
  match unpack f a with
  | .nan s => (f.nan, if s then Flag.inv else 0)
  | .inf neg => (f.signed neg 0, 0)
  | .fin z m e => if m = 0 then (f.inf z, Flag.dz) else roundRat f 0 false (m < 0) 1 m.natAbs (-e)

/-- Square root, correctly rounded (R145). -/
def floatSqrt (f : Fmt) (a : Nat) : Nat × Word :=
  match unpack f a with
  | .nan s => (f.nan, if s then Flag.inv else 0)
  | .inf neg => if neg then (f.nan, Flag.inv) else (f.inf false, 0)
  | .fin _ m e =>
    if m = 0 then (a, 0)
    else if m < 0 then (f.nan, Flag.inv)
    else
      let r := sqrtWide m.natAbs e
      roundRat f 0 false false r.1 1 r.2

/-- The class mask of FCLASS: exactly one bit (R88). -/
def classMask (f : Fmt) (a : Nat) : Nat :=
  let mag := a % 2 ^ (f.fw + f.ew)
  match unpack f a with
  | .nan s => if s then 2 ^ 8 else 2 ^ 9
  | .inf neg => if neg then 2 ^ 0 else 2 ^ 7
  | .fin z m _ =>
    if m = 0 then (if z then 2 ^ 3 else 2 ^ 4)
    else if mag < 2 ^ f.fw then (if m < 0 then 2 ^ 2 else 2 ^ 5)
    else (if m < 0 then 2 ^ 1 else 2 ^ 6)

end Sys2Proof.Machine
end

