-- ==== Sys2Proof/Machine/Ops.lean ====
section
/-! DEFINITION. The operations that instructions and device steps share: issuing a gang and retiring its instruction,
taking a trap and returning from it (R355-R363), vacating lanes (R97, R338), and killing a context (R360). -/

namespace Sys2Proof.Machine

/-- The outcome of a step of this machine. -/
abbrev Out := Host.Outcome State Fault Refusal

/-- Exchange two PC values. -/
def swapPc (p : PC × PC) (x : PC) : PC := if x = p.1 then p.2 else if x = p.2 then p.1 else x

/-- The exchanges between native PC values and Nelrak-1 addresses of a context (R402), none of them malformed (R111). -/
def pcSwaps (ctx : Nat) : List (PC × PC) :=
  let fine (x : PC) : Bool := bitsAt x 0 2 = 0 && bitsAt x 57 3 = 0
  (Config.swaps ctx).filter fun p => fine p.1 && fine p.2

/-- The Nelrak-1 address for which a native PC value stands, and the native PC value for which a Nelrak-1 address stands (R402). -/
def toNelrak (ctx : Nat) (x : PC) : PC := (pcSwaps ctx).foldl (fun x p => swapPc p x) x
def fromNelrak (ctx : Nat) (x : PC) : PC := (pcSwaps ctx).foldr swapPc x

/-- A gang whose instruction issues in this step (R90). -/
structure Gang where
  wk : Nat
  w : Warp
  pc : PC
  /-- PC value of the next instruction (R28, R46). -/
  next : PC
  /-- The gang, and its executing lanes: those whose guard is true (R31). -/
  mask : Mask
  exec : Mask
  /-- Registers per thread. -/
  g : Nat
  free : Nat
  /-- The Nelrak-1 address of the next instruction, when the code is a translation (R402). -/
  nelrak : Option PC := none
deriving DecidableEq, Repr

namespace Gang

/-- What lane `i` sees. -/
def env (q : Gang) (i : Nat) : Env :=
  { free := q.free, lane := i, g := q.g, pc := q.pc, next := q.next, exec := q.exec, gang := q.mask }

/-- Lane `i` of the gang's warp. -/
def lane (q : Gang) (i : Nat) : Lane := q.w.lane i

/-- The executing lanes for which `p` holds. -/
def failing (q : Gang) (p : Nat → Lane → Bool) : Mask := maskOf fun i => bitAt q.exec i && p i (q.lane i)

/-- The lowest executing lane (R106). -/
def lead (q : Gang) : Nat := lowest q.exec

end Gang

/-- The lanes of `m` whose guard is true (R31). -/
def execMask (w : Warp) (m : Mask) (free g : Nat) (h : Hdr) : Mask :=
  maskOf fun i => bitAt m i && guardOf (w.lane i) { free := free, lane := i, g := g } h

/-- The PC value after an instruction of `n` words at the issuing PC value, or after the code of a DICT (R28, R46). -/
def nextPc (i : Issue) (n : Nat) : PC :=
  match i.dict with
  | some d => d.next
  | none => i.pc + BitVec.ofNat 64 (4 * n)

/-- The gang picked to issue an instruction of `n` words with header `h`. -/
def gangOf (s : State) (h : Hdr) (n : Nat) : Option Gang :=
  match s.issue with
  | none => none
  | some i =>
    match s.warp? i.wk with
    | none => none
    | some w =>
      let m := w.gang i.pc
      if m = 0 then none
      else
        let g := s.regsOf w
        some { wk := i.wk, w := w, pc := i.pc, next := nextPc i n, mask := m, exec := execMask w m s.free g h, g := g,
               free := s.free, nelrak := if (s.launchOfWarp w).hdr.isaRev = 1 then some (toNelrak (s.ctxOf w) (nextPc i n)) else none }

/-- Run `f` on the gang that issues. -/
def issued (h : Hdr) (n : Nat) (s : State) (f : Gang → Out) : Out :=
  match gangOf s h n with
  | none => .fault .notIssued
  | some q => f q

/-- Whether a lane still waits for a result at a switch point (R49, R161). -/
def Lane.busy (l : Lane) : Bool :=
  l.pend != [] || l.chain.isSome || (match l.wait with
    | some (.waitv ..) => true
    | _ => false)

/-- The chain of a lane, if any, ends (R161). -/
def Lane.endChain (l : Lane) : Lane := { l with chain := l.chain.map fun c => { c with ended := true } }

namespace Warp

/-- The lanes of `m` pass a switch point together: their chains end, and if one of them has an outstanding result they all
wait (R49, R161). -/
def switchPoint (w : Warp) (m : Mask) : Warp :=
  let m' := m &&& w.live
  if (lanesOf m').any fun i => (w.lane i).busy then w.mapIn m' fun _ l => { l.endChain with sw := m' } else w

/-- A lane of the gang `m` has not left its loop at a WAITV (R274). -/
def waitvHeld (w : Warp) (m : Mask) : Bool :=
  (lanesOf (maskOf fun _ => true)).any fun j => match (w.lane j).wait with
    | some (.waitv _ _ _ _ g _) => g = m
    | _ => false

/-- The lanes that have left their loop at a WAITV go on once their whole gang has (R274). -/
def waitvRelease (w : Warp) : Warp :=
  w.mapLanes fun _ l => match l.wait with
    | some (.waitvLeft m) => if w.waitvHeld m then l else { l with wait := none }
    | _ => l

/-- Release the gangs at WAITV that have left it, and the switch points whose lanes have no outstanding result left (R49, R274). -/
def switchRelease (w₀ : Warp) : Warp :=
  let w := w₀.waitvRelease
  w.mapLanes fun _ l =>
    if l.sw ≠ 0 && (lanesOf l.sw).all fun j => (w.lane j).sw ≠ l.sw || !(w.lane j).busy then { l with sw := 0 } else l

end Warp

/-- Store a warp and end the step. -/
def commit (s : State) (wk : Nat) (w : Warp) : Out := .next (s.setWarp wk w).done

/-- The gang goes on to the next instruction with the warp `w`, past a switch point when `sw` says so (R31, R49). -/
def retire (q : Gang) (sw : Bool) (w : Warp) (s : State) : Out :=
  let w' := w.advance q.pc q.next q.mask
  commit s q.wk (if sw then w'.switchPoint q.mask else w')

/-- A fixed-latency lane instruction: `f` in each executing lane, and nothing else (R48, R127). -/
def laneOp (h : Hdr) (n : Nat) (s : State) (f : Env → Lane → Lane) : Out :=
  issued h n s fun q => retire q h.sw (q.w.mapIn q.exec fun i l => f (q.env i) l) s

/-- A variable-latency lane instruction: each executing lane gets a pending result (R48, R49). -/
def pendOp (h : Hdr) (n : Nat) (s : State) (f : Env → Lane → Pend) : Out :=
  issued h n s fun q => retire q h.sw (q.w.mapIn q.exec fun i l => l.addPend (f (q.env i) l)) s

/-- The gang once its path has come to an instruction that waits for its lanes' results: the chains of the path have ended, those of lanes
whose guard is false too (R161). -/
def Gang.ended (q : Gang) : Gang := { q with w := q.w.mapIn q.mask fun _ l => l.endChain }

/-- The instruction is not issued yet: the chains of its path end, and the gang tries again (R49, R161). -/
def waitIssue (q : Gang) (s : State) : Out := commit s q.wk q.ended.w

/-- An executing lane has a result outstanding, which JARR, JOIN, BAR, CPYQ and LAUNCH wait for at issue (R49). -/
def Gang.pending (q : Gang) : Bool := (lanesOf q.exec).any fun i => (q.lane i).busy

/-- The device step ends: its free values are used up. -/
def State.ended (s : State) : State := { s with event := none, free := s.free + 1 }

/-- A device step that happens only when `c` holds of what it names, and else has no effect. -/
def onlyIf (c : Bool) (s : State) (t : State) : Out := .next (if c then t else s).ended

/-- A cause arises in a warp: no path of it issues until it is delivered, and its chains end (R355, R170). -/
def addCause (s : State) (wk : Nat) (c : Cause) : State :=
  s.modWarp wk fun w => { w.mapLanes (fun _ l => l.endChain) with causes := w.causes ++ [c] }

/-- A precise fault of the issuing gang: the instruction has no effect in any lane (R54, R356). -/
def trapGang (q : Gang) (s : State) (code sub : Nat) (m : Mask) : Out :=
  .next (addCause s q.wk { code := code, sub := sub, mask := m, path := q.mask, pc := q.pc, resume := .region, cont := q.next }).done

/-- Jasper of the die is told of a fault, as a numbered event (R24, R26), and the fault's path waits for it (R241, R242). That its lanes'
chains end there is the model's choice (log 96). -/
def toJasper (s : State) (wk : Nat) (c : Cause) : State :=
  let (n, s₁) := s.number (dieOfKey wk)
  (s₁.notify (dieOfKey wk) (.fault n c.code wk c.va)).modWarp wk fun w =>
    { w.mapIn c.path (fun _ l => { l.endChain with wait := some .jasper }) with jasper := w.jasper ++ [{ c with seq := n }] }

/-- A cause that Jasper tries to resolve first: the path stops issuing (R241, R242, R356). An address with one of bits 57
to 63 set is not tried (R223). -/
def askJasper (q : Gang) (s : State) (code sub : Nat) (m : Mask) (va : DWord) : Out :=
  let c : Cause := { code := code, sub := sub, mask := m, path := q.mask, pc := q.pc, resume := .region, cont := q.next, va := va }
  .next (if va.toNat ≥ 2 ^ 57 then addCause s q.wk c else toJasper s q.wk c).done

/-- Each branching lane goes to its target and every other lane of the gang to the next instruction; lanes at the target
may issue from the second cycle on (R91, R93, R112). -/
def branchTo (q : Gang) (sw : Bool) (s : State) (cycle : Nat) (target : Nat → PC) (f : Nat → Lane → Lane) : Out :=
  match q.w.split q.pc q.mask fun i => if bitAt q.exec i then target i else q.next with
  | none => trapGang q s Code.divergeOvf 0 q.mask
  | some sl =>
    let w : Warp := { q.w with slices := sl }
    let w' := w.mapIn q.exec fun i l => { f i l with readyAt := cycle + 1 }
    commit s q.wk (if sw then w'.switchPoint q.mask else w')

/-- The cycle count of a warp's quarter; while an instruction runs, that of the cycle after its issue. -/
def cycleOf (s : State) (wk : Nat) : Nat := fgetD (s.coreOf (coreOfKey wk)).cycles (quarterOfKey wk) 0

/-- A generator is due at a time, with its next boundary (R321). -/
def Gen.due (x : Gen) (now : Nat) : Bool := x.period ≠ 0 && decide (x.start.toNat + x.next * x.period.toNat ≤ now)
def Gen.boundary (x : Gen) : Nat := x.start.toNat + x.next * x.period.toNat

/-- Some generator has reached a boundary that its TICK has not marked yet. -/
def ticksDue (s : State) : Bool := s.hub.gens.any fun p => p.2.due (clockOf s 4)

/-- An event record (R324): `rest` is bits 144 upward. -/
def recordOf (seq time kind rest : Nat) : Record := bytesOf 8 seq ++ bytesOf 8 time ++ bytesOf 2 kind ++ bytesOf 14 rest

/-- A record waits to be written to a queue's event ring (R323). -/
def postRecord (s : State) (q : Nat) (r : Record) : State := s.modQueue q fun u => { u with records := u.records ++ [r] }

/-- Queue and packet index to which a launch reports (R324, R360). -/
def reportsTo (s : State) (L : Launch) : Option (Nat × Word) :=
  match L.by_ with
  | .packet q i => some (q, i)
  | .node gr _ => (s.graph? gr).map fun gph => (gph.queue, gph.idx)

/-- The dispenser has nothing left for a die, and the hub nothing that the die could claim (R336, R338). -/
def noItems (L : Launch) (die : Nat) : Bool :=
  let d := fgetD L.dies die {}
  L.pool = [] && d.chunkLo ≥ d.chunkHi && d.laneLo ≥ d.laneHi

/-- A warp leaves: its slots and registers are free, and it counts for no barrier any more (R269, R338). -/
def leaveWarp (s : State) (wk : Nat) : State :=
  match s.warp? wk with
  | none => s
  | some w =>
    let forget (s : State) (cl : Bool) (id : Nat) : State :=
      let b := barOf s w.wg cl id
      let k := barKey s w cl
      setBar s w.wg cl id { b with required := ferase b.required k, arrived := ferase b.arrived k }
    let s₁ := (List.range 8).foldl (fun s id => forget (forget s false id) true id) s
    let s₂ := (s₁.modWg w.wg fun g => { g with warps := ferase g.warps w.widx }).dropWarp wk
    barSettleAll s₂ w.wg

/-- Lanes end their items and become vacant, with all that this completes: joins, barriers, and the warp itself when the
dispenser has nothing left (R97, R113, R269, R338). -/
def vacateLanes (s : State) (wk : Nat) (m : Mask) : State :=
  match s.warp? wk with
  | none => s
  | some w =>
    let m' := m &&& w.live
    if m' = 0 then s
    else
      let w' := w.vacate m'
      let s₁ := (s.setWarp wk w').modLaunch (s.wgOf w).launch fun L => { L with itemsDone := L.itemsDone + popCount m' }
      let s₂ := barSettleAll (barForget s₁ w m') w.wg
      if w'.live = 0 && noItems (s.launchOfWarp w) (dieOfKey wk) then leaveWarp s₂ wk else s₂

/-- One path entry of a trap frame: PC value, region entry, state and lanes (R359). -/
structure PathEntry where
  pc : PC
  region : PC
  state : Nat
  mask : Mask
deriving DecidableEq, Repr

/-- State of a lane in a trap frame: 0 ready, 1 faulting, 2 parked, 3 waiting (R359). -/
def pathState (c : Cause) (i : Nat) (l : Lane) : Nat :=
  if bitAt c.path i then 1 else if l.park.isSome then 2 else if l.wait.isSome || l.sw ≠ 0 then 3 else 0

/-- The path entries of a warp, one for each PC value, state and region entry, in ascending PC value and then region
entry (R359). -/
def pathEntries (w : Warp) (c : Cause) : List PathEntry :=
  (lanesOf w.live).foldl (fun l i =>
    let a : PathEntry := { pc := if bitAt c.path i then c.pc else w.pcOf i, region := (w.lane i).region, state := pathState c i (w.lane i),
                           mask := laneBit i }
    if l.any (fun b => b.pc = a.pc ∧ b.region = a.region ∧ b.state = a.state) then
      l.map fun b => if b.pc = a.pc ∧ b.region = a.region ∧ b.state = a.state then { b with mask := b.mask ||| a.mask } else b
    else insertBy (fun b x => decide (b.pc.toNat < x.pc.toNat ∨ (b.pc = x.pc ∧ b.region.toNat ≤ x.region.toNat))) a l) []

/-- %tcause: cause code and subcode (R357). -/
def tcause (c : Cause) : Word := BitVec.ofNat 32 (c.code % 256 + 256 * (c.sub % 256))

/-- The bytes of a trap frame (R359). -/
def frameBytes (seq time : Nat) (c : Cause) (flags : Nat) (es : List PathEntry) : List Byte :=
  bytesOf 8 seq ++ bytesOf 4 (tcause c).toNat ++ bytesOf 4 c.mask.toNat ++ bytesOf 8 c.pc.toNat ++ bytesOf 8 time
    ++ bytesOf 1 es.length ++ bytesOf 1 flags ++ bytesOf 30 0
    ++ es.flatMap fun e => bytesOf 8 e.pc.toNat ++ bytesOf 8 e.region.toNat ++ bytesOf 4 e.mask.toNat ++ bytesOf 1 e.state ++ bytesOf 3 0

/-- Write the trap frame of a warp (R359), for an event that arbiter `arb` numbered and its clock stamps (R26). A path whose results
are written is past its switch point. The trap area is pinned and device-owned (R354); a write that does not translate is dropped. -/
def writeFrame (s : State) (wk arb seq : Nat) (c : Cause) (flags : Nat) : State :=
  match s.warp? wk with
  | none => s
  | some w =>
    let ctx := s.ctxOf w
    let bs := frameBytes seq (clockOf s arb) c flags (pathEntries w.switchRelease c)
    match writeVa s ctx ((s.ctxFields ctx).trapArea.toNat + 1024 * wk) 4096 bs with
    | .ok s' => s'
    | .fault _ => s

/-- The granules that a workgroup has written have its context as their last writer (R416). -/
def noteWriter (s : State) (g : Workgroup) : State :=
  let wrote (j : Nat) : Bool := g.scratch.any fun b => b.1 / 1024 = j
  s.modCore g.core fun c => { c with
    writers := (mapFrom (fun j n => (j, n)) 0 g.granules).foldl (fun m p => if wrote p.1 then fset m p.2 (s.launchOf g).ctx else m) c.writers }

/-- A workgroup is gone: its warps, its barriers and its place in a cluster set. -/
def removeWg (s₀ : State) (k : Nat) : State :=
  match s₀.wg? k with
  | none => s₀
  | some g =>
    let s := noteWriter s₀ g
    let s₁ := { s with warps := s.warps.filter fun p => p.2.wg != k, wgs := ferase s.wgs k }
    match g.cset with
    | none => s₁
    | some c => s₁.modHub fun h => { h with
        csets := (fmod h.csets c fun cs => { cs with members := cs.members.filter fun m => m.2 != k }).filter fun cs => cs.2.members != [] }

/-- Stop every workgroup of the launches that `p` accepts, without saving it, and give up those that are saved (R343,
R360). -/
def stopWgs (s : State) (p : Nat → Bool) : State :=
  ((s.wgs.filter fun g => p g.2.launch).foldl (fun s g => removeWg s g.1) s).modHub fun h => { h with
    saved := h.saved.filter fun v => !p v.wg.launch
    csets := h.csets.filter fun c => !p c.2.launch }

/-- Some identifier of a launch has not been dispensed (R336). -/
def Launch.remains (L : Launch) : Bool :=
  L.pool != [] || L.dies.any fun d => d.2.chunkLo < d.2.chunkHi || d.2.laneLo < d.2.laneHi

/-- The identifiers of a launch that no die has dispensed: the hub's remainder, and the rest of each die's lane block and of its
chunk (R403). -/
def Launch.undispensed (L : Launch) : List (Nat × Nat) :=
  (L.pool ++ L.dies.flatMap fun d => [(d.2.laneLo, d.2.laneHi), (d.2.chunkLo, d.2.chunkHi)]).filter fun r => decide (r.1 < r.2)

/-- What is left of a range of identifiers without another one. -/
def cutRange (r u : Nat × Nat) : List (Nat × Nat) := [(r.1, min r.2 u.1), (max r.1 u.2, r.2)].filter fun p => decide (p.1 < p.2)

/-- Close a dispenser; `closed` tells one that was closed before it was exhausted (R331, R338). A rerun dispenses what it had dispensed (R343,
R403). -/
def Launch.close (L : Launch) : Launch :=
  { L with closed := L.closed || L.remains, pool := [], dies := [], ranges := L.undispensed.foldl (fun rs u => rs.flatMap fun r => cutRange r u) L.ranges }

/-- Close the dispensers of the launches that `p` accepts (R338). -/
def closeLaunches (s : State) (p : Nat → Launch → Bool) : State :=
  s.modHub fun h => { h with launches := h.launches.map fun L => if p L.1 L.2 then (L.1, L.2.close) else L }

/-- The copy queues whose engine may be at work, with the number of the entry. -/
def busyQueues (s : State) : List (Nat × Word) :=
  s.wgs.flatMap fun g => (mapFrom (fun q u => (q, u)) 0 g.2.queues).filterMap fun p =>
    if p.2.tail != p.2.done && p.2.performed.isNone then some (4 * g.1 + p.1, p.2.done) else none

/-- Abort a handle: transfers that run end with PEER_LOST, and later ones with HANDLE_BAD (R377). -/
def Handle.abort (k : Handle) (busy : List (Nat × Word)) : Handle := if k.aborted then k else { k with aborted := true, atAbort := busy }

/-- Abort the collective handles of a context (R377). -/
def abortHandles (s : State) (ctx : Nat) : State :=
  let mine (k : Handle) : Bool := k.members.any fun m => m.domain = domainIndex.toNat ∧ m.ctx = ctx
  s.modHub fun h => { h with handles := h.handles.map fun p => (p.1, if mine p.2 then p.2.abort (busyQueues s) else p.2) }

/-- KILLED, the status of every open record of a killed context (R330). -/
def statusKilled : Nat := 0x08

/-- read_idx passes the packets at the head that are complete (R326). -/
def Queue.pass (u : Queue) : Queue :=
  let rest := u.started.dropWhile fun p => p.done
  { u with started := rest, readIdx := ((rest.head?).map fun p => p.idx).getD u.nextIdx }

/-- A queue of a killed context is disabled once its started packets have ended and their records are out (R320). -/
def Queue.retired (u : Queue) : Queue := if u.started.isEmpty && u.records.isEmpty then { u with state := 2 } else u

/-- The queue of a context that is killed: its started packets end, but for the launches and graphs that have yet to write their
records (R320, R360). -/
def Queue.kill (u : Queue) (isOpen : Word → Bool) : Queue :=
  ({ u with hold := none, started := u.started.map fun (p : Started) => if isOpen p.idx then p else { p with done := true } }).pass.retired

/-- The packet at `idx` of queue `q` is a launch or a graph that is not over. -/
def packetOpen (h : Hub) (q : Nat) (idx : Word) : Bool :=
  (h.launches.any fun L => L.2.by_ == .packet q idx) || h.graphs.any fun g => g.2.queue = q && g.2.idx = idx

/-- Kill a context (R360): dispensers closed, workgroups stopped unsaved, open records KILLED, handles aborted; its
queues start nothing more and are disabled once what they started has ended (R320). -/
def killCtx (s : State) (ctx : Nat) : State :=
  let mine (L : Launch) : Bool := L.ctx == ctx
  let s₁ := closeLaunches s fun _ L => mine L
  let s₂ := stopWgs s₁ fun k => ((s.launch? k).map mine).getD false
  let s₃ := s₂.modHub fun h => { h with
    launches := h.launches.map fun L => if mine L.2 && L.2.stage == .running then (L.1, { L.2 with status := statusKilled, contain := false }) else L
    graphs := h.graphs.map fun gph => if gph.2.ctx = ctx && gph.2.stage == .running then
      (gph.1, { gph.2 with status := statusKilled, ready := [], running := [], finished := [], moved := [], copying := [] }) else gph
    queues := h.queues.map fun q => if q.2.ctx = some ctx then (q.1, q.2.kill (packetOpen h q.1)) else q
    ctxs := fmod h.ctxs ctx fun c => { c with killed := true } }
  abortHandles s₃ ctx

/-- A cause that arose beside another one and is taken after it, if it still holds (R355): a wait must go on, and lanes that found no
room to re-enter must still be parked. -/
def Cause.holds (w : Warp) (c : Cause) : Option Cause :=
  let in_ (p : Nat → Bool) : Option Cause :=
    let m := c.mask &&& maskOf p
    if m = 0 then none else some { c with mask := m, path := m }
  match c.resume with
  | .region | .cont | .none => some c
  | .own => in_ fun i => ((w.lane i).park.map fun p => p.why == .overflow).getD false
  | .wait => in_ fun i => ((w.lane i).counted.map fun p => p.1 == c.pc).getD false

/-- The causes of a warp that are taken after `c` (R355). A fault of a path that `c` sends back to its region entries does not hold any
more: its instruction executes again. -/
def laterCauses (w : Warp) (c : Cause) : List Cause := w.causes.filter fun d => d != c && (d.resume != .region || decide (d.path &&& c.path = 0))

/-- The fault policy of a context applied to a cause (R360): KILL, or HALT with its record; a double fault shows its cause in
%tcause (R358). The warp's wait limit is that of its context from this stop on (R354). -/
def applyPolicy (s : State) (wk seq : Nat) (c : Cause) (double : Bool) : State :=
  match s.warp? wk with
  | none => s
  | some w =>
    let ctx := s.ctxOf w
    let dbl := if double then 1 else 0
    if !(s.ctxFields ctx).policyHalt then killCtx (writeFrame s wk (dieOfKey wk) seq c dbl) ctx
    else
      let s₁ := writeFrame s wk (dieOfKey wk) seq c (dbl + 4)
      let s₂ := s₁.modWarp wk fun w => { w with
        stop := .halted c, causes := laterCauses w c
        trap := if double then w.trap.map fun t => { t with shown := c } else w.trap
        limit := (s.ctxFields ctx).waitLimit.toNat * 1000 }
      match reportsTo s (s.launchOfWarp w) with
      | none => s₂
      | some (q, idx) =>
        let (n, s₃) := s₂.number 4
        postRecord s₃ q (recordOf n (clockOf s 4) 0x0004
          (0x0F + idx.toNat * 2 ^ 16 + (tcause c).toNat * 2 ^ 48 + wk * 2 ^ 80))

/-- Set the paths of a warp aside and let the lanes of `m` form one gang at `vec` (R358). -/
def enterHandler (w : Warp) (m : Mask) (vec : PC) : Warp :=
  let w₁ := (w.takeOut m).mapIn m fun _ l => { l with park := none, wait := none, sw := 0, handler := true, region := vec, readyAt := 0, yieldTo := 0 }
  w₁.mapSlices fun s sl => { sl with
    aside := sl.aside ++ sl.slots
    base := sl.stack.length
    slots := if sub4 m s = 0 then [] else [{ pc := vec, mask := sub4 m s }] }

/-- What the frame records of the handler lanes (R359, R362). -/
def saveLanes (w : Warp) (m : Mask) : List SavedLane :=
  (lanesOf m).map fun i => { lane := i, region := (w.lane i).region, pc := w.pcOf i, wait := (w.lane i).wait }

/-- Among the causes that have arisen, the one that is taken: a containment cause, else the lowest code (R355). -/
def firstCause (cs : List Cause) : Option Cause :=
  let ue := cs.filter fun c => c.code ≥ 0x30
  (if ue = [] then cs else ue).foldl (fun r c => match r with
    | none => some c
    | some b => some (if c.code < b.code then c else b)) none

/-- Some lane of the mask runs a handler (R358). -/
def inHandler (w : Warp) (m : Mask) : Bool := (lanesOf m).any fun i => (w.lane i).handler

/-- The causes of a warp that may be delivered now: while a handler runs, those of its lanes and containment causes (R358,
R361). -/
def Warp.due (w : Warp) : List Cause := if w.trap.isSome then w.causes.filter fun c => c.code ≥ 0x30 || inHandler w c.mask else w.causes

/-- Take the trap `c` in the warp at `wk`, whose pending results are written and whose chains are drained (R355-R361): the
event is numbered; a containment cause stops the warp for the task-graph walker; a second cause in a handler is a double
fault; with no vector the fault policy applies; else the frame is written and the lanes of %tmask run the handler, every
other path being set aside. -/
def takeTrap (s : State) (wk : Nat) (c : Cause) : State :=
  match s.warp? wk with
  | none => s
  | some w =>
    let ctx := s.ctxOf w
    let vec := (s.ctxFields ctx).trapVec
    let (seq, s₁) := s.number (dieOfKey wk)
    let limit := (s.ctxFields ctx).waitLimit.toNat * 1000
    if c.code ≥ 0x30 then
      let s₂ := writeFrame s₁ wk (dieOfKey wk) seq c 0
      (s₂.modWarp wk fun w => { w with stop := .ended, causes := [] }).modLaunch (s.wgOf w).launch fun L => { L with contain := true }
    else if inHandler w c.mask then applyPolicy s₁ wk seq c true
    else if vec = 0 then applyPolicy s₁ wk seq c false
    else
      let s₂ := writeFrame s₁ wk (dieOfKey wk) seq c 0
      s₂.setWarp wk { enterHandler w c.mask vec with
        trap := some { cause := c, shown := c, saved := saveLanes w c.mask, later := laterCauses w c }
        causes := []
        limit := limit }

/-- The slices of a warp as they were set aside, with nothing left of the handler (R362). -/
def restoreAside (w : Warp) : Warp :=
  w.mapSlices fun _ sl => { sl with slots := sl.aside, aside := [], base := 0, stack := sl.stack.drop (sl.stack.length - sl.base) }

/-- Lanes whose re-entry finds no room raise DIVERGE_OVF, one cause for each slice, after which each continues at its own PC value;
%tpc holds that of the lowest lane (R96). -/
def overflowCauses (s : State) (wk : Nat) (excess : Mask) (target : Nat → PC) : State :=
  (List.range 8).foldl (fun s k =>
    let m := excess &&& widen4 0xF k
    if m = 0 then s
    else
      let pc := target (lowest m)
      addCause s wk { code := Code.divergeOvf, mask := m, path := m, pc := pc, resume := .own, cont := pc }) s

/-- Lanes of a warp re-enter at their PC values (R96). -/
def reenterLanes (s : State) (wk : Nat) (m : Mask) (target : Nat → PC) : State :=
  match s.warp? wk with
  | none => s
  | some w =>
    let r := w.reenter m target
    overflowCauses (s.setWarp wk r.1) wk r.2 target

/-- Each lane re-executes from its own region entry (R241, R362). -/
def reexecute (s : State) (wk : Nat) (m : Mask) : State :=
  match s.warp? wk with
  | none => s
  | some w =>
    let w' := (w.takeOut m).mapIn m fun _ l => { l with wait := none, sw := 0, park := none }
    reenterLanes (s.setWarp wk w') wk m fun i => (w.lane i).region

/-- The phase that a lane at BAR waited for is over (R269). -/
def phaseOver (s : State) (w : Warp) (x : Option Wait) : Bool :=
  match x with
  | some (.bar cl id ph _ _ _ _) | some (.barNext cl id ph _ _ _ _) => decide (ph < (barOf s w.wg cl id).phase)
  | _ => false

/-- The wait that a lane finds again as it resumes: one at BAR whose phase is not over, its count at 0 (R275). -/
def waitAgain (s : State) (w : Warp) (x : Option Wait) : Option Wait :=
  if phaseOver s w x then none
  else match x with
    | some (.bar cl id ph sync pc next _) => some (.bar cl id ph sync pc next 0)
    | some (.barNext cl id ph sync pc next _) => some (.barNext cl id ph sync pc next 0)
    | _ => none

/-- A lane that re-executes from the Nelrak-1 address at which it stood waits there again for Jasper to find its code (R402). -/
def nelrakAgain (c : Cause) (v : SavedLane) : Option Wait :=
  if c.resume ≠ .region || v.region ≠ v.pc then none
  else match v.wait with
    | some (.translation _) => some (.translation 0)
    | some .midway => some .midway
    | _ => none

/-- The region entry of a lane that resumes: the one recorded, or the one that its BAR.sync opened as its phase ended (R108,
R270, R362). -/
def regionAgain (s : State) (w : Warp) (v : SavedLane) : PC :=
  match v.wait with
  | some (.bar _ _ _ true _ next _) => if phaseOver s w v.wait then next else v.region
  | _ => v.region

/-- A lane that waited to arrive on a barrier arrives as it resumes, its earlier phase being over meanwhile (R269, R275). -/
def arriveAgain (s : State) (wk : Nat) (v : SavedLane) : State :=
  match s.warp? wk with
  | none => s
  | some w =>
    match v.wait with
    | some (.barNext cl id _ sync pc next _) =>
      if phaseOver s w v.wait then
        barSettle 3 (barLateArrive s wk cl id ((barOf s w.wg cl id).phase - 1) (v.lane, sync, pc, next)) w.wg cl id
      else s
    | _ => s

/-- Every count of the warp starts again from 0 (R275). -/
def restartCounts (w : Warp) : Warp := w.mapLanes fun _ l => l.setCount fun _ => 0

/-- Lanes resume at the point of a cause (R356, R362). `saved` gives what the frame recorded of each lane. After a WATCHDOG a lane
at WAITV executes it again, one at BAR is back in its wait if the phase goes on, and one whose wait is over goes on (R275, R363). A lane whose
region entry is still Nelrak-1 code waits there for Jasper (R402). -/
def resumeLanes (s : State) (wk : Nat) (m : Mask) (c : Cause) (saved : Nat → Option SavedLane) : State :=
  match s.warp? wk with
  | none => s
  | some w =>
    let of (i : Nat) : SavedLane := (saved i).getD { lane := i, region := (w.lane i).region, pc := c.pc, wait := none }
    let target (i : Nat) : PC := match c.resume with
      | .region => (of i).region
      | .cont => c.cont
      | .own => (of i).pc
      | .wait => match (of i).wait with
        | some (.waitv ..) => c.pc
        | _ => (of i).pc
      | .none => c.pc
    let w' := (w.takeOut m).mapIn m fun i l => { l with
      park := none, sw := 0
      wait := if c.resume = .wait then waitAgain s w (of i).wait else nelrakAgain c (of i)
      region := if c.resume = .wait then regionAgain s w (of i) else (of i).region }
    let s₁ := reenterLanes (s.setWarp wk (if c.resume = .wait then restartCounts w' else w')) wk m target
    if c.resume = .wait then ((lanesOf m).map of).foldl (fun s v => arriveAgain s wk v) s₁ else s₁

/-- The causes that were put off while a handler ran arise now, so far as they still hold (R355). -/
def takeLater (s : State) (wk : Nat) (cs : List Cause) : State :=
  s.modWarp wk fun w => { w with causes := w.causes ++ cs.filterMap (Cause.holds w) }

/-- Return from a trap, once every non-vacant handler lane is parked at a TRET (R362): the paths set aside come back, the
handler lanes resume at the cause's point or at the PC value of their TRET.pc, and the lanes of the faulting path outside
%tmask resume at the cause's point. -/
def returnTrap (s : State) (wk : Nat) : State :=
  match s.warp? wk with
  | none => s
  | some w =>
    match w.trap with
    | none => s
    | some t =>
      if w.pfail then s
      else
      let hs := maskOf fun i => (w.lane i).handler && !(w.lane i).vacant
      let parked := w.parkedAt fun p => match p.why with
        | .tret | .tretPc _ => true
        | _ => false
      if hs &&& ~~~parked ≠ 0 then s
      else
        let own := w.parkedAt fun p => match p.why with
          | .tretPc _ => true
          | _ => false
        let rest := t.cause.path &&& ~~~t.cause.mask &&& w.live
        let saved (i : Nat) : Option SavedLane := t.saved.find? fun v => v.lane = i
        let target (i : Nat) : PC := match (w.lane i).park with
          | some { pc := _, why := .tretPc p } => p
          | _ => 0
        let w₁ := { restoreAside w with trap := none }
        let w₂ := w₁.mapLanes fun i l => if bitAt hs i then
          { l with handler := false, region := if bitAt own i then target i else l.region } else l
        let s₁ := reenterLanes (s.setWarp wk w₂) wk (hs &&& own) target
        let s₂ := resumeLanes s₁ wk (hs &&& ~~~own) t.cause saved
        let s₃ := if t.cause.resume = .region || t.cause.resume = .cont then resumeLanes s₂ wk rest t.cause fun _ => none else s₂
        takeLater s₃ wk t.later

/-- A warp halted by the HALT policy resumes at its cause's point (R360); after a double fault its lanes are still in the handler. -/
def resumeHalted (s : State) (wk : Nat) (c : Cause) : State :=
  let s₁ := s.modWarp wk fun w => { w with stop := .running }
  match s₁.warp? wk with
  | none => s
  | some w =>
    let s₂ := resumeLanes s₁ wk (c.path &&& w.live) c fun i => some { lane := i, region := (w.lane i).region, pc := w.pcOf i, wait := (w.lane i).wait }
    s₂.modWarp wk fun w => { w with causes := w.causes.filterMap (Cause.holds w) }

end Sys2Proof.Machine
end

