-- ==== Sys2Proof/Machine/LaneInt.lean ====
section
/-! DEFINITION. The lane integer and address instructions (R127-R138): each acts in every executing lane and is
fixed-latency (R126). -/

namespace Sys2Proof.Machine

/-- The extended form of a B3 base form: sub 0 and every modifier bit 0 (R37). -/
def baseExt (d a b : BitVec 6) : Ext :=
  { len := .x3, d := d.setWidth 8, a := a.setWidth 8, b := b.setWidth 8, c := 0, sub := 0, scope := 0, mod := 0, lit := 0 }

/-- The extended form of a BI base shift: the count in bits 11-15 of word 2 (R129). -/
def baseShift (d a : BitVec 6) (n : BitVec 5) : Ext := { baseExt d a 0 with mod := n.setWidth 21 }

/-- `vd := f va vb` (R130). -/
def lane2 (f : Word → Word → Word) (x : Ext) (e : Env) (l : Lane) : Lane :=
  l.wr x.d.toNat (f (l.rd e 0 x.a.toNat) (opB l e 2 x))

/-- `vd := f va` (R130). -/
def lane1 (f : Word → Word) (x : Ext) (e : Env) (l : Lane) : Lane := l.wr x.d.toNat (f (l.rd e 0 x.a.toNat))

/-- `vd := f va vb vc` (R130, R132). -/
def lane3 (f : Word → Word → Word → Word) (x : Ext) (e : Env) (l : Lane) : Lane :=
  l.wr x.d.toNat (f (l.rd e 0 x.a.toNat) (opB l e 2 x) (opC l e 4 x))

/-- IADD, and ISUB when `sub` holds: with sat (bit 11) the exact result clamped, unsigned with uns (bit 12) (R130). -/
def laneAdd (sub : Bool) (x : Ext) (e : Env) (l : Lane) : Lane :=
  let a := l.rd e 0 x.a.toNat
  let b := opB l e 2 x
  if x.bit 11 then
    let uns := x.bit 12
    let p : Int := if uns then a.toNat else a.toInt
    let q : Int := if uns then b.toNat else b.toInt
    let r := satAdd uns (if sub then p - q else p + q)
    (l.wr x.d.toNat r.1).orFst r.2
  else l.wr x.d.toNat (if sub then a - b else a + b)

/-- IADDC (R131). -/
def laneAddc (x : Ext) (e : Env) (l : Lane) : Lane :=
  let b := opB l e 2 x
  let y := if x.bit 14 then ~~~b else b
  let t := (l.rd e 0 x.a.toNat).toNat + y.toNat + (l.rdP e 6 x.c.toNat).toNat
  (l.wr x.d.toNat (BitVec.ofNat 32 t)).wrP (x.field 11 3) (2 ^ 32 ≤ t)

/-- Bits 32-63 of the exact product, unsigned when `uns` holds (R130). -/
def mulHigh (uns : Bool) (a b : Word) : Word :=
  if uns then BitVec.ofNat 32 (a.toNat * b.toNat / 2 ^ 32) else BitVec.ofInt 32 (a.toInt * b.toInt / 2 ^ 32)

/-- IMADW (R130). -/
def laneMadw (x : Ext) (e : Env) (l : Lane) : Lane :=
  let a := l.rd e 0 x.a.toNat
  let b := opB l e 2 x
  let p : DWord := if x.bit 11 then BitVec.ofNat 64 (a.toNat * b.toNat) else BitVec.ofInt 64 (a.toInt * b.toInt)
  l.wrW x.d.toNat (p + opCW l e 4 x)

/-- The smaller, or with `max` the larger, of two words (R130). -/
def pickWord (max uns : Bool) (a b : Word) : Word :=
  let lt := if uns then decide (a.toNat < b.toNat) else decide (a.toInt < b.toInt)
  if lt != max then a else b

/-- IABS, and INEG when `neg` holds: 0x8000_0000 gives itself, or 0x7FFF_FFFF and SAT with sat (bit 11) (R130). -/
def laneAbs (neg : Bool) (x : Ext) (e : Env) (l : Lane) : Lane :=
  let a := l.rd e 0 x.a.toNat
  if a = 0x80000000 && x.bit 11 then (l.wr x.d.toNat 0x7FFFFFFF).orFst Flag.sat
  else l.wr x.d.toNat (if neg || a.toInt < 0 then 0 - a else a)

/-- How many bits of a word are 1 (R130). -/
def popWord (a : Word) : Word := BitVec.ofNat 32 ((List.range 32).filter fun i => bitAt a i).length

/-- How many leading bits of a word are 0 (R130). -/
def clzWord (a : Word) : Word := BitVec.ofNat 32 (if a = 0 then 32 else 31 - a.toNat.log2)

/-- The word with its bits in reverse order (R130). -/
def revWord (a : Word) : Word := maskOf fun i => bitAt a (31 - i)

/-- LOP3: bit i of the result is the bit of the truth table at (a, b, c), a the low bit of the index (R132). -/
def lop3Word (tt : Nat) (a b c : Word) : Word :=
  maskOf fun i => tt.testBit ((bitAt a i).toNat + 2 * (bitAt b i).toNat + 4 * (bitAt c i).toNat)

/-- The four shifts (R133). -/
inductive Shift where
  | shl
  | shr
  | sar
  | rot
deriving DecidableEq, Repr

/-- A word shifted by a count of any size (R133). -/
def shiftWord (k : Shift) (a : Word) (n : Nat) : Word :=
  match k with
  | .shl => if n < 32 then a <<< n else 0
  | .shr => if n < 32 then a >>> n else 0
  | .sar => if n < 32 then a.sshiftRight n else if bitAt a 31 then 0xFFFFFFFF else 0
  | .rot => a.rotateLeft (n % 32)

/-- A shift by the immediate (sub 0x00) or by vb (sub 0x01) (R133). -/
def laneShift (k : Shift) (x : Ext) (e : Env) (l : Lane) : Lane :=
  let n := if x.sub = 1 then (l.rd e 2 x.b.toNat).toNat else x.field 11 5
  l.wr x.d.toNat (shiftWord k (l.rd e 0 x.a.toNat) n)

/-- SHF (R134). -/
def laneShf (x : Ext) (e : Env) (l : Lane) : Lane :=
  let y := (pair (l.rd e 0 x.a.toNat) (l.rd e 2 x.b.toNat)).toNat
  let n := if x.bit 12 then x.field 13 6 else (l.rd e 4 x.c.toNat).toNat % 64
  l.wr x.d.toNat (BitVec.ofNat 32 (if x.bit 11 then y / 2 ^ n else y * 2 ^ n % 2 ^ 64 / 2 ^ 32))

/-- Position and length of BFE and BFI, from the fields or from the control word (R135). -/
def fieldCtl (x : Ext) (ctl : Word) : Nat × Nat :=
  if x.bit 12 then (x.field 13 5, x.field 18 6) else (bitsAt ctl 0 8, bitsAt ctl 8 8)

/-- BFE on a word (R135). -/
def bfeWord (uns : Bool) (pos len : Nat) (a : Word) : Word :=
  if pos ≥ 32 || len = 0 then 0
  else
    let k := min len (32 - pos)
    let f := bitsAt a pos k
    if uns then BitVec.ofNat 32 f else BitVec.ofInt 32 (sextInt k f)

/-- BFI on a word (R135). -/
def bfiWord (pos len : Nat) (a b : Word) : Word :=
  if pos ≥ 32 || len = 0 then b
  else
    let k := min len (32 - pos)
    maskOf fun i => if pos ≤ i ∧ i < pos + k then bitAt a (i - pos) else bitAt b i

/-- BFE (R135). -/
def laneBfe (x : Ext) (e : Env) (l : Lane) : Lane :=
  let c := fieldCtl x (l.rd e 2 x.b.toNat)
  l.wr x.d.toNat (bfeWord (x.bit 11) c.1 c.2 (l.rd e 0 x.a.toNat))

/-- BFI (R135). -/
def laneBfi (x : Ext) (e : Env) (l : Lane) : Lane :=
  let c := fieldCtl x (l.rd e 4 x.c.toNat)
  l.wr x.d.toNat (bfiWord c.1 c.2 (l.rd e 0 x.a.toNat) (l.rd e 2 x.b.toNat))

/-- ICMP (R136). -/
def laneIcmp (x : Ext) (e : Env) (l : Lane) : Lane :=
  let uns := x.bit 14
  let cc := x.field 11 3
  let t := if x.bit 17 then intCmp cc uns (l.rdW e 0 x.a.toNat) (opBW l e 2 x)
    else intCmp cc uns (l.rd e 0 x.a.toNat) (opB l e 2 x)
  l.wrP x.d.toNat (combine (x.field 15 2) t (l.rdP e 6 x.c.toNat))

/-- ISEL (R137). -/
def laneIsel (x : Ext) (e : Env) (l : Lane) : Lane :=
  let p := l.rdP e 6 x.c.toNat
  if x.bit 11 then l.wrW x.d.toNat (if p then l.rdW e 0 x.a.toNat else opBW l e 2 x)
  else l.wr x.d.toNat (if p then l.rd e 0 x.a.toNat else opB l e 2 x)

/-- MOV (R137). -/
def laneMov (x : Ext) (e : Env) (l : Lane) : Lane :=
  if x.bit 11 then l.wrW x.d.toNat (l.rdW e 0 x.a.toNat) else l.wr x.d.toNat (l.rd e 0 x.a.toNat)

/-- MOVI: the literal, or imm20 sign-extended (R137). -/
def laneMovi (x : Ext) (_ : Env) (l : Lane) : Lane :=
  let y : DWord := if x.len = .x3 then BitVec.ofInt 64 (simm 20 (x.field 12 20)) else x.lit
  if x.bit 11 then l.wrW x.d.toNat y else l.wr x.d.toNat (lo32 y)

/-- LEA (R138). -/
def laneLea (x : Ext) (e : Env) (l : Lane) : Lane :=
  let b := l.rd e 2 x.b.toNat
  let y : DWord := if x.litB then x.lit else if x.bit 14 then b.zeroExtend 64 else b.signExtend 64
  l.wrW x.d.toNat (l.rdW e 0 x.a.toNat + y <<< x.field 11 3)

/-- IADD64 (R138). -/
def laneAdd64 (x : Ext) (e : Env) (l : Lane) : Lane :=
  l.wrW x.d.toNat (l.rdW e 0 x.a.toNat + opBW l e 2 x)

/-- IADD (R130), base form. -/
def execIadd (h : Hdr) (d a b : BitVec 6) (s : State) : Out := laneOp h 1 s (laneAdd false (baseExt d a b))

/-- IADD (R130), extended and literal forms. -/
def execIaddExt (h : Hdr) (x : Ext) (s : State) : Out := laneOp h x.words s (laneAdd false x)

/-- ISUB (R130), base form. -/
def execIsub (h : Hdr) (d a b : BitVec 6) (s : State) : Out := laneOp h 1 s (laneAdd true (baseExt d a b))

/-- ISUB (R130), extended and literal forms. -/
def execIsubExt (h : Hdr) (x : Ext) (s : State) : Out := laneOp h x.words s (laneAdd true x)

/-- IADDC (R131). -/
def execIaddc (h : Hdr) (x : Ext) (s : State) : Out := laneOp h x.words s (laneAddc x)

/-- IMUL (R130), base form. -/
def execImul (h : Hdr) (d a b : BitVec 6) (s : State) : Out := laneOp h 1 s ((lane2 fun a b => a * b) (baseExt d a b))

/-- IMUL (R130), extended and literal forms. -/
def execImulExt (h : Hdr) (x : Ext) (s : State) : Out := laneOp h x.words s ((lane2 fun a b => a * b) x)

/-- IMULH (R130), base form. -/
def execImulh (h : Hdr) (d a b : BitVec 6) (s : State) : Out := laneOp h 1 s (lane2 (mulHigh false) (baseExt d a b))

/-- IMULH (R130), extended and literal forms. -/
def execImulhExt (h : Hdr) (x : Ext) (s : State) : Out := laneOp h x.words s (lane2 (mulHigh (x.bit 11)) x)

/-- IMAD (R130). -/
def execImad (h : Hdr) (x : Ext) (s : State) : Out := laneOp h x.words s ((lane3 fun a b c => a * b + c) x)

/-- IMADW (R130). -/
def execImadw (h : Hdr) (x : Ext) (s : State) : Out := laneOp h x.words s (laneMadw x)

/-- IMIN (R130), base form. -/
def execImin (h : Hdr) (d a b : BitVec 6) (s : State) : Out := laneOp h 1 s (lane2 (pickWord false false) (baseExt d a b))

/-- IMIN (R130), extended and literal forms. -/
def execIminExt (h : Hdr) (x : Ext) (s : State) : Out := laneOp h x.words s (lane2 (pickWord false (x.bit 11)) x)

/-- IMAX (R130), base form. -/
def execImax (h : Hdr) (d a b : BitVec 6) (s : State) : Out := laneOp h 1 s (lane2 (pickWord true false) (baseExt d a b))

/-- IMAX (R130), extended and literal forms. -/
def execImaxExt (h : Hdr) (x : Ext) (s : State) : Out := laneOp h x.words s (lane2 (pickWord true (x.bit 11)) x)

/-- IABS (R130), base form. -/
def execIabs (h : Hdr) (d a : BitVec 6) (s : State) : Out := laneOp h 1 s (laneAbs false (baseExt d a 0))

/-- IABS (R130), extended and literal forms. -/
def execIabsExt (h : Hdr) (x : Ext) (s : State) : Out := laneOp h x.words s (laneAbs false x)

/-- INEG (R130), base form. -/
def execIneg (h : Hdr) (d a : BitVec 6) (s : State) : Out := laneOp h 1 s (laneAbs true (baseExt d a 0))

/-- INEG (R130), extended and literal forms. -/
def execInegExt (h : Hdr) (x : Ext) (s : State) : Out := laneOp h x.words s (laneAbs true x)

/-- AND (R130), base form. -/
def execAndBase (h : Hdr) (d a b : BitVec 6) (s : State) : Out := laneOp h 1 s ((lane2 fun a b => a &&& b) (baseExt d a b))

/-- AND (R130), extended and literal forms. -/
def execAndExt (h : Hdr) (x : Ext) (s : State) : Out := laneOp h x.words s ((lane2 fun a b => a &&& b) x)

/-- OR (R130), base form. -/
def execOrBase (h : Hdr) (d a b : BitVec 6) (s : State) : Out := laneOp h 1 s ((lane2 fun a b => a ||| b) (baseExt d a b))

/-- OR (R130), extended and literal forms. -/
def execOrExt (h : Hdr) (x : Ext) (s : State) : Out := laneOp h x.words s ((lane2 fun a b => a ||| b) x)

/-- XOR (R130), base form. -/
def execXorBase (h : Hdr) (d a b : BitVec 6) (s : State) : Out := laneOp h 1 s ((lane2 fun a b => a ^^^ b) (baseExt d a b))

/-- XOR (R130), extended and literal forms. -/
def execXorExt (h : Hdr) (x : Ext) (s : State) : Out := laneOp h x.words s ((lane2 fun a b => a ^^^ b) x)

/-- NOT (R130), base form. -/
def execNotBase (h : Hdr) (d a : BitVec 6) (s : State) : Out := laneOp h 1 s ((lane1 fun a => ~~~a) (baseExt d a 0))

/-- NOT (R130), extended and literal forms. -/
def execNotExt (h : Hdr) (x : Ext) (s : State) : Out := laneOp h x.words s ((lane1 fun a => ~~~a) x)

/-- LOP3 (R132). -/
def execLop3 (h : Hdr) (x : Ext) (s : State) : Out := laneOp h x.words s (lane3 (lop3Word (x.field 11 8)) x)

/-- SHL (R133), base form. -/
def execShl (h : Hdr) (d a : BitVec 6) (n : BitVec 5) (s : State) : Out := laneOp h 1 s (laneShift .shl (baseShift d a n))

/-- SHL (R133), extended and literal forms. -/
def execShlExt (h : Hdr) (x : Ext) (s : State) : Out := laneOp h x.words s (laneShift .shl x)

/-- SHR (R133), base form. -/
def execShr (h : Hdr) (d a : BitVec 6) (n : BitVec 5) (s : State) : Out := laneOp h 1 s (laneShift .shr (baseShift d a n))

/-- SHR (R133), extended and literal forms. -/
def execShrExt (h : Hdr) (x : Ext) (s : State) : Out := laneOp h x.words s (laneShift .shr x)

/-- SAR (R133), base form. -/
def execSar (h : Hdr) (d a : BitVec 6) (n : BitVec 5) (s : State) : Out := laneOp h 1 s (laneShift .sar (baseShift d a n))

/-- SAR (R133), extended and literal forms. -/
def execSarExt (h : Hdr) (x : Ext) (s : State) : Out := laneOp h x.words s (laneShift .sar x)

/-- ROT (R133), base form. -/
def execRot (h : Hdr) (d a : BitVec 6) (n : BitVec 5) (s : State) : Out := laneOp h 1 s (laneShift .rot (baseShift d a n))

/-- ROT (R133), extended and literal forms. -/
def execRotExt (h : Hdr) (x : Ext) (s : State) : Out := laneOp h x.words s (laneShift .rot x)

/-- SHF (R134). -/
def execShf (h : Hdr) (x : Ext) (s : State) : Out := laneOp h x.words s (laneShf x)

/-- POPC (R130), base form. -/
def execPopc (h : Hdr) (d a : BitVec 6) (s : State) : Out := laneOp h 1 s (lane1 popWord (baseExt d a 0))

/-- POPC (R130), extended and literal forms. -/
def execPopcExt (h : Hdr) (x : Ext) (s : State) : Out := laneOp h x.words s (lane1 popWord x)

/-- CLZ (R130), base form. -/
def execClz (h : Hdr) (d a : BitVec 6) (s : State) : Out := laneOp h 1 s (lane1 clzWord (baseExt d a 0))

/-- CLZ (R130), extended and literal forms. -/
def execClzExt (h : Hdr) (x : Ext) (s : State) : Out := laneOp h x.words s (lane1 clzWord x)

/-- BREV (R130), base form. -/
def execBrev (h : Hdr) (d a : BitVec 6) (s : State) : Out := laneOp h 1 s (lane1 revWord (baseExt d a 0))

/-- BREV (R130), extended and literal forms. -/
def execBrevExt (h : Hdr) (x : Ext) (s : State) : Out := laneOp h x.words s (lane1 revWord x)

/-- BFE (R135). -/
def execBfe (h : Hdr) (x : Ext) (s : State) : Out := laneOp h x.words s (laneBfe x)

/-- BFI (R135). -/
def execBfi (h : Hdr) (x : Ext) (s : State) : Out := laneOp h x.words s (laneBfi x)

/-- ICMP (R136). -/
def execIcmp (h : Hdr) (x : Ext) (s : State) : Out := laneOp h x.words s (laneIcmp x)

/-- ISEL (R137). -/
def execIsel (h : Hdr) (x : Ext) (s : State) : Out := laneOp h x.words s (laneIsel x)

/-- MOV (R137), base form. -/
def execMov (h : Hdr) (d a : BitVec 6) (s : State) : Out := laneOp h 1 s (laneMov (baseExt d a 0))

/-- MOV (R137), extended and literal forms. -/
def execMovExt (h : Hdr) (x : Ext) (s : State) : Out := laneOp h x.words s (laneMov x)

/-- MOVI (R137). -/
def execMovi (h : Hdr) (x : Ext) (s : State) : Out := laneOp h x.words s (laneMovi x)

/-- LEA (R138). -/
def execLea (h : Hdr) (x : Ext) (s : State) : Out := laneOp h x.words s (laneLea x)

/-- IADD64 (R138), base form. -/
def execIadd64 (h : Hdr) (d a b : BitVec 6) (s : State) : Out := laneOp h 1 s (laneAdd64 (baseExt d a b))

/-- IADD64 (R138), extended and literal forms. -/
def execIadd64Ext (h : Hdr) (x : Ext) (s : State) : Out := laneOp h x.words s (laneAdd64 x)

end Sys2Proof.Machine
end

