-- ==== Sys2Proof/Machine/Scratch.lean ====
section
/-! DEFINITION. What every instruction that reads the scratchpad shares: errors that its reads find, their correction,
and SCRATCH_UE (R226). -/

namespace Sys2Proof.Machine

/-- A part of a workgroup's scratchpad that an instruction reads. -/
structure ScratchUse where
  wg : Nat
  off : Nat
  len : Nat
deriving DecidableEq, Repr

/-- The lanes of a mask whose reads find a double-bit error (R226). -/
def ueLanes (s : State) (m : Mask) (uses : Nat → List ScratchUse) : Mask :=
  maskOf fun i => bitAt m i && (uses i).any fun u => ((s.wg? u.wg).map fun g => scratchUe g u.off u.len).getD false

/-- Correct and write back the single-bit errors that the reads of a mask's lanes find, and count them (R226). -/
def fixReads (s : State) (m : Mask) (uses : Nat → List ScratchUse) : State :=
  ((lanesOf m).flatMap uses).foldl (fun s u =>
    match s.wg? u.wg with
    | none => s
    | some g =>
      let r := scratchFix g u.off u.len
      if r.2 = 0 then s
      else (s.modWg u.wg fun _ => r.1).modLaunch g.launch fun L => { L with scrCorr := L.scrCorr + r.2 }) s

/-- A result that raises a containment cause when it returns and writes nothing (R226, R249). -/
def raisePend (code : Nat) (e : Env) (matrix : Bool) : Pend :=
  { matrix := matrix, raise := some { code := code, sub := 0, pc := e.pc, cont := e.next } }

/-- The instruction met SCRATCH_UE in the lanes of `m`: it writes none of its destinations in any lane (R226). -/
def retireUe (q : Gang) (sw matrix : Bool) (m : Mask) (s : State) : Out :=
  retire q sw (q.w.mapIn m fun i l => l.addPend (raisePend Code.scratchUe (q.env i) matrix)) s

/-- Whole words of the scratchpad from `off` upward. -/
def scratchWords (id : Nat) (g : Workgroup) (off n : Nat) : List Word :=
  (List.range n).map fun k => BitVec.ofNat 32 (ofBytes (scratchRead id g (off + 4 * k) 4))

/-- Store bytes into a workgroup's scratchpad. -/
def putScratch (s : State) (wg off : Nat) (bs : List Byte) : State := s.modWg wg fun g => scratchWrite g off bs

/-- Size of the allocation of a warp's workgroup (R224). -/
def allocOfWarp (s : State) (w : Warp) : Nat := allocOf (s.launchOfWarp w).hdr

end Sys2Proof.Machine
end

