-- ==== Sys2Proof/Machine/Matrix.lean ====
section
/-! DEFINITION. Shapes, matrix views and packed tiles (R147-R158), the checks of R152, and the chains of multiplies with
their checksums (R166-R168, R185). -/

namespace Sys2Proof.Machine

-- Fields of a shape value (R148).
namespace Sh
def rows (h : Word) : Nat := bitsAt h 0 5 + 1
def cols (h : Word) : Nat := bitsAt h 5 5 + 1
def ety (h : Word) : Nat := bitsAt h 10 4
def packed (h : Word) : Bool := bitsAt h 14 2 = 1
/-- Solve working precision FP32. -/
def single (h : Word) : Bool := bitsAt h 16 2 = 1
/-- Element width in bits. -/
def bits (h : Word) : Nat := tyWidth (ety h)
/-- The value is one that R148 allows. -/
def ok (h : Word) : Bool := ety h ≤ 6 && bitsAt h 14 2 ≤ 1 && bitsAt h 16 2 ≤ 1 && bitsAt h 18 14 = 0
/-- Dense footprint in words (R150). -/
def dense (h : Word) : Nat := cdiv (rows h * cols h * bits h) 32
/-- The mask of the rows. -/
def rowMask (h : Word) : Word := maskOf fun i => i < rows h
/-- Rows, columns and etype agree. -/
def same (h k : Word) : Bool := rows h = rows k && cols h = cols k && ety h = ety k
end Sh

/-- A matrix view of one lane (R147). -/
structure View where
  reg : Nat
  sh : Word
  words : Nat
deriving DecidableEq, Repr

namespace View
/-- A dense view. -/
def dense (reg : Nat) (sh : Word) : View := { reg := reg, sh := sh, words := Sh.dense sh }
/-- Fails step 2 by its footprint or its place (R152). -/
def bad (v : View) : Bool := v.words > 256 || (Sh.ety v.sh = 0 && v.reg % 2 = 1)
/-- Not a dense view that step 2 accepts. -/
def badDense (v : View) : Bool := Sh.packed v.sh || v.bad
/-- Fails step 3 (R152). -/
def past (v : View) (g : Nat) : Bool := v.reg + v.words > g
/-- The two views have a word in common. -/
def meets (u v : View) : Bool := u.reg < v.reg + v.words && v.reg < u.reg + u.words
/-- Exact identity (R152). -/
def same (u v : View) : Bool := u.reg = v.reg && u.words = v.words
/-- Fails step 4 where exact identity is allowed. -/
def overlaps (u v : View) : Bool := u.meets v && !u.same v
end View

/-- Elements by row and column, as codes of the element type. -/
abbrev Elems := Nat → Nat → Nat

/-- Element `k` of a packed run of elements of `b` bits (R150). -/
def elemAt (ws : List Word) (b k : Nat) : Nat :=
  if b = 64 then (pair (ws.getD (2 * k) 0) (ws.getD (2 * k + 1) 0)).toNat
  else (ws.getD (k * b / 32) 0).toNat / 2 ^ (k * b % 32) % 2 ^ b

/-- The words of `n` elements of `b` bits; bits above the last one are 0 (R150). -/
def packElems (b n : Nat) (f : Nat → Nat) : List Word :=
  (List.range (cdiv (n * b) 32)).map fun k =>
    if b = 64 then (if k % 2 = 0 then lo32 (BitVec.ofNat 64 (f (k / 2))) else hi32 (BitVec.ofNat 64 (f (k / 2))))
    else
      let per := 32 / b
      BitVec.ofNat 32 (((List.range per).map fun i =>
        if k * per + i < n then f (k * per + i) % 2 ^ b * 2 ^ (i * b) else 0).foldl (· + ·) 0)

/-- Words numbered from a register upward. -/
def regRun (reg : Nat) (ws : List Word) : List (Nat × Word) := mapFrom (fun k x => (k, x)) reg ws

/-- The words of a dense view whose elements are given. -/
def denseWords (sh : Word) (f : Elems) : List Word :=
  packElems (Sh.bits sh) (Sh.rows sh * Sh.cols sh) fun k => f (k / Sh.cols sh) (k % Sh.cols sh)

/-- The elements that words of a dense view hold. -/
def elemsOf (sh : Word) (ws : List Word) : Elems := fun i j => elemAt ws (Sh.bits sh) (i * Sh.cols sh + j)

/-- The words of a view, as operand number `slot` of a matrix instruction. -/
def Lane.words (l : Lane) (e : Env) (slot : Nat) (v : View) : List Word :=
  (List.range v.words).map fun k => l.rdM e (1000 * slot + k) (v.reg + k)

/-- The elements of a dense view. -/
def Lane.mat (l : Lane) (e : Env) (slot : Nat) (v : View) : Elems :=
  let ws := l.words e slot v
  elemsOf v.sh ws

/-- Row `i` of a row source with shape register `h` is admitted (R151). -/
def Lane.admits (l : Lane) (h i : Nat) : Bool := bitAt (l.rmM h) i

/-- The result of a matrix instruction: the words of its dense destination, where rows that are not admitted keep their
elements (R150, R151). -/
def denseOut (v : View) (old : Elems) (rowOn : Nat → Bool) (new : Elems) (fl : Word) : Pend :=
  { regs := regRun v.reg (denseWords v.sh fun i j => if rowOn i then new i j else old i j), fst := fl, matrix := true }

/-- The OR of the flags of the elements of admitted rows. -/
def orFlags (rows cols : Nat) (rowOn : Nat → Bool) (f : Nat → Nat → Word) : Word :=
  (List.range rows).foldl (fun a i => if rowOn i then (List.range cols).foldl (fun a j => a ||| f i j) a else a) 0

/-- CRC-16 of R157, one byte. -/
def crcByte (c : Nat) (b : Byte) : Nat :=
  (List.range 8).foldl (fun c _ => (if c / 2 ^ 15 % 2 = 1 then 2 * c ^^^ 0x1021 else 2 * c) % 2 ^ 16) ((c ^^^ b.toNat * 256) % 2 ^ 16)

/-- CRC-16 of the bytes of words (R157). -/
def crcWords (ws : List Word) : Nat := (ws.flatMap fun w => bytesOf 4 w.toNat).foldl crcByte 0xFFFF

-- Fields of the header of a packed tile (R155), and what follows from them (R156).
namespace Tile
def keep (w : Word) : Nat := bitsAt w 0 4
def log (w : Word) : Nat := bitsAt w 4 4
def group (w : Word) : Nat := 2 ^ log w
def axis (w : Word) : Bool := bitAt w 8
def both (w : Word) : Bool := bitAt w 9
/-- N and M are in range. -/
def sized (w : Word) : Bool := 1 ≤ log w && log w ≤ 4 && 1 ≤ keep w && keep w < group w
/-- Kept elements. -/
def count (sh w : Word) : Nat := Sh.rows sh * Sh.cols sh * keep w / group w
/-- Index words. -/
def idxWords (sh w : Word) : Nat := cdiv (count sh w * log w) 32
/-- First word of the values, counted from the header. -/
def valAt (sh w : Word) : Nat := let k := 1 + idxWords sh w; if Sh.bits sh = 64 && k % 2 = 1 then k + 1 else k
/-- The footprint; one word when the header gives none. -/
def words (sh w : Word) : Nat :=
  if sized w && Sh.rows sh * Sh.cols sh * keep w % group w = 0 then valAt sh w + cdiv (count sh w * Sh.bits sh) 32 else 1
/-- The dimensions are multiples of M as the header requires. -/
def fits (sh w : Word) : Bool :=
  (if axis w then Sh.rows sh else Sh.cols sh) % group w = 0
  && (!both w || (Sh.rows sh % group w = 0 && Sh.cols sh % group w = 0))
/-- Place of the position `p` of group `g` (R156). -/
def place (sh : Word) (axis : Bool) (m g p : Nat) : Nat × Nat :=
  if axis then (g / Sh.cols sh * m + p, g % Sh.cols sh)
  else (g / (Sh.cols sh / m), g % (Sh.cols sh / m) * m + p)
/-- Index field `k` of a tile's words. -/
def index (ws : List Word) (lg k : Nat) : Nat :=
  let at_ (bit : Nat) : Nat := ((ws.getD (1 + bit / 32) 0).toNat / 2 ^ (bit % 32)) % 2
  ((List.range lg).map fun b => at_ (k * lg + b) * 2 ^ b).foldl (· + ·) 0
/-- The kept elements in order: row, column and code. -/
def kept (sh : Word) (ws : List Word) : List (Nat × Nat × Nat) :=
  let w := ws.getD 0 0
  (List.range (count sh w)).map fun k =>
    let pl := place sh (axis w) (group w) (k / keep w) (index ws (log w) k)
    (pl.1, pl.2, elemAt (ws.drop (valAt sh w)) (Sh.bits sh) k)
/-- The pattern is N:M along both axes (R158). -/
def square (sh w : Word) (ks : List (Nat × Nat × Nat)) : Bool :=
  let m := group w
  (List.range (Sh.rows sh / m)).all fun bi => (List.range (Sh.cols sh / m)).all fun bj => (List.range m).all fun x =>
    (ks.filter fun p => p.1 = bi * m + x && p.2.1 / m = bj).length = keep w
    && (ks.filter fun p => p.1 / m = bi && p.2.1 = bj * m + x).length = keep w
/-- The header passes the checks that need no index word (R158). -/
def headOk (sh w : Word) : Bool := sized w && bitsAt w 10 6 = 0 && fits sh w
/-- The words are a valid packed tile (R158). -/
def ok (sh : Word) (ws : List Word) : Bool :=
  let w := ws.getD 0 0
  headOk sh w
  && bitsAt w 16 16 = crcWords ((ws.drop 1).take (idxWords sh w))
  && (List.range (count sh w)).all (fun k => k % keep w = 0 || index ws (log w) (k - 1) < index ws (log w) k)
  && (List.range (32 * idxWords sh w - count sh w * log w)).all (fun b => index ws 1 (count sh w * log w + b) = 0)
  && (!both w || square sh w (kept sh ws))

/-- A valid tile with the kept elements given in order, as position and code (R156, R157). R156 gives no value to the word between
the index words and FP64 values that start at an even word; that it holds 0 is the model's choice (log 88). -/
def make (sh : Word) (n lg : Nat) (axis both : Bool) (ks : List (Nat × Nat)) : List Word :=
  let bit (b : Nat) : Nat := (ks.getD (b / lg) (0, 0)).1 / 2 ^ (b % lg) % 2
  let idx := packElems 1 (ks.length * lg) bit
  let hdr := BitVec.ofNat 32 (n + lg * 16 + (if axis then 256 else 0) + (if both then 512 else 0) + crcWords idx * 2 ^ 16)
  let pad := if Sh.bits sh = 64 && (1 + idx.length) % 2 = 1 then [(0 : Word)] else []
  hdr :: idx ++ pad ++ packElems (Sh.bits sh) ks.length fun k => (ks.getD k (0, 0)).2
end Tile

/-- The view that a register field and a shape value name; a packed one is as long as its header says (R156). -/
def Lane.viewOf (l : Lane) (e : Env) (slot reg : Nat) (sh : Word) : View :=
  if Sh.packed sh then { reg := reg, sh := sh, words := Tile.words sh (l.rdM e (1000 * slot) reg) } else View.dense reg sh

/-- The first failing step of R152 among conditions given in order; 0 when none fails. -/
def firstStep (l : List (Nat × Bool)) : Nat :=
  match l with
  | [] => 0
  | (k, b) :: t => if b then k else firstStep t

/-- Trap cause of a step of R152. -/
def stepCode (k : Nat) : Nat :=
  match k with
  | 1 => Code.uniform
  | 2 => Code.shape
  | 3 => Code.regRange
  | 4 => Code.mvOverlap
  | 5 => Code.sparseMeta
  | 6 => Code.scratchBounds
  | _ => Code.align

/-- The step that decides and the lanes that fail it (R152). -/
def Gang.matFault (q : Gang) (check : Nat → Nat) : Option (Nat × Mask) :=
  let ks := (lanesOf q.exec).map check
  match (List.range 8).find? fun k => k ≠ 0 && ks.contains k with
  | none => none
  | some k => some (k, q.failing fun i _ => check i = k)

-- The exact values that enter checks (R166).

/-- A finite value as a number of multiples of 2^`q`, truncated toward −∞. -/
def floorAt (q m e : Int) : Int := if e ≥ q then m * 2 ^ (e - q).toNat else m / 2 ^ (q - e).toNat

/-- The signed 160-bit value of a check (R166). -/
def wrap160 (x : Int) : Int := sextInt 160 (x % 2 ^ 160).toNat

/-- The exact value of an element; a non-finite one has none. -/
def exactOf (ety x : Nat) : Option (Int × Int) :=
  if tyIsFloat ety then match unpack (fmtOf ety) x with
    | .fin _ m e => some (m, e)
    | _ => none
  else some ((readInt ety x).1, 0)

/-- Sum of exact values; none if one of them has none. -/
def sumExact (l : List (Option (Int × Int))) : Option (Int × Int) :=
  l.foldl (fun a x => match a, x with
    | some p, some r => some (addExact p.1 p.2 r.1 r.2)
    | _, _ => none) (some (0, 0))

/-- Exact product. -/
def mulOpt (x y : Option (Int × Int)) : Option (Int × Int) :=
  match x, y with
  | some p, some r => some (p.1 * r.1, p.2 + r.2)
  | _, _ => none

/-- e(X) of R166: the unbiased exponent of the largest finite magnitude among elements, at least the minimum normal one. -/
def topExp (ety : Nat) (l : List Nat) : Int :=
  l.foldl (fun (a : Int) x => match exactOf ety x with
    | some (m, e) => if m = 0 then a else max a ((m.natAbs.log2 : Int) + e)
    | none => a) (1 - (fmtOf ety).bias)

/-- The operands of one multiply as its checks see them (R166): admitted rows, A_t, B_t, and whether row `i` uses the
B_t number `blk i` (one for each row block of MMG.p). -/
structure MulView where
  m : Nat
  n : Nat
  k : Nat
  /-- Etype of A and B, and of D. -/
  ety : Nat
  dty : Nat
  rowOn : List Bool
  /-- Row by row, the codes of A_t; for a sparse A the kept ones, and `none` for a position that forms no product. -/
  a : List (List (Option Nat))
  /-- For each row, the number of its B_t. -/
  blk : List Nat
  /-- The B_t, each as rows of codes. -/
  bs : List (List (List Nat))
deriving DecidableEq, Repr

namespace MulView
/-- Row `i` is admitted. -/
def admits (v : MulView) (i : Nat) : Bool := v.rowOn.getD i false
/-- A_t(i, k) with 0 at the positions that form no product. -/
def aAt (v : MulView) (i k : Nat) : Nat := ((v.a.getD i []).getD k none).getD 0
/-- B_t(k, j) of block `b`. -/
def bAt (v : MulView) (b k j : Nat) : Nat := ((v.bs.getD b []).getD k []).getD j 0
/-- The admitted rows of block `b`. -/
def rowsOf (v : MulView) (b : Nat) : List Nat := (List.range v.m).filter fun i => v.admits i && v.blk.getD i 0 = b
/-- Exponent that this instruction asks of E (R166). -/
def exp (v : MulView) : Int :=
  let as := (List.range v.m).flatMap fun i => if v.admits i then (List.range v.k).map (v.aAt i) else []
  let bs := (mapFrom (fun b l => (b, l)) 0 v.bs).flatMap fun p => if v.rowsOf p.1 = [] then [] else p.2.flatMap id
  topExp v.ety as + topExp v.ety bs + 10
/-- The terms of the row check of row `i` (R166). -/
def rowTerms (v : MulView) (i : Nat) : List (Option (Int × Int)) :=
  if v.admits i then (List.range v.k).map fun k =>
    mulOpt (exactOf v.ety (v.aAt i k)) (sumExact ((List.range v.n).map fun j => exactOf v.ety (v.bAt (v.blk.getD i 0) k j)))
  else []
/-- The terms of the column check of column `j` (R166). -/
def colTerms (v : MulView) (j : Nat) : List (Option (Int × Int)) :=
  (List.range v.bs.length).flatMap fun b =>
    let rs := v.rowsOf b
    if rs = [] then [] else (List.range v.k).map fun k =>
      mulOpt (sumExact (rs.map fun i => exactOf v.ety (v.aAt i k))) (exactOf v.ety (v.bAt b k j))
end MulView

/-- Add terms to a check whose last place is 2^`q`; integers are kept modulo 2^32 (R166). -/
def addTerms (isInt : Bool) (q : Int) (acc : Int) (ts : List (Option (Int × Int))) : Int :=
  ts.foldl (fun a t => match t with
    | some (m, e) => if isInt then (a + m) % 2 ^ 32 else wrap160 (a + floorAt q m e)
    | none => a) acc

namespace Chain

/-- The view that a chain writes. -/
def view (c : Chain) : View := View.dense c.dst c.shape

/-- The rows of a view with `m` rows that take part in the column checks: for MMG those alone that an entry writes (R192). -/
def partRows (part : Option (List Bool)) (m : Nat) : List Nat :=
  (List.range m).filter fun i => (part.map fun l => l.getD i false).getD true

/-- A chain that starts from `c0` with an instruction that asks for the exponent `e₁` (R166); `part` names the rows that take part,
if not all do. -/
def start (dst : Nat) (sh : Word) (c0 : Elems) (e₁ : Int) (part : Option (List Bool)) : Chain :=
  let m := Sh.rows sh
  let n := Sh.cols sh
  let t := Sh.ety sh
  let row (i : Nat) : List (Option (Int × Int)) := (List.range n).map fun j => exactOf t (c0 i j)
  let col (j : Nat) : List (Option (Int × Int)) := (partRows part m).map fun i => exactOf t (c0 i j)
  let e := if tyIsFloat t then max e₁ (topExp t ((partRows part m).flatMap fun i => (List.range n).map fun j => c0 i j)) else 0
  { dst := dst, shape := sh, next := 0, exp := e
    rows := (List.range m).map fun i => addTerms (!tyIsFloat t) (e - 135) 0 (row i)
    cols := (List.range n).map fun j => addTerms (!tyIsFloat t) (e - 135) 0 (col j)
    badRows := (List.range m).map fun i => (row i).contains none
    badCols := (List.range n).map fun j => (col j).contains none
    admitted := (List.range m).map fun _ => false
    part := part, ended := false }

/-- E is raised, and the checks held are truncated to the new last place (R166). -/
def raiseTo (c : Chain) (e : Int) : Chain :=
  if c.exp < e then
    let f (x : Int) : Int := x / 2 ^ (e - c.exp).toNat
    { c with exp := e, rows := c.rows.map f, cols := c.cols.map f }
  else c

/-- One multiply joins a chain (R166). -/
def join (c : Chain) (v : MulView) (next : PC) : Chain :=
  let isInt := !tyIsFloat (Sh.ety c.shape)
  let c' := if isInt then c else c.raiseTo v.exp
  let q := c'.exp - 135
  { c' with
    next := next
    rows := mapFrom (fun i x => addTerms isInt q x (v.rowTerms i)) 0 c'.rows
    cols := mapFrom (fun j x => addTerms isInt q x (v.colTerms j)) 0 c'.cols
    badRows := mapFrom (fun i b => b || (v.rowTerms i).contains none) 0 c'.badRows
    badCols := mapFrom (fun j b => b || (v.colTerms j).contains none) 0 c'.badCols
    admitted := mapFrom (fun i b => b || v.admits i) 0 c'.admitted }

/-- Sum of float codes in FP64, in the order given (R167). -/
def sum64 (t : Nat) (l : List Nat) : Nat :=
  l.foldl (fun acc x => (floatAdd .f64 0 false acc (convert 0 t 0 false x).1).1) 0

/-- A row or column of a float view is flagged: its check differs from the FP64 sum by more than (cnt + 2) ulp of its
largest magnitude (R167). -/
def flaggedFloat (t : Nat) (q check : Int) (l : List Nat) (cnt : Nat) : Bool :=
  if l.any fun x => (exactOf t x).isNone then false
  else
    let f := fmtOf t
    let top := topExp t l
    match unpack .f64 (sum64 t l) with
    | .fin _ m e =>
      let d := addExact check q (-m) e
      cmpExact d.1.natAbs d.2 (cnt + 2 : Nat) (top - f.fw) == .gt
    | _ => true

/-- Sum of integer elements modulo 2^32. -/
def sumInt (t : Nat) (l : List Nat) : Int := (l.foldl (fun (a : Int) x => a + (readInt t x).1) 0) % 2 ^ 32

/-- Row or column `l` with check `x` is flagged (R167). -/
def flagged (c : Chain) (x : Int) (l : List Nat) (cnt : Nat) : Bool :=
  let t := Sh.ety c.shape
  if tyIsFloat t then flaggedFloat t (c.exp - 135) x l cnt else x % 2 ^ 32 ≠ sumInt t l

/-- What a drain finds (R168). -/
inductive Found where
  | clean
  | fixed (i j code : Nat)
  | bad
deriving DecidableEq, Repr

/-- The element that replaces a wrong one: its row check less the sum of the rest of the row, in FP64 for a float type (R168). That
the FP64 sum is rounded after each addition, in ascending order, is the model's choice (log 41). -/
def repair (c : Chain) (x : Int) (rest : List Nat) : Nat :=
  let t := Sh.ety c.shape
  if tyIsFloat t then
    let neg (y : Nat) : Nat := signMod .f64 false true y
    let x64 := (roundTo .f64 0 false (.fin false x (c.exp - 135))).1
    (convert t 0 0 false (floatAdd .f64 0 false x64 (neg (sum64 t rest))).1).1
  else intBits 32 (x - sumInt t rest)

/-- Compare the checks with the elements of the destination (R167, R168). -/
def compare (c : Chain) (d : Elems) : Found :=
  let m := Sh.rows c.shape
  let n := Sh.cols c.shape
  let row (i : Nat) : List Nat := (List.range n).map fun j => d i j
  let col (j : Nat) : List Nat := (partRows c.part m).map fun i => d i j
  let rs := (List.range m).filter fun i =>
    c.admitted.getD i false && !c.badRows.getD i false && c.flagged (c.rows.getD i 0) (row i) n
  let cs := (List.range n).filter fun j => !c.badCols.getD j false && c.flagged (c.cols.getD j 0) (col j) m
  match rs, cs with
  | [], [] => .clean
  | [i], [j] => .fixed i j (c.repair (c.rows.getD i 0) (dropAt (row i) j))
  | _, _ => .bad

end Chain

/-- Put a word into the youngest pending result that writes register `n`, or into the register. -/
def Lane.amend (l : Lane) (n : Nat) (x : Word) : Lane :=
  let put (ps : List Pend) : Option (List Pend) :=
    let k := (mapFrom (fun i p => (i, p)) 0 ps).foldl (fun r p => if p.2.matrix && (lastFor p.2.regs n).isSome then some p.1 else r) none
    k.map fun k => setAt ps k { ps.getD k {} with regs := (ps.getD k {}).regs.map fun r => if r.1 = n then (n, x) else r }
  match put l.pend with
  | some ps => { l with pend := ps }
  | none => { l with regs := fput 0 l.regs n x }

/-- A lane's chain drains: its checks are compared with the destination, an element is corrected, or the destination
becomes undefined (R167, R168). -/
def Lane.drain (l : Lane) (free lane : Nat) : Lane × Chain.Found :=
  match l.chain with
  | none => (l, .clean)
  | some c =>
    let v := c.view
    let ws := (List.range v.words).map fun k => (l.pendV (v.reg + k)).getLastD (l.v (v.reg + k))
    let d := elemsOf v.sh ws
    let l' := { l with chain := none }
    let put (l : Lane) (xs : List Word) : Lane := (regRun v.reg xs).foldl (fun l r => l.amend r.1 r.2) l
    match c.compare d with
    | .clean => (l', .clean)
    | .fixed i j x => (put l' (denseWords v.sh fun i' j' => if i' = i ∧ j' = j then x else d i' j'), .fixed i j x)
    | .bad => (put l' ((List.range v.words).map fun k => Config.anyWord free lane (v.reg + k)), .bad)

/-- The chains of the lanes of a mask drain: corrections are counted, and MATRIX_UE arises in the lanes that need it, which
are answered (R168). That the lanes which fail together take one cause, with the PC value of the lowest of them, is the model's choice (log 107). -/
def drainLanes (s : State) (wk : Nat) (m : Mask) : State × Mask :=
  match s.warp? wk with
  | none => (s, 0)
  | some w =>
    let found (i : Nat) : Chain.Found := ((w.lane i).drain s.free i).2
    let ue := maskOf fun i => bitAt m i && found i == .bad
    let fixed := ((lanesOf m).filter fun i => match found i with
      | .fixed .. => true
      | _ => false).length
    let next := (((w.lane (lowest ue)).chain.map fun c => c.next).getD 0)
    let s₁ := s.setWarp wk (w.mapIn m fun i l => (l.drain s.free i).1)
    let s₂ := if fixed = 0 then s₁ else s₁.modLaunch (s.wgOf w).launch fun L => { L with matCorr := L.matCorr + fixed }
    (if ue = 0 then s₂
      else addCause s₂ wk { code := Code.matrixUe, mask := ue, path := ue, pc := next, resume := .none, cont := next }, ue)

/-- An instruction with an opcode from 0x4B to 0x67: the chains in `ends` drain before it reads, which the lane checks `check` on
headers and index words do too (R152, R161), and then `run` completes it. Lanes of the gang whose guard is false only end theirs. -/
def matOp (h : Hdr) (n : Nat) (s : State) (check : Gang → Nat → Nat) (ends : Gang → Nat → Bool) (run : Gang → State → Out) :
    Out :=
  issued h n s fun q =>
    let e := maskOf fun i => bitAt q.mask i && (q.lane i).chain.isSome && ends q i
    let r := drainLanes (s.setWarp q.wk (q.w.mapIn (e &&& ~~~q.exec) fun _ l => l.endChain)) q.wk (e &&& q.exec)
    let q' := { q with w := (r.1.warp? q.wk).getD q.w }
    if r.2 ≠ 0 then .next r.1.done
    else match q'.matFault (check q') with
      | some (k, m) => trapGang q' r.1 (stepCode k) (if k = 2 then 2 else 0) m
      | none => run q' r.1

/-- A chain of the lane names a word of one of the views (R161). -/
def Lane.chainMeets (l : Lane) (vs : List View) : Bool :=
  match l.chain with
  | some c => vs.any fun v => v.meets c.view
  | none => false

/-- A matrix instruction outside the multiply family that reads and writes registers only: `views` are those it names. -/
def matPend (h : Hdr) (n : Nat) (s : State) (check : Gang → Nat → Nat) (views : Gang → Nat → List View) (f : Env → Lane → Pend) :
    Out :=
  matOp h n s check (fun q i => (q.lane i).chainMeets (views q i)) fun q s =>
    retire q h.sw (q.w.mapIn q.exec fun i l => l.addPend (f (q.env i) l)) s

end Sys2Proof.Machine
end

