-- ==== Sys2Proof/Machine/MatrixData.lean ====
section
/-! DEFINITION. Shape registers and the instructions that move matrix views (R171-R180). -/

namespace Sys2Proof.Machine

/-- Number of the shape register in field hd, ha, hb or hc (R154). -/
def hdOf (x : Ext) : Nat := x.field 11 4
def haOf (x : Ext) : Nat := x.field 15 4
def hbOf (x : Ext) : Nat := x.field 19 4
def hcOf (x : Ext) : Nat := x.field 23 4

/-- The value that HSET writes (R171). -/
def hsetVal (x : Ext) (e : Env) (l : Lane) : Word := if x.bit 11 then BitVec.ofNat 32 (x.field 12 18) else opB l e 0 x

/-- HSET: SHAPE in the lanes whose value R148 does not allow (R171). -/
def execHset (h : Hdr) (x : Ext) (s : State) : Out :=
  issued h x.words s fun q =>
    let bad := q.failing fun i l => !Sh.ok (hsetVal x (q.env i) l)
    if bad ≠ 0 then trapGang q s Code.shape 2 bad
    else retire q h.sw (q.w.mapIn q.exec fun i l =>
      let v := hsetVal x (q.env i) l
      l.wrH x.d.toNat v (Sh.rowMask v)) s

/-- HGET (R172). -/
def laneHget (x : Ext) (e : Env) (l : Lane) : Lane :=
  let v := l.h x.a.toNat
  l.wr x.d.toNat (match x.field 11 2 with
    | 0 => v
    | 1 => l.rdRm e 0 x.a.toNat &&& Sh.rowMask v
    | _ => BitVec.ofNat 32 (Sh.dense v))

/-- HGET (R172). -/
def execHget (h : Hdr) (x : Ext) (s : State) : Out := laneOp h x.words s (laneHget x)

/-- HMOV: a shape with its row mask, or a row mask (R173). -/
def laneHmov (x : Ext) (e : Env) (l : Lane) : Lane :=
  let d := x.d.toNat
  if x.bit 11 then l.wrH d (l.h d) (l.rd e 0 x.a.toNat &&& Sh.rowMask (l.h d))
  else l.wrH d (l.h x.a.toNat) (l.rdRm e 0 x.a.toNat)

/-- HMOV (R173). -/
def execHmov (h : Hdr) (x : Ext) (s : State) : Out := laneOp h x.words s (laneHmov x)

/-- The destination view of a fill. -/
def fillView (x : Ext) (l : Lane) : View := View.dense x.d.toNat (l.h (hdOf x))

/-- MZERO (R174). -/
def execMzero (h : Hdr) (x : Ext) (s : State) : Out :=
  matPend h x.words s
    (fun q i => let v := fillView x (q.lane i); firstStep [(2, v.badDense), (3, v.past q.g)])
    (fun q i => [fillView x (q.lane i)])
    (fun _ l => denseOut (fillView x l) (fun _ _ => 0) (fun _ => true) (fun _ _ => 0) 0)

/-- MFILL reads a pair in this lane: FP64, and no literal (R174). -/
def fillPair (x : Ext) (l : Lane) : Bool := Sh.ety (l.h (hdOf x)) = 0 && !x.litB

/-- What MFILL leaves in one lane (R174). -/
def laneMfill (x : Ext) (e : Env) (l : Lane) : Pend :=
  let v := fillView x l
  let t := Sh.ety v.sh
  let raw := (if t = 0 then (opBW l e 0 x).toNat else (opB l e 0 x).toNat) % 2 ^ tyWidth t
  let y := if t = 5 && raw = 8 then 0 else raw
  denseOut v (fun _ _ => 0) (fun _ => true) (fun i j => if x.bit 27 && i ≠ j then 0 else y) (if t = 5 && raw = 8 then Flag.q4z else 0)

/-- MFILL (R174). -/
def execMfill (h : Hdr) (x : Ext) (s : State) : Out :=
  matPend h x.words s
    (fun q i =>
      let l := q.lane i
      let v := fillView x l
      firstStep [(2, v.badDense || (fillPair x l && x.b.toNat % 2 = 1)),
                 (3, v.past q.g || (fillPair x l && x.b.toNat + 1 ≥ q.g))])
    (fun q i => [fillView x (q.lane i)])
    (laneMfill x)

/-- Source and destination of MMOV: a packed destination is as long as the source (R175). -/
def movViews (x : Ext) (e : Env) (l : Lane) : View × View :=
  let a := l.viewOf e 1 x.a.toNat (l.h (haOf x))
  ({ reg := x.d.toNat, sh := l.h (hdOf x), words := a.words }, a)

/-- The checks of MMOV (R175). -/
def movCheck (x : Ext) (e : Env) (g : Nat) (l : Lane) : Nat :=
  let (d, a) := movViews x e l
  firstStep [(2, !(Sh.same d.sh a.sh && Sh.packed d.sh = Sh.packed a.sh) || d.bad || a.bad), (3, d.past g || a.past g),
             (4, d.overlaps a), (5, Sh.packed a.sh && !Tile.ok a.sh (l.words e 1 a))]

/-- What MMOV leaves in one lane: a dense copy has ma as its row source; a view copied onto itself keeps every bit of its
words (R175). That an s4 code 0b1000 is copied and sets no flag is the model's choice, here and in MEXT and MINS (log 93). -/
def laneMmov (x : Ext) (e : Env) (l : Lane) : Pend :=
  let (d, a) := movViews x e l
  if Sh.packed a.sh || d.reg = a.reg then { regs := regRun d.reg (l.words e 1 a), matrix := true }
  else denseOut d (l.mat e 0 d) (l.admits (haOf x)) (l.mat e 1 a) 0

/-- MMOV (R175). -/
def execMmov (h : Hdr) (x : Ext) (s : State) : Out :=
  matPend h x.words s (fun q i => movCheck x (q.env i) q.g (q.lane i))
    (fun q i => let v := movViews x (q.env i) (q.lane i); [v.1, v.2]) (laneMmov x)

/-- Destination and source of MEXT and MINS, with the place of the block (R179). -/
def blockViews (x : Ext) (e : Env) (l : Lane) : View × View × Nat × Nat :=
  let o := l.rd e 0 x.b.toNat
  (View.dense x.d.toNat (l.h (hdOf x)), View.dense x.a.toNat (l.h (haOf x)), bitsAt o 0 5, bitsAt o 8 5)

/-- The checks of MEXT, and of MINS when `ins` holds (R179). -/
def blockCheck (ins : Bool) (x : Ext) (e : Env) (g : Nat) (l : Lane) : Nat :=
  let (d, a, r, c) := blockViews x e l
  let (inner, outer) := if ins then (a.sh, d.sh) else (d.sh, a.sh)
  firstStep [(2, d.badDense || a.badDense || Sh.ety d.sh ≠ Sh.ety a.sh || r + Sh.rows inner > Sh.rows outer
      || c + Sh.cols inner > Sh.cols outer), (3, d.past g || a.past g), (4, d.meets a)]

/-- What MEXT leaves in one lane: row `r + i` of ma is the source of row `i` (R179); codes are copied as they are
(log 93). -/
def laneMext (x : Ext) (e : Env) (l : Lane) : Pend :=
  let (d, a, r, c) := blockViews x e l
  let m := l.mat e 2 a
  denseOut d (l.mat e 1 d) (fun i => l.admits (haOf x) (r + i)) (fun i j => m (r + i) (c + j)) 0

/-- What MINS leaves in one lane (R179); codes are copied as they are (log 93). -/
def laneMins (x : Ext) (e : Env) (l : Lane) : Pend :=
  let (d, a, r, c) := blockViews x e l
  let m := l.mat e 2 a
  let old := l.mat e 1 d
  let inside (i j : Nat) : Bool := r ≤ i && i < r + Sh.rows a.sh && c ≤ j && j < c + Sh.cols a.sh && l.admits (haOf x) (i - r)
  denseOut d old (fun _ => true) (fun i j => if inside i j then m (i - r) (j - c) else old i j) 0

/-- The views that MEXT and MINS name. -/
def blockNames (x : Ext) (q : Gang) (i : Nat) : List View :=
  let v := blockViews x (q.env i) (q.lane i)
  [v.1, v.2.1]

/-- MEXT (R179). -/
def execMext (h : Hdr) (x : Ext) (s : State) : Out :=
  matPend h x.words s (fun q i => blockCheck false x (q.env i) q.g (q.lane i)) (blockNames x) (laneMext x)

/-- MINS (R179). -/
def execMins (h : Hdr) (x : Ext) (s : State) : Out :=
  matPend h x.words s (fun q i => blockCheck true x (q.env i) q.g (q.lane i)) (blockNames x) (laneMins x)

/-- Where MLD or MST reads or writes: the view and the scratchpad places of R176. -/
structure Tiling where
  view : View
  /-- Row stride, first validity bit, and bytes of the validity area (0 without .v). -/
  stride : Nat
  row0 : Nat
  area : Nat
  /-- Start of the validity area, or of the data when there is none. -/
  base : Nat
  /-- Start of the data, bytes of a row, and the byte after the last one touched. -/
  data : Nat
  rowLen : Nat
  top : Nat
deriving DecidableEq, Repr

/-- Offset of row `i` (R176). -/
def Tiling.rowAt (t : Tiling) (i : Nat) : Nat := t.data + (t.row0 + i) * t.stride

/-- R176 for one lane. A packed view is as long as the header `hdr` says. -/
def tiling (x : Ext) (e : Env) (l : Lane) (sh hdr : Word) : Tiling :=
  let ctl := opB l e 1 x
  let stride := bitsAt ctl 0 16
  let area := if x.bit 27 then (if bitAt ctl 24 then 32 else 4) else 0
  let base := (l.rd e 0 x.a.toNat + BitVec.ofNat 32 (4 * x.c.toNat)).toNat
  let words := if Sh.packed sh then Tile.words sh hdr else Sh.dense sh
  let rowLen := cdiv (Sh.cols sh * Sh.bits sh) 8
  let data := base + area
  { view := { reg := x.d.toNat, sh := sh, words := words }, stride := stride, row0 := bitsAt ctl 16 8, area := area, base := base
    data := data, rowLen := rowLen
    top := if stride = 0 then data + 4 * words else data + (bitsAt ctl 16 8 + Sh.rows sh - 1) * stride + rowLen }

/-- The checks of R152 and R176 on a tiling; `tile` are the words of a packed view, if they can be read. -/
def Tiling.check (t : Tiling) (v : Bool) (g alloc : Nat) (tile : Option (List Word)) : Nat :=
  let packed := Sh.packed t.view.sh
  let unit := if Sh.ety t.view.sh = 0 then 8 else 4
  firstStep [(2, t.view.bad || (packed && (t.stride ≠ 0 || v)) || (t.stride ≠ 0 && t.stride < t.rowLen)), (3, t.view.past g),
             (5, packed && tile.any fun ws => !Tile.ok t.view.sh ws), (6, t.top > alloc),
             (7, t.data % unit ≠ 0 || t.stride % unit ≠ 0 || t.base % 4 ≠ 0)]

/-- The words of the validity area that hold a bit of a row of the view (R177, R178). -/
def Tiling.validWords (t : Tiling) : List Nat :=
  (List.range (t.area / 4)).filter fun k => decide (32 * k < t.row0 + Sh.rows t.view.sh) && decide (t.row0 < 32 * k + 32)

/-- The scratchpad range that those words cover. -/
def Tiling.validUses (t : Tiling) (wg : Nat) : List ScratchUse := t.validWords.map fun k => { wg := wg, off := t.base + 4 * k, len := 4 }

/-- The scratchpad of a gang's workgroup. -/
def padOf (s : State) (w : Warp) : Workgroup := s.wgOf w

/-- The words of a packed tile's header and index that the checks of MLD read, if those in the allocation go so far. -/
def mldHead (s : State) (w : Warp) (sh : Word) (data : Nat) : Option Nat :=
  let hdr := (scratchWords w.wg (padOf s w) data 1).getD 0 0
  let n := if Tile.headOk sh hdr then 1 + Tile.idxWords sh hdr else 1
  if data + 4 * n ≤ allocOfWarp s w then some n else none

/-- How many header and index words the checks of MLD have read when one of them has a double-bit error, and else 0. That the error stands
before every check which needs the word is the model's choice (log 102). -/
def mldLost (s : State) (w : Warp) (sh : Word) (data : Nat) : Nat :=
  let ue (n : Nat) : Bool := scratchUe (padOf s w) data (4 * n)
  if !Sh.packed sh || decide (data + 4 > allocOfWarp s w) then 0
  else if ue 1 then 1
  else ((mldHead s w sh data).filter ue).getD 0

/-- The tiling of MLD in one lane: a packed view is as long as the header in the scratchpad says; of one whose header cannot be read only
that word is known (R177, R226; log 102). -/
def mldTiling (x : Ext) (s : State) (w : Warp) (e : Env) (l : Lane) : Tiling :=
  let sh := l.h (hdOf x)
  let t := tiling x e l sh 0
  if !Sh.packed sh then t
  else if t.data + 4 > allocOfWarp s w || mldLost s w sh t.data = 1 then { t with view := { t.view with words := 1 }, top := t.data + 4 }
  else tiling x e l sh ((scratchWords w.wg (padOf s w) t.data 1).getD 0 0)

/-- The header and index words of a packed tile that MLD loads, so far as they decide step 5: they are tested before step 6 looks at
the rest of the tile (R152, R177), and not if one of them cannot be read (log 102). -/
def mldTile (s : State) (w : Warp) (t : Tiling) : Option (List Word) :=
  if mldLost s w t.view.sh t.data ≠ 0 then none
  else (mldHead s w t.view.sh t.data).map (scratchWords w.wg (padOf s w) t.data)

/-- The bytes that MLD reads; none after a header or index word that cannot be read (log 102). -/
def mldReads (s : State) (w : Warp) (t : Tiling) : List ScratchUse :=
  let wg := w.wg
  let lost := mldLost s w t.view.sh t.data
  if lost ≠ 0 then [{ wg := wg, off := t.data, len := 4 * lost }]
  else t.validUses wg
    ++ (if t.stride = 0 then [{ wg := wg, off := t.data, len := 4 * t.view.words }]
      else (List.range (Sh.rows t.view.sh)).map fun i => { wg := wg, off := t.rowAt i, len := t.rowLen })

/-- The row mask that MLD sets: bits of the validity area from row0, 0 beyond it, or every row (R177). -/
def mldRows (wg : Nat) (g : Workgroup) (t : Tiling) : Word :=
  if t.area = 0 then Sh.rowMask t.view.sh
  else
    let a := ofBytes (scratchRead wg g t.base t.area)
    maskOf fun i => i < Sh.rows t.view.sh && a.testBit (t.row0 + i)

/-- What MLD leaves in one lane (R177). -/
def laneMld (x : Ext) (s : State) (w : Warp) (e : Env) (l : Lane) : Pend :=
  let t := mldTiling x s w e l
  let g := padOf s w
  let sh := t.view.sh
  let ws := if t.stride = 0 then
      let raw := scratchWords w.wg g t.data t.view.words
      if Sh.packed sh then raw else denseWords sh (elemsOf sh raw)
    else
      let rows := (List.range (Sh.rows sh)).map fun i => ofBytes (scratchRead w.wg g (t.rowAt i) t.rowLen)
      denseWords sh fun i j => rows.getD i 0 / 2 ^ (j * Sh.bits sh) % 2 ^ Sh.bits sh
  { regs := regRun t.view.reg ws, rows := [(hdOf x, mldRows w.wg g t)], matrix := true }

/-- MLD (R177). -/
def execMld (h : Hdr) (x : Ext) (s : State) : Out :=
  matOp h x.words s
    (fun q i =>
      let t := mldTiling x s q.w (q.env i) (q.lane i)
      t.check (x.bit 27) q.g (allocOfWarp s q.w) (mldTile s q.w t))
    (fun q i => (q.lane i).chainMeets [(mldTiling x s q.w (q.env i) (q.lane i)).view])
    fun q s =>
      let uses (i : Nat) : List ScratchUse := mldReads s q.w (mldTiling x s q.w (q.env i) (q.lane i))
      let ue := ueLanes s q.exec uses
      let s' := fixReads s q.exec uses
      if ue ≠ 0 then retireUe q h.sw true ue s'
      else retire q h.sw (q.w.mapIn q.exec fun i l => l.addPend (laneMld x s q.w (q.env i) l)) s'

/-- The tiling of MST in one lane: a packed view is as long as the header in the register says (R178). -/
def mstTiling (x : Ext) (e : Env) (l : Lane) : Tiling :=
  tiling x e l (l.h (haOf x)) (l.rdM e 2000 x.d.toNat)

/-- The bits of word `k` of a view at stride 0 that MST does not store: those of rows whose mask bit is 0 (R178). -/
def mstKept (x : Ext) (l : Lane) (t : Tiling) (k : Nat) : Word :=
  let row := Sh.cols t.view.sh * Sh.bits t.view.sh
  maskOf fun b => !Sh.packed t.view.sh && (32 * k + b) / row < Sh.rows t.view.sh && !l.admits (haOf x) ((32 * k + b) / row)

/-- The words whose other bits MST keeps: those of the validity area that it updates, and the words that hold part of a row's last byte range, or bits both of a
row that is stored and of one that is not (R178, R226). -/
def mstReads (x : Ext) (wg : Nat) (l : Lane) (t : Tiling) : List ScratchUse :=
  t.validUses wg
    ++ (if t.stride = 0 then
        ((List.range t.view.words).filter fun k => mstKept x l t k ≠ 0 && ~~~(mstKept x l t k) ≠ 0).map fun k =>
          { wg := wg, off := t.data + 4 * k, len := 4 }
      else ((List.range (Sh.rows t.view.sh)).filter fun i => l.admits (haOf x) i && t.rowLen % 4 ≠ 0).map fun i =>
        { wg := wg, off := t.rowAt i + t.rowLen / 4 * 4, len := t.rowLen % 4 })

/-- Word `k` of the validity area after MST.v (R178). -/
def mstValid (x : Ext) (l : Lane) (t : Tiling) (k : Nat) (old : Word) : Word :=
  maskOf fun b => if t.row0 ≤ 32 * k + b ∧ 32 * k + b < t.row0 + Sh.rows t.view.sh then l.admits (haOf x) (32 * k + b - t.row0) else bitAt old b

/-- One lane of MST stores its view (R178). -/
def laneMst (x : Ext) (wg : Nat) (e : Env) (l : Lane) (s : State) : State :=
  let t := mstTiling x e l
  let sh := t.view.sh
  let ws := l.words e 2 t.view
  let b := Sh.bits sh
  let get (s : State) (off n : Nat) : List Byte := ((s.wg? wg).map fun g => scratchRead wg g off n).getD []
  let word (s : State) (off : Nat) : Word := BitVec.ofNat 32 (ofBytes (get s off 4))
  let s₁ := t.validWords.foldl (fun s k =>
    let off := t.base + 4 * k
    putScratch s wg off (bytesOf 4 (mstValid x l t k (word s off)).toNat)) s
  if t.stride = 0 then
    (List.range t.view.words).foldl (fun s k =>
      let kept := mstKept x l t k
      if ~~~kept = 0 then s else putScratch s wg (t.data + 4 * k) (bytesOf 4 ((word s (t.data + 4 * k) &&& kept) ||| (ws.getD k 0 &&& ~~~kept)).toNat)) s₁
  else
    (List.range (Sh.rows sh)).foldl (fun s i =>
      if l.admits (haOf x) i then
        let y := ((List.range (Sh.cols sh)).map fun j => elemsOf sh ws i j * 2 ^ (j * b)).foldl (· + ·) 0
        putScratch s wg (t.rowAt i) (bytesOf t.rowLen y)
      else s) s₁

/-- MST: the lanes store in ascending order (R178, R248). -/
def execMst (h : Hdr) (x : Ext) (s : State) : Out :=
  matOp h x.words s
    (fun q i =>
      let t := mstTiling x (q.env i) (q.lane i)
      t.check (x.bit 27) q.g (allocOfWarp s q.w) (some ((q.lane i).words (q.env i) 2 t.view)))
    (fun q i => (q.lane i).chainMeets [(mstTiling x (q.env i) (q.lane i)).view])
    fun q s =>
      let uses (i : Nat) : List ScratchUse := mstReads x q.w.wg (q.lane i) (mstTiling x (q.env i) (q.lane i))
      let ue := ueLanes s q.exec uses
      let s₁ := fixReads s q.exec uses
      if ue ≠ 0 then retireUe q h.sw true ue s₁
      else retire q h.sw q.w ((lanesOf q.exec).foldl (fun s i => laneMst x q.w.wg (q.env i) (q.lane i) s) s₁)

end Sys2Proof.Machine
end

