-- ==== Sys2Proof/Machine/MatrixMul.lean ====
section
/-! DEFINITION. The multiply family, MMA, MMT, MTM, MMS and MMG (R159-R169, R181-R192). -/

namespace Sys2Proof.Machine

/-- The multiplies of R187 and R189. -/
inductive MulKind where
  | mma
  | mmt
  | mtm
  | mms
deriving DecidableEq, Repr

/-- The etypes of D that a pair of sources with etype `t` accepts (R183). -/
def mulPairs (t : Nat) : List Nat :=
  match t with
  | 0 => [0]
  | 1 => [1]
  | 2 | 3 => [1, 2]
  | 4 | 5 | 6 => [6]
  | _ => []

/-- m, n, k, and the k that B gives (R187). -/
def mulDims (kind : MulKind) (a b : Word) : Nat × Nat × Nat × Nat :=
  match kind with
  | .mma | .mms => (Sh.rows a, Sh.cols b, Sh.cols a, Sh.rows b)
  | .mmt => (Sh.rows a, Sh.rows b, Sh.cols a, Sh.cols b)
  | .mtm => (Sh.cols a, Sh.cols b, Sh.rows a, Sh.rows b)

/-- One product term of an element: its place k', and the codes of A_t and B_t. -/
structure Term where
  k : Nat
  a : Nat
  b : Nat
deriving DecidableEq, Repr

/-- Add the exact products of a block to the accumulator, and round once to FP32 (R163). INV of a block that holds a quiet NaN beside
both infinities goes by the order of its terms, which is the model's choice (log 89). -/
def mulBlock (t : Nat) (acc : FReal × Word) (ts : List Term) : FReal × Word :=
  if ts = [] then acc
  else
    let s := ts.foldl (fun (s : FReal × Word) x =>
      let p := FReal.mul (unpack (fmtOf t) x.a) (unpack (fmtOf t) x.b)
      let y := FReal.add false s.1 p.1
      (y.1, s.2 ||| p.2 ||| y.2)) acc
    let r := roundTo .f32 0 false s.1
    (unpack .f32 r.1, s.2 ||| r.2)

/-- One output element from its initial accumulator `c` (R163-R165): code and flags. That an s4 code 0b1000 of B sets Q4Z only in a
product that is formed is the model's choice (log 90). -/
def mulElem (t d n : Nat) (c : Nat) (ts : List Term) : Nat × Word :=
  if !tyIsFloat t then
    let s := ts.foldl (fun (s : Int × Word) x =>
      let a := readInt t x.a
      let b := readInt t x.b
      (s.1 + a.1 * b.1, s.2 ||| a.2 ||| b.2)) (sextInt 32 c, 0)
    (intBits 32 s.1, s.2 ||| (if -(2 ^ 31) ≤ s.1 && s.1 < 2 ^ 31 then 0 else Flag.iovf))
  else if t = 0 then
    let r := ts.foldl (fun (s : Nat × Word) x =>
      let y := floatFma .f64 0 false x.a x.b s.1
      (y.1, s.2 ||| y.2)) (c, sigFlag (unpack .f64 c))
    (if (unpack .f64 r.1).isNan then Fmt.f64.nan else r.1, r.2)
  else
    let c' := unpack (fmtOf d) c
    let acc := (List.range (cdiv n 8)).foldl (fun acc k0 => mulBlock t acc (ts.filter fun x => x.k / 8 = k0)) (c', sigFlag c')
    let r := roundTo (fmtOf d) 0 false acc.1
    (r.1, acc.2 ||| r.2)

/-- Codes by rows. -/
def rowsList (m n : Nat) (f : Elems) : List (List Nat) := (List.range m).map fun i => (List.range n).map fun j => f i j

/-- Element of codes by rows. -/
def rowsAt (l : List (List Nat)) (i j : Nat) : Nat := (l.getD i []).getD j 0

/-- What a multiply does in one lane. -/
structure MulPlan where
  /-- The step of R152 that fails, or 0. -/
  check : Nat
  d : View
  /-- The old D, and the initial accumulators. -/
  old : List (List Nat)
  c : List (List Nat)
  mv : MulView
  uses : List ScratchUse
  /-- Only the rows that it writes take part in its checks (R192). -/
  part : Bool := false
  /-- Its C is its D and it has no .z; it always ends its chain (R185). -/
  goesOn : Bool
  closes : Bool
  /-- The work, in 1/64 BF16-equivalent MACs, and the key of its shape group (R159). -/
  work : Nat
  key : List Nat
deriving DecidableEq, Repr

/-- Four times the type factor of R11. -/
def typeFactor (t : Nat) : Nat :=
  match t with
  | 0 => 64
  | 1 | 6 => 16
  | 2 => 4
  | 3 | 4 => 2
  | _ => 1

/-- Sixteen times max(N/M, 1/4), or 16 for a dense operand (R159). -/
def sparseFactor (keep group : Nat) : Nat := if keep = 0 then 16 else max 4 (16 * keep / group)

/-- Positions of row `i` of A_t that a sparse A keeps. -/
def tileRow (ks : List (Nat × Nat × Nat)) (k i : Nat) : List (Option Nat) :=
  (List.range k).map fun j => (ks.find? fun p => p.1 = i && p.2.1 = j).map fun p => p.2.2

/-- The elements of a view in the scratchpad, laid out as R150 gives (R184). -/
def padMat (s : State) (w : Warp) (base : Nat) (sh : Word) : Elems :=
  let ws := scratchWords w.wg (padOf s w) base (Sh.dense sh)
  elemsOf sh ws

/-- MMA, MMT, MTM and MMS in one lane (R181-R189). -/
def mulPlan (kind : MulKind) (x : Ext) (s : State) (w : Warp) (e : Env) (lead : Lane × Env) (l : Lane) : MulPlan :=
  let sp := x.bit 27
  let z := x.bit 29
  let useC := !sp && !z
  let hd := l.h (hdOf x)
  let ha := l.h (haOf x)
  let hb := l.h (hbOf x)
  let d := View.dense x.d.toNat hd
  let a := if kind = .mms then l.viewOf e 1 x.a.toNat ha else View.dense x.a.toNat ha
  let b := View.dense x.b.toNat hb
  let c := View.dense x.c.toNat (if useC then l.h (hcOf x) else hd)
  let (m, n, k, kb) := mulDims kind ha hb
  let base := (l.rd e 2 x.b.toNat + BitVec.ofNat 32 (4 * x.c.toNat)).toNat
  let tile := l.words e 1 a
  let shapeBad := Sh.ety ha ≠ Sh.ety hb || !(mulPairs (Sh.ety ha)).contains (Sh.ety hd) || !Sh.same hd c.sh || Sh.packed hd
    || Sh.packed c.sh || Sh.packed hb || Sh.packed ha ≠ (kind = .mms : Bool) || Sh.rows hd ≠ m || Sh.cols hd ≠ n || kb ≠ k
    || d.bad || a.bad || b.words > 256 || (!sp && b.bad) || (useC && c.bad)
  let uniBad := x.bit 28 && (l.rd e 2 x.b.toNat ≠ lead.1.rd lead.2 2 x.b.toNat || hb ≠ lead.1.h (hbOf x))
  let check := firstStep [(1, uniBad), (2, shapeBad),
    (3, d.past e.g || a.past e.g || (!sp && b.past e.g) || (useC && c.past e.g)),
    (4, d.meets a || (!sp && d.meets b) || (useC && d.overlaps c)),
    (5, kind = .mms && (!Tile.ok ha tile || Tile.axis (tile.getD 0 0))),
    (6, sp && base + 4 * b.words > allocOfWarp s w), (7, sp && base % (if Sh.ety ha = 0 then 8 else 4) ≠ 0)]
  let am := elemsOf ha tile
  let bm := if sp then padMat s w base hb else l.mat e 3 b
  let bt : Elems := if kind = .mmt then fun i j => bm j i else bm
  let row (i : Nat) : List (Option Nat) := match kind with
    | .mms => tileRow (Tile.kept ha tile) k i
    | .mtm => (List.range k).map fun j => some (am j i)
    | _ => (List.range k).map fun j => some (am i j)
  let src := if kind = .mma ∨ kind = .mmt then haOf x else hdOf x
  let old := l.mat e 0 d
  let (keep, group) := if kind = .mms then (Tile.keep (tile.getD 0 0), Tile.group (tile.getD 0 0)) else (0, 0)
  { check := check, d := d, old := rowsList m n old
    c := rowsList m n (if z then fun _ _ => 0 else if useC then l.mat e 4 c else old)
    mv := { m := m, n := n, k := k, ety := Sh.ety ha, dty := Sh.ety hd, rowOn := (List.range m).map fun i => l.admits src i
            a := (List.range m).map row, blk := [], bs := [rowsList k n bt] }
    uses := if sp then [{ wg := w.wg, off := base, len := 4 * b.words }] else []
    goesOn := !z && (sp || (x.c = x.d && Sh.same hd c.sh)), closes := false
    work := m * n * k * typeFactor (Sh.ety ha) * sparseFactor keep group
    key := [m, n, k, Sh.ety ha, keep, group] }

/-- The index block of MMG (R190). -/
structure IndexBlock where
  q : Nat
  bs : Nat
  rsv : Nat
  gather : List Nat
  scatter : List Nat
  ptrs : List Nat
  /-- Bytes it has. -/
  len : Nat
deriving DecidableEq, Repr

/-- Read an index block at `off` (R190). A .p block whose bs is 0 has no bptr word, which is the model's choice (log 97). -/
def indexBlock (s : State) (w : Warp) (p : Bool) (off : Nat) : IndexBlock :=
  let byte (k : Nat) : Nat := (scratchGet w.wg (padOf s w) (off + k)).toNat
  let q := byte 0
  let bs := byte 1
  let ptrAt := 4 + 4 * cdiv q 2
  let n := if p then cdiv q bs else 0
  { q := q, bs := bs, rsv := byte 2 + byte 3, gather := (List.range q).map fun k => byte (4 + k)
    scatter := (List.range q).map fun k => byte (4 + q + k)
    ptrs := (List.range n).map fun k => ofBytes (scratchRead w.wg (padOf s w) (off + ptrAt + 4 * k) 4)
    len := if p then ptrAt + 4 * n else 4 + 2 * q }

/-- How many bytes of an index block MMG has read when a word of them has a double-bit error, and else 0. That the error stands before every
check which needs the word is the model's choice (log 102). -/
def mmgLost (s : State) (w : Warp) (off : Nat) (blk : IndexBlock) : Nat :=
  let ue (n : Nat) : Bool := decide (off + n ≤ allocOfWarp s w) && scratchUe (padOf s w) off n
  if off % 4 ≠ 0 then 0 else if ue 4 then 4 else if ue blk.len then blk.len else 0

/-- MMG in one lane (R190-R192). -/
def mmgPlan (x : Ext) (s : State) (w : Warp) (e : Env) (lead : Lane × Env) (l : Lane) : MulPlan :=
  let sp := x.bit 27
  let z := x.bit 29
  let p := x.bit 30
  let hd := l.h (hdOf x)
  let ha := l.h (haOf x)
  let hb := l.h (hbOf x)
  let d := View.dense x.d.toNat hd
  let a := View.dense x.a.toNat ha
  let b := View.dense x.b.toNat hb
  let reg := !sp && !p
  let alloc := allocOfWarp s w
  let off := (l.rd e 6 x.c.toNat).toNat
  let headOk := off + 4 ≤ alloc
  let blk := indexBlock s w p off
  let lost := mmgLost s w off blk
  let blockOk := headOk && (lost ≠ 0 || off + blk.len ≤ alloc)
  let ra := Sh.rows ha
  let rd := Sh.rows hd
  let base := (l.rd e 2 x.b.toNat).toNat
  let bases := if p then (if blockOk && lost = 0 && off % 4 = 0 then blk.ptrs else []) else [base]
  let unit := if Sh.ety ha = 0 then 8 else 4
  let tested := blockOk && lost = 0 && off % 4 = 0
  let contentBad := tested && (blk.q = 0 || blk.q > 32 || (if p then blk.bs = 0 || blk.bs > 32 else blk.bs ≠ 0)
    || blk.rsv ≠ 0 || blk.gather.any (fun g => g ≥ ra) || blk.scatter.any (fun t => t ≥ rd)
    || (List.range blk.q).any fun i => (blk.scatter.take i).contains (blk.scatter.getD i 0))
  let shapeBad := Sh.ety ha ≠ Sh.ety hb || !(mulPairs (Sh.ety ha)).contains (Sh.ety hd) || Sh.packed hd || Sh.packed ha || Sh.packed hb
    || Sh.rows hb ≠ Sh.cols ha || Sh.cols hd ≠ Sh.cols hb || d.bad || a.bad || b.words > 256 || (reg && b.bad) || contentBad
  let uniBad := x.bit 28 && (l.rd e 2 x.b.toNat ≠ lead.1.rd lead.2 2 x.b.toNat || hb ≠ lead.1.h (hbOf x))
  let check := firstStep [(1, uniBad), (2, shapeBad), (3, d.past e.g || a.past e.g || (reg && b.past e.g)),
    (4, d.meets a || (reg && d.meets b)),
    (6, !blockOk || (!reg && bases.any fun y => y + 4 * b.words > alloc)),
    (7, off % 4 ≠ 0 || (!reg && bases.any fun y => y % unit ≠ 0))]
  let m := rd
  let n := Sh.cols hd
  let k := Sh.cols ha
  let am := l.mat e 1 a
  let entry (i : Nat) : Option Nat := (List.range blk.q).find? fun q => blk.scatter.getD q 0 = i
  let admits (i : Nat) : Bool := ((entry i).map fun q => l.admits (haOf x) (blk.gather.getD q 0)).getD false
  let old := l.mat e 0 d
  { check := check, d := d, old := rowsList m n old, c := rowsList m n (if z then fun _ _ => 0 else old)
    mv := { m := m, n := n, k := k, ety := Sh.ety ha, dty := Sh.ety hd, rowOn := (List.range m).map admits
            a := (List.range m).map fun i => (List.range k).map fun j => some (am (((entry i).map fun q => blk.gather.getD q 0).getD 0) j)
            blk := (List.range m).map fun i => if p then (entry i).getD 0 / blk.bs else 0
            bs := if reg then [rowsList k n (l.mat e 3 b)] else bases.map fun y => rowsList k n (padMat s w y hb) }
    uses := { wg := w.wg, off := off, len := if lost ≠ 0 then lost else blk.len } :: (if reg || lost ≠ 0 then [] else bases.map fun y => { wg := w.wg, off := y, len := 4 * b.words })
    part := true, goesOn := false, closes := true
    work := if lost ≠ 0 then 0 else blk.q * n * k * typeFactor (Sh.ety ha) * 16
    key := [if lost ≠ 0 then 0 else blk.q, n, k, Sh.ety ha, 0, 0] }

namespace MulPlan

/-- D(i, j) with its flags. -/
def elem (p : MulPlan) (i j : Nat) : Nat × Word :=
  let v := p.mv
  let ts := (List.range v.k).filterMap fun k => ((v.a.getD i []).getD k none).map fun a =>
    { k := k, a := a, b := v.bAt (v.blk.getD i 0) k j }
  mulElem v.ety v.dty v.k (rowsAt p.c i j) ts

/-- The result of the multiply in one lane (R187, R189, R192). -/
def result (p : MulPlan) : Pend :=
  denseOut p.d (rowsAt p.old) p.mv.admits (fun i j => (p.elem i j).1) (orFlags p.mv.m p.mv.n p.mv.admits fun i j => (p.elem i j).2)

/-- The multiply continues the lane's open chain (R185). -/
def continues (p : MulPlan) (l : Lane) : Bool :=
  p.goesOn && l.chain.any fun c => c.dst = p.d.reg && Sh.same c.shape p.d.sh && !c.ended

/-- The chain of the lane after the multiply (R166, R185). -/
def chain (p : MulPlan) (l : Lane) (next : PC) : Chain :=
  let first := Chain.start p.d.reg p.d.sh (fun i j => if p.mv.admits i then rowsAt p.c i j else rowsAt p.old i j) p.mv.exp
    (if p.part then some p.mv.rowOn else none)
  let c := if p.continues l then l.chain.getD first else first
  { c.join p.mv next with ended := p.closes }

end MulPlan

/-- A multiply with the plan of each lane: its chains continue or start, and its result is pending (R185-R187). -/
def mulOp (h : Hdr) (n : Nat) (s : State) (plan : State → Gang → Nat → MulPlan) : Out :=
  matOp h n s (fun q i => (plan s q i).check)
    (fun q i => !(plan s q i).continues (q.lane i))
    fun q s =>
      let uses (i : Nat) : List ScratchUse := (plan s q i).uses
      let ue := ueLanes s q.exec uses
      let s' := fixReads s q.exec uses
      if ue ≠ 0 then retireUe q h.sw true ue s'
      else retire q h.sw (q.w.mapIn q.exec fun i l =>
        let p := plan s q i
        { l.addPend p.result with chain := some (p.chain l q.next) }) s'

/-- The lowest executing lane, with what it sees (R106). -/
def Gang.leader (q : Gang) : Lane × Env := (q.lane q.lead, q.env q.lead)

/-- The plan of MMA, MMT, MTM and MMS for a lane of a gang. -/
def planOf (kind : MulKind) (x : Ext) (s : State) (q : Gang) (i : Nat) : MulPlan :=
  mulPlan kind x s q.w (q.env i) q.leader (q.lane i)

/-- The plan of MMG for a lane of a gang. -/
def planMmg (x : Ext) (s : State) (q : Gang) (i : Nat) : MulPlan := mmgPlan x s q.w (q.env i) q.leader (q.lane i)

/-- MMA (R187). -/
def execMma (h : Hdr) (x : Ext) (s : State) : Out := mulOp h x.words s (planOf .mma x)

/-- MMT (R187). -/
def execMmt (h : Hdr) (x : Ext) (s : State) : Out := mulOp h x.words s (planOf .mmt x)

/-- MTM (R187). -/
def execMtm (h : Hdr) (x : Ext) (s : State) : Out := mulOp h x.words s (planOf .mtm x)

/-- MMS (R189). -/
def execMms (h : Hdr) (x : Ext) (s : State) : Out := mulOp h x.words s (planOf .mms x)

/-- MMG (R192). -/
def execMmg (h : Hdr) (x : Ext) (s : State) : Out := mulOp h x.words s (planMmg x)

/-- The multiply's plan, for the arbiter (R159). -/
def Instr.plan (i : Instr) (s : State) (q : Gang) (k : Nat) : Option MulPlan :=
  match i with
  | .mma _ x => some (planOf .mma x s q k)
  | .mmt _ x => some (planOf .mmt x s q k)
  | .mtm _ x => some (planOf .mtm x s q k)
  | .mms _ x => some (planOf .mms x s q k)
  | .mmg _ x => some (planMmg x s q k)
  | _ => none

end Sys2Proof.Machine
end

