-- ==== Sys2Proof/Machine/MatrixElem.lean ====
section
/-! DEFINITION. Transpose, elementwise arithmetic, reductions, pruning and top-k (R193-R204). -/

namespace Sys2Proof.Machine

/-- The kept elements of a tile of shape `sh` in the order of R156, as position and code, from a test and the codes. -/
def tileList (sh : Word) (axis : Bool) (m : Nat) (keep : Nat → Nat → Option Nat) : List (Nat × Nat) :=
  (List.range (Sh.rows sh * Sh.cols sh / m)).flatMap fun g => (List.range m).filterMap fun p =>
    let pl := Tile.place sh axis m g p
    (keep pl.1 pl.2).map fun x => (p, x)

/-- Destination and source of MTRN (R193). -/
def trnViews (x : Ext) (e : Env) (l : Lane) : View × View :=
  let a := l.viewOf e 1 x.a.toNat (l.h (haOf x))
  let hd := l.h (hdOf x)
  ({ reg := x.d.toNat, sh := hd, words := if Sh.packed hd then a.words else Sh.dense hd }, a)

/-- The checks of MTRN (R193). -/
def trnCheck (x : Ext) (e : Env) (g : Nat) (l : Lane) : Nat :=
  let (d, a) := trnViews x e l
  let ws := l.words e 1 a
  firstStep [(2, Sh.rows d.sh ≠ Sh.cols a.sh || Sh.cols d.sh ≠ Sh.rows a.sh || Sh.ety d.sh ≠ Sh.ety a.sh
      || Sh.packed d.sh ≠ Sh.packed a.sh || d.bad || a.bad), (3, d.past g || a.past g), (4, d.overlaps a),
    (5, Sh.packed a.sh && (!Tile.ok a.sh ws || !Tile.both (ws.getD 0 0)))]

/-- What MTRN leaves in one lane (R193). -/
def laneMtrn (x : Ext) (e : Env) (l : Lane) : Pend :=
  let (d, a) := trnViews x e l
  let ws := l.words e 1 a
  if Sh.packed a.sh then
    let w := ws.getD 0 0
    let ks := Tile.kept a.sh ws
    let at_ (i j : Nat) : Option Nat := (ks.find? fun p => p.1 = j && p.2.1 = i).map fun p => p.2.2
    { regs := regRun d.reg (Tile.make d.sh (Tile.keep w) (Tile.log w) (!Tile.axis w) true (tileList d.sh (!Tile.axis w) (Tile.group w) at_))
      matrix := true }
  else denseOut d (fun _ _ => 0) (fun _ => true) (fun i j => elemsOf a.sh ws j i) 0

/-- MTRN (R193). -/
def execMtrn (h : Hdr) (x : Ext) (s : State) : Out :=
  matPend h x.words s (fun q i => trnCheck x (q.env i) q.g (q.lane i))
    (fun q i => let v := trnViews x (q.env i) (q.lane i); [v.1, v.2]) (laneMtrn x)

/-- The operations of MEW (R194). -/
inductive Ewise where
  | add
  | sub
  | mul
  | max
  | min
  | scale
deriving DecidableEq, Repr

/-- One element of MEW: codes of etype `t`, or for .scale the scalar `y` (R194). -/
def ewise (op : Ewise) (t rnd : Nat) (sat : Bool) (x y : Nat) : Nat × Word :=
  if tyIsFloat t then
    let f := fmtOf t
    match op with
    | .add => floatAdd f rnd sat x y
    | .sub => floatAdd f rnd sat x (signMod f false true y)
    | .mul => floatMul f rnd sat x y
    | .max => minMax f true x y
    | .min => minMax f false x y
    | .scale =>
      let p := FReal.mul (unpack f x) (unpack (if t = 0 then .f64 else .f32) y)
      let r := roundTo f rnd sat p.1
      (r.1, r.2 ||| p.2)
  else
    let a := readInt t x
    let b := if op = .scale then (sextInt 32 y, 0) else readInt t y
    let r : Int := match op with
      | .add => a.1 + b.1
      | .sub => a.1 - b.1
      | .mul | .scale => a.1 * b.1
      | .max => max a.1 b.1
      | .min => min a.1 b.1
    let (lo, hi) := intRange t
    let c := clampTo lo hi r
    (intBits (tyWidth t) c.1, c.2 ||| a.2 ||| b.2)

/-- Destination, first and second view of MEW; .scale has no second one. -/
def ewViews (x : Ext) (l : Lane) : View × View × View :=
  (View.dense x.d.toNat (l.h (hdOf x)), View.dense x.a.toNat (l.h (haOf x)), View.dense x.b.toNat (l.h (hbOf x)))

/-- The checks of MEW (R194). -/
def ewCheck (scale : Bool) (x : Ext) (g : Nat) (l : Lane) : Nat :=
  let (d, a, b) := ewViews x l
  let pairB := scale && Sh.ety d.sh = 0
  firstStep [(2, d.badDense || a.badDense || !Sh.same d.sh a.sh || (!scale && (b.badDense || !Sh.same d.sh b.sh))
      || (pairB && x.b.toNat % 2 = 1)),
    (3, d.past g || a.past g || (!scale && b.past g) || (pairB && x.b.toNat + 1 ≥ g)),
    (4, d.overlaps a || (!scale && d.overlaps b))]

/-- What MEW leaves in one lane (R194). -/
def laneMew (op : Ewise) (x : Ext) (e : Env) (l : Lane) : Pend :=
  let (d, a, b) := ewViews x l
  let t := Sh.ety d.sh
  let am := l.mat e 1 a
  let bm := l.mat e 2 b
  let scalar := if t = 0 then (l.rdW e 9000 x.b.toNat).toNat else (l.rd e 9000 x.b.toNat).toNat
  let r (i j : Nat) : Nat × Word := ewise op t (x.field 27 3) (x.bit 30) (am i j) (if op = .scale then scalar else bm i j)
  let rowOn := l.admits (haOf x)
  denseOut d (l.mat e 0 d) rowOn (fun i j => (r i j).1) (orFlags (Sh.rows d.sh) (Sh.cols d.sh) rowOn fun i j => (r i j).2)

/-- MEW with the operation `op` (R194). -/
def mewOp (op : Ewise) (h : Hdr) (x : Ext) (s : State) : Out :=
  let scale := op = .scale
  matPend h x.words s (fun q i => ewCheck scale x q.g (q.lane i))
    (fun q i => let v := ewViews x (q.lane i); if scale then [v.1, v.2.1] else [v.1, v.2.1, v.2.2]) (laneMew op x)

/-- MEW.add (R194). -/
def execMewAdd (h : Hdr) (x : Ext) (s : State) : Out := mewOp .add h x s

/-- MEW.sub (R194). -/
def execMewSub (h : Hdr) (x : Ext) (s : State) : Out := mewOp .sub h x s

/-- MEW.mul (R194). -/
def execMewMul (h : Hdr) (x : Ext) (s : State) : Out := mewOp .mul h x s

/-- MEW.max (R194). -/
def execMewMax (h : Hdr) (x : Ext) (s : State) : Out := mewOp .max h x s

/-- MEW.min (R194). -/
def execMewMin (h : Hdr) (x : Ext) (s : State) : Out := mewOp .min h x s

/-- MEW.scale (R194). -/
def execMewScale (h : Hdr) (x : Ext) (s : State) : Out := mewOp .scale h x s

/-- The etype of D that MRED takes for a source etype (R195). -/
def redEty (t : Nat) : Nat :=
  match t with
  | 0 => 0
  | 1 | 2 | 3 => 1
  | _ => 6

/-- A reduction over float codes of etype `t`, not empty: op 0 add, 1 max, 2 min, 3 amax (R195). That a sum with a quiet NaN and both
infinities sets INV only if both infinities come before the NaN is the model's choice (log 89). -/
def reduceFloat (op t : Nat) (l : List Nat) : Nat × Word :=
  let f := fmtOf t
  let d := redEty t
  let sig := l.foldl (fun w x => w ||| sigFlag (unpack f x)) (0 : Word)
  match op with
  | 0 =>
    let s := (l.drop 1).foldl (fun (s : FReal × Word) x =>
      let y := FReal.add false s.1 (unpack f x)
      (y.1, s.2 ||| y.2)) (unpack f (l.headD 0), 0)
    let r := roundTo (fmtOf d) 0 false s.1
    (r.1, r.2 ||| s.2 ||| sig)
  | 3 =>
    let top := l.foldl (fun m x => let y := signMod f true false x; if (minMax f true m y).1 = y then y else m) 0
    ((if l.any fun x => (unpack f x).isNan then (fmtOf d).nan else (convert d t 0 false top).1), sig)
  | _ => ((convert d t 0 false ((l.drop 1).foldl (fun m x => (minMax f (op = 1) m x).1) (l.headD 0))).1, sig)

/-- A reduction over integer codes of etype `t`, not empty (R195). -/
def reduceInt (op t : Nat) (l : List Nat) : Nat × Word :=
  let vs := l.map fun x => readInt t x
  let fl := vs.foldl (fun w v => w ||| v.2) (0 : Word)
  match op with
  | 0 =>
    let s := vs.foldl (fun (a : Int) v => a + v.1) 0
    (intBits 32 s, fl ||| (if -(2 ^ 31) ≤ s && s < 2 ^ 31 then 0 else Flag.iovf))
  | _ => (intBits 32 ((vs.drop 1).foldl (fun (a : Int) v => if op = 1 then max a v.1 else min a v.1) ((vs.map (·.1)).headD 0)), fl)

/-- What MRED reduces: rows, columns or everything. -/
inductive Reduce where
  | row
  | col
  | all
deriving DecidableEq, Repr

/-- The shape of D that MRED takes (R195). -/
def redShapeOk (k : Reduce) (d a : Word) : Bool :=
  match k with
  | .row => Sh.rows d = Sh.rows a && Sh.cols d = 1
  | .col => Sh.rows d = 1 && Sh.cols d = Sh.cols a
  | .all => Sh.rows d = 1 && Sh.cols d = 1

/-- Destination and source of MRED. -/
def redViews (x : Ext) (l : Lane) : View × View := (View.dense x.d.toNat (l.h (hdOf x)), View.dense x.a.toNat (l.h (haOf x)))

/-- The checks of MRED (R195). -/
def redCheck (k : Reduce) (x : Ext) (g : Nat) (l : Lane) : Nat :=
  let (d, a) := redViews x l
  let t := Sh.ety a.sh
  firstStep [(2, d.badDense || a.badDense || !redShapeOk k d.sh a.sh || Sh.ety d.sh ≠ redEty t || (x.field 27 2 = 3 && !tyIsFloat t)),
    (3, d.past g || a.past g), (4, d.meets a)]

/-- What MRED leaves in one lane (R195). -/
def laneMred (k : Reduce) (x : Ext) (e : Env) (l : Lane) : Pend :=
  let (d, a) := redViews x l
  let t := Sh.ety a.sh
  let am := l.mat e 1 a
  let old := l.mat e 0 d
  let rows := (List.range (Sh.rows a.sh)).filter fun i => l.admits (haOf x) i
  let cols := List.range (Sh.cols a.sh)
  let src (i j : Nat) : List Nat := match k with
    | .row => if rows.contains i then cols.map fun c => am i c else []
    | .col => rows.map fun r => am r j
    | .all => rows.flatMap fun r => cols.map fun c => am r c
  let red (xs : List Nat) : Nat × Word := if tyIsFloat t then reduceFloat (x.field 27 2) t xs else reduceInt (x.field 27 2) t xs
  denseOut d old (fun _ => true) (fun i j => if src i j = [] then old i j else (red (src i j)).1)
    (orFlags (Sh.rows d.sh) (Sh.cols d.sh) (fun _ => true) fun i j => if src i j = [] then 0 else (red (src i j)).2)

/-- MRED over `k` (R195). -/
def mredOp (k : Reduce) (h : Hdr) (x : Ext) (s : State) : Out :=
  matPend h x.words s (fun q i => redCheck k x q.g (q.lane i)) (fun q i => let v := redViews x (q.lane i); [v.1, v.2]) (laneMred k x)

/-- MRED.row (R195). -/
def execMredRow (h : Hdr) (x : Ext) (s : State) : Out := mredOp .row h x s

/-- MRED.col (R195). -/
def execMredCol (h : Hdr) (x : Ext) (s : State) : Out := mredOp .col h x s

/-- MRED.all (R195). -/
def execMredAll (h : Hdr) (x : Ext) (s : State) : Out := mredOp .all h x s

/-- A magnitude in the order of R197: class 0 finite, 1 infinite, 2 NaN, and the finite value. -/
structure Mag where
  cls : Nat
  m : Int
  e : Int
deriving DecidableEq, Repr

/-- The magnitude of a code (R197). -/
def magOf (t x : Nat) : Mag :=
  if tyIsFloat t then match unpack (fmtOf t) x with
    | .nan _ => { cls := 2, m := 0, e := 0 }
    | .inf _ => { cls := 1, m := 0, e := 0 }
    | .fin _ m e => { cls := 0, m := m.natAbs, e := e }
  else { cls := 0, m := (readInt t x).1.natAbs, e := 0 }

/-- `a` is above `b` (R197, R198). -/
def Mag.above (a b : Mag) : Bool :=
  if a.cls ≠ b.cls then a.cls > b.cls else a.cls = 0 && cmpExact a.m a.e b.m b.e == .gt

/-- The highest class, and the exact sum of finite magnitudes (R198). -/
def magSum (l : List Mag) : Mag :=
  l.foldl (fun a b => let s := addExact a.m a.e b.m b.e; { cls := max a.cls b.cls, m := s.1, e := s.2 }) { cls := 0, m := 0, e := 0 }

/-- Place `k` is among the `n` highest, ties to the lower place (R197, R198). -/
def amongTop (n : Nat) (l : List Mag) (k : Nat) : Bool :=
  let me := l.getD k { cls := 0, m := 0, e := 0 }
  ((mapFrom (fun i b => (i, b)) 0 l).filter fun p => p.2.above me || (!me.above p.2 && p.1 < k)).length < n

/-- Destination and source of MPRN, with the pattern that vb asks for (R196). -/
def prnViews (x : Ext) (e : Env) (l : Lane) : View × View × Word :=
  let w := BitVec.ofNat 32 (bitsAt (l.rd e 0 x.b.toNat) 0 9 + (if x.bit 27 then 512 else 0))
  let hd := l.h (hdOf x)
  ({ reg := x.d.toNat, sh := hd, words := Tile.words hd w }, View.dense x.a.toNat (l.h (haOf x)), w)

/-- The checks of MPRN (R196). -/
def prnCheck (x : Ext) (e : Env) (g : Nat) (l : Lane) : Nat :=
  let (d, a, w) := prnViews x e l
  firstStep [(2, !Tile.sized w || a.badDense || !Sh.packed d.sh || !Sh.same d.sh a.sh || !Tile.fits d.sh w || d.bad),
    (3, d.past g || a.past g), (4, d.meets a)]

/-- Whether MPRN keeps element (i, j) (R197, R198). -/
def prnKeeps (t : Nat) (w : Word) (tr : Bool) (am : Elems) (i j : Nat) : Bool :=
  let m := Tile.group w
  let mag (r c : Nat) : Mag := magOf t (am r c)
  if tr then
    let r := i / m * m
    let c := j / m * m
    let diag (s : Nat) : Mag := magSum ((List.range m).map fun k => mag (r + k) (c + (k + s) % m))
    amongTop (Tile.keep w) ((List.range m).map diag) ((j - c + m - (i - r)) % m)
  else if Tile.axis w then amongTop (Tile.keep w) ((List.range m).map fun k => mag (i / m * m + k) j) (i % m)
  else amongTop (Tile.keep w) ((List.range m).map fun k => mag i (j / m * m + k)) (j % m)

/-- What MPRN leaves in one lane (R196-R198). -/
def laneMprn (x : Ext) (e : Env) (l : Lane) : Pend :=
  let (d, a, w) := prnViews x e l
  let t := Sh.ety a.sh
  let am := l.mat e 1 a
  let q4 (y : Nat) : Bool := t = 5 && y = 8
  let keep (i j : Nat) : Option Nat := if prnKeeps t w (x.bit 27) am i j then some (if q4 (am i j) then 0 else am i j) else none
  { regs := regRun d.reg (Tile.make d.sh (Tile.keep w) (Tile.log w) (Tile.axis w) (x.bit 27) (tileList d.sh (Tile.axis w) (Tile.group w) keep))
    fst := orFlags (Sh.rows a.sh) (Sh.cols a.sh) (fun _ => true) fun i j => if q4 (am i j) then Flag.q4z else 0
    matrix := true }

/-- MPRN (R196). -/
def execMprn (h : Hdr) (x : Ext) (s : State) : Out :=
  matPend h x.words s (fun q i => prnCheck x (q.env i) q.g (q.lane i))
    (fun q i => let v := prnViews x (q.env i) (q.lane i); [v.1, v.2.1]) (laneMprn x)

/-- A shape of a top-k state (R199). -/
def topkShape (h : Word) : Bool := Sh.ety h = 1 && !Sh.packed h && Sh.cols h % 2 = 0

/-- An entry of a top-k state: value code and index. -/
abbrev TopEntry := Nat × Nat

/-- The entry is not empty (R199). -/
def TopEntry.full (p : TopEntry) : Bool := p.2 ≠ 0xFFFFFFFF

/-- One entry ranks above another by rules 1 to 3 (R200). -/
def TopEntry.above (a b : TopEntry) : Bool :=
  let x := unpack .f32 a.1
  let y := unpack .f32 b.1
  if TopEntry.full a ≠ TopEntry.full b then TopEntry.full a
  else if x.isNan && y.isNan then a.2 < b.2
  else if x.isNan || y.isNan then y.isNan
  else match FReal.cmp x y with
    | .gt => true
    | .lt => false
    | .eq => a.2 < b.2

/-- State and scores of MTOPK (R201). -/
def topkViews (x : Ext) (l : Lane) : View × View := (View.dense x.d.toNat (l.h (hdOf x)), View.dense x.a.toNat (l.h (haOf x)))

/-- The checks of MTOPK (R201). -/
def topkCheck (x : Ext) (g : Nat) (l : Lane) : Nat :=
  let (d, a) := topkViews x l
  firstStep [(2, !topkShape d.sh || d.bad || a.badDense || !(Sh.ety a.sh = 1 || Sh.ety a.sh = 2) || Sh.rows a.sh ≠ Sh.rows d.sh),
    (3, d.past g || a.past g), (4, d.meets a)]

/-- The entries of row `r` of a state. -/
def topRow (sh : Word) (m : Elems) (r : Nat) : List TopEntry := (List.range (Sh.cols sh / 2)).map fun k => (m r (2 * k), m r (2 * k + 1))

/-- What MTOPK leaves in one lane: every entry of a state row is a candidate, an empty one too, which keeps its value where it stays
among the best k (R201, R200). -/
def laneMtopk (x : Ext) (e : Env) (l : Lane) : Pend :=
  let (d, a) := topkViews x l
  let old := l.mat e 0 d
  let am := l.mat e 1 a
  let k := Sh.cols d.sh / 2
  let base := (l.rd e 9000 x.b.toNat).toNat
  let widen (y : Nat) : Nat := (convert 1 (Sh.ety a.sh) 0 false y).1
  let row (r : Nat) : List TopEntry :=
    let held := if x.bit 27 then [] else topRow d.sh old r
    let new := ((List.range (Sh.cols a.sh)).map fun j => (widen (am r j), (base + j) % 2 ^ 32)).filter TopEntry.full
    (sortBy TopEntry.above (held ++ new)).take k
  let rows := (List.range (Sh.rows d.sh)).map row
  denseOut d old (l.admits (haOf x)) (fun i j =>
    let p := (rows.getD i []).getD (j / 2) (0xFFFFFFFF, 0xFFFFFFFF)
    if j % 2 = 0 then p.1 else p.2) 0

/-- MTOPK (R201). -/
def execMtopk (h : Hdr) (x : Ext) (s : State) : Out :=
  matPend h x.words s (fun q i => topkCheck x q.g (q.lane i)) (fun q i => let v := topkViews x (q.lane i); [v.1, v.2]) (laneMtopk x)

/-- The weights of the non-empty entries of a row, with whether they are uniform (R203). -/
def gateRow (l : List TopEntry) : List TopEntry × Bool :=
  let full := l.filter TopEntry.full
  let vals := full.map fun p => unpack .f32 p.1
  let s := (vals.foldl (fun a v => (FReal.add false a v).1) (.fin false 0 0))
  let uniform := vals.any (fun v => match v with
      | .fin .. => false
      | _ => true) || (match s with
      | .fin _ m e => cmpExact m e 1 (-126) == .lt
      | _ => true)
  let share (p : TopEntry) : Nat :=
    if uniform then (roundRat .f32 0 false false 1 full.length 0).1
    else match unpack .f32 p.1, s with
      | .fin z m e, .fin _ m' e' => if m = 0 then Fmt.f32.signed z 0 else (roundRat .f32 0 false (m < 0) m.natAbs m'.natAbs (e - e')).1
      | _, _ => 0
  (l.map fun p => if TopEntry.full p then (share p, p.2) else p, uniform && full ≠ [])

/-- What MGNORM leaves in one lane (R203). -/
def laneMgnorm (x : Ext) (e : Env) (l : Lane) : Pend :=
  let d := View.dense x.d.toNat (l.h (hdOf x))
  let old := l.mat e 0 d
  let rowOn := l.admits (hdOf x)
  let rows := (List.range (Sh.rows d.sh)).map fun r => gateRow (topRow d.sh old r)
  denseOut d old rowOn (fun i j =>
      let p := ((rows.getD i ([], false)).1.getD (j / 2) (0, 0))
      if j % 2 = 0 then p.1 else p.2)
    (orFlags (Sh.rows d.sh) 1 rowOn fun i _ => if (rows.getD i ([], false)).2 then Flag.gate else 0)

/-- MGNORM (R203). -/
def execMgnorm (h : Hdr) (x : Ext) (s : State) : Out :=
  matPend h x.words s
    (fun q i => let d := View.dense x.d.toNat ((q.lane i).h (hdOf x)); firstStep [(2, !topkShape d.sh || d.bad), (3, d.past q.g)])
    (fun q i => [View.dense x.d.toNat ((q.lane i).h (hdOf x))]) (laneMgnorm x)

end Sys2Proof.Machine
end

