-- ==== Sys2Proof/Machine/Control.lean ====
section
/-! DEFINITION. Control instructions (R109-R120): branches, EXIT, NOP, YIELD, RGN, PLOP and join registers. -/

namespace Sys2Proof.Machine

/-- The address that is `off` words after the one of a PC value, with code index 0 (R34, R46). -/
def branchAt (pc : PC) (off : BitVec 18) : PC :=
  (BitVec.ofInt 60 (bitsAt pc 0 60 + 4 * off.toInt)).setWidth 64

/-- A target with bits that it may not have: 0-1, or some from 57 up to below `top` (R34, R111). -/
def badTarget (top : Nat) (t : PC) : Bool := bitsAt t 0 2 ≠ 0 || bitsAt t 57 (top - 57) ≠ 0

/-- Write the link pair w(g−2) with the return PC value (R110), in translated code with the Nelrak-1 address of it (R402). -/
def linkLane (q : Gang) (_ : Nat) (l : Lane) : Lane := l.wrW (q.g - 2) (q.nelrak.getD q.next)

/-- A lane that has called a function stops at its entry in translated code, until Jasper has its native address (R402). -/
def callLane (q : Gang) (k : Nat) (l : Lane) : Lane :=
  let l' := linkLane q k l
  if q.nelrak.isSome then { l' with wait := some (.translation 0) } else l'

/-- A lane that a register has sent somewhere holds a Nelrak-1 address in translated code, until Jasper has found it (R402). -/
def computedLane (q : Gang) (_ : Nat) (l : Lane) : Lane := if q.nelrak.isSome then { l with wait := some .midway } else l

/-- A lane that a register has sent into a function, with its link (R111, R402). -/
def linkComputed (q : Gang) (k : Nat) (l : Lane) : Lane := computedLane q k (linkLane q k l)

/-- A branch to one target for all executing lanes; ALIGN if it is a misaligned literal (R34, R109). -/
def goTo (h : Hdr) (n : Nat) (s : State) (target : PC → PC) (f : Gang → Nat → Lane → Lane) : Out :=
  issued h n s fun q =>
    let t := target q.pc
    if badTarget 64 t && n ≠ 1 && q.exec ≠ 0 then trapGang q s Code.align 0 q.exec
    else branchTo q h.sw s (cycleOf s q.wk) (fun _ => t) (f q)

/-- A branch whose guard must be the same in every lane of the gang (R109). -/
def goToUniform (h : Hdr) (n : Nat) (s : State) (target : PC → PC) : Out :=
  issued h n s fun q =>
    if q.exec ≠ 0 && q.exec ≠ q.mask then
      let differ := if bitAt q.exec (lowest q.mask) then q.mask &&& ~~~q.exec else q.exec
      trapGang q s Code.uniform 0 differ
    else goTo h n s target fun _ _ l => l

/-- A branch to a target of each lane's own; `top` bounds the bits that must be 0 (R111). A misaligned target is found before a full
stack (R93), which is the model's choice (log 95). -/
def goEach (h : Hdr) (s : State) (top : Nat) (target : Gang → Nat → PC) (f : Gang → Nat → Lane → Lane) : Out :=
  issued h 1 s fun q =>
    let bad := q.failing fun i _ => badTarget top (target q i)
    if bad ≠ 0 then trapGang q s Code.align 0 bad
    else branchTo q h.sw s (cycleOf s q.wk) (target q) (f q)

/-- NOP (R114). -/
def execNop (h : Hdr) (s : State) : Out := laneOp h 1 s fun _ l => l

/-- BRA (R109). -/
def execBra (h : Hdr) (off : BitVec 18) (s : State) : Out := goTo h 1 s (fun pc => branchAt pc off) fun _ _ l => l

/-- BRA to a literal (R34, R109). -/
def execBraLit (h : Hdr) (target : DWord) (s : State) : Out := goTo h 3 s (fun _ => target) fun _ _ l => l

/-- BRU (R109). -/
def execBru (h : Hdr) (off : BitVec 18) (s : State) : Out := goToUniform h 1 s fun pc => branchAt pc off

/-- BRU to a literal (R34, R109). -/
def execBruLit (h : Hdr) (target : DWord) (s : State) : Out := goToUniform h 3 s fun _ => target

/-- CALL (R110). -/
def execCall (h : Hdr) (off : BitVec 18) (s : State) : Out := goTo h 1 s (fun pc => branchAt pc off) callLane

/-- CALL to a literal (R34, R110). -/
def execCallLit (h : Hdr) (target : DWord) (s : State) : Out := goTo h 3 s (fun _ => target) callLane

/-- BRX (R111). -/
def execBrx (h : Hdr) (a : BitVec 6) (s : State) : Out :=
  goEach h s 64 (fun q i => (q.lane i).rdW (q.env i) 0 a.toNat) computedLane

/-- CALLX: the target is read before the link is written (R111). -/
def execCallx (h : Hdr) (a : BitVec 6) (s : State) : Out :=
  goEach h s 64 (fun q i => (q.lane i).rdW (q.env i) 0 a.toNat) linkComputed

/-- RET: to the link pair, whose code index may be other than 0 (R111). -/
def execRet (h : Hdr) (s : State) : Out :=
  goEach h s 60 (fun q i => (q.lane i).rdW (q.env i) 0 (q.g - 2)) computedLane

/-- EXIT: a switch point after which each executing lane becomes vacant, at once or when its results are written; the
last lane of a handler to do so lets the warp return (R113, R362). -/
def execExitItem (h : Hdr) (s : State) : Out :=
  issued h 1 s fun q =>
    let w := ((q.w.advance q.pc q.next q.mask).switchPoint q.mask).mapIn q.exec fun _ l => { l with wait := some .exit }
    let free := q.failing fun _ l => !l.busy
    .next (returnTrap (vacateLanes (s.setWarp q.wk w) q.wk free) q.wk).done

/-- YIELD: the arbiter passes over the path for 8 cycles (R114). -/
def execYield (h : Hdr) (s : State) : Out :=
  issued h 1 s fun q => retire q h.sw (q.w.mapIn q.exec fun _ l => { l with yieldTo := cycleOf s q.wk + 8 }) s

/-- RGN (R116). -/
def execRgn (h : Hdr) (s : State) : Out := laneOp h 1 s fun e l => l.setRegion e.next

/-- PLOP: the bit of the truth table at (pa, pb, pc) (R117). -/
def lanePlop (x : Ext) (e : Env) (l : Lane) : Lane :=
  l.wrP x.d.toNat ((x.field 11 8).testBit
    ((l.rdP e 0 x.a.toNat).toNat + 2 * (l.rdP e 1 x.b.toNat).toNat + 4 * (l.rdP e 2 x.c.toNat).toNat))

/-- PLOP (R117). -/
def execPlop (h : Hdr) (x : Ext) (s : State) : Out := laneOp h x.words s (lanePlop x)

/-- The executing lanes whose value of a uniform operand differs from that of the lowest one (R106). -/
def Gang.differing {α : Type} [DecidableEq α] (q : Gang) (val : Nat → α) : Mask :=
  q.failing fun i _ => val i ≠ val q.lead

/-- JSET (R118): the mask is uniform; JOIN_BUSY while lanes are parked at the join. -/
def execJset (h : Hdr) (x : Ext) (s : State) : Out :=
  issued h x.words s fun q =>
    let val (i : Nat) : Mask := if x.bit 11 then q.exec else (q.lane i).rd (q.env i) 0 x.a.toNat
    let j := x.d.toNat
    if q.exec = 0 then retire q h.sw q.w s
    else if q.differing val ≠ 0 then trapGang q s Code.uniform 0 (q.differing val)
    else if q.w.parkedJoin j ≠ 0 then trapGang q s Code.joinBusy 0 q.mask
    else retire q h.sw (q.w.setJoin j { expect := val q.lead &&& q.w.live, arrived := 0 }) s

/-- The executing lanes that a join expects have arrived there, and each executing lane opens a region (R108, R119). -/
def arriveJoin (q : Gang) (j : Nat) : Warp :=
  let a := q.w.join j
  (q.w.setJoin j { a with arrived := a.arrived ||| (q.exec &&& a.expect) }).mapIn q.exec fun _ l => l.setRegion q.next

/-- The executing lanes park at a join and continue after it; the others go on at once (R119). -/
def parkJoin (q : Gang) (sw : Bool) (j : Nat) (w : Warp) (s : State) : Out :=
  let w' := (w.advance q.pc q.next q.mask).parkAt q.exec fun _ => { pc := q.next, why := .join j }
  commit s q.wk (if sw then w'.switchPoint q.mask else w')

/-- JARR (R119). -/
def execJarr (h : Hdr) (x : Ext) (s : State) : Out :=
  issued h x.words s fun q => if q.pending then waitIssue q s else retire q h.sw (arriveJoin q.ended x.d.toNat) s

/-- JWAIT (R119). -/
def execJwait (h : Hdr) (x : Ext) (s : State) : Out :=
  issued h x.words s fun q => parkJoin q h.sw x.d.toNat q.w s

/-- JOIN (R119). -/
def execJoinAt (h : Hdr) (x : Ext) (s : State) : Out :=
  issued h x.words s fun q => if q.pending then waitIssue q s else parkJoin q h.sw x.d.toNat (arriveJoin q.ended x.d.toNat) s

/-- JGET: the masks of the moment of issue (R120). -/
def execJget (h : Hdr) (x : Ext) (s : State) : Out :=
  issued h x.words s fun q =>
    let a := q.w.join x.a.toNat
    retire q h.sw (q.w.mapIn q.exec fun _ l => l.addPend { regs := [(x.d.toNat, if x.bit 11 then a.arrived else a.expect)] }) s

end Sys2Proof.Machine
end

