-- ==== Sys2Proof/Machine/Late.lean ====
section
/-! DEFINITION. Accesses to global memory that have issued and are not performed yet: stores that stay with their lane (R235, R279), and
loads and atomics whose result is still to come (R49, R279). Chapter 11 bounds how long each may stay (log 80). -/

namespace Sys2Proof.Machine

/-- The value that the operation leaves at a location that holds `m`, or none where nothing is written (R258, R259). -/
def AtomOp.apply (o : AtomOp) (m x c : Nat) : Option Nat :=
  let w := 8 * o.n
  let f := if o.n = 8 then Fmt.f64 else Fmt.f32
  let lt (a b : Nat) : Bool := if o.sgn then decide (sextInt w a < sextInt w b) else decide (a < b)
  match o.op with
  | 0 => some (if o.flt then (floatAdd f 0 false m x).1 else (m + x) % 2 ^ w)
  | 1 => some (if o.flt then (minMax f false m x).1 else if lt x m then x else m)
  | 2 => some (if o.flt then (minMax f true m x).1 else if lt m x then x else m)
  | 3 => some (m &&& x)
  | 4 => some (m ||| x)
  | 5 => some (m ^^^ x)
  | 6 => some x
  | _ => if m = c then some x else none

/-- The words that a loaded value of `n` bytes gives from register `d` upward, widened by R67 (R247). -/
def loadRegs (d n : Nat) (sgn : Bool) (bs : List Byte) : List (Nat × Word) :=
  let x := ofBytes bs
  if n ≤ 4 then [(d, if sgn then BitVec.ofInt 32 (sextInt (8 * n) x) else BitVec.ofNat 32 x)]
  else (List.range (n / 4)).map fun k => (d + k, BitVec.ofNat 32 (x / 2 ^ (32 * k)))

namespace LateRead

/-- The pending result of an access that is still to be performed: its destination words, without their values. -/
def waiting (r : LateRead) : Pend := { regs := loadRegs r.d r.n false [], read := some r }

/-- What memory holds after the access: an atomic writes its new value (R258). -/
def effect (m : MemSys) (r : LateRead) : MemSys :=
  match r.rmw with
  | none => m
  | some (o, x, c) =>
    match o.apply (ofBytes (readPieces m r.pieces)) x c with
    | some y => writePieces m r.pieces (bytesOf r.n y)
    | none => m

/-- The access of lane `i` is performed: memory afterwards, and the pending result with its values. A poisoned location is left as it is, and
the destination is undefined (R247, R249, R258). -/
def perform (m : MemSys) (i : Nat) (r : LateRead) (p : Pend) : Pend × MemSys :=
  if piecesPoisoned m r.pieces then
    ({ p with regs := (loadRegs r.d r.n false []).map (fun w => (w.1, Config.anyWord r.id i w.1)), raise := some r.raise, read := none }, m)
  else ({ p with regs := loadRegs r.d r.n r.sgn (readPieces m r.pieces), read := none }, r.effect m)

/-- The pending result of an access that is performed as it issues, and memory afterwards. -/
def now (m : MemSys) (i : Nat) (r : LateRead) : Pend × MemSys := r.perform m i {}

end LateRead

/-- The late reads of a lane, in the order in which they issued. -/
def Lane.reads (l : Lane) : List LateRead := l.pend.filterMap fun p => p.read

/-- Perform those late reads of lane `i` that `sel` accepts. -/
def performPends (m : MemSys) (i : Nat) (sel : LateRead → Bool) (l : List Pend) : List Pend × MemSys :=
  match l with
  | [] => ([], m)
  | p :: t =>
    let x : Pend × MemSys := match p.read with
      | some r => if sel r then r.perform m i p else (p, m)
      | none => (p, m)
    let y := performPends x.2 i sel t
    (x.1 :: y.1, y.2)

/-- The late reads of a warp, with their lanes. -/
def Warp.reads (w : Warp) : List (Nat × LateRead) := (List.range 32).flatMap fun i => (w.lane i).reads.map fun r => (i, r)

/-- A late read is performed when `sel` accepts it, and with it every lane's part of the same atomic that names the same location, which the
warp combiner has merged with it (R261). -/
def readGoes (rs : List (Nat × LateRead)) (sel : Nat → LateRead → Bool) (i : Nat) (r : LateRead) : Bool :=
  sel i r || (r.rmw.isSome && rs.any fun x => sel x.1 x.2 && x.2.id = r.id && piecesMeet x.2.pieces r.pieces)

/-- Perform those late reads of a warp that `sel` accepts, its lanes in ascending order (R258, R261). -/
def performReads (s : State) (wk : Nat) (sel : Nat → LateRead → Bool) : State :=
  match s.warp? wk with
  | none => s
  | some w =>
    let rs := w.reads
    if !(rs.any fun x => sel x.1 x.2) then s
    else
      let r := (List.range 32).foldl (fun (a : Warp × MemSys) i =>
        let y := performPends a.2 i (readGoes rs sel i) (w.lane i).pend
        (a.1.modLane i fun l => { l with pend := y.1 }, y.2)) (w, s.mem)
      (s.setMem r.2).setWarp wk r.1

/-- Perform those late stores that `p` accepts. -/
def performStores (s : State) (p : Late → Bool) : State := if s.mem.late.any p then s.setMem (performLate s.mem p) else s

/-- The late accesses of the lanes `m` of a warp are performed, its stores only if `stores`, those to UN pages only if `un` (R235, R254,
R267). -/
def performEarlier (s : State) (wk : Nat) (m : Mask) (stores un : Bool) : State :=
  match s.warp? wk with
  | none => s
  | some w =>
    let s₁ := if stores then performStores s fun a => a.warp = w.uid && bitAt m a.lane && (un || !allUn a.pieces) else s
    performReads s₁ wk fun i r => bitAt m i && (un || !allUn r.pieces)

/-- Every late access of the device is performed. -/
def performAll (s : State) : State := s.warps.foldl (fun s p => performReads s p.1 fun _ _ => true) (performStores s fun _ => true)

/-- An access of these pieces is performed in the program order of its thread: on an SO page, or on an RC page under MM1 (R235, R245). -/
def soLike (s : State) (ctx : Nat) (ps : List Piece) : Bool :=
  ps.any fun p => bitsAt p.leaf 2 2 = 1 || (bitsAt p.leaf 2 2 = 0 && decide ((s.ctxFields ctx).mmMode = 1))

/-- An access of the pieces `xs` comes before a later one of the same thread of the pieces `ys`: a later access never overtakes an earlier one to
the same bytes (R282), nor on SO pages (R235). -/
def keepsOrder (s : State) (ctx : Nat) (xs ys : List Piece) : Bool := piecesMeet xs ys || (soLike s ctx xs && soLike s ctx ys)

/-- The executing lanes' earlier accesses that come before those of the pieces given are performed first (R235, R282). -/
def ownFirst (s : State) (q : Gang) (ctx : Nat) (pieces : Nat → List Piece) : State :=
  let s₁ := performStores s fun a => a.warp = q.w.uid && bitAt q.exec a.lane && keepsOrder s ctx a.pieces (pieces a.lane)
  performReads s₁ q.wk fun i r => bitAt q.exec i && keepsOrder s ctx r.pieces (pieces i)

/-- The executing lanes' late writes to the location of a RED of scope `sc` are performed first where a releasing FENCE of that scope or a wider
one stands between (R267, R282). -/
def fencedFirst (s : State) (q : Gang) (sc : Nat) (pieces : Nat → List Piece) : State :=
  let s₁ := performStores s fun a =>
    a.warp = q.w.uid && bitAt q.exec a.lane && decide (0 < a.fence) && decide (sc ≤ a.fence) && piecesMeet a.pieces (pieces a.lane)
  performReads s₁ q.wk fun i r =>
    r.rmw.isSome && bitAt q.exec i && decide (0 < r.fence) && decide (sc ≤ r.fence) && piecesMeet r.pieces (pieces i)

/-- A releasing FENCE of scope `sc` stands after the accesses of the executing lanes that are still late (R267). -/
def fenceMarks (s : State) (q : Gang) (sc : Nat) : State :=
  match s.warp? q.wk with
  | none => s
  | some w =>
    (s.setMem { s.mem with late := s.mem.late.map fun a =>
      if a.warp = w.uid ∧ bitAt q.exec a.lane = true then { a with fence := max a.fence sc } else a }).setWarp q.wk
      (w.mapIn q.exec fun _ l => { l with pend := l.pend.map fun p => { p with read := p.read.map fun r => { r with fence := max r.fence sc } } })

/-- The byte that a late store is to write at a physical address under a key. -/
def Late.byteAt (a : Late) (pa key : Nat) : Option Byte :=
  ((a.pieces.flatMap fun p => (List.range p.len).map fun k => (p.pa + k, p.key)).zip a.bytes).findSome? fun x => if x.1 = (pa, key) then some x.2 else none

/-- The bytes that a load of the pieces gets from the lane's own late store, the last one that meets it, if that covers the load whole (R279;
log 80). -/
def ownBytes (s : State) (q : Gang) (i : Nat) (ps : List Piece) : Option (List Byte) :=
  let mine := s.mem.late.filter fun a => a.warp = q.w.uid && a.lane = i && piecesMeet a.pieces ps
  match mine.reverse with
  | [] => none
  | a :: _ =>
    let bs := ps.flatMap fun p => (List.range p.len).map fun k => a.byteAt (p.pa + k) p.key
    if bs.all fun b => b.isSome then some (bs.map fun b => b.getD 0) else none

/-- The warp of a gang as its earlier accesses have left it. -/
def Gang.after (q : Gang) (s : State) : Warp := (s.warp? q.wk).getD q.w

end Sys2Proof.Machine
end

