-- ==== Sys2Proof/Machine/LoadStore.lean ====
section
/-! DEFINITION. Loads and stores of global memory and scratchpad, tag instructions and prefetch (R223-R252). -/

namespace Sys2Proof.Machine

/-- Bytes of a size code: 32, 8, 16, 64, 128 bits (R246). -/
def sizeOf (code : Nat) : Nat :=
  match code with
  | 1 => 1
  | 2 => 2
  | 3 => 8
  | 4 => 16
  | _ => 4

/-- What an access to global memory meets in one lane: the cause of R249 steps 3 and 4 with the address that fails, or
none (R223). Of an access on two pages the first piece that fails decides (R236), which is the model's choice where the second would fail
an earlier step (log 98). -/
def faultAt (s : State) (ctx : Nat) (ea : DWord) (n i : Nat) (acc : Access) : Option (Nat × DWord) :=
  if ea.toNat ≥ 2 ^ 57 then some (Code.pageFault, ea)
  else if ea.toNat + n > 2 ^ 57 then some (Code.pageFault, ea + BitVec.ofNat 64 (n - 1))
  else (pagePieces (n / 65536 + 2) ea.toNat n).findSome? fun p =>
    match translate s ctx p.1 p.2 i acc with
    | .fault c => some (c, BitVec.ofNat 64 p.1)
    | .ok _ => none

/-- The cause that an instruction takes of those that its lanes meet: the lowest code, with its lanes and an address. -/
def laneFault (q : Gang) (f : Nat → Option (Nat × DWord)) : Option (Nat × Mask × DWord) :=
  let cs := (lanesOf q.exec).filterMap fun i => (f i).map fun c => (i, c)
  match cs.map fun c => c.2.1 with
  | [] => none
  | k :: ks =>
    let code := ks.foldl min k
    let mine := cs.filter fun c => c.2.1 = code
    some (code, mine.foldl (fun m c => m ||| laneBit c.1) 0, (mine.head?.map fun c => c.2.2).getD 0)

/-- The access whose fault Jasper has been told of. -/
def Asked.access (a : Asked) : Access := if a.store then .store else .load

/-- A fault of a unit stands: the access still meets it. -/
def Asked.stands (s : State) (a : Asked) : Bool :=
  ((faultAt s a.ctx (BitVec.ofNat 64 a.va) 1 0 a.access).map (·.1)) = some a.code

/-- Jasper forgets the faults that do not stand any more. -/
def dropAsked (s : State) : State := if s.hub.asked = [] then s else s.modHub fun h => { h with asked := h.asked.filter (Asked.stands s) }

/-- Jasper of the die, or of die 0 for the hub, is told of a fault of a unit that it has not been told of, as a numbered event (R24, R242). -/
def tellAsked (s : State) (a : Asked) : State :=
  let (n, s₁) := s.number a.arb
  (s₁.modHub fun h => { h with asked := a :: h.asked }).notify (if a.arb < 4 then a.arb else 0) (.unitFault n a.code a.ctx (BitVec.ofNat 64 a.va))

/-- What becomes of a fault of a copy engine, the hub or a loader: Jasper is told of it first, and then resolves it, which delays the access, or
cannot. An OWNERSHIP on a page that is not pinned may bring the page over, and whether another fault is resolved later is a free choice (R242,
R313, R417). An address with one of bits 57 to 63 set is not tried (R223). `i` tells the choices of one step apart. -/
def resolve (s : State) (a : Asked) (i : Nat) : Option State :=
  if a.va ≥ 2 ^ 57 then none
  else if !s.hub.asked.contains a then some (tellAsked s a)
  else if (a.code = Code.ownership && pinnedPage s a.ctx a.va) || Config.anyBool s.free i then none
  else some (if a.code = Code.ownership then setOwner s a.ctx a.va false else s)

/-- The translated pieces of an access that meets no fault. -/
def piecesAt (s : State) (ctx : Nat) (ea : DWord) (n i : Nat) (acc : Access) : List Piece :=
  match translateRange s ctx ea.toNat n i acc with
  | .ok ps => ps
  | .fault _ => []

/-- The TLBs hold what the lanes' accesses used (R239). -/
def cacheLanes (s : State) (ctx : Nat) (m : Mask) (pieces : Nat → List Piece) : State :=
  s.setMem (cacheEntries s.mem ctx ((lanesOf m).flatMap pieces))

/-- The bytes of the data register or run that a store writes (R247). -/
def storeBytes (l : Lane) (e : Env) (d n : Nat) : List Byte :=
  if n ≤ 4 then bytesOf n (l.rd e 20 d).toNat
  else (List.range (n / 4)).flatMap fun k => bytesOf 4 (l.rd e (20 + k) (d + k)).toNat

/-- One load or store: the data register, its size in bytes, and its address in each lane. -/
structure MemUse where
  d : Nat
  n : Nat
  sgn : Bool
  /-- An acquire or release access must be aligned (R236). -/
  ordered : Bool
  /-- Cluster address (R225). -/
  cl : Bool
  ea : Env → Lane → DWord

/-- The read that a global load or atomic performs in one lane, with the trap of a poisoned line (R247, R249, R258). -/
def readOf (ps : List Piece) (u : MemUse) (e : Env) (rmw : Option (AtomOp × Nat × Nat)) : LateRead :=
  { id := e.free, pieces := ps, d := u.d, n := u.n, sgn := u.sgn, rmw := rmw, raise := { code := Code.poison, sub := 0, pc := e.pc, cont := e.next } }

/-- A load may be performed after later accesses of its lane: any from UN pages, and one without ordering, but for RC pages under MM2, where it
acquires (R235, R245, R279; log 80). -/
def mayWait (s : State) (ctx : Nat) (u : MemUse) (ps : List Piece) : Bool :=
  allUn ps || (!u.ordered && !(decide ((s.ctxFields ctx).mmMode = 2) && ps.any fun p => bitsAt p.leaf 2 2 = 0))

/-- A global load in one lane: its pending result, POISON included, if it is performed as it issues, and else what waits to be performed
(R247, R249, R279). -/
def loadPend (s : State) (ctx : Nat) (ps : List Piece) (u : MemUse) (e : Env) : Pend :=
  let r := readOf ps u e none
  if mayWait s ctx u ps && Config.lingers e.free (32 + e.lane) then r.waiting else (r.now s.mem e.lane).1

/-- What a load gets from the lane's own late store, which then stays late: by a free choice, where no order of SO pages forbids it (R279, R285;
log 80). -/
def forwarded (s : State) (q : Gang) (ctx i : Nat) (ps : List Piece) : Option (List Byte) :=
  (ownBytes s q i ps).filter fun _ => !soLike s ctx ps && Config.lingers q.free (96 + i)

/-- The lanes whose address is not a multiple of the size. -/
def misaligned (q : Gang) (u : MemUse) : Mask := q.failing fun i l => (u.ea (q.env i) l).toNat % u.n ≠ 0

/-- LD (R247, R249). -/
def loadGlobal (h : Hdr) (n : Nat) (s : State) (u : MemUse) : Out :=
  issued h n s fun q =>
    let ctx := s.ctxOf q.w
    if u.ordered && misaligned q u ≠ 0 then trapGang q s Code.align 0 (misaligned q u)
    else
      match laneFault q fun i => faultAt s ctx (u.ea (q.env i) (q.lane i)) u.n i .load with
      | some (code, m, va) => askJasper q s code Access.load.sub m va
      | none =>
        let ps (i : Nat) : List Piece := piecesAt s ctx (u.ea (q.env i) (q.lane i)) u.n i .load
        let own (i : Nat) : Option (List Byte) := forwarded s q ctx i (ps i)
        let s₁ := ownFirst s q ctx fun i => if (own i).isSome then [] else ps i
        retire q h.sw ((q.after s₁).mapIn q.exec fun i l => l.addPend (match own i with
          | some bs => { regs := loadRegs u.d u.n u.sgn bs }
          | none => loadPend s₁ ctx (ps i) u (q.env i))) (cacheLanes s₁ ctx q.exec ps)

/-- A store may stay with its lane for a while, but for one to a poisoned line (R235, R279, R282; log 80). -/
def mayLinger (s : State) (ps : List Piece) : Bool := !piecesPoisoned s.mem ps

/-- A store that is a release, by its ordering or on an RC page under MM2, comes after the lane's earlier accesses (R235, R245, R254). -/
def releases (s : State) (ctx : Nat) (u : MemUse) (ps : List Piece) : Bool :=
  !allUn ps && (u.ordered || (decide ((s.ctxFields ctx).mmMode = 2) && ps.any fun p => bitsAt p.leaf 2 2 = 0))

/-- The pieces of a lane's store (R248). -/
def storePieces (u : MemUse) (q : Gang) (ctx : Nat) (s : State) (i : Nat) : List Piece :=
  piecesAt s ctx (u.ea (q.env i) (q.lane i)) u.n i .store

/-- The store of one lane, as it stays with the lane. -/
def lateStore (u : MemUse) (q : Gang) (ctx : Nat) (s : State) (i : Nat) : Late :=
  { id := q.free, warp := q.w.uid, lane := i, pieces := storePieces u q ctx s i, bytes := storeBytes (q.lane i) (q.env i) u.d u.n }

/-- The executing lanes whose stores are performed as the instruction issues, and those whose stores stay late: one that may linger does by a
free choice, unless that of a higher lane to the same bytes is performed now (R248, R279). -/
def storeSplit (u : MemUse) (q : Gang) (ctx : Nat) (s : State) : List Nat × List Nat :=
  let ps := storePieces u q ctx s
  (lanesOf q.exec).foldr (fun i (r : List Nat × List Nat) =>
    if mayLinger s (ps i) && Config.lingers q.free i && !(r.1.any fun j => piecesMeet (ps j) (ps i)) then (r.1, i :: r.2)
    else (i :: r.1, r.2)) ([], [])

/-- Memory after the stores of the lanes, in ascending order (R248). -/
def storeAll (u : MemUse) (q : Gang) (ctx : Nat) (s : State) (m : MemSys) : MemSys :=
  let r := storeSplit u q ctx s
  let m' := r.1.foldl (fun m i => writePieces m (lateStore u q ctx s i).pieces (lateStore u q ctx s i).bytes) m
  { m' with late := m'.late ++ r.2.map (lateStore u q ctx s) }

/-- The pieces of a lane's store that translate, although some other part of the instruction faults (R241). -/
def partPieces (u : MemUse) (q : Gang) (ctx : Nat) (s : State) (i : Nat) : List Piece :=
  let ea := (u.ea (q.env i) (q.lane i)).toNat
  let parts := if ea + u.n > 2 ^ 57 then [] else pagePieces 2 ea u.n
  parts.filterMap fun p => match translate s ctx p.1 p.2 i .store with
    | .fault _ => none
    | .ok x => some x

/-- A store of which some part faults performs any of the pieces that translate (R241). -/
def storeSome (u : MemUse) (q : Gang) (ctx : Nat) (s₀ : State) (s : State) (i : Nat) : State :=
  let bs := storeBytes (q.lane i) (q.env i) u.d u.n
  let ea := (u.ea (q.env i) (q.lane i)).toNat
  (mapFrom (fun k p => (k, p)) 0 (partPieces u q ctx s₀ i)).foldl (fun s kp =>
    if Config.anyBool q.free (2 * i + kp.1) then
      s.setMem (physWrite s.mem kp.2.key kp.2.pa ((bs.drop (kp.2.va - ea)).take kp.2.len)) else s) s

/-- What is performed before a store of the pieces `ps`: the lanes' earlier accesses to the same bytes, and all of them before a release (R254,
R282). -/
def storeFirst (s : State) (q : Gang) (ctx : Nat) (u : MemUse) (ps : Nat → List Piece) : State :=
  performEarlier (ownFirst s q ctx ps) q.wk (q.failing fun i _ => releases s ctx u (ps i)) true false

/-- ST (R247-R249). -/
def storeGlobal (h : Hdr) (n : Nat) (s : State) (u : MemUse) : Out :=
  issued h n s fun q =>
    let ctx := s.ctxOf q.w
    if u.ordered && misaligned q u ≠ 0 then trapGang q s Code.align 0 (misaligned q u)
    else
      match laneFault q fun i => faultAt s ctx (u.ea (q.env i) (q.lane i)) u.n i .store with
      | some (code, m, va) => askJasper q ((lanesOf q.exec).foldl (storeSome u q ctx s) (storeFirst s q ctx u (partPieces u q ctx s))) code Access.store.sub m va
      | none =>
        let ps := storePieces u q ctx s
        let s₀ := storeFirst s q ctx u ps
        let s₁ := cacheLanes s₀ ctx q.exec ps
        retire q h.sw (q.after s₀) (s₁.setMem (unpoisonAll (storeAll u q ctx s s₁.mem) ((lanesOf q.exec).flatMap ps)))

/-- Workgroup and offset of a lane's scratchpad access, or none for SCRATCH_BOUNDS (R224, R225). -/
def padTarget (s : State) (q : Gang) (u : MemUse) (i : Nat) : Option (Nat × Nat) :=
  scratchTarget s q.w.wg u.cl (lo32 (u.ea (q.env i) (q.lane i))) u.n

/-- The part of the scratchpad that a lane's access covers. -/
def padUse (s : State) (q : Gang) (u : MemUse) (i : Nat) : List ScratchUse :=
  match padTarget s q u i with
  | some (g, off) => [{ wg := g, off := off, len := u.n }]
  | none => []

/-- The checks of R249 steps 1 and 2 on a scratchpad access, and then `f`. -/
def padChecked (h : Hdr) (n : Nat) (s : State) (u : MemUse) (f : Gang → Out) : Out :=
  issued h n s fun q =>
    let outside := q.failing fun i _ => (padTarget s q u i).isNone
    if misaligned q u ≠ 0 then trapGang q s Code.align 0 (misaligned q u)
    else if outside ≠ 0 then trapGang q s Code.scratchBounds 0 outside
    else f q

/-- The bytes of a lane's scratchpad access. -/
def padBytes (s : State) (q : Gang) (u : MemUse) (i : Nat) : List Byte :=
  match padTarget s q u i with
  | some (g, off) => ((s.wg? g).map fun wg => scratchRead g wg off u.n).getD []
  | none => []

/-- LDS (R247, R226). -/
def loadPad (h : Hdr) (n : Nat) (s : State) (u : MemUse) : Out :=
  padChecked h n s u fun q =>
    let ue := ueLanes s q.exec (padUse s q u)
    let s' := fixReads s q.exec (padUse s q u)
    if ue ≠ 0 then retireUe q h.sw false ue s'
    else retire q h.sw (q.w.mapIn q.exec fun i l => l.addPend { regs := loadRegs u.d u.n u.sgn (padBytes s q u i) }) s'

/-- The scratchpad store of one lane (R248). -/
def padStore (u : MemUse) (q : Gang) (s₀ : State) (s : State) (i : Nat) : State :=
  match padTarget s₀ q u i with
  | some (g, off) => putScratch s g off (storeBytes (q.lane i) (q.env i) u.d u.n)
  | none => s

/-- STS: a store of 8 or 16 bits reads the bank word and merges (R226, R227, R247). -/
def storePad (h : Hdr) (n : Nat) (s : State) (u : MemUse) : Out :=
  padChecked h n s u fun q =>
    let reads (i : Nat) : List ScratchUse := if u.n < 4 then padUse s q u i else []
    let ue := ueLanes s q.exec reads
    let s' := fixReads s q.exec reads
    if ue ≠ 0 then retireUe q h.sw false ue s'
    else retire q h.sw q.w ((lanesOf q.exec).foldl (padStore u q s) s')

/-- Address of a global base form: wa + 4n (R246). -/
def baseEa (a i : BitVec 6) (e : Env) (l : Lane) : DWord := l.rdW e 0 a.toNat + BitVec.ofInt 64 (4 * simm 6 i.toNat)

/-- Address of a scratchpad base form: va + 4n modulo 2^32. -/
def basePad (a i : BitVec 6) (e : Env) (l : Lane) : DWord :=
  (l.rd e 0 a.toNat + BitVec.ofInt 32 (4 * simm 6 i.toNat)).setWidth 64

/-- Address of an extended global form: wa + sext64(vb) with xr + off12 (R247). -/
def extEa (x : Ext) (e : Env) (l : Lane) : DWord :=
  l.rdW e 0 x.a.toNat + (if x.bit 19 then (l.rd e 2 x.b.toNat).signExtend 64 else 0) + BitVec.ofInt 64 (simm 12 (x.field 20 12))

/-- Address of an extended scratchpad form, modulo 2^32. -/
def extPad (x : Ext) (e : Env) (l : Lane) : DWord :=
  (l.rd e 0 x.a.toNat + (if x.bit 19 then l.rd e 2 x.b.toNat else 0) + BitVec.ofInt 32 (simm 12 (x.field 20 12))).setWidth 64

/-- A base form: 32 bits, relaxed (R246). -/
def baseUse (d : BitVec 6) (ea : Env → Lane → DWord) : MemUse := { d := d.toNat, n := 4, sgn := false, ordered := false, cl := false, ea := ea }

/-- An extended form (R246). -/
def extUse (x : Ext) (pad : Bool) : MemUse :=
  { d := x.d.toNat, n := sizeOf (x.field 11 3), sgn := x.bit 14, ordered := x.field 15 2 ≠ 0, cl := pad && x.bit 17
    ea := if pad then extPad x else extEa x }

/-- LD, base form (R247). -/
def execLd (h : Hdr) (d a i : BitVec 6) (s : State) : Out := loadGlobal h 1 s (baseUse d (baseEa a i))

/-- LD, extended form (R247). -/
def execLdExt (h : Hdr) (x : Ext) (s : State) : Out := loadGlobal h x.words s (extUse x false)

/-- ST, base form (R247). -/
def execSt (h : Hdr) (d a i : BitVec 6) (s : State) : Out := storeGlobal h 1 s (baseUse d (baseEa a i))

/-- ST, extended form (R247). -/
def execStExt (h : Hdr) (x : Ext) (s : State) : Out := storeGlobal h x.words s (extUse x false)

/-- LDS, base form (R247). -/
def execLds (h : Hdr) (d a i : BitVec 6) (s : State) : Out := loadPad h 1 s (baseUse d (basePad a i))

/-- LDS, extended form (R247). -/
def execLdsExt (h : Hdr) (x : Ext) (s : State) : Out := loadPad h x.words s (extUse x true)

/-- STS, base form (R247). -/
def execSts (h : Hdr) (d a i : BitVec 6) (s : State) : Out := storePad h 1 s (baseUse d (basePad a i))

/-- STS, extended form (R247). -/
def execStsExt (h : Hdr) (x : Ext) (s : State) : Out := storePad h x.words s (extUse x true)

-- The tag region (R228-R231).

/-- The key that is never held, and that we receives for none (R229, R251). -/
def noKey : DWord := 0xFFFFFFFFFFFFFFFF

/-- The miss code (R251). -/
def missCode : Word := 0xFFFFFFFF

/-- The slot that holds a key (R229). -/
def tagFind (g : Workgroup) (key : DWord) : Option Nat :=
  if key = noKey then none else (List.range g.tags.length).find? fun k => let t := g.tags.getD k {}; t.valid && t.key == key

/-- Make a slot the most recently used, after a change of it (R230). -/
def tagTouch (g : Workgroup) (k : Nat) (f : TagSlot → TagSlot) : Workgroup :=
  { g with stamp := g.stamp + 1, tags := setAt g.tags k { f (g.tags.getD k {}) with stamp := g.stamp + 1 } }

/-- The victim of an install (R230): the lowest invalid slot, else the least recently used one whose pin is clear. -/
def tagVictim (g : Workgroup) : Option Nat :=
  match (List.range g.tags.length).find? fun k => !(g.tags.getD k {}).valid with
  | some k => some k
  | none => (List.range g.tags.length).foldl (fun r k =>
      if (g.tags.getD k {}).pin then r
      else match r with
        | none => some k
        | some j => if (g.tags.getD k {}).stamp < (g.tags.getD j {}).stamp then some k else r) none

/-- The slot word of slot `k` (R251). -/
def slotWord (hd : Header) (adr : Bool) (k : Nat) : Word :=
  if adr then hd.tagBase + BitVec.ofNat 32 (k * 2 ^ hd.tagLog) else BitVec.ofNat 32 k

/-- What a tag instruction answers in one lane: vd and we. -/
abbrev TagAnswer := Word × DWord

/-- TAGL (R251). -/
def taglLane (hd : Header) (adr : Bool) (key : DWord) (g : Workgroup) : TagAnswer × Workgroup :=
  match tagFind g key with
  | some k => ((slotWord hd adr k, noKey), tagTouch g k id)
  | none => ((missCode, noKey), g)

/-- TAGI (R251). -/
def tagiLane (hd : Header) (adr pin : Bool) (key : DWord) (g : Workgroup) : TagAnswer × Workgroup :=
  match tagFind g key with
  | some k => ((slotWord hd adr k ||| 0x40000000, noKey), tagTouch g k fun t => { t with pin := t.pin || pin })
  | none =>
    if key = noKey then ((missCode, noKey), g)
    else
      match tagVictim g with
      | none => ((missCode, noKey), g)
      | some k =>
        let t := g.tags.getD k {}
        ((slotWord hd adr k, if t.valid then t.key else noKey), tagTouch g k fun _ => { valid := true, key := key, pin := pin })

/-- TAGE (R251), on the slot that a key or a number names. -/
def tageLane (hd : Header) (unpin : Bool) (slot : Option Nat) (g : Workgroup) : TagAnswer × Workgroup :=
  match slot with
  | none => ((missCode, noKey), g)
  | some k =>
    let t := g.tags.getD k {}
    if !t.valid then ((missCode, noKey), g)
    else ((slotWord hd false k, t.key), { g with tags := setAt g.tags k (if unpin then { t with pin := false } else {}) })

/-- A tag instruction: the lanes take effect in ascending order, and their answers are pending (R230, R251). `we` says
whether c8 receives a key. -/
def tagOp (h : Hdr) (x : Ext) (s : State) (we : Bool) (f : Header → Env → Lane → Workgroup → TagAnswer × Workgroup) : Out :=
  issued h x.words s fun q =>
    let hd := (s.launchOfWarp q.w).hdr
    let r := (lanesOf q.exec).foldl (fun (r : FMap TagAnswer × Workgroup) i =>
      let y := f hd (q.env i) (q.lane i) r.2
      (fset r.1 i y.1, y.2)) ([], s.wgOf q.w)
    retire q h.sw (q.w.mapIn q.exec fun i l =>
      let y := fgetD r.1 i (missCode, noKey)
      let c := x.c.toNat
      l.addPend { regs := (x.d.toNat, y.1) :: if we then [(c, lo32 y.2), (c + 1, hi32 y.2)] else [] })
      (s.modWg q.w.wg fun _ => r.2)

/-- TAGL (R251). -/
def execTagl (h : Hdr) (x : Ext) (s : State) : Out :=
  tagOp h x s false fun hd e l g => taglLane hd (x.bit 11) (l.rdW e 0 x.a.toNat) g

/-- TAGI (R251). -/
def execTagi (h : Hdr) (x : Ext) (s : State) : Out :=
  tagOp h x s true fun hd e l g => tagiLane hd (x.bit 11) (x.bit 12) (l.rdW e 0 x.a.toNat) g

/-- TAGE (R251). -/
def execTage (h : Hdr) (x : Ext) (s : State) : Out :=
  tagOp h x s true fun hd e l g =>
    let k := (l.rd e 0 x.a.toNat).toNat
    tageLane hd (x.bit 12) (if x.bit 11 then (if k < g.tags.length then some k else none) else tagFind g (l.rdW e 0 x.a.toNat)) g

/-- Bytes that PREF covers, by span code (R252). -/
def prefSpan (code : Nat) : Nat :=
  match code with
  | 0 => 64
  | 1 => 256
  | 2 => 1024
  | 3 => 4096
  | _ => 65536

/-- The pages that a prefetch by lane `i` may leave in the TLBs (R252): of each page that translates, its entry or nothing. -/
def prefPieces (s : State) (ctx : Nat) (ea : DWord) (n i : Nat) : List Piece :=
  (mapFrom (fun k p => (k, p)) 0 (pagePieces 3 ea.toNat n)).flatMap fun kp =>
    match translate s ctx kp.2.1 kp.2.2 i .load with
    | .ok p => if Config.anyBool s.free (4 * i + kp.1) then [p] else []
    | .fault _ => []

/-- PREF: no access; it may fill TLBs (R252). -/
def execPref (h : Hdr) (x : Ext) (s : State) : Out :=
  issued h x.words s fun q =>
    let ctx := s.ctxOf q.w
    retire q h.sw q.w (cacheLanes s ctx q.exec fun i => prefPieces s ctx (extEa x (q.env i) (q.lane i)) (prefSpan (x.field 11 3)) i)

end Sys2Proof.Machine
end

