-- ==== Sys2Proof/Machine/Atomics.lean ====
section
/-! DEFINITION. Atomics, far reductions and fences (R253-R267). -/

namespace Sys2Proof.Machine

/-- The operation that an encoding names (R256). -/
def atomOf (op : Nat) (x : Ext) : AtomOp := { op := op, n := sizeOf (x.field 11 3), sgn := x.bit 14, flt := x.bit 18 }

/-- Low bytes of vb, or of the literal (R256, R258). -/
def atomVal (x : Ext) (n : Nat) (e : Env) (l : Lane) : Nat :=
  (if n = 8 then (opBW l e 4 x).toNat else (opB l e 4 x).toNat) % 2 ^ (8 * n)

/-- Low bytes of vc, or of the literal. -/
def atomCmp (x : Ext) (n : Nat) (e : Env) (l : Lane) : Nat :=
  (if n = 8 then (opCW l e 6 x).toNat else (opC l e 6 x).toNat) % 2 ^ (8 * n)

/-- The access of an ATOM or a RED: wa + off11 (R256). -/
def atomUse (x : Ext) : MemUse :=
  { d := x.d.toNat, n := sizeOf (x.field 11 3), sgn := x.bit 14, ordered := true, cl := false
    ea := fun e l => l.rdW e 0 x.a.toNat + BitVec.ofInt 64 (simm 11 (x.field 20 11)) }

/-- The access of an ATOMS: va + off11 (R256). -/
def atomsUse (x : Ext) : MemUse :=
  { d := x.d.toNat, n := sizeOf (x.field 11 3), sgn := x.bit 14, ordered := true, cl := x.bit 17
    ea := fun e l => (l.rd e 0 x.a.toNat + BitVec.ofInt 32 (simm 11 (x.field 20 11))).setWidth 64 }

/-- The executing lanes open a region at the next instruction (R108). -/
def openRegion (q : Gang) (w : Warp) : Warp := w.mapIn q.exec fun _ l => l.setRegion q.next

/-- The checks of R260 on a global atomic access, in every lane before anything is performed, and then `f`. -/
def atomChecked (h : Hdr) (x : Ext) (s : State) (u : MemUse) (f : Gang → Nat → Out) : Out :=
  issued h x.words s fun q =>
    let ctx := s.ctxOf q.w
    if misaligned q u ≠ 0 then trapGang q s Code.align 0 (misaligned q u)
    else
      match laneFault q fun i => faultAt s ctx (u.ea (q.env i) (q.lane i)) u.n i .store with
      | some (code, m, va) => askJasper q s code Access.store.sub m va
      | none => f q ctx

/-- The pieces of a lane's ATOM. -/
def atomPieces (u : MemUse) (q : Gang) (ctx : Nat) (s : State) (i : Nat) : List Piece :=
  piecesAt s ctx (u.ea (q.env i) (q.lane i)) u.n i .store

/-- The ordering of an ATOM: whether it acquires, and whether it releases (R253, R254). -/
def acquires (x : Ext) : Bool := x.field 15 2 = 1 || x.field 15 2 = 3
def releasing (x : Ext) : Bool := 2 ≤ x.field 15 2

/-- An ATOM may be performed after later accesses of its lane: one that acquires nothing, and any at UN pages (R235, R279; log 80). -/
def mayDefer (x : Ext) (ps : List Piece) : Bool := allUn ps || !acquires x

/-- The lowest executing lane whose ATOM names the location of lane `i` (R261). -/
def atomLead (q : Gang) (pieces : Nat → List Piece) (i : Nat) : Nat :=
  ((lanesOf q.exec).find? fun j => piecesMeet (pieces j) (pieces i)).getD i

/-- One lane of an ATOM: memory and the lane's pending result. All the lanes that name one location are performed together, now or later
(R258, R261, R279). -/
def atomLane (o : AtomOp) (x : Ext) (u : MemUse) (q : Gang) (ctx : Nat) (s₀ : State) (r : FMap Pend × MemSys) (i : Nat) :
    FMap Pend × MemSys :=
  let e := q.env i
  let l := q.lane i
  let ps := atomPieces u q ctx s₀
  let y := readOf (ps i) u e (some (o, atomVal x u.n e l, atomCmp x u.n e l))
  if mayDefer x (ps i) && Config.lingers q.free (64 + atomLead q ps i) then (fset r.1 i y.waiting, r.2)
  else (fset r.1 i (y.now r.2 i).1, (y.now r.2 i).2)

/-- ATOM with operation `op`: the lanes apply in ascending order (R258-R261), after the lanes' earlier accesses to the same bytes, and, if it
releases, after all of them (R254, R282). -/
def atomOp (op : Nat) (h : Hdr) (x : Ext) (s : State) : Out :=
  atomChecked h x s (atomUse x) fun q ctx =>
    let u := atomUse x
    let ps := atomPieces u q ctx s
    let s₀ := performEarlier (ownFirst s q ctx ps) q.wk (q.failing fun i _ => releasing x && !allUn (ps i)) true false
    let s' := cacheLanes s₀ ctx q.exec ps
    let r := (lanesOf q.exec).foldl (atomLane (atomOf op x) x u q ctx s) ([], s'.mem)
    retire q h.sw (openRegion q ((q.after s₀).mapIn q.exec fun i l => l.addPend (fgetD r.1 i {}))) (s'.setMem r.2)

/-- ATOM.add (R258). -/
def execAtomAdd (h : Hdr) (x : Ext) (s : State) : Out := atomOp 0 h x s

/-- ATOM.min (R258). -/
def execAtomMin (h : Hdr) (x : Ext) (s : State) : Out := atomOp 1 h x s

/-- ATOM.max (R258). -/
def execAtomMax (h : Hdr) (x : Ext) (s : State) : Out := atomOp 2 h x s

/-- ATOM.and (R258). -/
def execAtomAnd (h : Hdr) (x : Ext) (s : State) : Out := atomOp 3 h x s

/-- ATOM.or (R258). -/
def execAtomOr (h : Hdr) (x : Ext) (s : State) : Out := atomOp 4 h x s

/-- ATOM.xor (R258). -/
def execAtomXor (h : Hdr) (x : Ext) (s : State) : Out := atomOp 5 h x s

/-- ATOM.exch (R258). -/
def execAtomExch (h : Hdr) (x : Ext) (s : State) : Out := atomOp 6 h x s

/-- ATOM.cas (R258). -/
def execAtomCas (h : Hdr) (x : Ext) (s : State) : Out := atomOp 7 h x s

/-- One lane of an ATOMS: the scratchpad and the lane's pending result (R258). -/
def atomsLane (o : AtomOp) (x : Ext) (u : MemUse) (q : Gang) (r : FMap Pend × State) (i : Nat) : FMap Pend × State :=
  let e := q.env i
  let l := q.lane i
  let bs := padBytes r.2 q u i
  (fset r.1 i { regs := loadRegs u.d u.n u.sgn bs },
   match o.apply (ofBytes bs) (atomVal x u.n e l) (atomCmp x u.n e l), padTarget r.2 q u i with
   | some y, some (g, off) => putScratch r.2 g off (bytesOf u.n y)
   | _, _ => r.2)

/-- ATOMS with operation `op` (R258-R261). -/
def atomsOp (op : Nat) (h : Hdr) (x : Ext) (s : State) : Out :=
  padChecked h x.words s (atomsUse x) fun q =>
    let u := atomsUse x
    let ue := ueLanes s q.exec (padUse s q u)
    let s' := fixReads s q.exec (padUse s q u)
    if ue ≠ 0 then retireUe q h.sw false ue s'
    else
      let r := (lanesOf q.exec).foldl (atomsLane (atomOf op x) x u q) ([], s')
      retire q h.sw (openRegion q (q.w.mapIn q.exec fun i l => l.addPend (fgetD r.1 i {}))) r.2

/-- ATOMS.add (R258). -/
def execAtomsAdd (h : Hdr) (x : Ext) (s : State) : Out := atomsOp 0 h x s

/-- ATOMS.min (R258). -/
def execAtomsMin (h : Hdr) (x : Ext) (s : State) : Out := atomsOp 1 h x s

/-- ATOMS.max (R258). -/
def execAtomsMax (h : Hdr) (x : Ext) (s : State) : Out := atomsOp 2 h x s

/-- ATOMS.and (R258). -/
def execAtomsAnd (h : Hdr) (x : Ext) (s : State) : Out := atomsOp 3 h x s

/-- ATOMS.or (R258). -/
def execAtomsOr (h : Hdr) (x : Ext) (s : State) : Out := atomsOp 4 h x s

/-- ATOMS.xor (R258). -/
def execAtomsXor (h : Hdr) (x : Ext) (s : State) : Out := atomsOp 5 h x s

/-- ATOMS.exch (R258). -/
def execAtomsExch (h : Hdr) (x : Ext) (s : State) : Out := atomsOp 6 h x s

/-- ATOMS.cas (R258). -/
def execAtomsCas (h : Hdr) (x : Ext) (s : State) : Out := atomsOp 7 h x s

/-- The combiner's sum of float values, whose order and grouping are not promised; each partial sum is rounded (R265). -/
def combineSums (f : Fmt) (free fuel : Nat) (l : List Nat) : Nat :=
  match fuel, l with
  | fuel + 1, a :: b :: t =>
    let l := a :: b :: t
    let i := Config.combine free (2 * fuel) % l.length
    let l' := dropAt l i
    let j := Config.combine free (2 * fuel + 1) % l'.length
    combineSums f free fuel ((floatAdd f 0 false (l.getD i 0) (l'.getD j 0)).1 :: dropAt l' j)
  | _, l => l.headD 0

/-- The value that the warp combiner sends for the lanes that name one location (R263, R265). -/
def combineRed (o : AtomOp) (free : Nat) (l : List Nat) : Nat :=
  if o.op = 0 && o.flt then combineSums (if o.n = 8 then .f64 else .f32) free l.length l
  else (l.drop 1).foldl (fun a x => (o.apply a x 0).getD a) (l.headD 0)

/-- The arbiter that numbers an event of the near-memory unit of a page (R24, R233): that of the issuing die when the page lies on that
die, else the hub; which stack of an interleaved page holds a line is not given, so that it counts as another die's. -/
def redArbiter (die : Nat) (leaf : DWord) : Nat := if bitAt leaf 10 && bitsAt leaf 11 2 = die then die else 4

/-- The far reductions that a RED sends, one for each location in ascending order of their lowest lanes (R263). -/
def redsOf (o : AtomOp) (x : Ext) (u : MemUse) (q : Gang) (ctx : Nat) (s : State) : List Red :=
  let ea (i : Nat) : Nat := (u.ea (q.env i) (q.lane i)).toNat
  let firsts := (lanesOf q.exec).filter fun i => !((lanesOf q.exec).any fun j => j < i && ea j = ea i)
  firsts.flatMap fun i =>
    let ls := (lanesOf q.exec).filter fun j => ea j = ea i
    (piecesAt s ctx (u.ea (q.env i) (q.lane i)) u.n i .store).map fun p =>
      { launch := (s.wgOf q.w).launch, die := dieOfKey q.wk, wg := q.w.wg, warp := q.w.uid, lanes := ls.foldl (fun m j => m ||| laneBit j) 0
        scope := x.scope.toNat, ctx := ctx, va := ea i, pa := p.pa, key := p.key
        arb := redArbiter (dieOfKey q.wk) p.leaf, op := o.op, size := o.n, signed := o.sgn
        float := o.flt
        val := BitVec.ofNat 64 (combineRed o (q.free + i) (ls.map fun j => atomVal x o.n (q.env j) (q.lane j))) }

/-- RED with operation `op`: the values leave the lanes, which go on (R263), after the writes that a FENCE has put before them (R282). -/
def redOp (op : Nat) (h : Hdr) (x : Ext) (s : State) : Out :=
  atomChecked h x s (atomUse x) fun q ctx =>
    let u := atomUse x
    let s₀ := fencedFirst s q x.scope.toNat (atomPieces u q ctx s)
    let s' := cacheLanes s₀ ctx q.exec (atomPieces u q ctx s)
    retire q h.sw (openRegion q (q.after s₀)) (s'.setMem { s'.mem with reds := s'.mem.reds ++ redsOf (atomOf op x) x u q ctx s })

/-- RED.add (R263). -/
def execRedAdd (h : Hdr) (x : Ext) (s : State) : Out := redOp 0 h x s

/-- RED.min (R263). -/
def execRedMin (h : Hdr) (x : Ext) (s : State) : Out := redOp 1 h x s

/-- RED.max (R263). -/
def execRedMax (h : Hdr) (x : Ext) (s : State) : Out := redOp 2 h x s

/-- RED.and (R263). -/
def execRedAnd (h : Hdr) (x : Ext) (s : State) : Out := redOp 3 h x s

/-- RED.or (R263). -/
def execRedOr (h : Hdr) (x : Ext) (s : State) : Out := redOp 4 h x s

/-- RED.xor (R263). -/
def execRedXor (h : Hdr) (x : Ext) (s : State) : Out := redOp 5 h x s

/-- A containment cause that no warp has met: the launch goes to the task-graph walker, and the event is numbered by an arbiter (R24,
R266, R361). -/
def containLaunch (s : State) (launch arb : Nat) : State := ((s.number arb).2).modLaunch launch fun L => { L with contain := true }

/-- The same of a workgroup. -/
def containWg (s : State) (wg : Nat) : State :=
  match s.wg? wg with
  | none => s
  | some g => containLaunch s g.launch (g.core / 48)

/-- The near-memory unit applies an accepted RED, unless the line is poisoned (R263-R266). -/
def applyRed (s : State) (r : Red) : State :=
  if poisoned s.mem r.pa r.size then containLaunch s r.launch r.arb
  else
    let o : AtomOp := { op := r.op, n := r.size, sgn := r.signed, flt := r.float }
    match o.apply (ofBytes (physRead s.mem r.key r.pa r.size)) r.val.toNat 0 with
    | some y => s.setMem (physWrite s.mem r.key r.pa (bytesOf r.size y))
    | none => s

/-- Apply the accepted REDs that `p` accepts, in order (R240, R243, R295). -/
def performReds (s : State) (p : Red → Bool) : State :=
  (s.mem.reds.filter p).foldl applyRed (s.setMem { s.mem with reds := s.mem.reds.filter fun r => !p r })

/-- A RED may be applied before those that came before it, except that a fence of its thread waits for them (R264). -/
def execRedApply (s : State) : Out :=
  match s.event with
  | some (.redApply k) =>
    match s.mem.reds[k]? with
    | none => onlyIf false s s
    | some r => onlyIf true s (applyRed (s.setMem { s.mem with reds := dropAt s.mem.reds k }) r)
  | _ => .fault .notPosted

/-- The scope that a FENCE or WAITV names in a lane: its field, or bits 0-2 of a register (R255). -/
def scopeOf (x : Ext) (rs : Bool) (reg : Nat) (e : Env) (l : Lane) : Nat := if rs then bitsAt (l.rd e 30 reg) 0 3 else x.scope.toNat

/-- The scope operand of a gang, checked by R255, and then `f`. -/
def scopeChecked (q : Gang) (s : State) (x : Ext) (rs : Bool) (reg top : Nat) (f : Nat → Out) : Out :=
  let val (i : Nat) : Nat := scopeOf x rs reg (q.env i) (q.lane i)
  if q.exec ≠ 0 && rs && q.differing val ≠ 0 then trapGang q s Code.uniform 0 (q.differing val)
  else if q.exec ≠ 0 && rs && (val q.lead = 0 || val q.lead > top) then trapGang q s Code.illegalEnc 0 q.mask
  else f (val q.lead)

/-- Some earlier RED of an executing lane, of scope no wider than `sc`, is not applied yet (R267). -/
def redsBefore (s : State) (q : Gang) (sc : Nat) : Bool :=
  s.mem.reds.any fun r => r.warp = q.w.uid && r.lanes &&& q.exec ≠ 0 && r.scope ≤ sc

/-- The late accesses that a FENCE of scope `sc` performs: before a .rel or .ar one every earlier access of its lanes, before a .acq their
reads; those to UN pages only from scope .dv (R235, R267). -/
def fenceFirst (s : State) (q : Gang) (x : Ext) (sc : Nat) : State := performEarlier s q.wk q.exec (x.field 15 2 ≠ 1) (5 ≤ sc)

/-- What a FENCE of scope `sc` leaves behind: the accesses that it performs, and, if it releases, its mark on those that stay late (R267, R282). -/
def fenced (s : State) (q : Gang) (x : Ext) (sc : Nat) : State :=
  if x.field 15 2 = 1 then fenceFirst s q x sc else fenceMarks (fenceFirst s q x sc) q sc

/-- FENCE (R267): .rel and .ar wait until the lanes' earlier REDs are applied. -/
def execFence (h : Hdr) (x : Ext) (s : State) : Out :=
  issued h x.words s fun q =>
    scopeChecked q s x (x.bit 11) x.a.toNat 6 fun sc =>
      if q.exec ≠ 0 && x.field 15 2 ≠ 1 && redsBefore s q sc then commit s q.wk q.w
      else retire q h.sw (q.after (fenced s q x sc)) (fenced s q x sc)

end Sys2Proof.Machine
end

