-- ==== Sys2Proof/Machine/Sync.lean ====
section
/-! DEFINITION. Barriers, waits on a value, the watchdog and dependence counters (R268-R278). -/

namespace Sys2Proof.Machine

/-- The lane's last arrival on a barrier, if its phase is not complete (R269, R270). -/
def arrivedIn (l : Lane) (cl : Bool) (id phase : Nat) : Bool := fget? l.arrivals (id + if cl then 8 else 0) = some phase

/-- Barrier id of a BAR, and whether it is a cluster barrier (R268). -/
def barId (x : Ext) : Nat := x.field 11 3
def barCl (x : Ext) : Bool := x.scope.toNat = 3

/-- A BAR.cl of a workgroup that belongs to no cluster set raises ILLEGAL_ENC (R272); else `f`. -/
def barChecked (h : Hdr) (x : Ext) (s : State) (f : Gang → Out) : Out :=
  issued h x.words s fun q => if barCl x && (s.wgOf q.w).cset.isNone then trapGang q s Code.illegalEnc 0 q.mask else f q

/-- One lane arrives, or waits to arrive while an earlier arrival of its own is in the phase (R269); `sync` lanes then
wait (R270). -/
def barArriveOne (q : Gang) (x : Ext) (sync : Bool) (s : State) (i : Nat) : State :=
  let cl := barCl x
  let id := barId x
  let ph := (barOf s q.w.wg cl id).phase
  if arrivedIn (q.lane i) cl id ph then
    s.modWarp q.wk fun w => w.modLane i fun l => { l with wait := some (.barNext cl id ph sync q.pc q.next 0) }
  else
    (barArriveLane s q.wk i cl id).modWarp q.wk fun w => w.modLane i fun l =>
      if sync then { l with wait := some (.bar cl id ph true q.pc q.next 0) } else l.setRegion q.next

/-- BAR.arrive and BAR.sync: once their results are written the lanes arrive, and the phase completes if they are the last
(R269, R270). -/
def barArriveAll (h : Hdr) (x : Ext) (s : State) (sync : Bool) : Out :=
  barChecked h x s fun q =>
    if q.pending then waitIssue q s
    else
      let w := q.ended.w.advance q.pc q.next q.mask
      let s₁ := s.setWarp q.wk (if h.sw then w.switchPoint q.mask else w)
      let s₂ := (lanesOf q.exec).foldl (barArriveOne q x sync) s₁
      .next (barSettle 3 s₂ q.w.wg (barCl x) (barId x)).done

/-- BAR.arrive (R270). -/
def execBarArrive (h : Hdr) (x : Ext) (s : State) : Out := barArriveAll h x s false

/-- BAR.sync (R270). -/
def execBarSync (h : Hdr) (x : Ext) (s : State) : Out := barArriveAll h x s true

/-- BAR.wait: a lane whose last arrival is in the current phase waits for its end (R270). -/
def execBarWait (h : Hdr) (x : Ext) (s : State) : Out :=
  barChecked h x s fun q =>
    let cl := barCl x
    let id := barId x
    let ph := (barOf s q.w.wg cl id).phase
    retire q h.sw (q.w.mapIn q.exec fun _ l =>
      if arrivedIn l cl id ph then { l with wait := some (.bar cl id ph false q.pc q.next 0) } else l) s

/-- The access of a WAITV (R273). -/
def waitvUse (x : Ext) : MemUse :=
  { d := x.d.toNat, n := if x.bit 15 then 8 else 4, sgn := false, ordered := true, cl := x.bit 17
    ea := fun e l =>
      if x.bit 16 then (l.rd e 0 x.a.toNat + BitVec.ofInt 32 (simm 11 (x.field 20 11))).setWidth 64
      else l.rdW e 0 x.a.toNat + BitVec.ofInt 64 (simm 11 (x.field 20 11)) }

/-- The operand of a WAITV. -/
def waitvVal (x : Ext) (e : Env) (l : Lane) : DWord :=
  if x.bit 15 then l.rdW e 4 x.b.toNat else (l.rd e 4 x.b.toNat).setWidth 64

/-- The condition of a WAITV on the value read (R273, R274). -/
def waitvHolds (x : Ext) (m v : DWord) : Bool :=
  if x.bit 15 then intCmp (x.field 11 3) (!x.bit 14) m v else intCmp (x.field 11 3) (!x.bit 14) (lo32 m) (lo32 v)

/-- The executing lanes wait at the WAITV, which reads its registers now, and go on when each has left its loop; at a switch point the
others wait with them (R49, R274). -/
def waitvPark (h : Hdr) (x : Ext) (q : Gang) (s : State) : Out :=
  retire q h.sw ((q.after s).mapIn q.mask fun i l =>
    if bitAt q.exec i then { l with wait := some (.waitv x ((waitvUse x).ea (q.env i) (q.lane i)) (waitvVal x (q.env i) (q.lane i)) q.pc q.exec 0) }
    else if h.sw && q.exec ≠ 0 then { l with wait := some (.waitvLeft q.exec) } else l) s

/-- WAITV: the checks of R249, its address as that of an ATOM, and of R255, and then the wait, after the lanes' earlier accesses to the same
bytes (R274, R282). That a fault carries the subcode of a load, which it performs, is the model's reading (log 30). -/
def execWaitv (h : Hdr) (x : Ext) (s : State) : Out :=
  let u := waitvUse x
  issued h x.words s fun q =>
    scopeChecked q s x (x.bit 18) x.c.toNat (if x.bit 16 then 3 else 6) fun _ =>
      let outside := q.failing fun i _ => (padTarget s q u i).isNone
      let ctx := s.ctxOf q.w
      if misaligned q u ≠ 0 then trapGang q s Code.align 0 (misaligned q u)
      else if x.bit 16 then (if outside ≠ 0 then trapGang q s Code.scratchBounds 0 outside else waitvPark h x q s)
      else
        match laneFault q fun i => faultAt s ctx (u.ea (q.env i) (q.lane i)) u.n i .store with
        | some (code, m, va) => askJasper q s code Access.load.sub m va
        | none => waitvPark h x q (ownFirst s q ctx fun i => piecesAt s ctx (u.ea (q.env i) (q.lane i)) u.n i .load)

/-- What one read of a WAITV finds. -/
inductive WaitRead where
  | value (m : DWord)
  /-- A cluster address whose workgroup has retired: SCRATCH_BOUNDS (R225). -/
  | bounds
  /-- A cause that Jasper tries to resolve, and its address. -/
  | jasper (code : Nat) (va : DWord)
  /-- A containment cause. -/
  | lost (code : Nat)

/-- Read the location of a lane that waits at a WAITV, checked as that of an ATOM (R274). -/
def waitvRead (s : State) (w : Warp) (x : Ext) (addr : DWord) (i : Nat) : WaitRead :=
  let n := (waitvUse x).n
  if x.bit 16 then
    match scratchTarget s w.wg (x.bit 17) (lo32 addr) n with
    | none => .bounds
    | some (g, off) =>
      match s.wg? g with
      | none => .bounds
      | some wg => if scratchUe wg off n then .lost Code.scratchUe else .value (BitVec.ofNat 64 (ofBytes (scratchRead g wg off n)))
  else
    let ctx := s.ctxOf w
    match faultAt s ctx addr n i .store with
    | some (code, va) => .jasper code va
    | none =>
      let ps := piecesAt s ctx addr n i .load
      if piecesPoisoned s.mem ps then .lost Code.poison else .value (BitVec.ofNat 64 (ofBytes (readPieces s.mem ps)))

/-- The scratchpad bytes that a WAITV reads in a lane (R226). -/
def waitvReads (s : State) (w : Warp) (x : Ext) (addr : DWord) : List ScratchUse :=
  if x.bit 16 then
    match scratchTarget s w.wg (x.bit 17) (lo32 addr) (waitvUse x).n with
    | some (g, off) => [{ wg := g, off := off, len := (waitvUse x).n }]
    | none => []
  else []

/-- A read of a WAITV finds a single-bit error, which it corrects (R226). -/
def waitvCorrects (s : State) (us : List ScratchUse) : Bool :=
  us.any fun u => ((s.wg? u.wg).map fun g => decide ((scratchFix g u.off u.len).2 ≠ 0)).getD false

/-- The lanes of a gang at a WAITV: those in their loop, and those past it that wait for them (R274). -/
def waitvGang (w : Warp) (pc : PC) (gang : Mask) : Mask :=
  maskOf fun j => match (w.lane j).wait with
    | some (.waitv _ _ _ p g _) => p = pc && g = gang
    | some (.waitvLeft g) => g = gang
    | _ => false

/-- A lane at WAITV re-reads its location: it leaves with the value when the condition holds, and an access that no longer
translates stops its path as R241 gives. A peer of its cluster set that has retired leaves the address out of bounds (R225). -/
def waitvStep (s : State) (wk i : Nat) : Option State :=
  match s.warp? wk with
  | none => none
  | some w =>
    match (w.lane i).wait with
    | some (.waitv x addr val pc gang _) =>
      let us := waitvReads s w x addr
      let s₁ := fixReads s (laneBit i) fun _ => us
      let path := waitvGang w pc gang
      if w.causes.any fun c => bitAt c.path i then none
      else match waitvRead s w x addr i with
      | .value m =>
        if !waitvHolds x m val then (if waitvCorrects s us then some s₁ else none)
        else some (s₁.setWarp wk (w.modLane i fun l =>
          { l with wait := some (.waitvLeft gang) }.addPend { regs := loadRegs x.d.toNat (waitvUse x).n false (bytesOf 8 m.toNat) }))
      | .bounds => some (addCause s₁ wk { code := Code.scratchBounds, mask := laneBit i, path := path, pc := pc, resume := .region, cont := pc })
      | .lost code => some (addCause s₁ wk { code := code, mask := laneBit i, path := laneBit i, pc := pc, resume := .none, cont := pc })
      | .jasper code va =>
        some (toJasper s₁ wk { code := code, sub := Access.load.sub, mask := laneBit i, path := path, pc := pc, resume := .region, cont := pc, va := va })
    | _ => none

/-- WAITV_RELEASE (R274). -/
def execWaitvRelease (s : State) : Out :=
  match s.event with
  | some (.waitvRelease wk i) =>
    match waitvStep s wk i with
    | some t => onlyIf true s t
    | none => onlyIf false s s
  | _ => .fault .notPosted

/-- The lanes of a warp whose wait has reached the limit, at the lowest PC value of such a wait (R275). -/
def expiredLanes (w : Warp) : Option (PC × Mask) :=
  let out (i : Nat) : Option PC := (w.lane i).counted.bind fun p => if w.limit ≠ 0 && p.2 ≥ w.limit then some p.1 else none
  match (List.range 32).filterMap out with
  | [] => none
  | p :: ps =>
    let pc := ps.foldl (fun a b => if b.toNat < a.toNat then b else a) p
    some (pc, maskOf fun i => out i = some pc)

/-- WATCHDOG (R275): the warp takes the trap; the counts of the expired lanes start again from 0. -/
def execWatchdog (s : State) : Out :=
  match s.event with
  | some (.watchdog wk) =>
    match s.warp? wk with
    | none => onlyIf false s s
    | some w =>
      match expiredLanes w with
      | none => onlyIf false s s
      | some (pc, m) => onlyIf (w.stop != .ended) s (addCause (s.setWarp wk (w.mapIn m fun _ l => l.setCount fun _ => 0)) wk
          { code := Code.watchdog, mask := m, path := m, pc := pc, resume := .wait, cont := pc })
  | _ => .fault .notPosted

/-- The counter that a DCADD or DCWAIT names in a lane: its field or bits 0-5 of a register (R276). -/
def counterOf (x : Ext) (byReg : Bool) (field : BitVec 8) (e : Env) (l : Lane) : Nat :=
  if byReg then bitsAt (l.rd e 0 x.a.toNat) 0 6 else field.toNat

/-- An instruction that names a counter in a field that its workgroup does not hold raises ILLEGAL_ENC at decode (R39). -/
def counterBad (i : Instr) (g : Workgroup) : Bool :=
  match i with
  | .dcadd _ x => x.sub ≠ 2 && x.d.toNat ≥ g.counters.length
  | .dcwait _ x => x.sub = 0 && x.a.toNat ≥ g.counters.length
  | _ => false

/-- DCADD: adds once, after the UNIFORM and number checks (R277). -/
def execDcadd (h : Hdr) (x : Ext) (s : State) : Out :=
  issued h x.words s fun q =>
    let g := s.wgOf q.w
    let ctr (i : Nat) : Nat := counterOf x (x.sub = 2) x.d (q.env i) (q.lane i)
    let val (i : Nat) : Word := if x.sub = 1 then BitVec.ofInt 32 (simm 21 (x.field 11 21)) else (q.lane i).rd (q.env i) 2 x.b.toNat
    let differ := q.failing fun i _ => ctr i ≠ ctr q.lead || val i ≠ val q.lead
    if counterBad (.dcadd h x) g then trapGang q s Code.illegalEnc 0 q.mask
    else if q.exec = 0 then retire q h.sw q.w s
    else if differ ≠ 0 then trapGang q s Code.uniform 0 differ
    else if ctr q.lead ≥ g.counters.length then trapGang q s Code.illegalEnc 0 q.mask
    else
      let w := q.w.advance q.pc q.next q.mask
      .next (counterAdd (s.setWarp q.wk (if h.sw then w.switchPoint q.mask else w)) q.w.wg (ctr q.lead) (val q.lead)).done

/-- DCWAIT: the executing lanes wait until the counter holds 0 (R278). -/
def execDcwait (h : Hdr) (x : Ext) (s : State) : Out :=
  issued h x.words s fun q =>
    let g := s.wgOf q.w
    let ctr (i : Nat) : Nat := counterOf x (x.sub = 1) x.a (q.env i) (q.lane i)
    if counterBad (.dcwait h x) g then trapGang q s Code.illegalEnc 0 q.mask
    else if q.exec = 0 then retire q h.sw q.w s
    else if q.differing ctr ≠ 0 then trapGang q s Code.uniform 0 (q.differing ctr)
    else if ctr q.lead ≥ g.counters.length then trapGang q s Code.illegalEnc 0 q.mask
    else if g.counters.getD (ctr q.lead) 0 = 0 then retire q h.sw q.w s
    else retire q h.sw (q.w.mapIn q.exec fun _ l => { l with wait := some (.dcwait (ctr q.lead) q.pc) }) s

end Sys2Proof.Machine
end

