-- ==== Sys2Proof/Machine/Formats.lean ====
section
/-! DEFINITION. The storage formats of the copy engine: NQ4, block-scaled formats and companding (R74-R82). -/

namespace Sys2Proof.Machine

/-- A non-negative rational, exact (R77, R81). -/
structure Frac where
  n : Nat
  d : Nat
deriving DecidableEq, Repr

namespace Frac
def ofNat (n : Nat) : Frac := { n := n, d := 1 }
/-- `m` × 2^`e`. -/
def dyadic (m : Nat) (e : Int) : Frac := if e ≥ 0 then { n := m * 2 ^ e.toNat, d := 1 } else { n := m, d := 2 ^ (-e).toNat }
def mul (a b : Frac) : Frac := { n := a.n * b.n, d := a.d * b.d }
def div (a b : Frac) : Frac := { n := a.n * b.d, d := a.d * b.n }
def add (a b : Frac) : Frac := { n := a.n * b.d + b.n * a.d, d := a.d * b.d }
/-- Difference, 0 when `b` is the greater. -/
def sub (a b : Frac) : Frac := { n := a.n * b.d - b.n * a.d, d := a.d * b.d }
def le (a b : Frac) : Bool := a.n * b.d ≤ b.n * a.d
def lt (a b : Frac) : Bool := a.n * b.d < b.n * a.d
/-- Distance of two values. -/
def dist (a b : Frac) : Frac := if a.le b then b.sub a else a.sub b
end Frac

/-- The value of a code of a type (R60, R66). Where the copy engine reads the reserved s4 code 0b1000 it takes 0, which is the
model's choice (log 92). -/
def valueOf (ty x : Nat) : FReal :=
  if tyIsFloat ty then unpack (fmtOf ty) (x % 2 ^ tyWidth ty) else let v := (readInt ty x).1; .fin (v < 0) v 0

/-- The largest finite value of a type (R81). -/
def topValue (ty : Nat) : Frac :=
  if tyIsFloat ty then match unpack (fmtOf ty) (fmtOf ty).maxCode with
    | .fin _ m e => .dyadic m.natAbs e
    | _ => .ofNat 0
  else .ofNat (intRange ty).2.toNat

/-- Round a value to a type, in .rn, integers with saturation, floats as R69 gives (R307). -/
def roundFrac (ty : Nat) (sat neg : Bool) (q : Frac) : Nat :=
  if tyIsFloat ty then
    let f := fmtOf ty
    if q.n = 0 then f.signed neg 0 else (roundRat f 0 sat neg q.n q.d 0).1
  else
    let k := q.n / q.d
    let r := q.n % q.d
    let k' : Int := if roundsUp 0 neg k r q.d then k + 1 else k
    let (lo, hi) := intRange ty
    intBits (tyWidth ty) (clampTo lo hi (if neg then -k' else k')).1

/-- A compand curve: its 17 breakpoints (R80, R81). -/
abbrev Curve := List Frac

/-- The identity: breakpoint k is k/16 (R80). -/
def identityCurve : Curve := (List.range 17).map fun k => { n := k, d := 16 }

/-- Breakpoint `k` of a table of 68 bytes, as a code (R82). -/
def breakpoint (t : List Byte) (k : Nat) : Nat := ofBytes ((t.drop (4 * k)).take 4)

/-- A valid table (R80). -/
def tableOk (t : List Byte) : Bool :=
  let y (k : Nat) : FReal := unpack .f32 (breakpoint t k)
  let finite (k : Nat) : Bool := match y k with
    | .fin .. => true
    | _ => false
  t.length = 68 && (List.range 17).all finite && FReal.cmp (y 0) (.fin false 0 0) == .eq && FReal.cmp (y 16) (.fin false 1 0) == .eq
    && (List.range 16).all fun k => FReal.cmp (y k) (y (k + 1)) == .lt

/-- The curve that a table holds, or the identity where none has been loaded (R80, R82). -/
def curveOf (t : Option (List Byte)) : Curve :=
  match t with
  | none => identityCurve
  | some t => (List.range 17).map fun k => match unpack .f32 (breakpoint t k) with
      | .fin _ m e => Frac.dyadic m.natAbs e
      | _ => Frac.ofNat 0

/-- min(1, |v| / c) of R81; `none` as the magnitude is an infinity. -/
def unitOf (c : Frac) (v : Option Frac) : Frac :=
  match v with
  | some v => if (v.div c).le (.ofNat 1) then v.div c else .ofNat 1
  | none => .ofNat 1

/-- pack of R81 on a magnitude. -/
def curvePack (ys : Curve) (c : Frac) (v : Option Frac) : Frac :=
  let x := unitOf c v
  let j := min 15 (16 * x.n / x.d)
  let y (k : Nat) : Frac := ys.getD k (.ofNat 0)
  let t : Frac := (x.mul (.ofNat 16)).sub (.ofNat j)
  c.mul ((y j).add (t.mul ((y (j + 1)).sub (y j))))

/-- expand of R81 on a magnitude. -/
def curveExpand (ys : Curve) (c : Frac) (v : Option Frac) : Frac :=
  let x := unitOf c v
  let y (k : Nat) : Frac := ys.getD k (.ofNat 0)
  let j := (List.range 16).foldl (fun j k => if (y k).le x then k else j) 0
  let t := (x.sub (y j)).div ((y (j + 1)).sub (y j))
  (c.mul ((Frac.ofNat j).add t)).div (.ofNat 16)

/-- Apply a curve to a magnitude, where none is an infinity. A scale of 0, which the u of an NQ4 block may have, leaves nothing but
0 (R81). -/
def withCurve (cv : Curve) (f : Curve → Frac → Option Frac → Frac) (c : Frac) (v : Option Frac) : Frac :=
  if c.n = 0 then .ofNat 0 else f cv c v

/-- Magnitude of a value that is not a NaN; none is an infinity. -/
def FReal.mag? (x : FReal) : Option Frac :=
  match x with
  | .fin _ m e => some (.dyadic m.natAbs e)
  | _ => none

/-- A plain element read or written: a NaN is canonical, and every other value goes through the curve (R63, R74, R81). -/
def plainCode (cv : Curve) (f : Curve → Frac → Option Frac → Frac) (ty x : Nat) : Nat :=
  match valueOf ty x with
  | .nan _ => (fmtOf ty).nan
  | v => roundFrac ty false v.neg? (withCurve cv f (topValue ty) v.mag?)

/-- NQ4 levels Li, as BF16 codes (R76). -/
def nqLevel (i : Nat) : Nat := [0x3D2C, 0x3E02, 0x3E5D, 0x3E9F, 0x3ED5, 0x3F0B, 0x3F35, 0x3F80].getD (i - 1) 0

/-- Level number and sign of an NQ4 code (R76). -/
def nqCode (code : Nat) : Nat × Bool := if code ≥ 8 then (code - 7, false) else (8 - code, true)

/-- A level exactly. -/
def nqFrac (i : Nat) : Frac := ((unpack .bf16 (nqLevel i)).mag?).getD (.ofNat 0)

/-- Expansion of an NQ4 code to BF16 (R77, R81): scale byte `b` and the FP32 scale `s`. DESIGN CHOICE (log 83): with a negative scale
the curve's c, which R81 gives as u, is the magnitude of u, and the sign of the scale turns that of the element. That a block with b = 0 in a run
whose S is not finite gives the NaN is the model's choice too (log 105). -/
def nqExpand (cv : Curve) (s b code : Nat) : Nat :=
  match unpack .f32 s with
  | .fin z m e =>
    if b = 0 then 0
    else
      let u := ((Frac.dyadic m.natAbs e).mul (.ofNat b)).div (.ofNat 255)
      let (i, neg) := nqCode code
      roundFrac 2 false (neg != (if m = 0 then z else m < 0)) (withCurve cv curveExpand u (some ((nqFrac i).mul u)))
  | _ => Fmt.bf16.nan

/-- The largest finite magnitude of BF16 codes, 0 when there is none (R78, R79). -/
def topFinite (xs : List Nat) : Frac :=
  xs.foldl (fun a x => match (unpack .bf16 x).mag? with
    | some q => if a.lt q then q else a
    | none => a) (.ofNat 0)

/-- The NQ4 level nearest to a magnitude for u, ties to the smaller one (R78). -/
def nqNearest (u v : Frac) : Nat :=
  (List.range 7).foldl (fun best k =>
    if (Frac.dist ((nqFrac (k + 2)).mul u) v).lt (Frac.dist ((nqFrac best).mul u) v) then k + 2 else best) 1

/-- Packing of a block of BF16 codes to NQ4 codes and a scale byte, for an FP32 scale that is not a NaN (R78). -/
def nqPack (cv : Curve) (s : Nat) (xs : List Nat) : List Nat × Nat :=
  let a := topFinite xs
  let pos : Option Frac := match unpack .f32 s with
    | .fin _ m e => if m > 0 then some (.dyadic m.natAbs e) else none
    | _ => none
  let b := match pos with
    | none => 0
    | some q => if a.n = 0 then 0 else if q.le a then 255 else cdiv (255 * a.n * q.d) (a.d * q.n)
  let u := ((pos.getD (.ofNat 0)).mul (.ofNat b)).div (.ofNat 255)
  (xs.map fun x =>
    match unpack .bf16 x with
    | .nan _ => if b = 0 then (if x / 2 ^ 15 % 2 = 1 then 7 else 8) else 15
    | v =>
      if b = 0 then (if v.neg? then 7 else 8)
      else match v with
        | .inf neg => if neg then 0 else 15
        | _ =>
          let i := nqNearest u (withCurve cv curvePack u v.mag?)
          if v.neg? then 8 - i else 7 + i, b)

/-- Element type of a block-scaled format (R74). -/
def blockType (fmt : Nat) : Nat :=
  match fmt with
  | 0x11 => 3
  | 0x12 => 8
  | 0x13 => 4
  | _ => 5

/-- Compand scale of a block-scaled element: its largest finite value times 2^k (R81). -/
def blockTop (ty : Nat) (k : Int) : Frac := (topValue ty).mul (.dyadic 1 k)

/-- Expansion of a block-scaled element to BF16 (R79, R81). -/
def blockExpand (cv : Curve) (ty scale x : Nat) : Nat :=
  let k : Int := (scale : Int) - 127
  if scale = 0xFF then Fmt.bf16.nan
  else match valueOf ty x with
    | .nan _ => Fmt.bf16.nan
    | v => roundFrac 2 false v.neg? (withCurve cv curveExpand (blockTop ty k) (v.mag?.map fun q => q.mul (.dyadic 1 k)))

/-- The least k from −127 to 127 with 2^k at least A / E, or 127 (R79). -/
def blockScale (a e : Frac) : Int :=
  if a.n = 0 then -127
  else match (List.range 255).find? fun (i : Nat) => (a.div e).le (.dyadic 1 ((i : Int) - 127)) with
    | some i => (i : Int) - 127
    | none => 127

/-- Packing of a block of BF16 codes to elements and a scale byte (R79). -/
def blockPack (cv : Curve) (ty : Nat) (xs : List Nat) : List Nat × Nat :=
  if xs.any fun x => (unpack .bf16 x).isNan then (xs.map fun _ => 0, 0xFF)
  else
    let k := blockScale (topFinite xs) (topValue ty)
    (xs.map fun x =>
      let v := unpack .bf16 x
      roundFrac ty true v.neg? ((withCurve cv curvePack (blockTop ty k) v.mag?).mul (.dyadic 1 (-k))), (k + 127).toNat)

end Sys2Proof.Machine
end

