-- ==== Sys2Proof/Machine/Copy.lean ====
section
/-! DEFINITION. The copy engine: entries, tensor descriptors, tiles, linear, fill, hint and remote operations, and their
completion (R298-R313). -/

namespace Sys2Proof.Machine

-- Statuses of R313.
namespace Cpy
def ok : Nat := 0x00
def opBad : Nat := 0x01
def entBad : Nat := 0x02
def descBad : Nat := 0x03
def fmtBad : Nat := 0x04
def compandBad : Nat := 0x05
def scratchBad : Nat := 0x06
def lenBad : Nat := 0x07
def handleBad : Nat := 0x08
def stale : Nat := 0x09
def fault : Nat := 0x0A
def poison : Nat := 0x0B
def peerLost : Nat := 0x0C
def skipped : Nat := 0x0D
end Cpy

/-- Bits of a number. -/
def natBits (x lo len : Nat) : Nat := x / 2 ^ lo % 2 ^ len

-- Fields of a queue entry (R301).
namespace Ent
def op (e : BitVec 256) : Nat := bitsAt e 0 8
def dc (e : BitVec 256) : Bool := bitAt e 8
def v (e : BitVec 256) : Bool := bitAt e 9
def pk (e : BitVec 256) : Bool := bitAt e 10
def cl (e : BitVec 256) : Bool := bitAt e 11
def mode (e : BitVec 256) : Nat := bitsAt e 12 2
def ctr (e : BitVec 256) : Nat := bitsAt e 16 6
def evt (e : BitVec 256) : Bool := bitAt e 24
def soff (e : BitVec 256) : Word := e.extractLsb' 32 32
def addr (e : BitVec 256) : DWord := e.extractLsb' 64 64
def orgRow (e : BitVec 256) : Int := simm 32 (bitsAt e 128 32)
def orgCol (e : BitVec 256) : Int := simm 32 (bitsAt e 160 32)
def tRows (e : BitVec 256) : Nat := bitsAt e 192 16
def tCols (e : BitVec 256) : Nat := bitsAt e 208 16
def extra (e : BitVec 256) : Nat := bitsAt e 224 32
/-- The second address of LCOPY mode 2, or the key of HINT mode 1. -/
def second (e : BitVec 256) : DWord := e.extractLsb' 128 64

/-- The parts of an entry, as first bit and length, that its operation does not use (R301, R302). -/
def unused (e : BitVec 256) : List (Nat × Nat) :=
  let common := [(14, 2), (22, 2), (25, 7)]
  let flags := [(9, 2)]
  let noPad := (11, 1) :: [(32, 32)]
  common ++ match op e, mode e with
    | 0x01, _ | 0x02, _ => [(12, 2), (224, 32)]
    | 0x04, _ | 0x05, _ => [(12, 2), (128, 32)]
    | 0x03, 2 => flags ++ noPad ++ [(192, 32)]
    | 0x03, 3 => flags ++ [(64, 64), (160, 64)]
    | 0x03, _ => flags ++ [(128, 96)]
    | 0x06, 1 => flags ++ noPad ++ [(160, 64)]
    | 0x06, _ => flags ++ [(13, 1), (64, 64), (160, 64)]
    | 0x07, 1 => flags ++ [(11, 1), (192, 32)]
    | 0x07, _ => flags ++ noPad ++ [(13, 1), (128, 96)]
    | 0x08, _ => flags ++ noPad ++ [(13, 1), (208, 16)]
    | _, _ => flags ++ [(11, 1), (12, 2), (36, 28), (64, 64)]

/-- A reserved or unused field is not 0, or the counter does not exist (R301). -/
def bad (e : BitVec 256) : Bool := (unused e).any (fun p => bitsAt e p.1 p.2 ≠ 0) || (dc e && ctr e ≥ 16)
end Ent

/-- A place that the engine writes. -/
inductive Place where
  | mem (va : Nat)
  | pad (wg off : Nat)
deriving DecidableEq, Repr

/-- The place `n` bytes further. -/
def Place.plus (p : Place) (n : Nat) : Place :=
  match p with
  | .mem va => .mem (va + n)
  | .pad wg off => .pad wg (off + n)

/-- The bank words that `n` bytes written at a place cover in part, whose other bytes are read and merged (R227). -/
def Place.edges (p : Place) (n : Nat) : List ScratchUse :=
  match p with
  | .mem _ => []
  | .pad wg off =>
    (if n ≠ 0 && off % 4 ≠ 0 then [{ wg := wg, off := off, len := 1 }] else [])
    ++ (if n ≠ 0 && (off + n) % 4 ≠ 0 then [{ wg := wg, off := off + n - 1, len := 1 }] else [])

/-- A write of the engine: bytes at a place, of which the lowest bits of the first and the highest of the last keep what stands there
(R308). -/
structure Put where
  at_ : Place
  bytes : List Byte
  low : Nat := 0
  high : Nat := 0
deriving DecidableEq, Repr

/-- Byte `i` of a write. -/
def Put.byte (p : Put) (i : Nat) : Put :=
  { at_ := p.at_.plus i, bytes := [p.bytes.getD i 0], low := if i = 0 then p.low else 0, high := if i + 1 = p.bytes.length then p.high else 0 }

/-- A byte of which the bits below `lo` and the upper `hi` keep their old value. -/
def mergeByte (old new : Byte) (lo hi : Nat) : Byte :=
  BitVec.ofNat 8 (bitsNat (fun i => if i < lo || 8 ≤ i + hi then bitAt old i else bitAt new i) 8)

/-- The bytes of a write over those that stand there. -/
def Put.over (p : Put) (old : List Byte) : List Byte :=
  mapFrom (fun i b => mergeByte (old.getD i 0) b (if i = 0 then p.low else 0) (if i + 1 = p.bytes.length then p.high else 0)) 0 p.bytes

/-- What an entry has read and is to write. -/
structure CopyAcc where
  /-- Bytes read when the entry does not fail, those of them that are global, and the global bytes that are within reach, each once for each tile
  row that takes it (R309). -/
  bytes : Nat := 0
  glob : Nat := 0
  got : List (Nat × Nat) := []
  /-- A read that does not translate: cause and address. -/
  code : Option (Nat × Nat) := none
  poison : Bool := false
  puts : List Put := []
  pads : List ScratchUse := []

/-- What the engine performs an entry with: the state, the context, the workgroup, the die of the engine's core, and what the entry read if it
has started already. -/
structure CopyCtx where
  s : State
  ctx : Nat
  wg : Nat
  die : Nat
  begun : Option Begun := none
  /-- No time is left for Jasper: the supply ends (R368). -/
  last : Bool := false

/-- A computation of the engine. -/
abbrev CopyM := StateM CopyAcc

namespace CopyCtx

/-- The bytes of a read that are within reach. -/
def readable (k : CopyCtx) (va : DWord) (n : Nat) : List Nat :=
  ((List.range n).filter fun i => (faultAt k.s k.ctx (va + BitVec.ofNat 64 i) 1 0 .load).isNone).map fun i => (va + BitVec.ofNat 64 i).toNat

/-- Read global bytes; those of tile row `row` count as read (R309). -/
def read (k : CopyCtx) (va : DWord) (n : Nat) (row : Option Nat := none) : CopyM (List Byte) := do
  modify fun a => match row with
    | some r => { a with got := a.got ++ (k.readable va n).map fun b => (r, b) }
    | none => a
  match faultAt k.s k.ctx va n 0 .load with
  | some c => do
    modify fun a => { a with code := if a.code.isSome then a.code else some (c.1, c.2.toNat) }
    pure ((List.range n).map fun i => Config.anyByte k.s.free (va.toNat + i))
  | none => do
    let ps := piecesAt k.s k.ctx va n 0 .load
    if piecesPoisoned k.s.mem ps then modify fun a => { a with poison := true }
    pure (readPieces k.s.mem ps)

/-- Read scratchpad bytes. -/
def readPad (k : CopyCtx) (wg off n : Nat) : CopyM (List Byte) := do
  modify fun a => { a with pads := a.pads ++ [{ wg := wg, off := off, len := n }] }
  pure (((k.s.wg? wg).map fun g => scratchRead wg g off n).getD [])

/-- Bytes that count as read, from scratchpad or from global memory (R309). -/
def tally (n : Nat) : CopyM Unit := modify fun a => { a with bytes := a.bytes + n }
def tallyGlobal (n : Nat) : CopyM Unit := modify fun a => { a with bytes := a.bytes + n, glob := a.glob + n }

/-- Write bytes; the edges of a run of scratch bytes merge into their bank words (R227), and a nibble of a byte in memory into the
byte (R308). -/
def put (p : Place) (bs : List Byte) (low : Nat := 0) (high : Nat := 0) : CopyM Unit :=
  modify fun a => { a with puts := a.puts ++ [{ at_ := p, bytes := bs, low := low, high := high }], pads := a.pads ++ p.edges bs.length }

end CopyCtx

/-- The bytes that a write merges with, as the writes before it have left them. -/
def oldBytes (s : State) (ctx : Nat) (p : Put) : List Byte :=
  match p.at_ with
  | .pad _ _ => []
  | .mem va => if p.low = 0 && p.high = 0 then [] else match readVa s ctx va p.bytes.length 0 with
    | .ok bs => bs
    | .fault _ => []

/-- Perform a write, through a context; what does not translate is dropped. -/
def putAt (ctx : Nat) (s : State) (p : Put) : State :=
  match p.at_ with
  | .pad wg off => putScratch s wg off p.bytes
  | .mem va =>
    match writeVa s ctx va 0 (p.over (oldBytes s ctx p)) with
    | .ok s' => s'
    | .fault _ => s

/-- The bytes of a write that `goes` accepts are written: into memory, or into scratch, where a bank word that is written in part is read, and
one that is written whole gets a fresh code (R226). -/
def Put.some (ctx : Nat) (goes : Nat → Bool) (s : State) (p : Put) : State :=
  let n := p.bytes.length
  let fill (s : State) : State := (List.range n).foldl (fun s i => if goes i then putAt ctx s (p.byte i) else s) s
  match p.at_ with
  | .mem _ => fill s
  | .pad wg off =>
    let met (u : ScratchUse) : Bool := (List.range n).any fun i => (off + i) / 4 = u.off / 4 && goes i
    (List.range n).foldl (fun s i =>
      if (off + i) % 4 = 0 && i + 4 ≤ n && [0, 1, 2, 3].all fun j => goes (i + j) then putScratch s wg (off + i) ((p.bytes.drop i).take 4) else s)
      (fill (fixReads s 1 fun _ => (p.at_.edges n).filter met))

/-- Any subset of the bytes of a list of writes (R313). -/
def putSome (ctx free : Nat) (s : State) (ps : List Put) : State :=
  (mapFrom (fun j p => (j, p)) 0 ps).foldl (fun s jp => jp.2.some ctx (fun i => Config.anyBool free (jp.1 * 2 ^ 25 + i + 1)) s) s

/-- A write of the list that does not translate. -/
def putFault (k : CopyCtx) (ps : List Put) : Option (Nat × Nat) :=
  ps.findSome? fun p => match p.at_ with
    | .pad _ _ => none
    | .mem va => (faultAt k.s k.ctx (BitVec.ofNat 64 va) p.bytes.length 0 .store).map fun c => (c.1, c.2.toNat)

/-- How an entry ends: not yet, because Jasper resolves a fault first, or with a result (R313). -/
abbrev Ended := Option CopyResult × State

/-- The most bytes that an entry which ends with FAULT has read: of a failing read only what is within reach (R309). -/
def CopyAcc.bound (a : CopyAcc) (store : Bool) : Nat := if store then a.bytes else a.bytes - a.glob + a.got.eraseDups.length

/-- Any of the bank words that an entry reads (R226, R308). -/
def padsSome (free : Nat) (us : List ScratchUse) : List ScratchUse :=
  let words := us.flatMap fun u => (List.range (cdiv (u.off % 4 + u.len) 4)).map fun k => { u with off := u.off / 4 * 4 + 4 * k, len := 4 }
  (mapFrom (fun j u => (j, u)) 0 words).filterMap fun p => if Config.anyBool free (2 ^ 71 + p.1) then some p.2 else none

/-- A translation fault: Jasper resolves it, and the entry is tried again, or it cannot. Then any part of what the entry reads may have been read,
and any part of what it writes written (R242, R309, R313). -/
def copyFault (k : CopyCtx) (a : CopyAcc) (c : Nat × Nat) (store : Bool) : Ended :=
  match (if k.last then none else resolve k.s { arb := k.die, ctx := k.ctx, code := c.1, va := c.2, store := store } 0) with
  | some t => (none, t)
  | none =>
    let n := ofBytes ((List.range 4).map fun i => Config.anyByte k.s.free (2 ^ 70 + i))
    (some { status := Cpy.fault, bytes := n % (a.bound store + 1) },
      putSome k.ctx k.s.free (fixReads k.s 1 fun _ => padsSome k.s.free a.pads) a.puts)

/-- The entry has read all it needs: its writes are performed, or it fails (R299, R313). -/
def copyFinish (k : CopyCtx) (a : CopyAcc) : Ended :=
  match a.code, putFault k a.puts with
  | some c, _ => copyFault k a c false
  | none, some c => copyFault k a c true
  | none, none =>
    let s := fixReads k.s 1 fun _ => a.pads
    if a.poison || ueLanes k.s 1 (fun _ => a.pads) ≠ 0 then
      (some { status := Cpy.poison, bytes := a.bytes }, putSome k.ctx k.s.free s a.puts)
    else (some { status := Cpy.ok, bytes := a.bytes }, a.puts.foldl (putAt k.ctx) s)

/-- The entry ends with a status and performs nothing. -/
def copyStatus (k : CopyCtx) (status : Nat) : Ended := (some { status := status, bytes := 0 }, k.s)

/-- A tensor descriptor (R303). -/
structure TDesc where
  base : DWord
  dim0 : Nat
  dim1 : Nat
  dim2 : Nat
  dim3 : Nat
  stride1 : Int
  stride2 : Int
  stride3 : Int
  fmt : Nat
  cmp : Nat
  spar : Nat
  pad : Word
  scale0 : DWord
  scale1 : DWord
  /-- Fails a check of DESC_BAD. -/
  bad : Bool

/-- The descriptor in 64 bytes (R303, R304). That stride1 is never tested for 0 is the model's choice (log 103). -/
def tdescOf (bs : List Byte) : TDesc :=
  let x := ofBytes bs
  let n := natBits x 315 2
  let d2 := natBits x 128 16
  let d3 := natBits x 144 16
  let fmt := natBits x 304 8
  let high (lo : Nat) : Bool := natBits x (lo + 57) 7 ≠ 0
  { base := BitVec.ofNat 64 (natBits x 0 64), dim0 := natBits x 64 32, dim1 := if n ≥ 1 then natBits x 96 32 else 1
    dim2 := if n ≥ 2 then d2 else 1, dim3 := if n ≥ 3 then d3 else 1, stride1 := simm 48 (natBits x 160 48)
    stride2 := simm 48 (natBits x 208 48), stride3 := simm 48 (natBits x 256 48), fmt := fmt, cmp := natBits x 312 3
    spar := natBits x 320 9, pad := BitVec.ofNat 32 (natBits x 352 32), scale0 := BitVec.ofNat 64 (natBits x 384 64)
    scale1 := BitVec.ofNat 64 (natBits x 448 64)
    bad := natBits x 317 3 ≠ 0 || natBits x 329 23 ≠ 0 || natBits x 64 32 = 0 || natBits x 96 32 = 0
      || (if n ≥ 2 then d2 = 0 else d2 ≠ 0 || natBits x 208 48 ≠ 0) || (if n ≥ 3 then d3 = 0 else d3 ≠ 0 || natBits x 256 48 ≠ 0)
      || (fmt ≠ 0x10 && natBits x 384 128 ≠ 0) || high 0 || high 384 || high 448 }

namespace TDesc

/-- Tensor rows (R304). -/
def rows (t : TDesc) : Nat := t.dim1 * t.dim2 * t.dim3

/-- Address of the start of tensor row `r` (R304). -/
def rowAt (t : TDesc) (r : Nat) : DWord :=
  t.base + BitVec.ofInt 64 ((r % t.dim1 : Nat) * t.stride1 + (r / t.dim1 % t.dim2 : Nat) * t.stride2 + (r / t.dim1 / t.dim2 : Nat) * t.stride3)

/-- A format code that R74 defines. -/
def fmtOk (t : TDesc) : Bool := t.fmt ≤ 0x0E || (0x10 ≤ t.fmt && t.fmt ≤ 0x14)

/-- The canonical type of the tile (R74). -/
def canon (t : TDesc) : Nat := if t.fmt ≤ 0x0E then t.fmt else 2

/-- Width of a canonical element. -/
def bits (t : TDesc) : Nat := tyWidth t.canon

/-- Elements in a block of the format: 64 for NQ4, 32 for block-scaled ones (R76, R79). -/
def block (t : TDesc) : Nat := if t.fmt = 0x10 then 64 else if t.fmt ≥ 0x11 then 32 else 1

/-- N, log2 of M, and M of packed storage. -/
def keep (t : TDesc) : Nat := natBits t.spar 0 4
def log (t : TDesc) : Nat := natBits t.spar 4 4
def group (t : TDesc) : Nat := 2 ^ t.log

/-- Packed storage that R304 does not allow. An N or M outside R155 counts among it, which is the model's choice (log 100). -/
def sparseBad (t : TDesc) : Bool :=
  t.spar ≠ 0 && (t.fmt > 0x0E || t.spar ≥ 256 || t.log < 1 || t.log > 4 || t.keep < 1 || t.keep ≥ t.group || t.dim0 % t.group ≠ 0)

/-- The pad element (R307). -/
def padCode (t : TDesc) : Nat :=
  if t.canon = 0 then (convert 0 1 0 false t.pad.toNat).1
  else if t.bits = 64 then (Config.pad64 t.canon t.pad).toNat
  else t.pad.toNat % 2 ^ t.bits

/-- Bytes of a whole block of a block-scaled format (R79, R304). -/
def blockBytes (t : TDesc) : Nat := 4 * tyWidth (blockType t.fmt) + 1

/-- First byte, from the row start, of block `b` of a block-scaled row, its elements, and the place of its scale byte. -/
def blockAt (t : TDesc) (b : Nat) : Nat × Nat × Nat :=
  let n := min 32 (t.dim0 - 32 * b)
  (b * t.blockBytes, n, b * t.blockBytes + cdiv (n * tyWidth (blockType t.fmt)) 8)

/-- NQ4 block number of column `j` of row `r` (R304). -/
def nqBlock (t : TDesc) (r j : Nat) : Nat := r * cdiv t.dim0 64 + j / 64

end TDesc

/-- Address `n` bytes after `a`. -/
def plus (a : DWord) (n : Nat) : DWord := a + BitVec.ofNat 64 n

/-- Bits `p` to `p + b` of bytes. -/
def bitsOf (bs : List Byte) (p b : Nat) : Nat := ofBytes bs / 2 ^ p % 2 ^ b

/-- Element (r, j) of the tensor for tile row `i`, expanded (R307). -/
def readElem (k : CopyCtx) (t : TDesc) (cv : Curve) (i r j : Nat) : CopyM Nat := do
  let row := t.rowAt r
  if t.fmt = 0x10 then
    let c ← k.read (plus row (j / 2)) 1 (some i)
    let b ← k.read (plus t.scale0 (t.nqBlock r j)) 1 (some i)
    let s ← k.read (plus t.scale1 (4 * (t.nqBlock r j / 256))) 4 (some i)
    pure (nqExpand cv (ofBytes s) (ofBytes b) (bitsOf c (4 * (j % 2)) 4))
  else if t.fmt ≥ 0x11 then
    let ty := blockType t.fmt
    let w := tyWidth ty
    let bl := t.blockAt (j / 32)
    let p := j % 32 * w
    let c ← k.read (plus row (bl.1 + p / 8)) 1 (some i)
    let b ← k.read (plus row bl.2.2) 1 (some i)
    pure (blockExpand cv ty (ofBytes b) (bitsOf c (p % 8) w))
  else
    let w := t.bits
    let c ← k.read (plus row (j * w / 8)) (cdiv w 8) (some i)
    pure (plainCode cv curveExpand t.fmt (bitsOf c (j * w % 8) w))

/-- Bytes that reading columns `lo` to `hi` of a row takes: elements, scale bytes and scales, each once (R309). That a scale which several
rows of the tile take counts for each is the model's choice (log 47). -/
def rowBytes (t : TDesc) (r lo hi : Nat) : Nat :=
  if hi ≤ lo then 0
  else
    let blocks (n : Nat) : Nat := (hi - 1) / n - lo / n + 1
    if t.fmt = 0x10 then (hi + 1) / 2 - lo / 2 + blocks 64 + 4 * (t.nqBlock r (hi - 1) / 256 - t.nqBlock r lo / 256 + 1)
    else if t.fmt ≥ 0x11 then
      let w := tyWidth (blockType t.fmt)
      blocks 32 + ((List.range (hi - lo)).foldl (fun n i =>
        let j := lo + i
        if w = 8 || j % 2 = 0 || i = 0 then n + 1 else n) 0)
    else cdiv (hi * t.bits) 8 - lo * t.bits / 8

/-- One tile operation with its fields resolved. -/
structure TileOp where
  t : TDesc
  cv : Curve
  /-- Workgroup and offset of the validity area, its length, and the tile's dimensions and first column. -/
  wg : Nat
  off : Nat
  vlen : Nat
  tr : Nat
  tc : Nat
  col : Int
  pk : Bool
  v : Bool
  /-- Tensor row of each tile row. -/
  row : Nat → Int

namespace TileOp

/-- Bytes from one tile row to the next (R305). -/
def step (o : TileOp) : Nat := 4 * cdiv (o.tc * o.t.bits) 32

/-- The tensor row of tile row `i`, when it lies inside. -/
def inside (o : TileOp) (i : Nat) : Option Nat :=
  let r := o.row i
  if 0 ≤ r && r < o.t.rows then some r.toNat else none

/-- The tensor column of tile column `c`, when it lies inside. -/
def column (o : TileOp) (c : Nat) : Option Nat :=
  let j := o.col + c
  if 0 ≤ j && j < o.t.dim0 then some j.toNat else none

/-- First and last tensor columns of the tile, as from and to. -/
def span (o : TileOp) : Nat × Nat :=
  (if o.col < 0 then 0 else min o.col.toNat o.t.dim0, let h := o.col + o.tc; if h < 0 then 0 else min h.toNat o.t.dim0)

/-- Bytes of a dense tile without its validity area (R305). -/
def denseLen (o : TileOp) : Nat := if o.pk then 4 * cdiv (o.tr * o.tc * o.t.bits) 32 else o.tr * o.step

/-- Kept elements, index words and first value word of a packed tile: FP64 values start at an even word (R156). -/
def count (o : TileOp) : Nat := o.tr * o.tc * o.t.keep / o.t.group
def idxWords (o : TileOp) : Nat := cdiv (o.count * o.t.log) 32
def valAt (o : TileOp) : Nat := if o.t.canon = 0 && (1 + o.idxWords) % 2 = 1 then 2 + o.idxWords else 1 + o.idxWords
def packedLen (o : TileOp) : Nat := 4 * (o.valAt + cdiv (o.count * o.t.bits) 32)

/-- Bytes that the tile takes in the scratchpad. -/
def len (o : TileOp) : Nat := o.vlen + if o.t.spar ≠ 0 then o.packedLen else o.denseLen

/-- The bit at which element (i, c) lies in the data of a dense tile. -/
def bitAt' (o : TileOp) (i c : Nat) : Nat := if o.pk then (i * o.tc + c) * o.t.bits else i * o.step * 8 + c * o.t.bits

/-- The validity area (R305, R307). -/
def validity (o : TileOp) : List Byte := bytesOf o.vlen (bitsNat (fun i => i < o.tr && (o.inside i).isSome) 256)

/-- Read a dense tile into the scratchpad (R307). -/
def loadDense (o : TileOp) (k : CopyCtx) : CopyM Unit := do
  let mut rows : List (List Nat) := []
  for i in List.range o.tr do
    match o.inside i with
    | none => rows := rows ++ [(List.range o.tc).map fun _ => o.t.padCode]
    | some r =>
      CopyCtx.tallyGlobal (rowBytes o.t r o.span.1 o.span.2)
      let row ← (List.range o.tc).mapM fun c => match o.column c with
        | some j => readElem k o.t o.cv i r j
        | none => pure o.t.padCode
      rows := rows ++ [row]
  let at_ (i c : Nat) : Nat := (rows.getD i []).getD c 0
  let words := if o.pk then packElems o.t.bits (o.tr * o.tc) fun p => at_ (p / o.tc) (p % o.tc)
    else (List.range o.tr).flatMap fun i => packElems o.t.bits o.tc (at_ i)
  if o.v then CopyCtx.put (.pad o.wg o.off) o.validity
  CopyCtx.put (.pad o.wg (o.off + o.vlen)) (words.flatMap fun w => bytesOf 4 w.toNat)

/-- Kept element `n` of a packed tensor row, for tile row `i`: its value and index fields are read (R304). -/
def readKept (o : TileOp) (k : CopyCtx) (i r n : Nat) : CopyM (Nat × Nat) := do
  let row := o.t.rowAt r
  let w := o.t.bits
  let c ← k.read (plus row (n * w / 8)) (cdiv w 8) (some i)
  let p := o.t.dim0 * o.t.keep / o.t.group * w + n * o.t.log
  let x ← k.read (plus row (p / 8)) (cdiv (p % 8 + o.t.log) 8) (some i)
  pure (bitsOf x (p % 8) o.t.log, plainCode o.cv curveExpand o.t.fmt (bitsOf c (n * w % 8) w))

/-- First kept element of the tile in a packed row, and how many a row of the tile has. -/
def firstKept (o : TileOp) : Nat := o.col.toNat / o.t.group * o.t.keep
def rowKept (o : TileOp) : Nat := o.tc / o.t.group * o.t.keep

/-- Bytes that reading `n` kept elements from `n₀` of a packed row takes: values and index fields, each byte once (R304, R309). -/
def keptBytes (o : TileOp) (n₀ n : Nat) : Nat :=
  let p := o.t.dim0 * o.t.keep / o.t.group * o.t.bits + n₀ * o.t.log
  let vEnd := cdiv ((n₀ + n) * o.t.bits) 8
  if n = 0 then 0 else vEnd - n₀ * o.t.bits / 8 + (cdiv (p + n * o.t.log) 8 - max (p / 8) vEnd)

/-- Read packed storage into a packed tile (R305). The header's t is 0, since R303 gives spar no bit for it (log 99), and the gap word before
FP64 values is 0 (log 88): the model's choices. -/
def loadPacked (o : TileOp) (k : CopyCtx) : CopyM Unit := do
  let mut ks : List (Nat × Nat) := []
  for i in List.range o.tr do
    let n₀ := o.firstKept
    let n := o.rowKept
    CopyCtx.tallyGlobal (o.keptBytes n₀ n)
    let row ← (List.range n).mapM fun q => o.readKept k i (o.row i).toNat (n₀ + q)
    ks := ks ++ row
  let lg := o.t.log
  let idx := packElems 1 (ks.length * lg) fun b => (ks.getD (b / lg) (0, 0)).1 / 2 ^ (b % lg) % 2
  let hdr := BitVec.ofNat 32 (o.t.keep + lg * 16 + crcWords idx * 2 ^ 16)
  let gap := (List.range (o.valAt - 1 - o.idxWords)).map fun _ => (0 : Word)
  let words := hdr :: idx ++ gap ++ packElems o.t.bits ks.length fun q => (ks.getD q (0, 0)).2
  CopyCtx.put (.pad o.wg o.off) (words.flatMap fun w => bytesOf 4 w.toNat)

/-- The scratch bytes that hold tile row `i` at tensor columns `lo` to `hi` (R309). -/
def padBytes (o : TileOp) (i lo hi : Nat) : Nat :=
  let at_ (j : Nat) : Nat := o.bitAt' i ((j : Int) - o.col).toNat
  if hi ≤ lo then 0 else cdiv (at_ hi) 8 - at_ lo / 8

/-- The canonical elements of tile row `i` at tensor columns `lo` to `hi`. -/
def elems (o : TileOp) (data : List Byte) (i lo hi : Nat) : List Nat :=
  (List.range (hi - lo)).map fun (n : Nat) =>
    let p := o.bitAt' i ((lo : Int) + (n : Int) - o.col).toNat
    bitsOf (data.drop (p / 8)) (p % 8) o.t.bits

/-- Write codes of `w` bits, 4 or 8 a byte or more, from element `j` of a row; a byte that is not covered is read, and merged as the
write is performed (R308). DESIGN CHOICE (log 82): so the unused high nibble of the last byte of an odd-length NQ4 block keeps its
value. -/
def putCodes (k : CopyCtx) (row : DWord) (w j : Nat) (xs : List Nat) : CopyM Unit := do
  let first := j * w / 8
  let last := cdiv ((j + xs.length) * w) 8
  let low := j * w % 8
  let high := 8 * last - (j + xs.length) * w
  if low ≠ 0 then let _ ← k.read (plus row first) 1
  if high ≠ 0 then let _ ← k.read (plus row (last - 1)) 1
  let body := (mapFrom (fun n x => x % 2 ^ w * 2 ^ (n * w)) 0 xs).foldl (· + ·) 0 * 2 ^ low
  if xs ≠ [] then CopyCtx.put (.mem (plus row first).toNat) (bytesOf (last - first) body) low high

/-- Write the elements of one tile row to its tensor row (R307, R308). DESIGN CHOICE (log 82): the unused high nibble of the last
element byte of an odd-length partial s4 block is written 0. -/
def storeRow (o : TileOp) (k : CopyCtx) (data : List Byte) (i r : Nat) : CopyM Unit := do
  let t := o.t
  let row := t.rowAt r
  let (lo, hi) := o.span
  if hi ≤ lo then pure ()
  else if t.fmt = 0x10 then
    for b in (List.range (cdiv hi 64)).drop (lo / 64) do
      let n := min 64 (t.dim0 - 64 * b)
      let s ← k.read (plus t.scale1 (4 * (t.nqBlock r (64 * b) / 256))) 4
      let xs := o.elems data i (64 * b) (64 * b + n)
      let free := k.s.free + r * 4096 + b
      let y : List Nat × Nat := if (unpack .f32 (ofBytes s)).isNan
        then ((List.range n).map fun q => (Config.nanScale free (q + 1)).toNat % 16, (Config.nanScale free 0).toNat)
        else nqPack o.cv (ofBytes s) xs
      putCodes k row 4 (64 * b) y.1
      CopyCtx.put (.mem (plus t.scale0 (t.nqBlock r (64 * b))).toNat) (bytesOf 1 y.2)
  else if t.fmt ≥ 0x11 then
    let ty := blockType t.fmt
    for b in (List.range (cdiv hi 32)).drop (lo / 32) do
      let bl := t.blockAt b
      let y := blockPack o.cv ty (o.elems data i (32 * b) (32 * b + bl.2.1))
      let body := (mapFrom (fun n x => x * 2 ^ (n * tyWidth ty)) 0 y.1).foldl (· + ·) 0
      CopyCtx.put (.mem (plus row bl.1).toNat) (bytesOf (bl.2.2 - bl.1) body ++ bytesOf 1 y.2)
  else putCodes k row t.bits lo ((o.elems data i lo hi).map (plainCode o.cv curvePack t.fmt))

/-- The rows that a store writes: inside the tensor, and not marked invalid (R307). -/
def stored (o : TileOp) (valid : List Byte) : List (Nat × Nat) :=
  (List.range o.tr).filterMap fun i => if o.v && bitsOf valid i 1 = 0 then none else (o.inside i).map fun r => (i, r)

/-- Write a dense tile to the tensor (R307). -/
def storeDense (o : TileOp) (k : CopyCtx) : CopyM Unit := do
  let valid ← if o.v then k.readPad o.wg o.off o.vlen else pure []
  let data ← k.readPad o.wg (o.off + o.vlen) o.denseLen
  let rows := o.stored valid
  CopyCtx.tally (rows.foldl (fun n ir => n + o.padBytes ir.1 o.span.1 o.span.2) o.vlen)
  for ir in rows do o.storeRow k data ir.1 ir.2

/-- Write a packed tile to packed storage: values and index fields, row by row (R304, R307). -/
def storePacked (o : TileOp) (k : CopyCtx) : CopyM Unit := do
  let data ← k.readPad o.wg o.off o.packedLen
  CopyCtx.tally o.packedLen
  let w := o.t.bits
  let n := o.rowKept
  for i in List.range o.tr do
    let row := o.t.rowAt (o.row i).toNat
    let vals := (List.range n).map fun q => plainCode o.cv curvePack o.t.fmt (bitsOf (data.drop (4 * o.valAt)) ((i * n + q) * w) w)
    let idxs := (List.range (n * o.t.log)).map fun b => bitsOf (data.drop 4) (i * n * o.t.log + b) 1
    putCodes k row w o.firstKept vals
    putCodes k row 1 (o.t.dim0 * o.t.keep / o.t.group * w + o.firstKept * o.t.log) idxs

end TileOp

/-- The first failing check among conditions given in order; 0 when none fails. -/
def firstStatus (l : List (Bool × Nat)) : Nat :=
  match l with
  | [] => 0
  | (b, st) :: t => if b then st else firstStatus t

/-- A tile operation reads its descriptor and its compand table as it starts, and never again (R82, R303). -/
def tileStart (k : CopyCtx) (e : BitVec 256) : Begun × CopyAcc :=
  let b := k.begun.getD {}
  if b.desc ≠ [] then (b, {})
  else
    let r := (k.read (Ent.addr e) 64).run {}
    ({ desc := r.1, table := fget? (k.s.ctxFields k.ctx).tables (tdescOf r.1).cmp }, r.2)

/-- TLOAD, TSTORE, GATHER and SCATTER (R305-R308). -/
def tileEntry (k : CopyCtx) (e : BitVec 256) (store indexed : Bool) : Ended :=
  if Ent.bad e then copyStatus k Cpy.entBad
  else if (Ent.addr e).toNat % 64 ≠ 0 then copyStatus k Cpy.descBad
  else
    let (b, a) := tileStart k e
    if a.code.isSome || a.poison then copyFinish k a
    else
      let t := tdescOf b.desc
      let tr := Ent.tRows e
      let tc := Ent.tCols e
      let v := Ent.v e
      let listAt := scratchTarget k.s k.wg false (BitVec.ofNat 32 (Ent.extra e)) (4 * tr)
      let list := ((k.s.wg? k.wg).map fun g => scratchRead k.wg g (Ent.extra e) (4 * tr)).getD []
      let o₀ : TileOp := { t := t, cv := curveOf b.table, wg := k.wg, off := 0, vlen := if v then (if tr ≤ 32 then 4 else 32) else 0
                           tr := tr, tc := tc, col := Ent.orgCol e, pk := Ent.pk e, v := v
                           row := fun i => if indexed then simm 32 (ofBytes ((list.drop (4 * i)).take 4)) else Ent.orgRow e + i }
      let place := scratchTarget k.s k.wg (Ent.cl e) (Ent.soff e) o₀.len
      let o := { o₀ with wg := (place.getD (0, 0)).1, off := (place.getD (0, 0)).2 }
      let n : Int := t.block
      let packed := t.spar ≠ 0
      let clipped : Bool := (List.range tr).any (fun i => (o.inside i).isNone) || decide (o.col < (0 : Int)) || decide (o.col + (tc : Int) > (t.dim0 : Int))
      let st := firstStatus [(t.bad, Cpy.descBad), (!t.fmtOk, Cpy.fmtBad), (!(b.table.map tableOk).getD true, Cpy.compandBad), (t.sparseBad, Cpy.fmtBad),
        (tr < 1 || tr > 256 || tc < 1 || tc > 256, Cpy.entBad),
        ((Ent.soff e).toNat % (if t.canon = 0 then 8 else 4) ≠ 0, Cpy.entBad), (indexed && Ent.extra e % 4 ≠ 0, Cpy.entBad),
        (store && (o.col % n ≠ 0 || ((o.col + (tc : Int)) % n ≠ 0 && decide (o.col + (tc : Int) < (t.dim0 : Int)))), Cpy.entBad),
        (packed && (!o.pk || v), Cpy.entBad), (indexed && listAt.isNone, Cpy.scratchBad), (place.isNone, Cpy.scratchBad),
        (packed && (clipped || o.col.toNat % t.group ≠ 0 || tc % t.group ≠ 0), Cpy.entBad)]
      if st ≠ 0 then copyStatus k st
      else
        let body : CopyM Unit := do
          if indexed then let _ ← k.readPad k.wg (Ent.extra e) (4 * tr)
          if store && indexed then CopyCtx.tally (4 * tr)
          if store then (if packed then o.storePacked k else o.storeDense k)
          else if packed then o.loadPacked k else o.loadDense k
        copyFinish k (body.run a).2

/-- Two ranges of the same memory have a byte in common. -/
def rangesMeet (a b n : Nat) : Bool := a < b + n && b < a + n

/-- LCOPY (R306, R310). That an empty range beyond the allocation is SCRATCH_BAD is the model's choice, here and in FILL (log 103). -/
def lcopyEntry (k : CopyCtx) (e : BitVec 256) : Ended :=
  let n := Ent.extra e
  let mode := Ent.mode e
  let pad := scratchTarget k.s k.wg (Ent.cl e) (Ent.soff e) n
  let pad2 := scratchTarget k.s k.wg false (BitVec.ofNat 32 (bitsAt e 128 32)) n
  let (g, off) := pad.getD (0, 0)
  let (g', off') := pad2.getD (0, 0)
  let a := Ent.addr e
  let b := Ent.second e
  let st := firstStatus [(Ent.bad e || (mode ≠ 2 && (Ent.soff e).toNat % 4 ≠ 0), Cpy.entBad), (n > 2 ^ 24, Cpy.lenBad),
    (mode = 2 && rangesMeet a.toNat b.toNat n, Cpy.entBad),
    (mode = 3 && pad.isSome && pad2.isSome && g = g' && rangesMeet off off' n, Cpy.entBad),
    (mode ≠ 2 && pad.isNone, Cpy.scratchBad), (mode = 3 && pad2.isNone, Cpy.scratchBad)]
  if st ≠ 0 then copyStatus k st
  else
    let body : CopyM Unit := do
      if mode % 2 = 0 then CopyCtx.tallyGlobal n else CopyCtx.tally n
      match mode with
      | 0 => do let bs ← k.read a n (some 0); CopyCtx.put (.pad g off) bs
      | 1 => do let bs ← k.readPad g off n; CopyCtx.put (.mem a.toNat) bs
      | 2 => do let bs ← k.read a n (some 0); CopyCtx.put (.mem b.toNat) bs
      | _ => do let bs ← k.readPad g off n; CopyCtx.put (.pad g' off') bs
    if n = 0 then copyStatus k Cpy.ok else copyFinish k (body.run {}).2

/-- FILL (R310; log 103). -/
def fillEntry (k : CopyCtx) (e : BitVec 256) : Ended :=
  let n := Ent.extra e
  let toMem := Ent.mode e = 1
  let at_ := if toMem then (Ent.addr e).toNat else (Ent.soff e).toNat
  let pad := scratchTarget k.s k.wg (Ent.cl e) (Ent.soff e) n
  let st := firstStatus [(Ent.bad e, Cpy.entBad), (n % 4 ≠ 0 || at_ % 4 ≠ 0, Cpy.entBad), (!toMem && pad.isNone, Cpy.scratchBad)]
  if st ≠ 0 then copyStatus k st
  else
    let bs := (List.range (n / 4)).flatMap fun _ => bytesOf 4 (bitsAt e 128 32)
    let body : CopyM Unit := CopyCtx.put (if toMem then .mem at_ else .pad (pad.getD (0, 0)).1 (pad.getD (0, 0)).2) bs
    if n = 0 then copyStatus k Cpy.ok else copyFinish k (body.run {}).2

/-- HINT mode 0: no access; translations may be cached (R311). -/
def hintL2Entry (k : CopyCtx) (e : BitVec 256) : Ended :=
  if Ent.bad e then copyStatus k Cpy.entBad
  else (some { status := Cpy.ok, bytes := 0 },
    k.s.setMem (cacheEntries k.s.mem k.ctx (prefPieces k.s k.ctx (Ent.addr e) (Ent.extra e) 0)))

/-- HINT mode 1 (R311): the slot's tag state is read once, as the entry starts. -/
def hintTagEntry (k : CopyCtx) (e : BitVec 256) : Ended :=
  let g := fgetD k.s.wgs k.wg { launch := 0, num := 0, core := 0 }
  let hd := (k.s.launchOf g).hdr
  let n := Ent.extra e
  let slot := (Ent.soff e).toNat
  let t := g.tags.getD slot {}
  let st := firstStatus [(Ent.bad e || n > 2 ^ hd.tagLog, Cpy.entBad),
    (k.begun.isNone && (slot ≥ g.tags.length || !t.valid || t.key ≠ Ent.second e), Cpy.stale)]
  if st ≠ 0 then copyStatus k st
  else
    let body : CopyM Unit := do
      CopyCtx.tallyGlobal n
      let bs ← k.read (Ent.addr e) n (some 0)
      CopyCtx.put (.pad k.wg (hd.tagBase.toNat + slot * 2 ^ hd.tagLog)) bs
    if n = 0 then copyStatus k Cpy.ok else copyFinish k (body.run {}).2

-- Fields of an RCOPY entry (R302, R312).
namespace Ent
def handle (e : BitVec 256) : Nat := bitsAt e 128 32
def remote (e : BitVec 256) : Nat := bitsAt e 160 32
def peer (e : BitVec 256) : Nat := bitsAt e 192 16
end Ent

/-- The handle, peer and range of an RCOPY are good (R312, R377). -/
def rcopyOk (s : State) (e : BitVec 256) : Bool :=
  match fget? s.hub.handles (Ent.handle e) with
  | none => false
  | some h => !h.aborted && h.members.any fun m => m.domain = Ent.peer e && Ent.remote e + Ent.extra e ≤ m.len

/-- Transfers on a handle stall while a peer of it is RECOVERING (R375). -/
def Handle.stalls (k : Handle) (recovering : List Nat) : Bool := k.members.any fun m => recovering.contains m.domain

/-- The handle that an RCOPY names. -/
def rcopyHandle (s : State) (e : BitVec 256) : Handle := fgetD s.hub.handles (Ent.handle e) { members := [] }

/-- The transfers of an RCOPY stall. -/
def rcopyStalls (s : State) (e : BitVec 256) : Bool := (rcopyHandle s e).stalls s.hub.recovering

/-- The destination of a transfer that is cut off: each byte holds its old value or its transferred one (R312). -/
def tornBytes (s : State) (ctx : Nat) (va : DWord) (n : Nat) : State :=
  match translateRange s ctx va.toNat n 0 .store with
  | .fault _ => s
  | .ok ps =>
    let old := readPieces s.mem ps
    let new := mapFrom (fun i b => if Config.anyBool s.free (2 + i) then Config.anyByte s.free i else b) 0 old
    s.setMem (writePieces s.mem ps new)

/-- An RCOPY that was running when its handle was aborted (R312, R377). -/
def rcopyLost (k : CopyCtx) (e : BitVec 256) : Ended :=
  let read := (if Config.anyBool k.s.free 1 then Ent.extra e else ofBytes ((List.range 4).map fun i => Config.anyByte k.s.free i) % (Ent.extra e + 1))
  (some { status := Cpy.peerLost, bytes := read }, if Ent.mode e = 1 then tornBytes k.s k.ctx (Ent.addr e) (Ent.extra e) else k.s)

/-- The entry was running when its handle was aborted (R377): it had started, or stood at the head of its queue, where whether it
had started is a free choice. `queue` names its queue and entry number. -/
def ranAtAbort (k : CopyCtx) (e : BitVec 256) (queue : Nat × Word) : Bool :=
  (rcopyHandle k.s e).aborted && (k.begun.isSome || ((rcopyHandle k.s e).atAbort.contains queue && Config.anyBool k.s.free 0))

/-- RCOPY put: its tokens leave, and it ends when the peer has acknowledged them (R312, R376), or when its handle is aborted
(R377). `token` names them. -/
def rcopyPutEntry (k : CopyCtx) (e : BitVec 256) (token : Nat) (queue : Nat × Word) : Ended :=
  let st := firstStatus [(Ent.bad e, Cpy.entBad), (!rcopyOk k.s e, Cpy.handleBad)]
  let sent := (rcopyHandle k.s e).sent.contains token
  let acked (s : State) : State := s.modHandle (Ent.handle e) fun h => { h with sent := h.sent.filter fun x => x != token }
  if sent && (rcopyHandle k.s e).aborted then ((rcopyLost k e).1, acked (rcopyLost k e).2)
  else if st = Cpy.handleBad && ranAtAbort k e queue then rcopyLost k e
  else if st ≠ 0 then copyStatus k st
  else if rcopyStalls k.s e then (none, k.s)
  else
    let n := Ent.extra e
    let body : CopyM Unit := do
      CopyCtx.tallyGlobal n
      let _ ← k.read (Ent.addr e) n (some 0)
    if n = 0 then copyStatus k Cpy.ok
    else if sent then (some { status := Cpy.ok, bytes := n }, acked k.s)
    else
      let r := copyFinish k (body.run {}).2
      match r.1 with
      | some { status := 0, bytes := _ } => (none, r.2.modHandle (Ent.handle e) fun h => { h with sent := token :: h.sent })
      | _ => r

/-- RCOPY get, as its bytes have arrived, or as its handle has been aborted (R312, R377). That it reports the bytes that have arrived as read
is the model's choice (log 47). -/
def rcopyGetEntry (k : CopyCtx) (e : BitVec 256) (data : List Byte) (queue : Nat × Word) : Ended :=
  let n := Ent.extra e
  let st := firstStatus [(Ent.bad e, Cpy.entBad), (!rcopyOk k.s e, Cpy.handleBad)]
  if st = Cpy.handleBad && ranAtAbort k e queue then rcopyLost k e
  else if st ≠ 0 then copyStatus k st
  else if rcopyStalls k.s e || data.length ≠ n then (none, k.s)
  else
    let body : CopyM Unit := do
      CopyCtx.tally n
      CopyCtx.put (.mem (Ent.addr e).toNat) data
    if n = 0 then copyStatus k Cpy.ok else copyFinish k (body.run {}).2

/-- QFENCE: it waits until each named queue has passed its recorded tail (R312). That a queue which the launch has not declared counts as one
whose tail and done counts are 0 is the model's choice (log 103). -/
def qfenceEntry (k : CopyCtx) (e : BitVec 256) : Ended :=
  let g := fgetD k.s.wgs k.wg { launch := 0, num := 0, core := 0 }
  let passed (q : Nat) : Bool := ((g.queues.getD q {}).done - e.extractLsb' (128 + 32 * q) 32).toInt ≥ 0
  if Ent.bad e then copyStatus k Cpy.entBad
  else if (List.range 4).all fun q => !(bitAt (Ent.soff e) q) || passed q then copyStatus k Cpy.ok
  else (none, k.s)

/-- The entry that a queue's engine takes next (R299): not complete, and not performed yet. -/
def headEntry (s : State) (wg q : Nat) : Option (BitVec 256) :=
  match s.wg? wg with
  | none => none
  | some g =>
    let u := g.queues.getD q {}
    if q ≥ g.queues.length || u.tail = u.done || u.performed.isSome then none else some (fgetD u.ring (u.done.toNat % 32) 0)

/-- The done count of a queue. -/
def queueDone (s : State) (wg q : Nat) : Word := ((s.wg? wg).map fun g => (g.queues.getD q {}).done).getD 0

/-- Change queue `q` of a workgroup. -/
def modCopyQueue (s : State) (wg q : Nat) (f : CopyQueue → CopyQueue) : State :=
  s.modWg wg fun g => { g with queues := setAt g.queues q (f (g.queues.getD q {})) }

/-- What an entry that is delayed holds from its start: descriptor and table, once they are read, the tag check that has passed, or that it has
started at all (R303, R311, R313, R375). A QFENCE that waits has not started. -/
def startOf (k : CopyCtx) (e : BitVec 256) : Option Begun :=
  match Ent.op e, Ent.mode e with
  | 0x01, _ | 0x02, _ | 0x04, _ | 0x05, _ =>
    let r := tileStart k e
    some (if r.2.code.isSome then {} else r.1)
  | 0x09, _ => none
  | _, _ => some (k.begun.getD {})

/-- The engine performs the entry that a queue takes next, when it is one of those that `mine` accepts and the queue is not
stopped (R299, R300). -/
def performEntry (s : State) (wg q : Nat) (mine : Nat → Nat → Bool) (run : CopyCtx → BitVec 256 → Ended) : Out :=
  match headEntry s wg q with
  | none => onlyIf false s s
  | some e =>
    let g := fgetD s.wgs wg { launch := 0, num := 0, core := 0 }
    if (g.queues.getD q {}).stopped || !mine (Ent.op e) (Ent.mode e) then onlyIf false s s
    else
      let k : CopyCtx := { s := s, ctx := (s.launchOf g).ctx, wg := wg, die := g.core / 48, begun := (g.queues.getD q {}).begun }
      let r := run k e
      onlyIf true s (modCopyQueue r.2 wg q fun u => match r.1 with
        | none => { u with begun := startOf k e }
        | some res => { u with performed := some res, begun := none })

/-- TLOAD (R307). -/
def execTload (s : State) : Out :=
  match s.event with
  | some (.tload wg q) => performEntry s wg q (fun op _ => op = 0x01) fun k e => tileEntry k e false false
  | _ => .fault .notPosted

/-- TSTORE (R307). -/
def execTstore (s : State) : Out :=
  match s.event with
  | some (.tstore wg q) => performEntry s wg q (fun op _ => op = 0x02) fun k e => tileEntry k e true false
  | _ => .fault .notPosted

/-- LCOPY (R310). -/
def execLcopy (s : State) : Out :=
  match s.event with
  | some (.lcopy wg q) => performEntry s wg q (fun op _ => op = 0x03) lcopyEntry
  | _ => .fault .notPosted

/-- GATHER (R307). -/
def execGather (s : State) : Out :=
  match s.event with
  | some (.gather wg q) => performEntry s wg q (fun op _ => op = 0x04) fun k e => tileEntry k e false true
  | _ => .fault .notPosted

/-- SCATTER (R307). -/
def execScatter (s : State) : Out :=
  match s.event with
  | some (.scatter wg q) => performEntry s wg q (fun op _ => op = 0x05) fun k e => tileEntry k e true true
  | _ => .fault .notPosted

/-- FILL (R310). -/
def execFill (s : State) : Out :=
  match s.event with
  | some (.fill wg q) => performEntry s wg q (fun op _ => op = 0x06) fillEntry
  | _ => .fault .notPosted

/-- HINT_L2 (R311). -/
def execHintL2 (s : State) : Out :=
  match s.event with
  | some (.hintL2 wg q) => performEntry s wg q (fun op mode => op = 0x07 && mode ≠ 1) hintL2Entry
  | _ => .fault .notPosted

/-- HINT_TAG (R311). -/
def execHintTag (s : State) : Out :=
  match s.event with
  | some (.hintTag wg q) => performEntry s wg q (fun op mode => op = 0x07 && mode = 1) hintTagEntry
  | _ => .fault .notPosted

/-- RCOPY_PUT (R312). -/
def execRcopyPut (s : State) : Out :=
  match s.event with
  | some (.rcopyPut wg q) => performEntry s wg q (fun op mode => op = 0x08 && mode ≠ 1) fun k e => rcopyPutEntry k e (4 * wg + q) (4 * wg + q, queueDone s wg q)
  | _ => .fault .notPosted

/-- RCOPY_GET (R312). -/
def execRcopyGet (s : State) : Out :=
  match s.event with
  | some (.rcopyGet wg q data) => performEntry s wg q (fun op mode => op = 0x08 && mode = 1) fun k e => rcopyGetEntry k e data (4 * wg + q, queueDone s wg q)
  | _ => .fault .notPosted

/-- QFENCE (R312). -/
def execQfence (s : State) : Out :=
  match s.event with
  | some (.qfence wg q) => performEntry s wg q (fun op _ => op = 0x09) qfenceEntry
  | _ => .fault .notPosted

/-- The event record of a copy completion (R313). -/
def copyRecord (g : Workgroup) (q seq time : Nat) (e : BitVec 256) (entry : Word) (r : CopyResult) : Record :=
  recordOf seq time 0x0010 (r.status + q * 2 ^ 8 + Ent.ctr e * 2 ^ 10 + g.num * 2 ^ 16 + entry.toNat * 2 ^ 48 + r.bytes * 2 ^ 80)

/-- Steps 1 to 4 of a completion: last_bytes, the err word, the counter, and the event record, which goes to the event
stream (R299, R313). -/
def beginEntry (s : State) (wg q : Nat) (r : CopyResult) : State :=
  match s.wg? wg with
  | none => s
  | some g =>
    let u := g.queues.getD q {}
    let e := fgetD u.ring (u.done.toNat % 32) 0
    let errWord := BitVec.ofNat 32 (r.status + u.done.toNat % 2 ^ 24 * 256)
    let s₁ := modCopyQueue s wg q fun u => { u with performed := some r, last := BitVec.ofNat 32 r.bytes, err := if r.status ≠ Cpy.ok && u.err = 0 then errWord else u.err }
    let s₂ := if Ent.dc e && Ent.ctr e < 16 then counterAdd s₁ wg (Ent.ctr e) (-1) else s₁
    if !Ent.evt e then s₂
    else
      let (n, s') := s₂.number (g.core / 48)
      match reportsTo s' (s'.launchOf g) with
      | some (lq, _) =>
        let rc := copyRecord g q n (clockOf s' (g.core / 48)) e u.done r
        modCopyQueue (postRecord s' lq rc) wg q fun u => { u with posted := some rc }
      | none => s'

/-- Step 5 of a completion: the done count; a failure stops the queue, is reported to Jasper, and POISON is contained (R299,
R300, R313). -/
def endEntry (s : State) (wg q : Nat) (r : CopyResult) : State :=
  match s.wg? wg with
  | none => s
  | some g =>
    let failed := r.status ≠ Cpy.ok && r.status ≠ Cpy.skipped
    let s₁ := modCopyQueue s wg q fun u => { u with done := u.done + 1, performed := none, posted := none, stopped := u.stopped || failed }
    if !failed then s₁
    else
      let (n, s₂) := s₁.number (g.core / 48)
      let s₃ := s₂.notify (g.core / 48) (.copyError n r.status)
      if r.status = Cpy.poison then containWg s₃ wg else s₃

/-- The record is still on its way to an event ring (R323). -/
def onItsWay (s : State) (rc : List Byte) : Bool := s.hub.queues.any fun p => p.2.records.contains rc

/-- An entry completes with a result (R299, R300, R313); the done count waits for an event record that is not written yet. -/
def completeEntry (s : State) (wg q : Nat) (r : CopyResult) : State :=
  let u := (fgetD s.wgs wg { launch := 0, num := 0, core := 0 }).queues.getD q {}
  match u.posted with
  | some rc => if onItsWay s rc then s else endEntry s wg q r
  | none =>
    let s' := beginEntry s wg q r
    let u' := (fgetD s'.wgs wg { launch := 0, num := 0, core := 0 }).queues.getD q {}
    if u'.posted.isSome then s' else endEntry s' wg q r

/-- COPY_ENTRY_COMPLETE (R299): an entry that has been performed, or one whose operation does not exist (R302). -/
def execCopyEntryComplete (s : State) : Out :=
  match s.event with
  | some (.copyEntryComplete wg q) =>
    match s.wg? wg with
    | none => onlyIf false s s
    | some g =>
      let u := g.queues.getD q {}
      match u.performed, headEntry s wg q with
      | some r, _ => onlyIf (u.tail != u.done && q < g.queues.length) s (completeEntry s wg q r)
      | none, some e => onlyIf (!u.stopped && !(1 ≤ Ent.op e && Ent.op e ≤ 9)) s (completeEntry s wg q { status := Cpy.opBad, bytes := 0 })
      | none, none => onlyIf false s s
  | _ => .fault .notPosted

/-- COPY_ENTRY_SKIP (R300). -/
def execCopyEntrySkip (s : State) : Out :=
  match s.event with
  | some (.copyEntrySkip wg q) =>
    let u := (fgetD s.wgs wg { launch := 0, num := 0, core := 0 }).queues.getD q {}
    onlyIf ((headEntry s wg q).isSome && u.stopped) s (completeEntry s wg q { status := Cpy.skipped, bytes := 0 })
  | _ => .fault .notPosted

end Sys2Proof.Machine
end

