-- ==== Sys2Proof/Machine/CopyQueue.lean ====
section
/-! DEFINITION. The instructions that touch the copy queues: CPYQ, CPYF and CPYS (R314-R317). -/

namespace Sys2Proof.Machine

/-- Queue number in a lane: the field, or bits 0-1 of a register (R314). -/
def queueOf (x : Ext) (e : Env) (l : Lane) : Nat := if x.bit 13 then bitsAt (l.rd e 40 x.b.toNat) 0 2 else x.field 11 2

/-- The checks of R314 on the queue number, and then `f` on the queue. A gang without an executing lane has no register
operand to check, and goes on with the warp `w`. -/
def queueChecked (h : Hdr) (x : Ext) (s : State) (w : Gang → Warp) (f : Gang → Nat → Out) : Out :=
  issued h x.words s fun q =>
    let val (i : Nat) : Nat := queueOf x (q.env i) (q.lane i)
    let k := val q.lead
    let live := q.exec ≠ 0 || !x.bit 13
    if q.differing val ≠ 0 then trapGang q s Code.uniform 0 (q.differing val)
    else if live && (if q.exec = 0 then x.field 11 2 else k) ≥ (s.wgOf q.w).queues.length then trapGang q s Code.illegalEnc 0 q.mask
    else if q.exec = 0 then retire q h.sw (w q) s
    else f q k

/-- The entry in v(a) to v(a+7) of a lane (R315). -/
def entryIn (x : Ext) (e : Env) (l : Lane) : BitVec 256 :=
  BitVec.ofNat 256 (ofBytes ((List.range 8).flatMap fun k => bytesOf 4 (l.rd e k (x.a.toNat + k)).toNat))

/-- Free slots of a ring (R298). -/
def ringRoom (u : CopyQueue) : Nat := 32 - (u.tail - u.done).toNat

/-- Write entries at the tail of a queue, and advance it (R315). -/
def pushEntries (s : State) (wg k : Nat) (es : List (BitVec 256)) : State :=
  modCopyQueue s wg k fun u => es.foldl (fun u e => { u with ring := fput 0 u.ring (u.tail.toNat % 32) e, tail := u.tail + 1 }) u

/-- CPYQ (R315). -/
def execCpyq (h : Hdr) (x : Ext) (s : State) : Out :=
  queueChecked h x s (fun q => q.ended.w) fun q k =>
    let u := (s.wgOf q.w).queues.getD k {}
    if q.pending || ringRoom u < popCount q.exec then waitIssue q s
    else retire q h.sw (openRegion q q.ended.w) (pushEntries s q.w.wg k ((lanesOf q.exec).map fun i => entryIn x (q.env i) (q.lane i)))

/-- The QFENCE entry of a CPYF (R316); an undeclared queue has the tail 0 (log 103). -/
def fenceEntry (g : Workgroup) (mask : Nat) : BitVec 256 :=
  let tail (q : Nat) : Nat := if mask.testBit q then (g.queues.getD q {}).tail.toNat else 0
  BitVec.ofNat 256 (0x09 + mask * 2 ^ 32 + tail 0 * 2 ^ 128 + tail 1 * 2 ^ 160 + tail 2 * 2 ^ 192 + tail 3 * 2 ^ 224)

/-- CPYF (R316). -/
def execCpyf (h : Hdr) (x : Ext) (s : State) : Out :=
  queueChecked h x s (fun q => q.ended.w) fun q k =>
    let g := s.wgOf q.w
    if q.pending || ringRoom (g.queues.getD k {}) < 1 then waitIssue q s
    else retire q h.sw q.ended.w (pushEntries s q.w.wg k [fenceEntry g (x.field 14 4)])

/-- The word that a CPYS reads (R317). -/
def cpysWord (u : CopyQueue) (sel : Nat) : Word :=
  match sel with
  | 0 => u.tail
  | 1 => u.done
  | 3 => u.last
  | _ => u.err

/-- CPYS (R317). -/
def execCpys (h : Hdr) (x : Ext) (s : State) : Out :=
  queueChecked h x s (fun q => q.w) fun q k =>
    let sel := x.field 14 3
    let y := cpysWord ((s.wgOf q.w).queues.getD k {}) sel
    retire q h.sw (q.w.mapIn q.exec fun _ l => l.addPend { regs := [(x.d.toNat, y)] })
      (if sel = 4 then modCopyQueue s q.w.wg k fun u => { u with err := 0, stopped := false } else s)

end Sys2Proof.Machine
end

