-- ==== Sys2Proof/Machine/Dispense.lean ====
section
/-! DEFINITION. The dispensers and the distributors: chunks, blocks and lane blocks (R20, R336), filling lanes and warps
(R337, R338), placement on cores and quarters (R15, R333-R335), dictionary loads (R45), and REFILL (R348). -/

namespace Sys2Proof.Machine

/-- How an access made for the hub, Jasper or a core's loader ends (R417): in pieces, delayed, or lost. -/
inductive Reach where
  | ok (ps : List Piece)
  | delayed (s : State)
  | lost

/-- Translate an access of the hub, or of a unit of die `arb` (R24). A fault that Jasper resolves only delays it (R242, R417). `i` tells the
choices of one step apart. -/
def reach (s : State) (ctx va n i : Nat) (acc : Access) (arb : Nat := 4) : Reach :=
  if n = 0 then .ok [] else if va ≥ 2 ^ 57 then .lost else
  match faultAt s ctx (BitVec.ofNat 64 va) n i acc with
  | none => .ok (piecesAt s ctx (BitVec.ofNat 64 va) n i acc)
  | some (code, at_) =>
    match resolve s { arb := arb, ctx := ctx, code := code, va := at_.toNat, store := acc = .store } i with
    | some t => .delayed t
    | none => .lost

/-- What a read for the hub finds. -/
inductive HubRead where
  | bytes (bs : List Byte)
  | delayed (s : State)
  /-- It cannot be resolved. -/
  | lost
  /-- The data are poisoned. -/
  | poison

/-- Read bytes for the hub (R417). -/
def hubRead (s : State) (ctx va n i : Nat) (arb : Nat := 4) : HubRead :=
  match reach s ctx va n i .load arb with
  | .ok ps => if piecesPoisoned s.mem ps then .poison else .bytes (readPieces s.mem ps)
  | .delayed t => .delayed t
  | .lost => .lost

/-- How a write for the hub ends. -/
inductive HubWrite where
  | written (s : State)
  | delayed (s : State)
  | lost

/-- Write bytes for the hub (R417). -/
def hubWrite (s : State) (ctx va i : Nat) (bs : List Byte) : HubWrite :=
  match reach s ctx va bs.length i .store with
  | .ok ps => .written (s.setMem (writePieces s.mem ps bs))
  | .delayed t => .delayed t
  | .lost => .lost

/-- The end of the 4,096-aligned chunk, and of the 32-aligned block, that holds identifier `x` (R20, R336). -/
def chunkEnd (x : Nat) : Nat := (x / 4096 + 1) * 4096
def blockEnd (x : Nat) : Nat := (x / 32 + 1) * 32

/-- What a die has claimed of a launch. -/
def Launch.die (L : Launch) (die : Nat) : Dispense := fgetD L.dies die {}

/-- The die claims the next chunk from the hub counter (R20). -/
def Launch.claim (L : Launch) (die : Nat) : Option Launch :=
  match L.pool with
  | [] => none
  | (lo, hi) :: t =>
    let e := min hi (chunkEnd lo)
    some { L with pool := if e < hi then (e, hi) :: t else t, dies := fset L.dies die { L.die die with chunkLo := lo, chunkHi := e } }

/-- The next block of the die's chunk (R336). -/
def Launch.cut (L : Launch) (die : Nat) : (Nat × Nat) × Launch :=
  let d := L.die die
  let e := min d.chunkHi (blockEnd d.chunkLo)
  ((d.chunkLo, e), { L with dies := fset L.dies die { d with chunkLo := e } })

/-- The next block of the die, out of a new chunk when the last is used up (R20, R336). -/
def Launch.nextBlock (L : Launch) (die : Nat) : Option ((Nat × Nat) × Launch) :=
  if (L.die die).chunkLo < (L.die die).chunkHi then some (L.cut die) else (L.claim die).map fun L' => L'.cut die

/-- The block of a whole-warp fill: the next one, or, once the hub counter is exhausted, first the rest of the lane block
(R336). -/
def Launch.takeBlock (L : Launch) (die : Nat) : Option ((Nat × Nat) × Launch) :=
  let d := L.die die
  if L.pool = [] && decide (d.laneLo < d.laneHi) then
    some ((d.laneLo, d.laneHi), { L with dies := fset L.dies die { d with laneLo := d.laneHi } })
  else L.nextBlock die

/-- The next identifier of the lane block (R336). -/
def Launch.takeLane (L : Launch) (die : Nat) : Option (Nat × Launch) :=
  let d := L.die die
  let give (L : Launch) (lo hi : Nat) : Nat × Launch := (lo, { L with dies := fset L.dies die { L.die die with laneLo := lo + 1, laneHi := hi } })
  if d.laneLo < d.laneHi then some (give L d.laneLo d.laneHi)
  else (L.nextBlock die).map fun r => give r.2 r.1.1 r.1.2

/-- Fill a lane with identifier `x`, to start at `pc`, at dispatch or, if not `fresh`, at a refill (R337). -/
def fillLane (hd : Header) (x : Nat) (pc : PC) (fresh : Bool) (l : Lane) : Lane :=
  let base : Lane := if fresh then {} else { regs := l.regs, wgen := l.wgen + 1, handler := l.handler }
  { base with
    regs := fput 0 (fput 0 base.regs 0 (lo32 hd.args)) 1 (hi32 hd.args)
    wid := BitVec.ofNat 64 x, fst := 0, slv := 0x28, preds := 0, shapes := [], rowMasks := [], region := pc, vacant := false }

/-- A warp as a whole-warp fill leaves it: lanes 0 to n − 1 with the identifiers of a block, at `pc`; joins cleared, depth
0 (R338). Nelrak-1 code is translated before it runs (R402). -/
def fillWarp (hd : Header) (w : Warp) (lo hi : Nat) (pc : PC) (fresh : Bool) : Warp :=
  let n := hi - lo
  let away : Option Wait := if hd.isaRev = 1 then some (.translation 0) else none
  let w' := w.mapLanes fun i l => if i < n then { fillLane hd (lo + i) pc fresh l with wait := away } else if fresh then {} else l
  let m := maskOf fun i => decide (i < n)
  { w' with
    slices := (List.range 8).map fun s => { slots := if sub4 m s = 0 then [] else [{ pc := pc, mask := sub4 m s }] }
    joins := (List.range 8).map fun _ => {}
    members := [] }

/-- The addresses at which a dispatched and a refilled warp start (R329). -/
def entryPc (hd : Header) : PC := hd.code + hd.entryOff.setWidth 64
def refillPc (hd : Header) : PC := hd.code + hd.refillOff.setWidth 64

/-- Hold a launch. -/
def State.setLaunch (s : State) (k : Nat) (L : Launch) : State := s.modLaunch k fun _ => L

/-- CHUNK_CLAIM (R20): a die with nothing left of its chunk claims the next one. -/
def execChunkClaim (s : State) : Out :=
  match s.event with
  | some (.chunkClaim k die) =>
    match s.launch? k with
    | none => onlyIf false s s
    | some L =>
      if (L.die die).chunkLo < (L.die die).chunkHi || !L.usedDies.contains die || L.hdr.resident then onlyIf false s s
      else
        match L.claim die with
        | none => onlyIf false s s
        | some L' => onlyIf true s (s.setLaunch k L')
  | _ => .fault .notPosted

/-- A warp with no item left takes a block, or leaves (R338). -/
def refillWarp (s : State) (wk : Nat) (w : Warp) : State :=
  let k := (s.wgOf w).launch
  let L := s.launchOfWarp w
  match L.takeBlock (dieOfKey wk) with
  | none => leaveWarp s wk
  | some ((lo, hi), L') => (s.setLaunch k L').setWarp wk { fillWarp L.hdr w lo hi (refillPc L.hdr) false with trap := none, causes := [], jasper := [] }

/-- WARP_REFILL (R338). -/
def execWarpRefill (s : State) : Out :=
  match s.event with
  | some (.warpRefill wk) =>
    match s.warp? wk with
    | none => onlyIf false s s
    | some w => onlyIf (w.live = 0 && w.stop == .running) s (refillWarp s wk w)
  | _ => .fault .notPosted

/-- DISPENSER_CLOSE (R338). -/
def execDispenserClose (s : State) : Out :=
  match s.event with
  | some (.dispenserClose k) => onlyIf (s.launch? k).isSome s (s.modLaunch k Launch.close)
  | _ => .fault .notPosted

/-- The warps of a core's quarter, by position. -/
def quarterWarps (s : State) (core quarter : Nat) : FMap Warp := s.warps.filter fun p => p.1 / 16 = core * 4 + quarter

/-- Free register words of a quarter, beside warps of `g` registers at the positions `taken` (R15). -/
def freeWords (s : State) (core quarter g : Nat) (taken : List Nat) : Nat :=
  let used := (quarterWarps s core quarter).foldl (fun n p => n + 32 * s.regsOf p.2) 0
  65536 - used - 32 * g * (taken.filter fun k => k / 16 = core * 4 + quarter).length

/-- The lowest free warp slot of a quarter (R333). -/
def freeSlot (s : State) (core quarter : Nat) (taken : List Nat) : Option Nat :=
  ((List.range 16).map fun i => (core * 4 + quarter) * 16 + i).find? fun k => (s.warp? k).isNone && !taken.contains k

/-- The position of the next warp: on the quarter with the most free register words among those that can take it, ties to
the lower one, and there in the lowest free slot (R15, R333). -/
def nextSpot (s : State) (core g : Nat) (taken : List Nat) : Option Nat :=
  let qs := [0, 1, 2, 3].filter fun q => (freeSlot s core q taken).isSome && decide (32 * g ≤ freeWords s core q g taken)
  let best := qs.foldl (fun b q => match b with
    | none => some q
    | some b => some (if freeWords s core b g taken < freeWords s core q g taken then q else b)) none
  best.bind fun q => freeSlot s core q taken

/-- Positions of `n` warps of `g` registers on a core, in order. -/
def spots (s : State) (core g n : Nat) (taken : List Nat) : Option (List Nat) :=
  match n with
  | 0 => some taken
  | n + 1 =>
    match nextSpot s core g taken with
    | none => none
    | some k => spots s core g n (taken ++ [k])

/-- The dictionary identity of a launch (R44). -/
def dictId (L : Launch) : Nat × DWord × Nat := (L.ctx, L.hdr.dict, L.hdr.dictSize)

/-- The bank holds the identity. -/
def Bank.holds (b : Bank) (i : Nat × DWord × Nat) : Bool := (b.ctx, b.addr, b.size) = i

/-- The workgroups resident on a core. -/
def wgsOn (s : State) (core : Nat) : FMap Workgroup := s.wgs.filter fun g => g.2.core = core

/-- The dictionary identities of the workgroups resident on a core, each once. -/
def idsOn (s : State) (core : Nat) : List (Nat × DWord × Nat) :=
  (wgsOn s core).foldl (fun l g =>
    let L := s.launchOf g.2
    if L.hdr.dictSize = 0 || l.contains (dictId L) then l else dictId L :: l) []

/-- Scratchpad bytes that a workgroup takes of its core, with its stacks and its rings (R333). -/
def padCost (hd : Header) : Nat := allocOf hd + 512 * hd.warps + 1024 * hd.queues

/-- Where the warps of a workgroup of `L` would go on a core, if it has all of R333 free. -/
def coreFits (s : State) (L : Launch) (core : Nat) : Option (List Nat) :=
  let hs := (wgsOn s core).map fun g => (s.launchOf g.2).hdr
  let sum (f : Header → Nat) : Nat := hs.foldl (fun n h => n + f h) 0
  let dict : Bool := L.hdr.dictSize = 0 || (idsOn s core).contains (dictId L) || decide ((idsOn s core).length < 2)
  if sum padCost + padCost L.hdr ≤ 393216 && sum (·.tagSlots) + L.hdr.tagSlots ≤ 1024
      && (!L.hdr.dctr || decide ((hs.filter (·.dctr)).length < 4)) && dict then spots s core L.hdr.regs L.hdr.warps [] else none

/-- The core that the distributor of a die takes: in the lowest cluster that has a fitting one, the first after the core
used last there (R333). -/
def pickCore (s : State) (L : Launch) (die : Nat) : Option (Nat × List Nat) :=
  (List.range 12).findSome? fun c =>
    let last := fgetD s.hub.lastCore (die * 12 + c) 3
    (List.range 4).findSome? fun i =>
      let core := die * 48 + 4 * c + (last + 1 + i) % 4
      (coreFits s L core).map fun l => (core, l)

/-- The cluster of a die that takes a whole cluster set (R334). -/
def pickCluster (s : State) (L : Launch) (die : Nat) : Option Nat :=
  (List.range 12).find? fun c => (List.range 4).all fun r => (coreFits s L (die * 48 + 4 * c + r)).isSome

/-- The lowest `n` granules of a core's scratchpad that no resident workgroup takes. -/
def freeGranules (s : State) (core n : Nat) : List Nat :=
  ((List.range 384).filter fun j => !((wgsOn s core).any fun g => g.2.granules.contains j)).take n

/-- The bytes that the distributor writes as 0 before it places a workgroup of a context: the granules that another context wrote last
(R416). -/
def zeroedPad (c : Core) (ctx : Nat) (granules : List Nat) : FMap Byte :=
  (mapFrom (fun j n => (j, n)) 0 granules).flatMap fun p =>
    match fget? c.writers p.2 with
    | some w => if w = ctx then [] else (List.range 1024).map fun i => (1024 * p.1 + i, 0)
    | none => []

/-- A bank that no resident workgroup of its identity keeps is free, and is loaded anew before one starts (R44). -/
def freshBank (s : State) (L : Launch) (core : Nat) : State :=
  if L.hdr.dictSize = 0 || (idsOn s core).contains (dictId L) || !((s.coreOf core).banks.any fun b => b.holds (dictId L)) then s
  else s.modCore core fun c => { c with banks := c.banks.filter fun b => !b.holds (dictId L) }

/-- A workgroup as it starts (R229, R268, R276, R298, R416). -/
def newWg (k num core : Nat) (hd : Header) (cset : Option Nat) (granules : List Nat) (pad : FMap Byte) : Workgroup :=
  { launch := k, num := num, core := core, cset := cset, granules := granules, scratch := pad
    bars := (List.range 8).map fun _ => {}
    counters := if hd.dctr then (List.range 16).map fun _ => 0 else []
    queues := (List.range hd.queues).map fun _ => {}
    tags := (List.range hd.tagSlots).map fun _ => {} }

/-- A warp as it is dispatched, before its items (R338). -/
def newWarp (wg uid widx age limit : Nat) : Warp :=
  { wg := wg, uid := uid, widx := widx, age := age, limit := limit
    lanes := (List.range 32).map fun _ => {}, slices := (List.range 8).map fun _ => {}, joins := (List.range 8).map fun _ => {} }

/-- The items of a warp at dispatch: the next block of the die, or, for a RESIDENT launch, the 32 identifiers of its place
(R335, R338). -/
def dispatchItems (L : Launch) (die num widx : Nat) : Option ((Nat × Nat) × Launch) :=
  if L.hdr.resident then
    let lo := 32 * (num * L.hdr.warps + widx)
    let hi := min L.hdr.items.toNat (lo + 32)
    if lo < hi then some ((lo, hi), L) else none
  else L.takeBlock die

/-- Dispatch one warp of a workgroup at a position; one that finds no item leaves at once (R338). -/
def dispatchWarp (k wg num : Nat) (s : State) (at_ : Nat × Nat) : State :=
  match s.launch? k with
  | none => s
  | some L =>
    let core := coreOfKey at_.2
    match dispatchItems L (dieOfKey at_.2) num at_.1 with
    | none => s
    | some ((lo, hi), L') =>
      let limit := (s.ctxFields L.ctx).waitLimit.toNat * 1000
      let w := newWarp wg s.uid at_.1 (s.coreOf core).dispatched limit
      let s₁ := (s.setLaunch k L').setWarp at_.2 (fillWarp L.hdr w lo hi (entryPc L.hdr) true)
      let s₂ := s₁.modWg wg fun g => { g with warps := fset g.warps at_.1 at_.2 }
      { s₂.modCore core (fun c => { c with dispatched := c.dispatched + 1 }) with uid := s.uid + 1 }

/-- Place the next workgroup of launch `k` on a core, its warps at the positions given (R331, R333). -/
def buildWg (s : State) (k core : Nat) (ps : List Nat) (cset : Option Nat) : State :=
  match s.launch? k with
  | none => s
  | some L =>
    let die := core / 48
    let id := s.uid
    let L' := { L with
      nextWg := L.nextWg + 1, tStart := some (L.tStart.getD (clockOf s die))
      usedDies := if L.usedDies.contains die then L.usedDies else die :: L.usedDies }
    let gs := freeGranules s core (allocOf L.hdr / 1024)
    let s₀ := freshBank s L core
    let s₁ := { s₀.setLaunch k L' with
      wgs := fset s.wgs id (newWg k L.nextWg core L.hdr cset gs (zeroedPad (s.coreOf core) L.ctx gs)), uid := s.uid + 1 }
    let s₂ := (mapFrom (fun i p => (i, p)) 0 ps).foldl (dispatchWarp k id L.nextWg) s₁
    match cset with
    | none => s₂.modHub fun h => { h with lastCore := fset h.lastCore (core / 4) (core % 4) }
    | some c => s₂.modHub fun h => { h with
        lastCore := fset h.lastCore (core / 4) (core % 4)
        csets := fmod h.csets c fun x => { x with members := fset x.members (core % 4) id } }

/-- Place one workgroup, or one cluster set, of launch `k` on a die (R333, R334). -/
def placeOn (s : State) (k die : Nat) : Option State :=
  match s.launch? k with
  | none => none
  | some L =>
    if !L.hdr.clset then (pickCore s L die).map fun p => buildWg s k p.1 p.2 none
    else
      (pickCluster s L die).map fun c =>
        let id := s.uid
        let cs : ClusterSet := { launch := k, cluster := die * 12 + c, bars := (List.range 8).map fun _ => {}, members := [] }
        let s₁ := { s.modHub (fun h => { h with csets := fset h.csets id cs }) with uid := s.uid + 1 }
        (List.range 4).foldl (fun s r =>
          let core := die * 48 + 4 * c + r
          buildWg s k core ((coreFits s L core).getD []) (some id)) s₁

/-- The dies that may run a launch (R329). -/
def diesOf (hd : Header) : List Nat := [0, 1, 2, 3].filter fun d => hd.dieMask = 0 || hd.dieMask.testBit d

/-- Place `n` workgroups or sets of a RESIDENT launch, each on a permitted die that can take it; where several can, which one
is a free choice (R335). -/
def placeMany (s : State) (k n : Nat) (dies : List Nat) : Option State :=
  match n with
  | 0 => some s
  | n + 1 =>
    let j := Config.placeDie s.free n % dies.length
    match (dies.drop j ++ dies.take j).findSome? fun d => placeOn s k d with
    | none => none
    | some s' => placeMany s' k n dies

/-- Workgroups that a RESIDENT launch needs (R335). -/
def residentWgs (hd : Header) : Nat :=
  let g := cdiv hd.items.toNat (32 * hd.warps)
  if hd.clset then roundUp g 4 else g

/-- The distributor of a die places what it can place of launch `k`: a workgroup, a cluster set, or all of a RESIDENT launch
(R333-R335). -/
def placement (s : State) (k die : Nat) : Option State :=
  match s.launch? k with
  | none => none
  | some L =>
    if L.stage != .running || L.status ≠ 0 || L.contain || !(diesOf L.hdr).contains die then none
    else if L.hdr.resident then
      if L.placed || L.ranges = [] then none
      else
        let n := if L.hdr.clset then residentWgs L.hdr / 4 else residentWgs L.hdr
        (placeMany s k n (diesOf L.hdr)).map fun t => t.modLaunch k fun L => { L with placed := true, pool := [] }
    else if noItems L die then none
    else placeOn s k die

/-- The cores on which a placement has put a workgroup. -/
def newCores (s t : State) : List Nat := (t.wgs.filter fun g => (s.wg? g.1).isNone).map fun g => g.2.core

/-- Among launches that wait for the same core, on any die, the higher prio is placed first, then the earlier start (R333). -/
def placedFirst (s : State) (k : Nat) (L : Launch) (cores : List Nat) : Bool :=
  !(s.hub.launches.any fun p => p.1 != k
    && (decide (p.2.hdr.prio > L.hdr.prio) || (p.2.hdr.prio = L.hdr.prio && decide (p.2.order < L.order)))
    && [0, 1, 2, 3].any fun die => match placement s p.1 die with
      | some t => (newCores s t).any cores.contains
      | none => false)

/-- WORKGROUP_PLACEMENT (R333). -/
def execWorkgroupPlacement (s : State) : Out :=
  match s.event with
  | some (.workgroupPlacement k die) =>
    match s.launch? k, placement s k die with
    | some L, some t => onlyIf (s.power.phase == .running && placedFirst s k L (newCores s t)) s t
    | _, _ => onlyIf false s s
  | _ => .fault .notPosted

/-- A launch ends at once: its dispenser closes, its workgroups stop unsaved, and its record gets a status (R45). -/
def endLaunch (s : State) (k status : Nat) : State :=
  (stopWgs (s.modLaunch k Launch.close) fun j => j == k).modLaunch k fun L => { L with status := status }

/-- The words of a dictionary. -/
def wordsOf (n : Nat) (bs : List Byte) : List Word := (List.range n).map fun i => BitVec.ofNat 32 (ofBytes ((bs.drop (4 * i)).take 4))

/-- Load the dictionary of `L` into a bank of the core that no resident workgroup uses (R44, R45). -/
def loadBank (s : State) (L : Launch) (core : Nat) (bs : List Byte) : State :=
  let used := idsOn s core
  s.modCore core fun c => { c with
    banks := (c.banks.filter fun b => used.any fun i => b.holds i) ++ [{ ctx := L.ctx, addr := L.hdr.dict, size := L.hdr.dictSize, words := wordsOf L.hdr.dictSize bs }] }

/-- DICTIONARY_LOAD (R45): a core loads the dictionary of a workgroup that has been placed on it, before it starts; a load
that cannot be made ends the launch with DICT_BAD, unless it met poison in an idempotent node or launch (R343). -/
def execDictionaryLoad (s : State) : Out :=
  match s.event with
  | some (.dictionaryLoad k core) =>
    match s.launch? k with
    | none => onlyIf false s s
    | some L =>
      if L.hdr.dictSize = 0 || !((wgsOn s core).any fun g => g.2.launch = k) || (s.coreOf core).banks.any (fun b => b.holds (dictId L)) then onlyIf false s s
      else
        match hubRead s L.ctx L.hdr.dict.toNat (4 * L.hdr.dictSize) 0 (core / 48) with
        | .bytes bs => onlyIf true s (loadBank s L core bs)
        | .delayed t => onlyIf true s t
        | .lost => onlyIf true s (endLaunch s k 0x0C)
        | .poison => onlyIf true s (if L.idem then s.modLaunch k fun L => { L with contain := true } else endLaunch s k 0x0C)
  | _ => .fault .notPosted

/-- The vacant lanes that a REFILL may fill: in a slice that takes part in the gang, or in one with no live PC slot
(R348). -/
def refillable (q : Gang) : Mask :=
  maskOf fun i => (q.w.lane i).vacant && (sub4 q.mask (i / 4) ≠ 0 || ((q.w.slices.getD (i / 4) {}).slots.isEmpty && (q.w.slices.getD (i / 4) {}).aside.isEmpty))

/-- Take identifiers for lanes, in ascending order, while one remains (R336, R348). -/
def takeLanes (L : Launch) (die : Nat) (ls : List Nat) : List (Nat × Nat) × Launch :=
  match ls with
  | [] => ([], L)
  | i :: t =>
    match L.takeLane die with
    | none => ([], L)
    | some (x, L') =>
      let r := takeLanes L' die t
      ((i, x) :: r.1, r.2)

/-- REFILL (R348): a switch point; the filled lanes join their slice's slot at the next instruction, with pd set. A lane
filled by a handler runs in the handler. -/
def execRefill (h : Hdr) (x : Ext) (s : State) : Out :=
  issued h x.words s fun q =>
    let pd := x.d.toNat
    let k := (s.wgOf q.w).launch
    let L := s.launchOfWarp q.w
    let r := if q.exec = 0 then ([], L) else takeLanes L (dieOfKey q.wk) (lanesOf (refillable q))
    let hand := inHandler q.w q.mask
    let w₁ := (q.w.mapIn q.exec fun _ l => (l.wrP pd false).setRegion q.next).advance q.pc q.next q.mask
    let w₂ := w₁.mapLanes fun i l => match r.1.find? fun p => p.1 = i with
      | some (_, id) => { (fillLane L.hdr id q.next false l).wrP pd true with handler := hand }
      | none => l
    let got := maskOf fun i => r.1.any fun p => p.1 = i
    let w₃ := w₂.mapSlices fun n sl => if sub4 got n = 0 then sl else { sl with slots := joinSlot sl.slots { pc := q.next, mask := sub4 got n } }
    commit (s.setLaunch k r.2) q.wk (w₃.switchPoint q.mask)

end Sys2Proof.Machine
end

