-- ==== Sys2Proof/Machine/Launches.lean ====
section
/-! DEFINITION. Launches: the header and its checks (R329, R330), the start, retirement (R339), the completion record, the
signal (R331, R332, R417), and containment (R343). -/

namespace Sys2Proof.Machine

-- Statuses of R330.
namespace Status
def hdrBad : Nat := 0x01
def hdrFields : Nat := 0x02
def hdrTag : Nat := 0x03
def mmRev : Nat := 0x04
def isaRev : Nat := 0x05
def noFit : Nat := 0x06
def residentFail : Nat := 0x07
def hdrRead : Nat := 0x0D
end Status

-- Queue error codes of R417.
namespace QErr
def pktBad : Nat := 0x09
def ringOvf : Nat := 0x0A
def queueCfg : Nat := 0x0B
def queueFault : Nat := 0x0E
end QErr

/-- The header in 128 bytes (R329). -/
def parseHeader (bs : List Byte) : Header :=
  let x := ofBytes bs
  let f (lo n : Nat) : Nat := natBits x lo n
  { code := BitVec.ofNat 64 (f 0 64), dict := BitVec.ofNat 64 (f 64 64), args := BitVec.ofNat 64 (f 128 64)
    items := BitVec.ofNat 64 (f 192 64), scratch := BitVec.ofNat 32 (f 256 32), entryOff := BitVec.ofNat 32 (f 288 32)
    refillOff := BitVec.ofNat 32 (f 320 32), widths := (List.range 6).map fun k => f (352 + 8 * k) 8
    regs := 8 * (f 400 5 + 1), warps := f 405 5 + 1, prio := f 410 3, queues := f 413 3
    resident := f 416 1 = 1, clset := f 417 1 = 1, dctr := f 418 1 = 1, dictSize := f 432 11
    isaRev := f 448 4, mmRev := f 452 4, dieMask := f 456 4, tagSlots := f 464 10, tagLog := f 474 4
    tagBase := BitVec.ofNat 32 (f 480 32)
    clean := f 419 13 = 0 && f 443 5 = 0 && f 460 4 = 0 && f 478 2 = 0 && f 512 512 = 0 }

/-- HDR_BAD (R330). -/
def hdrBad (h : Header) : Bool :=
  !h.clean || h.code.toNat % 4 ≠ 0 || h.dict.toNat % 4 ≠ 0 || h.entryOff.toNat % 4 ≠ 0 || h.refillOff.toNat % 4 ≠ 0
  || decide (h.queues > 4) || decide (h.dictSize > 1024)

/-- HDR_FIELDS (R19). -/
def hdrFields (h : Header) : Bool :=
  let w := h.widths.foldl (· + ·) 0
  decide (w > 64) || (decide (w < 64) && decide (h.items.toNat > 2 ^ w))

/-- HDR_TAG (R228). -/
def hdrTag (h : Header) : Bool :=
  if h.tagSlots = 0 then h.tagLog ≠ 0
  else decide (h.tagSlots > 512) || decide (h.tagLog < 6) || decide (h.tagLog > 12) || h.tagBase.toNat % 2 ^ h.tagLog ≠ 0
    || decide (h.tagBase.toNat + h.tagSlots * 2 ^ h.tagLog > allocOf h)

/-- How many workgroups an empty core holds, up to `fuel` (R333, R335). -/
def coreHolds (h : Header) (fuel : Nat) : Nat :=
  match fuel with
  | 0 => 0
  | n + 1 =>
    let k := n + 1
    if k * padCost h ≤ 393216 && k * h.tagSlots ≤ 1024 && (!h.dctr || decide (k ≤ 4)) && (spots {} 0 h.regs (k * h.warps) []).isSome then k
    else coreHolds h n

/-- The checks of a header, in order; 0 when it passes (R330). `mode` is the context's mm_mode. -/
def headerStatus (mode : Nat) (h : Header) : Nat :=
  let k := coreHolds h 64
  let room := 48 * (diesOf h).length * k
  firstStatus [(hdrBad h, Status.hdrBad), (hdrFields h, Status.hdrFields), (hdrTag h, Status.hdrTag),
    (decide (h.mmRev < 1) || decide (h.mmRev > 3) || decide (h.mmRev < mode), Status.mmRev),
    (h.isaRev ≠ 3 && h.isaRev ≠ 1, Status.isaRev), (h.items ≠ 0 && k = 0, Status.noFit),
    (h.items ≠ 0 && h.resident && decide (residentWgs h > room), Status.residentFail)]

/-- What a packet or a node asks for when it starts a launch. -/
structure Order where
  ctx : Nat
  by_ : Starter
  hdrAt : DWord
  recAt : DWord
  sig : DWord := 0
  sigVal : DWord := 0
  idem : Bool
  retry : Nat
  tries : Nat := 0
  outs : List (DWord × Nat) := []
  deadline : Option Nat := none
  /-- The ranges to which a drained launch is restricted (R403). -/
  only : Option (List (Nat × Nat)) := none

/-- A launch that has started, or one whose header is still out of reach. -/
inductive Began where
  | started (s : State)
  | delayed (s : State)

/-- Take up a launch with its header and its status so far. -/
def openLaunch (s : State) (o : Order) (h : Header) (status : Nat) : State :=
  let ranges := if status ≠ 0 || h.items = 0 then [] else ((o.only.getD [(0, h.items.toNat)]).map fun r => (r.1, min r.2 h.items.toNat)).filter fun r => decide (r.1 < r.2)
  let L : Launch :=
    { ctx := o.ctx, by_ := o.by_, hdr := h, recAt := o.recAt, sig := o.sig, sigVal := o.sigVal, idem := o.idem, retry := o.retry, tries := o.tries
      outs := o.outs, pool := ranges, ranges := ranges, status := status, deadline := o.deadline, tBegin := clockOf s 4, order := s.hub.started
      rollback := decide (o.tries ≠ 0) }
  { s.modHub (fun hb => { hb with launches := fset hb.launches s.uid L, started := hb.started + 1 }) with uid := s.uid + 1 }

/-- A launch starts: its header is read once and checked (R329, R330, R417). -/
def startLaunch (s : State) (o : Order) : Began :=
  match hubRead s o.ctx o.hdrAt.toNat 128 1 with
  | .bytes bs => .started (openLaunch s o (parseHeader bs) (headerStatus (s.ctxFields o.ctx).mmMode (parseHeader bs)))
  | .delayed t => .delayed t
  | .lost | .poison => .started (openLaunch s o {} Status.hdrRead)

/-- A queue stops with an error, or meets one while it is stopped, and a queue-error record goes to its event stream (R327, R328,
R417). -/
def stopQueue (s : State) (q err : Nat) (pkt : Word) : State :=
  if (s.queueOf q).state = 2 then s
  else
    let (n, s') := (s.modQueue q fun u => { u with state := 1, err := err }).number 4
    postRecord s' q (recordOf n (clockOf s' 4) 0x0004 (err + pkt.toNat * 2 ^ 16))

/-- The context of a queue has been killed. -/
def queueKilled (s : State) (u : Queue) : Bool := (u.ctx.map fun c => (s.ctxFields c).killed).getD false

/-- A packet completes; read_idx passes it and every completed one that follows (R320, R326). -/
def packetDone (s : State) (q : Nat) (idx : Word) : State :=
  s.modQueue q fun u =>
    let v := ({ u with started := u.started.map fun (p : Started) => if p.idx = idx then { p with done := true } else p } : Queue).pass
    if queueKilled s u then v.retired else v

/-- WORKGROUP_RETIRE (R339): every warp has left and every copy queue is empty; its REDs are accepted as they issue. -/
def execWorkgroupRetire (s : State) : Out :=
  match s.event with
  | some (.workgroupRetire k) =>
    match s.wg? k with
    | none => onlyIf false s s
    | some g => onlyIf (g.warps.isEmpty && g.queues.all fun u => u.tail == u.done) s
        ((removeWg s k).modLaunch g.launch fun L => { L with wgRetired := L.wgRetired + 1 })
  | _ => .fault .notPosted

/-- The bytes of a completion record (R331): bits 32 to 34 of `flags` are those of the record. -/
def completionBytes (status flags items lost mat scr wgs t₀ t₁ seq : Nat) : List Byte :=
  bytesOf 4 status ++ bytesOf 4 flags ++ bytesOf 8 items ++ bytesOf 4 lost ++ bytesOf 4 mat ++ bytesOf 4 scr ++ bytesOf 4 wgs ++ bytesOf 8 t₀
    ++ bytesOf 8 t₁ ++ bytesOf 8 seq ++ bytesOf 8 0

/-- deadline_miss, rollback and closed, from bit 0. -/
def flagBits (miss rollback closed : Bool) : Nat := miss.toNat + 2 * rollback.toNat + 4 * closed.toNat

/-- The launch-completion event record (R324). -/
def completionEvent (seq time status flags : Nat) (pkt : Word) (at_ : DWord) : Record :=
  recordOf seq time 0x0001 (status % 256 + flags * 2 ^ 8 + pkt.toNat * 2 ^ 16 + at_.toNat * 2 ^ 48)

/-- The event record of a launch whose completion is numbered. -/
def launchEvent (L : Launch) (pkt : Word) : Record :=
  completionEvent L.seq L.tEnd L.status (flagBits L.missed L.rollback L.closed) pkt L.recAt

/-- Everything that R332 asks for before a launch completes. -/
def launchDone (s : State) (k : Nat) (L : Launch) : Bool :=
  L.stage == .running && !L.contain && !L.remains && !(s.wgs.any fun g => g.2.launch = k) && !(s.hub.saved.any fun v => v.wg.launch = k)
  && !(s.mem.reds.any fun r => r.launch = k)

/-- At a time, the boundary with which a deadline of queue `q` passes is over, whether or not its tick has come (R328). -/
def overdue (s : State) (q time : Nat) (left : Option Nat) : Bool :=
  match left, fget? s.hub.gens ((s.queueOf q).tickSel - 1) with
  | some (m + 1), some x => (s.queueOf q).tickSel ≠ 0 && x.period ≠ 0 && decide (x.start.toNat + (x.next + m) * x.period.toNat < time)
  | _, _ => false

/-- A launch has missed its deadline at a time. -/
def Launch.late (s : State) (L : Launch) (time : Nat) : Bool :=
  L.missed || (match L.by_ with
    | .packet q _ => overdue s q time L.deadline
    | .node _ _ => false)

/-- A launch completes (R331, R332): its completion is numbered by the die on which alone it ran, else by the hub (R24), and
the record is written, the status word last. -/
def completeLaunch (s₀ : State) (k : Nat) (L : Launch) : State :=
  let arb := match L.usedDies with
    | [d] => d
    | _ => 4
  let (seq, s₁) := s₀.number arb
  let tEnd := clockOf s₀ arb
  let bs := completionBytes L.status (flagBits (L.late s₀ tEnd) L.rollback L.closed) L.itemsDone L.lostJoins L.matCorr L.scrCorr L.wgRetired
    (L.tStart.getD L.tBegin) tEnd seq
  let finish (s : State) (lost : Bool) : State :=
    let L' := { L with stage := .recorded, seq := seq, tEnd := tEnd, recLost := lost, missed := L.late s₀ tEnd }
    let s₂ := s.setLaunch k L'
    match reportsTo s L with
    | some (q, pkt) => postRecord s₂ q (launchEvent L' pkt)
    | none => s₂
  match reach s₀ L.ctx L.recAt.toNat bs.length 0 .store with
  | .ok ps => finish (s₁.setMem (writePieces s₁.mem ps bs)) false
  | .delayed t => t
  | .lost => finish s₁ true

/-- Everything that a graph has reached has completed (R341): no node of it has gone to another device (R403). -/
def graphDone (g : Graph) : Bool := g.stage == .running && g.ready.isEmpty && g.running.isEmpty && g.finished.isEmpty && g.moved.isEmpty

/-- A graph completes: its record is written as that of a launch; the spec does not say what the fields that count the work
of a launch hold for a graph (R331, R341). -/
def completeGraph (s : State) (k : Nat) (g : Graph) : State :=
  let (seq, s₁) := s.number 4
  let tEnd := clockOf s 4
  let n (lo len : Nat) : Nat := ofBytes ((List.range len).map fun i => Config.anyByte s.free (lo + i))
  let missed := g.missed || overdue s g.queue tEnd g.deadline
  let flags := flagBits missed (Config.anyBool s.free 100) (Config.anyBool s.free 101)
  let bs := completionBytes g.status flags (n 0 8) (n 8 4) (n 12 4) (n 16 4) (n 20 4) g.tBegin tEnd seq
  let finish (s : State) (lost : Bool) : State :=
    postRecord (s.modGraph k fun g => { g with stage := .recorded, seq := seq, tEnd := tEnd, recLost := lost, missed := missed }) g.queue
      (completionEvent seq tEnd g.status flags g.idx g.recAt)
  match reach s g.ctx g.recAt.toNat bs.length 0 .store with
  | .ok ps => finish (s₁.setMem (writePieces s₁.mem ps bs)) false
  | .delayed t => t
  | .lost => finish s₁ true

/-- LAUNCH_COMPLETION (R332), of a launch or of a task graph. -/
def execLaunchCompletion (s : State) : Out :=
  match s.event with
  | some (.launchCompletion k) =>
    match s.launch? k, s.graph? k with
    | some L, _ => onlyIf (launchDone s k L) s (completeLaunch s k L)
    | none, some g => onlyIf (graphDone g) s (completeGraph s k g)
    | none, none => onlyIf false s s
  | _ => .fault .notPosted

/-- How a signal ends: performed, or not needed, or lost. -/
def signalWrite (s : State) (ctx : Nat) (sig val : DWord) (recLost : Bool) : HubWrite :=
  if recLost then .lost else if sig = 0 then .written s else hubWrite s ctx sig.toNat 0 (bytesOf 8 val.toNat)

/-- A drain has reported identifiers of a launch that were not dispensed (R403). -/
def reported (s : State) (k : Nat) : Bool := s.hub.drains.any fun r => r.launch = k && r.ranges != []

/-- A launch is over: its packet is complete, or its node's successors are next (R326, R341), but for a node of which a drain has left a part to
another device (R403). -/
def closeOut (s : State) (k : Nat) (L : Launch) : State :=
  let s₁ := s.modHub fun h => { h with launches := ferase h.launches k }
  match L.by_ with
  | .packet q idx => packetDone s₁ q idx
  | .node gr node => s₁.modGraph gr fun g =>
      if !g.running.contains node then g
      else if reported s k then { g with running := g.running.filter (· != node), moved := node :: g.moved }
      else { g with running := g.running.filter (· != node), finished := node :: g.finished }

/-- LAUNCH_SIGNAL (R331): after the record; a record or a signal that is lost stops the queue (R417). -/
def execLaunchSignal (s : State) : Out :=
  match s.event with
  | some (.launchSignal k) =>
    match s.launch? k, s.graph? k with
    | some L, _ =>
      if L.stage != .recorded then onlyIf false s s
      else
        match signalWrite s L.ctx L.sig L.sigVal L.recLost, reportsTo s L with
        | .written t, _ => onlyIf true s (closeOut t k L)
        | .delayed t, _ => onlyIf true s t
        | .lost, some (q, pkt) => onlyIf true s (closeOut (stopQueue s q QErr.queueFault pkt) k L)
        | .lost, none => onlyIf true s (closeOut s k L)
    | none, some g =>
      let fin (t : State) : State := packetDone (t.modHub fun h => { h with graphs := ferase h.graphs k }) g.queue g.idx
      if g.stage != .recorded then onlyIf false s s
      else
        match signalWrite s g.ctx g.sig g.sigVal g.recLost with
        | .written t => onlyIf true s (fin t)
        | .delayed t => onlyIf true s t
        | .lost => onlyIf true s (fin (stopQueue s g.queue QErr.queueFault g.idx))
    | none, none => onlyIf false s s
  | _ => .fault .notPosted

/-- A record waits for the signal of its launch or graph (R332). -/
def beforeSignal (s : State) (r : Record) : Bool :=
  (s.hub.launches.any fun p => p.2.stage == .recorded && ((reportsTo s p.2).map fun q => r == launchEvent p.2 q.2).getD false)
  || (s.hub.graphs.any fun p => p.2.stage == .recorded && r.take 18 == bytesOf 8 p.2.seq ++ bytesOf 8 p.2.tEnd ++ bytesOf 2 1 && (r.drop 20).take 4 == bytesOf 4 p.2.idx.toNat)

/-- A record leaves the list of those that wait (R320, R323). -/
def dropRecord (s : State) (q : Nat) (rest : List Record) (write : Word) : State :=
  s.modQueue q fun u =>
    let v : Queue := { u with records := rest, evWrite := write }
    if queueKilled s u then v.retired else v

/-- The next record of a queue is written to its event ring (R323). One that cannot be written kills the context (R417). -/
def writeEvent (s : State) (q : Nat) (r : Record) (rest : List Record) : State :=
  let u := s.queueOf q
  match u.ctx with
  | none => s.modQueue q fun u => { u with records := rest }
  | some ctx =>
    match hubWrite s ctx (u.evBase.toNat + 32 * (u.evWrite.toNat % 2 ^ u.evLog)) 0 r with
    | .written t => dropRecord t q rest (u.evWrite + 1)
    | .delayed t => t
    | .lost => dropRecord (if (s.ctxFields ctx).killed then s else killCtx s ctx) q rest u.evWrite

/-- EVENT_RECORD_POST (R323). -/
def execEventRecordPost (s : State) : Out :=
  match s.event with
  | some (.eventRecordPost q) =>
    let u := s.queueOf q
    match u.records with
    | [] => onlyIf false s s
    | r :: rest => onlyIf (decide ((u.evWrite - u.evRead).toNat < 2 ^ u.evLog) && !beforeSignal s r) s (writeEvent s q r rest)
  | _ => .fault .notPosted

/-- Bytes without a stated value fill the output ranges of a launch (R343). -/
def scramble (s : State) (ctx : Nat) (outs : List (DWord × Nat)) : State :=
  (mapFrom (fun i o => (i, o)) 0 outs).foldl (fun s p =>
    match writeVa s ctx p.2.1.toNat 0 ((List.range p.2.2).map fun j => Config.anyByte s.free (2 ^ 64 * p.1 + j)) with
    | .ok t => t
    | .fault _ => s) s

/-- The walker counts a rerun in the node (R340). -/
def writeTries (s : State) (ctx : Nat) (by_ : Starter) (n : Nat) : State :=
  match by_ with
  | .packet _ _ => s
  | .node _ node =>
    match writeVa s ctx (node.toNat + 42) 0 (bytesOf 1 n) with
    | .ok t => t
    | .fault _ => s

/-- A launch in which a containment cause arose is stopped unsaved and run again from the first identifier, or, when it may
not be, kills its context (R343). -/
def rollback (s : State) (k : Nat) (L : Launch) : State :=
  if !(L.idem && decide (L.tries < L.retry)) then killCtx s L.ctx
  else
    let s₁ := stopWgs s fun j => j == k
    let s₃ := writeTries (scramble s₁ L.ctx L.outs) L.ctx L.by_ (L.tries + 1)
    s₃.setLaunch k { L with
      contain := false, tries := L.tries + 1, rollback := true, pool := L.ranges, dies := [], itemsDone := 0, lostJoins := 0
      wgRetired := 0, nextWg := 0, placed := false }

/-- NODE_ROLLBACK (R343). -/
def execNodeRollback (s : State) : Out :=
  match s.event with
  | some (.nodeRollback k) =>
    match s.launch? k with
    | none => onlyIf false s s
    | some L => onlyIf (L.contain && L.stage == .running) s (rollback s k L)
  | _ => .fault .notPosted

end Sys2Proof.Machine
end

