-- ==== Sys2Proof/Machine/Queues.lean ====
section
/-! DEFINITION. Launch queues: the register block (R319, R320, R327), tick generators (R321, R322), and packets
(R325-R328). -/

namespace Sys2Proof.Machine

/-- The range of a ring translates to pinned device-owned pages (R243, R320). -/
def ringPinned (s : State) (ctx : Nat) (base : DWord) (n : Nat) : Bool := pinnedRange s ctx base.toNat n 0

/-- The conditions of R320 under which a disabled queue is enabled. A killed context's queues stay disabled. -/
def enableOk (s : State) (u : Queue) : Bool :=
  match u.ctx with
  | none => false
  | some ctx =>
    !queueKilled s u && u.ringBase.toNat % 64 = 0 && u.evBase.toNat % 32 = 0 && decide (1 ≤ u.ringLog) && decide (u.ringLog ≤ 16)
    && decide (1 ≤ u.evLog) && decide (u.evLog ≤ 16) && decide (u.tickSel ≤ 8)
    && ringPinned s ctx u.ringBase (64 * 2 ^ u.ringLog) && ringPinned s ctx u.evBase (32 * 2 ^ u.evLog)

/-- A state field of 0: a disabled queue is enabled or gets QUEUE_CFG, a stopped queue is restarted (R320). -/
def requestRun (s : State) (q : Nat) : State :=
  let u := s.queueOf q
  match u.state with
  | 2 =>
    if enableOk s u then
      s.modQueue q fun u => { u with
        state := 0, writeIdx := 0, readIdx := 0, evWrite := 0, evRead := 0, wake := 0, err := 0, nextIdx := 0, started := [], hold := none, records := [] }
    else s.modQueue q fun u => { u with err := QErr.queueCfg }
  | 1 => s.modQueue q fun u => { u with state := 0, err := 0 }
  | _ => s

/-- The low or the high half of a 64-bit register is written. -/
def setHalf (x : DWord) (hi : Bool) (w : Word) : DWord := if hi then pair (lo32 x) w else pair w (hi32 x)

/-- A doorbell (R320, R327): write_idx is taken, and an overrun stops the queue. -/
def doorbell (s : State) (q : Nat) (val : Word) : State :=
  let u := s.queueOf q
  if u.state = 2 then s
  else
    let s' := s.modQueue q fun u => { u with writeIdx := val }
    if (val - u.readIdx).toNat > 2 ^ u.ringLog then stopQueue s' q QErr.ringOvf 0xFFFFFFFF else s'

/-- A host write of one 32-bit word of a queue's register block (R319, R320). -/
def writeReg (s : State) (q word : Nat) (val : Word) : State :=
  let off := (s.queueOf q).state = 2
  let cfg (f : Queue → Queue) : State := if off then s.modQueue q f else s
  match word with
  | 0 => cfg fun u => { u with ringBase := setHalf u.ringBase false val }
  | 1 => cfg fun u => { u with ringBase := setHalf u.ringBase true val }
  | 2 => doorbell s q val
  | 4 => if val = 0 then s.modQueue q fun u => { u with wake := 0 } else s
  | 5 =>
    let s' := cfg fun u => { u with ringLog := bitsAt val 0 5, tickSel := bitsAt val 5 4 }
    if bitsAt val 9 3 = 0 then requestRun s' q else s'
  | 6 => cfg fun u => { u with evBase := setHalf u.evBase false val }
  | 7 => cfg fun u => { u with evBase := setHalf u.evBase true val }
  | 8 => cfg fun u => { u with evLog := bitsAt val 0 5 }
  | 10 => s.modQueue q fun u => { u with evRead := val }
  | _ => s

/-- A host write to the block: 32 or 64 bits, naturally aligned; the window ignores any other (R320). -/
def writeBlock (s : State) (q off : Nat) (wide : Bool) (val : DWord) : State :=
  if off ≥ 64 || off % (if wide then 8 else 4) ≠ 0 then s
  else if wide then writeReg (writeReg s q (off / 4) (lo32 val)) q (off / 4 + 1) (hi32 val)
  else writeReg s q (off / 4) (lo32 val)

/-- The window answers: the device has power, and the queue exists (R319). -/
def windowOpen (s : State) (q : Nat) : Bool := s.power.phase != .off && s.power.phase != .held && decide (q < 4096)

/-- DOORBELL (R327). -/
def execDoorbell (s : State) : Out :=
  match s.event with
  | some (.doorbell q val) => onlyIf (windowOpen s q) s (writeReg s q 2 val)
  | _ => .fault .notPosted

/-- QUEUE_ENABLE (R320). -/
def execQueueEnable (s : State) : Out :=
  match s.event with
  | some (.queueEnable q val) => onlyIf (windowOpen s q && (s.queueOf q).state = 2 && bitsAt val 9 3 = 0) s (writeReg s q 5 val)
  | _ => .fault .notPosted

/-- QUEUE_RESTART (R320, R327). -/
def execQueueRestart (s : State) : Out :=
  match s.event with
  | some (.queueRestart q val) => onlyIf (windowOpen s q && (s.queueOf q).state = 1 && bitsAt val 9 3 = 0) s (writeReg s q 5 val)
  | _ => .fault .notPosted

/-- WAKE_CLEAR (R319). -/
def execWakeClear (s : State) : Out :=
  match s.event with
  | some (.wakeClear q) => onlyIf (windowOpen s q) s (writeReg s q 4 0)
  | _ => .fault .notPosted

/-- REGISTER_WRITE (R320). -/
def execRegisterWrite (s : State) : Out :=
  match s.event with
  | some (.registerWrite q off wide val) => onlyIf (windowOpen s q) s (writeBlock s q off wide val)
  | _ => .fault .notPosted

/-- The first boundary of a generator after a time, counted from its start (R321, R322). -/
def firstBoundary (start now period : Nat) : Nat := if now < start then 0 else (now - start) / period + 1

/-- TICK_GENERATOR_COMMIT (R322): a period from 1 to 999 is refused, 0 stops the generator. It comes after the TICK of every boundary that has
been reached. -/
def execTickGeneratorCommit (s : State) : Out :=
  match s.event with
  | some (.tickGeneratorCommit g start period) =>
    let p := period.toNat
    let new : Gen := { start := start, period := period, next := if p = 0 then 0 else firstBoundary start.toNat (clockOf s 4) p }
    onlyIf (windowOpen s 0 && decide (g < 8) && (p = 0 || decide (p ≥ 1000)) && !ticksDue s) s (s.modHub fun h => { h with gens := fset h.gens g new })
  | _ => .fault .notPosted

-- Fields of a packet (R325).
namespace Pkt
def kind (x : Nat) : Nat := natBits x 0 8
def bar (x : Nat) : Bool := x.testBit 8
def tick (x : Nat) : Bool := x.testBit 9
def idem (x : Nat) : Bool := x.testBit 10
def wake (x : Nat) : Bool := x.testBit 11
def deadline (x : Nat) : Nat := natBits x 16 16
def word (x lo : Nat) : DWord := BitVec.ofNat 64 (natBits x lo 64)

/-- The bits from 32 upward, as first bit and length, that a kind leaves reserved. -/
def reserved (kind : Nat) : List (Nat × Nat) :=
  match kind with
  | 1 => [(32, 32), (320, 192)]
  | 2 => [(48, 16), (448, 64)]
  | 3 => [(34, 30), (192, 320)]
  | 4 => [(32, 32), (96, 416)]
  | _ => [(32, 32), (160, 32), (384, 128)]

/-- Extension packets of a FENCE. -/
def extra (x : Nat) : Nat := cdiv (natBits x 32 4 - 3) 4

/-- PKT_BAD (R328), but for the conditions of a FENCE. `bound` tells whether the queue is bound to a generator. -/
def bad (bound : Bool) (x : Nat) : Bool :=
  let k := kind x
  let dead := deadline x ≠ 0
  k < 1 || k > 5 || natBits x 12 4 ≠ 0 || (reserved k).any (fun r => natBits x r.1 r.2 ≠ 0)
  || (idem x && k ≠ 1) || (wake x && k ≠ 4)
  || (dead && (!bound || k = 2 || k = 3 || k = 4)) || (!bound && (tick x || k = 4))
  || (match k with
    | 1 => natBits x 64 6 ≠ 0 || natBits x 128 6 ≠ 0 || natBits x 192 3 ≠ 0
    | 2 => decide (natBits x 32 4 > 12)
    | 3 => decide (natBits x 32 2 > 1) || natBits x 64 3 ≠ 0
    | 4 => natBits x 64 32 = 0
    | _ => natBits x 64 3 ≠ 0 || natBits x 192 6 ≠ 0 || natBits x 256 3 ≠ 0)
end Pkt

/-- The slot of a packet index. -/
def slotAt (u : Queue) (idx : Word) : Nat := u.ringBase.toNat + 64 * (idx.toNat % 2 ^ u.ringLog)

/-- The queue processor looks at the packet at `nextIdx` (R326): the queue runs, nothing holds it back, fewer than 16 packets
are incomplete, its context lives (R320), and no supply has been lost (R367). -/
def parses (s : State) (u : Queue) : Bool :=
  u.state = 0 && !queueKilled s u && u.hold.isNone && u.nextIdx != u.writeIdx && decide ((u.started.filter fun p => !p.done).length < 16) && s.power.phase == .running

/-- The packet at `nextIdx` has started; a FENCE takes `span` slots. -/
def beginPacket (s : State) (q : Nat) (span : Nat) : State :=
  s.modQueue q fun u => { u with started := u.started ++ [{ idx := u.nextIdx, done := false }], nextIdx := u.nextIdx + BitVec.ofNat 32 span }

/-- Boundaries that a deadline leaves: `d` for a packet that starts at a boundary, else one more (R328). -/
def deadlineOf (x : Nat) (atTick : Bool) : Option Nat :=
  if Pkt.deadline x = 0 then none else some (Pkt.deadline x + if atTick then 0 else 1)

/-- LAUNCH (R326, R329); `only` gives the ranges of one that another device has drained (R403). -/
def beginLaunch (s : State) (q ctx x : Nat) (atTick : Bool) (only : Option (List (Nat × Nat)) := none) : State :=
  let idx := (s.queueOf q).nextIdx
  let o : Order :=
    { ctx := ctx, by_ := .packet q idx, hdrAt := Pkt.word x 64, recAt := Pkt.word x 128, sig := Pkt.word x 192, sigVal := Pkt.word x 256
      idem := Pkt.idem x, retry := 3, deadline := deadlineOf x atTick, only := only }
  match startLaunch s o with
  | .started t => beginPacket t q 1
  | .delayed t => t

/-- The conditions of a FENCE, from its packet and its extension packets (R325). -/
def fenceConds (x : Nat) (ext : List Nat) : List FenceCond :=
  let cells := (List.range 3).map (fun j => natBits x (64 + 128 * j) 128) ++ ext.flatMap fun e => (List.range 4).map fun j => natBits e (128 * j) 128
  mapFrom (fun j c => { addr := BitVec.ofNat 64 c, val := BitVec.ofNat 64 (c / 2 ^ 64), ge := x.testBit (36 + j), held := false }) 0 cells

/-- FENCE (R325, R326): its extension packets are read with it. -/
def beginFence (s : State) (q ctx x : Nat) : State :=
  let u := s.queueOf q
  let n := natBits x 32 4
  let k := Pkt.extra x
  let reads := (List.range k).map fun i => hubRead s ctx (slotAt u (u.nextIdx + BitVec.ofNat 32 (i + 1))) 64 (2 + i)
  let words := reads.filterMap fun r => match r with
    | .bytes bs => some (ofBytes bs)
    | _ => none
  let lost := reads.any fun r => match r with
    | .lost | .poison => true
    | _ => false
  let moved := reads.findSome? fun r => match r with
    | .delayed t => some t
    | _ => none
  let conds := fenceConds x words
  let bad := (conds.take n).any (fun c => c.addr.toNat % 8 ≠ 0) || (conds.drop n).any fun c => c.addr ≠ 0 || c.val ≠ 0
  if (u.writeIdx - u.nextIdx).toNat < 1 + k then s
  else if lost then stopQueue s q QErr.queueFault u.nextIdx
  else
    match moved with
    | some t => t
    | none =>
      if bad then stopQueue s q QErr.pktBad u.nextIdx
      else (beginPacket s q (1 + k)).modQueue q fun v => { v with hold := some (.fence u.nextIdx (conds.take n)) }

/-- SIGNAL (R326): its store or its atomic add is performed, and it completes. -/
def beginSignal (s : State) (q ctx x : Nat) : State :=
  let idx := (s.queueOf q).nextIdx
  let at_ := (Pkt.word x 64).toNat
  let lost := stopQueue s q QErr.queueFault idx
  let write (v : Nat) : State := match hubWrite s ctx at_ 0 (bytesOf 8 v) with
    | .written t => packetDone (beginPacket t q 1) q idx
    | .delayed t => t
    | .lost => lost
  if natBits x 32 2 = 0 then write (natBits x 128 64)
  else
    match hubRead s ctx at_ 8 1 with
    | .bytes bs => write (ofBytes bs + natBits x 128 64)
    | .delayed t => t
    | .lost | .poison => lost

/-- TICKWAIT (R326). -/
def beginTickwait (s : State) (q x : Nat) : State :=
  let idx := (s.queueOf q).nextIdx
  (beginPacket s q 1).modQueue q fun u => { u with hold := some (.tickwait idx (natBits x 64 32) (Pkt.wake x)) }

/-- The addresses of a list in memory, each of 64 bits. -/
def addressList (bs : List Byte) (n : Nat) : List DWord := (List.range n).map fun i => BitVec.ofNat 64 (ofBytes ((bs.drop (8 * i)).take 8))

/-- The dependence counter of a node holds 0, or cannot be read yet (R341). -/
def rootReady (s : State) (ctx : Nat) (node : DWord) : Bool :=
  match hubRead s ctx (node.toNat + 4) 4 1 with
  | .bytes bs => ofBytes bs = 0
  | _ => true

/-- A task graph starts, with the nodes that are ready, and those of which launches are still to come from another device (R341, R403). -/
def openGraph (s : State) (q ctx x : Nat) (atTick : Bool) (ready moved : List DWord) : State :=
  let g : Graph :=
    { ctx := ctx, queue := q, idx := (s.queueOf q).nextIdx, recAt := Pkt.word x 192, sig := Pkt.word x 256, sigVal := Pkt.word x 320
      ready := ready, moved := moved, deadline := deadlineOf x atTick, tBegin := clockOf s 4 }
  beginPacket { s.modHub (fun h => { h with graphs := fset h.graphs s.uid g }) with uid := s.uid + 1 } q 1

/-- GRAPH (R341): the walker takes up the root nodes that hold dep = 0. -/
def beginGraph (s : State) (q ctx x : Nat) (atTick : Bool) : State :=
  let idx := (s.queueOf q).nextIdx
  let n := natBits x 128 32
  match (if n = 0 then .bytes [] else hubRead s ctx (Pkt.word x 64).toNat (8 * n) 1) with
  | .delayed t => t
  | .lost | .poison => stopQueue s q QErr.queueFault idx
  | .bytes bs => openGraph s q ctx x atTick ((addressList bs n).filter (rootReady s ctx)) []

/-- The packet that a queue would start next is read and, if it is of a kind that `want` accepts, checked and started when its
conditions hold (R326, R328, R417). `atTick` tells a boundary of the queue's generator, and `bars` that a packet may start for which
every earlier one must be complete. -/
def startPacket (s : State) (q : Nat) (want : Nat → Bool) (atTick : Bool) (bars : Bool := true) : State :=
  let u := s.queueOf q
  match u.ctx with
  | none => s
  | some ctx =>
    if !parses s u then s
    else
      match hubRead s ctx (slotAt u u.nextIdx) 64 0 with
      | .delayed t => t
      | .lost | .poison => stopQueue s q QErr.queueFault u.nextIdx
      | .bytes bs =>
        let x := ofBytes bs
        let k := Pkt.kind x
        if !want k then s
        else if Pkt.bad (u.tickSel ≠ 0) x then stopQueue s q QErr.pktBad u.nextIdx
        else if (Pkt.bar x || k = 3) && (u.readIdx ≠ u.nextIdx || !bars) then s
        else if Pkt.tick x ≠ atTick then s
        else
          match k with
          | 1 => beginLaunch s q ctx x atTick
          | 2 => beginFence s q ctx x
          | 3 => beginSignal s q ctx x
          | 4 => beginTickwait s q x
          | _ => beginGraph s q ctx x atTick

/-- LAUNCH_PACKET (R326); it also meets a packet of an unknown kind (R328). Like every start of a packet, it comes after the TICK of every
boundary that has been reached. -/
def execLaunchPacket (s : State) : Out :=
  match s.event with
  | some (.launchPacket q) => onlyIf (!ticksDue s) s (startPacket s q (fun k => k ≤ 1 || k > 5) false)
  | _ => .fault .notPosted

/-- FENCE_PACKET (R326). -/
def execFencePacket (s : State) : Out :=
  match s.event with
  | some (.fencePacket q) => onlyIf (!ticksDue s) s (startPacket s q (fun k => k = 2) false)
  | _ => .fault .notPosted

/-- SIGNAL_PACKET (R326). -/
def execSignalPacket (s : State) : Out :=
  match s.event with
  | some (.signalPacket q) => onlyIf (!ticksDue s) s (startPacket s q (fun k => k = 3) false)
  | _ => .fault .notPosted

/-- TICKWAIT_PACKET (R326). -/
def execTickwaitPacket (s : State) : Out :=
  match s.event with
  | some (.tickwaitPacket q) => onlyIf (!ticksDue s) s (startPacket s q (fun k => k = 4) false)
  | _ => .fault .notPosted

/-- GRAPH_PACKET (R326, R341). -/
def execGraphPacket (s : State) : Out :=
  match s.event with
  | some (.graphPacket q) => onlyIf (!ticksDue s) s (startPacket s q (fun k => k = 5) false)
  | _ => .fault .notPosted

/-- A FENCE stops its queue with a condition that cannot be read; it stands as not started (R417). -/
def dropFence (s : State) (q : Nat) (idx : Word) : State :=
  stopQueue (s.modQueue q fun u => { u with hold := none, nextIdx := idx, started := u.started.filter fun p => p.idx != idx }) q QErr.queueFault idx

/-- One reading of a condition that does not hold yet (R326). -/
def readCond (s : State) (ctx i : Nat) (c : FenceCond) : FenceCond × Option HubRead :=
  if c.held then (c, none)
  else
    match hubRead s ctx c.addr.toNat 8 i with
    | .bytes bs =>
      let m := BitVec.ofNat 64 (ofBytes bs)
      ({ c with held := if c.ge then decide (c.val.toNat ≤ m.toNat) else m = c.val }, none)
    | r => (c, some r)

/-- FENCE_PACKET_COMPLETE (R326): the conditions are read again, and the FENCE completes when each has held. -/
def execFencePacketComplete (s : State) : Out :=
  match s.event with
  | some (.fencePacketComplete q) =>
    let u := s.queueOf q
    match u.hold, u.ctx with
    | some (.fence idx conds), some ctx =>
      let rs := mapFrom (fun i c => readCond s ctx i c) 0 conds
      let lost := rs.any fun r => match r.2 with
        | some .lost | some .poison => true
        | _ => false
      let moved := (rs.findSome? fun r => match r.2 with
        | some (.delayed t) => some t
        | _ => none).getD s
      if u.state = 2 then onlyIf false s s
      else if lost then onlyIf true s (dropFence s q idx)
      else if (rs.all fun r => r.1.held) then onlyIf true s (packetDone (s.modQueue q fun u => { u with hold := none }) q idx)
      else onlyIf true s (moved.modQueue q fun u => { u with hold := some (.fence idx (rs.map (·.1))) })
    | _, _ => onlyIf false s s
  | _ => .fault .notPosted

/-- TICKWAIT_COMPLETE (R326): at its last boundary, or, with wake, when wake is non-zero, which it clears. -/
def execTickwaitComplete (s : State) : Out :=
  match s.event with
  | some (.tickwaitComplete q) =>
    let u := s.queueOf q
    match u.hold with
    | some (.tickwait idx left wake) =>
      if ticksDue s then onlyIf false s s
      else if left = 0 then onlyIf true s (packetDone (s.modQueue q fun u => { u with hold := none }) q idx)
      else onlyIf (wake && u.wake ≠ 0) s (packetDone (s.modQueue q fun u => { u with hold := none, wake := 0 }) q idx)
    | _ => onlyIf false s s
  | _ => .fault .notPosted

/-- The queues bound to generator `g` that are not disabled. -/
def boundQueues (s : State) (g : Nat) : List Nat := (s.hub.queues.filter fun p => p.2.tickSel = g + 1 && p.2.state ≠ 2).map (·.1)

/-- One boundary less, and whether the deadline has passed (R328). -/
def countDown (d : Option Nat) : Option Nat × Bool :=
  match d with
  | none => (none, false)
  | some 0 => (some 0, true)
  | some (n + 1) => (some n, n = 0)

/-- A boundary passes for the deadlines and the TICKWAIT of queue `q` (R326, R328). -/
def passBoundary (s : State) (q : Nat) : State :=
  let mine (b : Starter) : Bool := match b with
    | .packet p _ => p = q
    | .node _ _ => false
  (s.modHub fun h => { h with
    launches := h.launches.map fun p =>
      if mine p.2.by_ && p.2.stage == .running then (p.1, { p.2 with deadline := (countDown p.2.deadline).1, missed := p.2.missed || (countDown p.2.deadline).2 }) else p
    graphs := h.graphs.map fun p =>
      if p.2.queue = q && p.2.stage == .running then (p.1, { p.2 with deadline := (countDown p.2.deadline).1, missed := p.2.missed || (countDown p.2.deadline).2 }) else p
  }).modQueue q fun u => { u with hold := match u.hold with
      | some (.tickwait idx left w) => some (.tickwait idx (left - 1) w)
      | x => x }

/-- The packets with tick that were ready in a queue before a boundary start together at it, in ring order; one that waits for those
before it to complete is not ready until it could start at a later one (R326). -/
def startTicked (s : State) (q fuel : Nat) (first : Bool) : State :=
  match fuel with
  | 0 => s
  | fuel + 1 =>
    let t := startPacket s q (fun _ => true) true first
    if (t.queueOf q).nextIdx = (s.queueOf q).nextIdx then t else startTicked t q fuel false

/-- Another generator has an earlier boundary that is due, or one at the same time and a lower index (R25). -/
def tickWaits (s : State) (g : Nat) (x : Gen) : Bool :=
  s.hub.gens.any fun p => p.2.due (clockOf s 4) && (decide (p.2.boundary < x.boundary) || (p.2.boundary = x.boundary && decide (p.1 < g)))

/-- A boundary of generator `g` (R321, R324). -/
def tickAt (s : State) (g : Nat) (x : Gen) : State :=
  let (seq, s₁) := s.number 4
  let r := recordOf seq (clockOf s 4) 0x0003 (g + x.next * 2 ^ 16)
  let s₂ := s₁.modHub fun h => { h with gens := fset h.gens g { x with next := x.next + 1 } }
  (boundQueues s g).foldl (fun s q => startTicked (passBoundary (postRecord s q r) q) q 16 true) s₂

/-- TICK (R25, R321): boundaries are numbered in the order of their times, and those of one time by ascending generator. -/
def execTick (s : State) : Out :=
  match s.event with
  | some (.tick g) =>
    match fget? s.hub.gens g with
    | none => onlyIf false s s
    | some x => onlyIf (x.due (clockOf s 4) && !tickWaits s g x) s (tickAt s g x)
  | _ => .fault .notPosted

end Sys2Proof.Machine
end

