-- ==== Sys2Proof/Machine/Graphs.lean ====
section
/-! DEFINITION. The task-graph walker: nodes and their kinds (R340-R342), and what follows a completed node (R341). -/

namespace Sys2Proof.Machine

-- Fields of a node (R340).
namespace Node
def kind (x : Nat) : Nat := natBits x 0 8
def idem (x : Nat) : Bool := x.testBit 8
def retry (x : Nat) : Nat := natBits x 9 3
def succs (x : Nat) : Nat := natBits x 16 16
def succAt (x : Nat) : Nat := natBits x 64 64
def payload (x : Nat) : DWord := BitVec.ofNat 64 (natBits x 128 64)
def rec_ (x : Nat) : DWord := BitVec.ofNat 64 (natBits x 192 64)
def outsAt (x : Nat) : Nat := natBits x 256 64
def outs (x : Nat) : Nat := natBits x 320 16
def tries (x : Nat) : Nat := natBits x 336 8
end Node

/-- A read of the walker that belongs to no run of a node: what the bytes lead to; data that are poisoned or out of reach kill the context, as
a poisoned read of a node without idem does (R343; log 58). -/
def walkerRead (s : State) (ctx va n i : Nat) (f : List Byte → State) : State :=
  if n = 0 then f []
  else
    match hubRead s ctx va n i with
    | .bytes bs => f bs
    | .delayed t => t
    | .lost | .poison => killCtx s ctx

/-- A ready node of the kind given is taken up, and `f` does its work (R341). In a context that is drained only a COPY node whose entry has started
goes on (R403). -/
def takeNode (s : State) (k : Nat) (node : DWord) (kind : Nat) (f : Graph → Nat → State) : State :=
  match s.graph? k with
  | none => s
  | some g =>
    if g.stage != .running || !g.ready.contains node || s.power.phase != .running || ((s.ctxFields g.ctx).drained && !(g.copying.any fun p => p.1 = node)) then s
    else walkerRead s g.ctx node.toNat 64 0 fun bs => if Node.kind (ofBytes bs) = kind then f g (ofBytes bs) else s

/-- The first copy of an address leaves a list. -/
def dropOne (l : List DWord) (a : DWord) : List DWord := l.erase a

/-- A node has started; its work goes on. -/
def nodeRuns (s : State) (k : Nat) (node : DWord) : State :=
  s.modGraph k fun g => { g with ready := dropOne g.ready node, running := node :: g.running }

/-- A node's work is done; its successors are next. -/
def nodeEnds (s : State) (k : Nat) (node : DWord) : State :=
  s.modGraph k fun g => { g with ready := dropOne g.ready node, finished := node :: g.finished, copying := g.copying.filter fun p => p.1 != node }

/-- Output ranges from their list: address and length (R340). -/
def rangeList (bs : List Byte) (n : Nat) : List (DWord × Nat) :=
  (List.range n).map fun i => (BitVec.ofNat 64 (ofBytes ((bs.drop (16 * i)).take 8)), ofBytes ((bs.drop (16 * i + 8)).take 8))

/-- The walker sets rollback, bit 33, in the record of a node that it runs again (R331, R343). -/
def markRollback (s : State) (ctx : Nat) (rec_ : DWord) : State :=
  match readVa s ctx (rec_.toNat + 4) 1 0 with
  | .fault _ => s
  | .ok bs =>
    match writeVa s ctx (rec_.toNat + 4) 1 (bytesOf 1 (ofBytes bs ||| 2)) with
    | .ok t => t
    | .fault _ => s

/-- A node that has met poison runs again, with its output ranges unpublished, or its context is killed (R343). That a list of output ranges which
is poisoned itself leaves the rerun without any is the model's choice (log 58). -/
def rerunNode (s : State) (k : Nat) (node : DWord) (g : Graph) (x : Nat) : State :=
  let again (outs : List (DWord × Nat)) : State :=
    (markRollback (writeTries (scramble s g.ctx outs) g.ctx (.node k node) (Node.tries x + 1)) g.ctx (Node.rec_ x)).modGraph k fun g =>
      { g with copying := g.copying.filter fun p => p.1 != node }
  if !(Node.idem x && decide (Node.tries x < Node.retry x)) then killCtx s g.ctx
  else if Node.outs x = 0 then again []
  else
    match hubRead s g.ctx (Node.outsAt x) (16 * Node.outs x) 2 with
    | .bytes bs => again (rangeList bs (Node.outs x))
    | .poison => again []
    | .delayed t => t
    | .lost => killCtx s g.ctx

/-- The output ranges of a node are read, and `f` goes on with them; a poisoned list is a poisoned read of the node (R340, R343). -/
def withOuts (s : State) (k : Nat) (node : DWord) (g : Graph) (x : Nat) (f : List (DWord × Nat) → State) : State :=
  if Node.outs x = 0 then f []
  else
    match hubRead s g.ctx (Node.outsAt x) (16 * Node.outs x) 2 with
    | .bytes bs => f (rangeList bs (Node.outs x))
    | .poison => rerunNode s k node g x
    | .delayed t => t
    | .lost => killCtx s g.ctx

/-- A KERNEL node starts as a LAUNCH with its header and record (R341); `only` gives the ranges of one that another device has drained
(R403). -/
def startNode (s : State) (k : Nat) (node : DWord) (g : Graph) (x : Nat) (only : Option (List (Nat × Nat))) (f : State → State) : State :=
  withOuts s k node g x fun outs =>
    let o : Order :=
      { ctx := g.ctx, by_ := .node k node, hdrAt := Node.payload x, recAt := Node.rec_ x, idem := Node.idem x, retry := Node.retry x
        tries := Node.tries x, outs := outs, only := only }
    match startLaunch s o with
    | .started t => f t
    | .delayed t => t

/-- KERNEL_NODE (R341). -/
def execKernelNode (s : State) : Out :=
  match s.event with
  | some (.kernelNode k node) => onlyIf true s <| takeNode s k node 1 fun g x => startNode s k node g x none fun t => nodeRuns t k node
  | _ => .fault .notPosted

/-- The entry of a COPY node is one that R342 accepts. -/
def nodeEntryOk (e : BitVec 256) : Bool :=
  let op := Ent.op e
  let mode := Ent.mode e
  (op = 0x03 && mode = 2 || op = 0x06 && mode = 1 || op = 0x07 && mode = 0 || op = 0x08)
  && Ent.soff e = 0 && Ent.ctr e = 0 && !Ent.dc e && !Ent.evt e && !Ent.v e && !Ent.pk e && !Ent.cl e

/-- Perform the entry of a COPY node, outside every workgroup (R342). What an RCOPY get brings is not known here. -/
def runNodeEntry (k : CopyCtx) (e : BitVec 256) (token : Nat) : Ended :=
  if !nodeEntryOk e then copyStatus k Cpy.entBad
  else
    match Ent.op e with
    | 0x03 => lcopyEntry k e
    | 0x06 => fillEntry k e
    | 0x07 => hintL2Entry k e
    | _ => if Ent.mode e = 1 then rcopyGetEntry k e ((List.range (Ent.extra e)).map fun i => Config.anyByte k.s.free i) (0, 0) else rcopyPutEntry k e token (0, 0)

/-- The number that names the transfer of a COPY node, and the die of the core whose engine the walker chooses for it (R342). -/
def nodeToken (k : Nat) (node : DWord) : Nat := 2 ^ 80 * (k + 1) + node.toNat
def nodeDie (k : Nat) (node : DWord) : Nat := Config.placeDie (nodeToken k node) 0 % 4

/-- A COPY node ends with a status, of which Jasper of its engine's die is told unless it is OK (R313). It stands in bits 0 to 7 of the node's
record (R341, R342); but POISON reruns the node or kills its context (R343). -/
def endCopyNode (s : State) (k : Nat) (node : DWord) (g : Graph) (x status : Nat) : State :=
  let die := nodeDie k node
  let told := if status = Cpy.ok then s else (s.number die).2.notify die (.copyError (s.number die).1 status)
  if status = Cpy.poison then rerunNode told k node g x
  else
    match hubWrite told g.ctx (Node.rec_ x).toNat 3 (bytesOf 1 status) with
    | .written t => nodeEnds t k node
    | .delayed _ | .lost => nodeEnds (stopQueue told g.queue QErr.queueFault g.idx) k node

/-- The walker cannot reach yet what the end of a COPY node takes: its record, and the list of output ranges of one that runs again. -/
def nodeDelayed (s : State) (g : Graph) (x status : Nat) : Option State :=
  let rerun := status = Cpy.poison && Node.idem x && decide (Node.tries x < Node.retry x)
  match (if rerun then reach s g.ctx (Node.outsAt x) (16 * Node.outs x) 2 .load else reach s g.ctx (Node.rec_ x).toNat 1 3 .store) with
  | .delayed t => some t
  | _ => none

/-- What the engine performs the entry of a COPY node with; `started` tells that it has been delayed before (R342). -/
def nodeEngine (s : State) (k : Nat) (node : DWord) (g : Graph) (started last : Bool) : CopyCtx :=
  { s := s, ctx := g.ctx, wg := s.uid, die := nodeDie k node, begun := if started then some {} else none, last := last }

/-- The engine performs the entry of a COPY node: it is delayed, and has started, or ends. What its end takes is within reach before the entry
is performed. -/
def copyNode (s : State) (k : Nat) (node : DWord) (g : Graph) (x : Nat) (e : BitVec 256) (started : Bool) : State :=
  let r := runNodeEntry (nodeEngine s k node g started false) e (nodeToken k node)
  match r.1 with
  | none => r.2.modGraph k fun g => { g with copying := (node, e) :: g.copying.filter fun p => p.1 != node }
  | some res => (nodeDelayed s g x res.status).getD (endCopyNode r.2 k node g x res.status)

/-- COPY_NODE (R342): its entry is read once; a poisoned one is a poisoned read of the node (R343). -/
def execCopyNode (s : State) : Out :=
  match s.event with
  | some (.copyNode k node) =>
    onlyIf true s <| takeNode s k node 2 fun g x =>
      match g.copying.find? fun p => p.1 = node with
      | some p => copyNode s k node g x p.2 true
      | none =>
        match hubRead s g.ctx (Node.payload x).toNat 32 1 with
        | .bytes bs => copyNode s k node g x (BitVec.ofNat 256 (ofBytes bs)) false
        | .poison => rerunNode s k node g x
        | .delayed t => t
        | .lost => killCtx s g.ctx
  | _ => .fault .notPosted

/-- SIGNAL_NODE (R341): stored as a release at .sy. A store that is lost stops the queue, as a launch signal does (R417). -/
def execSignalNode (s : State) : Out :=
  match s.event with
  | some (.signalNode k node) =>
    onlyIf true s <| takeNode s k node 3 fun g x =>
      match hubWrite s g.ctx (Node.payload x).toNat 1 (bytesOf 8 (Node.rec_ x).toNat) with
      | .written t => nodeEnds t k node
      | .delayed t => t
      | .lost => nodeEnds (stopQueue s g.queue QErr.queueFault g.idx) k node
  | _ => .fault .notPosted

/-- What the walker has reached among the successors of a node. -/
inductive Succ where
  | ok (s : State) (ready : List DWord)
  | delayed (s : State)
  | lost

/-- A successor's counter is only delayed: the state in which Jasper has moved on. -/
def outOfReach (s : State) (ctx : Nat) (a : DWord) : Option State :=
  match reach s ctx (a.toNat + 4) 4 2 .store with
  | .delayed t => some t
  | _ => none

/-- The walker decrements the dep of each successor; one that reaches 0 is ready (R341). -/
def releaseAll (s : State) (ctx : Nat) (l : List DWord) : Succ :=
  match l with
  | [] => .ok s []
  | a :: t =>
    match hubRead s ctx (a.toNat + 4) 4 2 with
    | .delayed s' => .delayed s'
    | .lost | .poison => .lost
    | .bytes bs =>
      let v : Word := BitVec.ofNat 32 (ofBytes bs) - 1
      match hubWrite s ctx (a.toNat + 4) 2 (bytesOf 4 v.toNat) with
      | .delayed s' => .delayed s'
      | .lost => .lost
      | .written s' =>
        match releaseAll s' ctx t with
        | .ok s'' r => .ok s'' (if v = 0 then a :: r else r)
        | r => r

/-- NODE_COMPLETE (R341). A node that becomes ready in a drained context moves to the other device (R403). -/
def execNodeComplete (s : State) : Out :=
  match s.event with
  | some (.nodeComplete k node) =>
    match s.graph? k with
    | none => onlyIf false s s
    | some g =>
      if g.stage != .running || !g.finished.contains node then onlyIf false s s
      else
        onlyIf true s <| walkerRead s g.ctx node.toNat 64 0 fun bs =>
          let n := Node.succs (ofBytes bs)
          walkerRead s g.ctx (Node.succAt (ofBytes bs)) (8 * n) 1 fun ls =>
            let l := addressList ls n
            match l.findSome? (outOfReach s g.ctx), releaseAll s g.ctx l with
            | some t, _ => t
            | none, .ok t ready => t.modGraph k fun g => { g with
                finished := dropOne g.finished node
                ready := if (s.ctxFields g.ctx).drained then g.ready else g.ready ++ ready
                moved := if (s.ctxFields g.ctx).drained then g.moved ++ ready else g.moved }
            | none, .delayed _ => s
            | none, .lost => killCtx s g.ctx
  | _ => .fault .notPosted

end Sys2Proof.Machine
end

