-- ==== Sys2Proof/Machine/QueueInstr.lean ====
section
/-! DEFINITION. The instructions that touch launch queues: LAUNCH and SIGWAKE (R352, R353). -/

namespace Sys2Proof.Machine

/-- A queue that a program of context `ctx` may name: bound to it, and not disabled (R352, R353). -/
def queueNamed (s : State) (ctx q : Nat) : Bool := (s.queueOf q).ctx = some ctx && (s.queueOf q).state ≠ 2

/-- The packet of a LAUNCH: words va to va + 15 of a lane (R352). -/
def packetBytes (x : Ext) (e : Env) (l : Lane) : List Byte := (List.range 16).flatMap fun k => bytesOf 4 (l.rd e k (x.a.toNat + k)).toNat

/-- LAUNCH (R352): while its lanes have results outstanding or the ring is full it has not issued; the slot is translated as a
store of the lowest executing lane before anything is written. -/
def execLaunch (h : Hdr) (x : Ext) (s : State) : Out :=
  issued h x.words s fun q =>
    let num (i : Nat) : Nat := bitsAt ((q.lane i).rd (q.env i) 40 x.b.toNat) 0 12
    let hdr (i : Nat) : DWord := (q.lane i).rdW (q.env i) 2 (x.a.toNat + 2)
    let differ := q.differing num ||| q.differing hdr
    let k := num q.lead
    let u := s.queueOf k
    let ctx := s.ctxOf q.w
    let va := BitVec.ofNat 64 (slotAt u u.writeIdx)
    if q.exec = 0 then retire q h.sw q.ended.w s
    else if q.pending then waitIssue q s
    else if differ ≠ 0 then trapGang q s Code.uniform 0 differ
    else if !queueNamed s ctx k then trapGang q s Code.queueRef 0 q.mask
    else if (u.writeIdx - u.readIdx).toNat ≥ 2 ^ u.ringLog then waitIssue q s
    else
      match faultAt s ctx va 64 q.lead .store with
      | some (code, fva) => askJasper q s code Access.store.sub (laneBit q.lead) fva
      | none =>
        let ps := piecesAt s ctx va 64 q.lead .store
        let m := writePieces (cacheEntries s.mem ctx ps) ps (packetBytes x (q.env q.lead) (q.lane q.lead))
        retire q h.sw (openRegion q q.ended.w) ((s.setMem m).modQueue k fun u => { u with writeIdx := u.writeIdx + 1 })

/-- One lane of a SIGWAKE: a hub event that ORs into the wake register, and a soft-interrupt record (R324, R353). -/
def wakeOne (g : Workgroup) (s : State) (k : Nat) (val : Word) : State :=
  let (n, s₁) := s.number 4
  let s₂ := s₁.modQueue k fun u => { u with wake := u.wake ||| val }
  postRecord s₂ k (recordOf n (clockOf s 4) 0x0002 (val.toNat * 2 ^ 16 + g.num * 2 ^ 48 + g.core / 48 * 2 ^ 80))

/-- One lane of a SIGWAKE.mb: a soft interrupt of the core, which its die numbers when the core's cycle is over and posts to its Jasper (R25,
R353). -/
def mailOne (core : Nat) (s : State) (val : Word) : State := s.modHub fun h => { h with soft := h.soft ++ [(core, val)] }

/-- The executing lanes of a SIGWAKE in ascending order, each by `one` (R353); the queue register is a uniform operand (R106). -/
def wakeAll (h : Hdr) (x : Ext) (s : State) (differ bad : Gang → Mask) (one : Gang → State → Nat → State) : Out :=
  issued h x.words s fun q =>
    if differ q ≠ 0 then trapGang q s Code.uniform 0 (differ q)
    else if bad q ≠ 0 then trapGang q s Code.queueRef 0 (bad q)
    else retire q h.sw (openRegion q q.w) ((lanesOf q.exec).foldl (one q) s)

/-- SIGWAKE (R353). -/
def execSigwake (h : Hdr) (x : Ext) (s : State) : Out :=
  let num (q : Gang) (i : Nat) : Nat := bitsAt ((q.lane i).rd (q.env i) 0 x.a.toNat) 0 12
  wakeAll h x s (fun q => q.differing (num q)) (fun q => q.failing fun i _ => !queueNamed s (s.ctxOf q.w) (num q i)) fun q t i =>
    wakeOne (s.wgOf q.w) t (num q i) ((q.lane i).rd (q.env i) 2 x.b.toNat)

/-- SIGWAKE.mb (R353). -/
def execSigwakeMb (h : Hdr) (x : Ext) (s : State) : Out :=
  wakeAll h x s (fun _ => 0) (fun _ => 0) fun q t i => mailOne (coreOfKey q.wk) t ((q.lane i).rd (q.env i) 2 x.b.toNat)

end Sys2Proof.Machine
end

