-- ==== Sys2Proof/Machine/Regroup.lean ====
section
/-! DEFINITION. REGRP: arrival, the test of the workgroup, and the placement of its lanes by key (R349-R351). -/

namespace Sys2Proof.Machine

/-- The lanes parked at the REGRP with PC value `pc`. -/
def Warp.parkedRegrp (w : Warp) (pc : PC) : Mask :=
  w.parkedAt fun p => p.pc == pc && (match p.why with
    | .regrp _ _ => true
    | _ => false)

/-- The warps of a workgroup that have not left, by %warp, with their positions. -/
def wgWarps (s : State) (wg : Nat) : List (Nat × Warp) :=
  ((s.wg? wg).map fun g => g.warps.filterMap fun p => (s.warp? p.2).map fun w => (p.2, w)).getD []

/-- Whether the REGRP at `pc` may issue, and whether partially (R349): every non-vacant lane of the workgroup is parked
there, or what is missing is stuck and no join releases; the parked lanes have no result outstanding, no warp is stopped,
and no workgroup barrier holds an arrival. -/
def regroupReady (s : State) (wg : Nat) (pc : PC) : Option Bool :=
  let ws := (wgWarps s wg).map (·.2)
  let here := ws.any fun w => w.parkedRegrp pc ≠ 0
  let free := ws.all fun w => w.stop == .running && w.causes.isEmpty && w.trap.isNone && (lanesOf (w.parkedRegrp pc)).all fun i => !(w.lane i).busy
  let arrivals := ((s.wg? wg).map fun g => g.bars.any fun b => b.arrived.any fun a => a.2 ≠ 0).getD false
  if !here || !free || arrivals then none
  else if ws.all fun w => w.live &&& ~~~w.parkedRegrp pc = 0 then some false
  else if ws.all fun w => !w.joinReleases && (lanesOf (w.live &&& ~~~w.parkedRegrp pc)).all fun i => ((w.lane i).park.map Warp.stuckPark).getD false then some true
  else none

/-- A lane at a REGRP: its key, or 65,536 where its guard is false, its old warp and its old lane (R350). -/
structure Item where
  key : Nat
  warp : Nat
  lane : Nat
deriving DecidableEq, Repr

/-- The groups of equal key of a sorted list. -/
def groupItems (l : List Item) : List (List Item) :=
  l.foldr (fun a r => match r with
    | (b :: g) :: t => if a.key = b.key then (a :: b :: g) :: t else [a] :: (b :: g) :: t
    | r => [a] :: r) []

/-- The placement of R350: each group in turn gets the first available positions from `q` upward, aligned while padding
lasts. -/
def placeItems (align : Nat) (avail : List Nat) (gs : List (List Item)) (q : Nat) (padding : Bool) : List (Nat × Item) :=
  match gs with
  | [] => []
  | g :: t =>
    let q' := roundUp q align
    let fits := decide (g.length + (t.foldl (fun n x => n + x.length) 0) ≤ (avail.filter fun p => q' ≤ p).length)
    let from_ := if padding && fits then q' else q
    let ps := (avail.filter fun p => from_ ≤ p).take g.length
    ps.zip g ++ placeItems align avail t (ps.getLastD from_ + 1) (padding && fits)

/-- The item of a lane moves to a position: the run of v registers, p, h, row masks, %wid, %wgen, %fst and %slv; the
other registers stay with the position (R350). -/
def moveItem (src dst : Lane) (b n : Nat) : Lane :=
  { dst with
    regs := (List.range n).foldl (fun m k => fput 0 m (b + k) (src.v (b + k))) dst.regs
    preds := src.preds, shapes := src.shapes, rowMasks := src.rowMasks, wid := src.wid, wgen := src.wgen, fst := src.fst, slv := src.slv
    vacant := false }

/-- One warp after a REGRP: the lanes that hold an item again, those left without one, and the joins, whose bits of every
position with another occupant are cleared (R350). -/
def regroupWarp (old : List (Nat × Warp)) (w : Warp) (pc next : PC) (x : Ext) (part : Bool) (got : List (Nat × Item)) : Warp × Mask :=
  let here := w.parkedRegrp pc
  let at_ (i : Nat) : Option Item := (got.find? fun p => p.1 = 32 * w.widx + i).map (·.2)
  let source (a : Item) : Lane := ((old.find? fun p => p.2.widx = a.warp).map fun p => p.2.lane a.lane).getD {}
  let w₁ := w.mapLanes fun i l => match at_ i with
    | some a =>
      let l' := if a.warp = w.widx && a.lane = i then l else moveItem (source a) l x.b.toNat (x.field 11 7)
      { l' with park := none, sw := 0, region := next, fst := if part then l'.fst ||| Flag.wpart else l'.fst }
    | none => if bitAt here i then { l with vacant := true, park := none, sw := 0, arrivals := [] } else l
  let changed := maskOf fun i => match at_ i with
    | some a => !(a.warp = w.widx && a.lane = i)
    | none => bitAt here i
  let w₂ : Warp := { w₁ with joins := w₁.joins.map fun j => { expect := j.expect &&& ~~~changed, arrived := j.arrived &&& ~~~changed } }
  (w₂, maskOf fun i => (at_ i).isSome)

/-- The REGRP at `pc` issues for a workgroup (R350). A position that it leaves vacant is not required at any barrier any more
(R269). -/
def regroup (s : State) (wg : Nat) (pc : PC) (part : Bool) : State :=
  let old := wgWarps s wg
  let why (w : Warp) (i : Nat) : Option (Ext × Bool) := match (w.lane i).park with
    | some { pc := _, why := .regrp (.regrp _ x) g } => some (x, g)
    | _ => none
  let items : List Item := old.flatMap fun p => (lanesOf (p.2.parkedRegrp pc)).filterMap fun i =>
    (why p.2 i).map fun a => { key := if a.2 then bitsAt ((p.2.lane i).v a.1.a.toNat) 0 16 else 65536, warp := p.2.widx, lane := i }
  let x? := (old.flatMap fun p => (lanesOf (p.2.parkedRegrp pc)).filterMap fun i => (why p.2 i).map (·.1)).head?
  match x? with
  | none => s
  | some x =>
    let next := pc + BitVec.ofNat 64 (4 * x.words)
    let avail := old.flatMap fun p => ((List.range 32).filter fun i => !bitAt (p.2.live &&& ~~~p.2.parkedRegrp pc) i).map fun i => 32 * p.2.widx + i
    let got := placeItems (if x.bit 18 then 32 else 4) avail (groupItems (sortBy (fun a b => decide (a.key < b.key)) items)) 0 true
    let t := old.foldl (fun s p =>
      let r := regroupWarp old p.2 pc next x part got
      reenterLanes (s.setWarp p.1 r.1) p.1 r.2 fun _ => next) s
    barSettleAll (old.foldl (fun s p => barForget s p.2 (p.2.parkedRegrp pc &&& ~~~(regroupWarp old p.2 pc next x part got).2)) t) wg

/-- REGRP: arrival; the gang ends its chains and parks (R349, R351). -/
def execRegrp (h : Hdr) (x : Ext) (s : State) : Out :=
  issued h x.words s fun q =>
    commit s q.wk ((q.w.mapIn q.mask fun _ l => l.endChain).parkAt q.mask fun k => { pc := q.pc, why := .regrp (.regrp h x) (bitAt q.exec k) })

end Sys2Proof.Machine
end

