-- ==== Sys2Proof/Machine/WarpWide.lean ====
section
/-! DEFINITION. Warp-wide instructions (R102-R106, R121-R125): arrival, and the issue from the park state. -/

namespace Sys2Proof.Machine

/-- Arrival at a warp-wide instruction (R102): the member mask, a register of kind v unless `all`, is uniform, holds every
executing lane, and agrees with the one that is fixed; then the gang parks. -/
def arriveWide (h : Hdr) (n : Nat) (s : State) (i : Instr) (all : Bool) (reg : Nat) : Out :=
  issued h n s fun q =>
    let val (k : Nat) : Mask := if all then 0xFFFFFFFF else (q.lane k).rd (q.env k) 40 reg
    let m := val q.lead
    let fixed := q.w.members.find? fun p => p.1 == q.pc
    let outside := q.exec &&& ~~~m
    if q.differing val ≠ 0 then trapGang q s Code.uniform 0 (q.differing val)
    else if q.exec ≠ 0 && fixed.any (fun p => p.2 != m) then trapGang q s Code.uniform 0 q.mask
    else if q.exec ≠ 0 && outside ≠ 0 then trapGang q s Code.memberMask 0 outside
    else
      let w := if q.exec ≠ 0 && fixed.isNone then { q.w with members := (q.pc, m) :: q.w.members } else q.w
      commit s q.wk (w.parkAt q.mask fun k => { pc := q.pc, why := .warpWide i (bitAt q.exec k) })

/-- A warp-wide instruction that issues from the park state (R103, R104). -/
structure WideGang where
  w : Warp
  pc : PC
  free : Nat
  /-- The lanes parked there, those of them that execute, and those that contribute. -/
  here : Mask
  exec : Mask
  contrib : Mask
  /-- The member mask, and whether the issue is partial. -/
  members : Mask
  part : Bool
deriving DecidableEq, Repr

namespace WideGang

/-- What a lane of the gang sees. -/
def env (q : WideGang) (k : Nat) : Env := { free := q.free, lane := k, pc := q.pc, exec := q.exec, gang := q.here }

/-- Register `r` of lane `k`, read at issue. -/
def rd (q : WideGang) (k r : Nat) : Word := (q.w.lane k).rd (q.env k) 0 r

/-- Segment size, from bits 18-19 (R121). -/
def seg (x : Ext) : Nat :=
  match x.field 18 2 with
  | 0 => 32
  | 1 => 16
  | 2 => 8
  | _ => 4

/-- The first lane of the segment of lane `k`. -/
def base (x : Ext) (k : Nat) : Nat := k / seg x * seg x

/-- The contributing lanes in the segment of lane `k` (R122). -/
def inSeg (q : WideGang) (x : Ext) (k : Nat) : List Nat := (lanesOf q.contrib).filter fun j => base x j = base x k

/-- The votes of the segment of lane `k`: predicate pa of each contributing lane. -/
def votes (q : WideGang) (x : Ext) (k : Nat) : List Bool :=
  (q.inSeg x k).map fun j => (q.w.lane j).rdP (q.env j) 0 x.a.toNat

/-- The %fst bit of a partial issue (R104). -/
def partFlag (q : WideGang) : Word := if q.part then Flag.wpart else 0

/-- VOTE.any, .all and .uni for lane `k`, by sub-opcode (R122). -/
def vote (q : WideGang) (x : Ext) (f : List Bool → Bool) (k : Nat) : Pend :=
  { preds := [(x.d.toNat, f (q.votes x k))], fst := q.partFlag }

/-- VOTE.bal for lane `k` (R122). -/
def ballot (q : WideGang) (x : Ext) (k : Nat) : Pend :=
  { regs := [(x.d.toNat, maskOf fun j => (q.inSeg x k).contains j && (q.w.lane j).rdP (q.env j) 0 x.a.toNat)], fst := q.partFlag }

/-- The source lane of a SHFL for lane `k`: `src` gives it within the segment from the place of the lane, the operand
and the segment size (R123). -/
def shuffle (q : WideGang) (x : Ext) (src : Nat → Nat → Nat → Nat) (k : Nat) : Pend :=
  let b := if x.bit 12 then x.field 13 5 else ((q.w.lane k).rd (q.env k) 2 x.b.toNat).toNat
  let g := seg x
  let j := base x k + src (k - base x k) b g
  let ok := bitAt q.here j && bitAt q.members j
  { regs := [(x.d.toNat, if ok then q.rd j x.a.toNat else 0)], fst := q.partFlag ||| if ok then 0 else Flag.wpart }

/-- MATCH for lane `k` (R124). -/
def sameAs (q : WideGang) (x : Ext) (k : Nat) : Pend :=
  let val (j : Nat) : DWord :=
    if x.bit 15 then (q.w.lane j).rdW (q.env j) 0 x.a.toNat else (q.rd j x.a.toNat).setWidth 64
  { regs := [(x.d.toNat, maskOf fun j => (q.inSeg x k).contains j && val j == val k)], fst := q.partFlag }

/-- One step of REDUX (R125): add, min, max, and, or, xor. -/
def reduceStep (op : Nat) (sgn : Bool) (a b : Word) : Word :=
  match op with
  | 0 => a + b
  | 1 => pickWord false (!sgn) a b
  | 2 => pickWord true (!sgn) a b
  | 3 => a &&& b
  | 4 => a ||| b
  | _ => a ^^^ b

/-- The identity of REDUX (R104). -/
def identity (op : Nat) (sgn : Bool) : Word :=
  match op with
  | 1 => if sgn then 0x7FFFFFFF else 0xFFFFFFFF
  | 2 => if sgn then 0x80000000 else 0
  | 3 => 0xFFFFFFFF
  | _ => 0

/-- REDUX for lane `k` (R125). -/
def reduce (q : WideGang) (x : Ext) (k : Nat) : Pend :=
  let op := x.field 12 3
  let sgn := x.bit 15
  let y := (q.inSeg x k).foldl (fun acc j => reduceStep op sgn acc (q.rd j x.a.toNat)) (identity op sgn)
  { regs := [(x.d.toNat, y)], fst := q.partFlag }

/-- What the instruction gives lane `k` (R122-R125). -/
def result (q : WideGang) (i : Instr) (k : Nat) : Pend :=
  match i with
  | .voteAny _ x => q.vote x (fun l => l.any id) k
  | .voteAll _ x => q.vote x (fun l => l.all id) k
  | .voteUni _ x => q.vote x (fun l => l.all id || l.all not) k
  | .voteBal _ x => q.ballot x k
  | .shflIdx _ x => q.shuffle x (fun _ b g => b % g) k
  | .shflUp _ x => q.shuffle x (fun p b g => (p + g - b % g) % g) k
  | .shflDown _ x => q.shuffle x (fun p b g => (p + b) % g) k
  | .shflXor _ x => q.shuffle x (fun p b g => (p ^^^ (b % g)) % g) k
  | .matchEq _ x => q.sameAs x k
  | .redux _ x => q.reduce x k
  | _ => {}

end WideGang

/-- The instruction at which the lanes of a mask are parked, with the lanes whose guard was true. -/
def wideInstr (w : Warp) (m : Mask) : Instr × Mask :=
  let why (k : Nat) : Instr × Bool := match (w.lane k).park with
    | some { pc := _, why := .warpWide i g } => (i, g)
    | _ => (.nop { grd := 7, sw := false }, false)
  ((why (lowest m)).1, m &&& maskOf fun k => (why k).2)

/-- A warp-wide instruction issues: each receiving lane gets its pending result, the member mask is forgotten, and the lanes
re-enter at the next instruction, past a switch point if it is marked (R102-R104, R96). -/
def issueWide (s : State) (wk : Nat) (w : Warp) (pc : PC) (part : Bool) : State :=
  let here := w.parkedWide pc
  let (i, exec) := wideInstr w here
  let m := w.memberMask pc
  let q : WideGang := { w := w, pc := pc, free := s.free, here := here, exec := exec, contrib := exec &&& m, members := m, part := part }
  let next := pc + 12
  let w₁ : Warp := { w.mapIn exec (fun k l => l.addPend (q.result i k)) with members := w.members.filter fun p => p.1 != pc }
  let r := w₁.reenter here fun _ => next
  let w₂ := if i.hdr.sw then r.1.switchPoint here else r.1
  overflowCauses (s.setWarp wk w₂) wk r.2 fun _ => next

/-- WARP_WIDE_ISSUE (R103, R349). -/
def execWarpWideIssue (s : State) : Out :=
  match s.event with
  | some (.warpWideIssue wk pc) =>
    match s.warp? wk with
    | none => onlyIf false s s
    | some w =>
      match w.wideReady pc, regroupReady s w.wg pc with
      | some part, _ => onlyIf (w.stop == .running && w.due.isEmpty) s (issueWide s wk w pc part)
      | none, some part => onlyIf (w.parkedRegrp pc ≠ 0) s (regroup s w.wg pc part)
      | none, none => onlyIf false s s
  | _ => .fault .notPosted

/-- VOTE.any: arrival (R102, R122). -/
def execVoteAny (h : Hdr) (x : Ext) (s : State) : Out := arriveWide h x.words s (.voteAny h x) (x.bit 11) x.b.toNat

/-- VOTE.all: arrival (R102, R122). -/
def execVoteAll (h : Hdr) (x : Ext) (s : State) : Out := arriveWide h x.words s (.voteAll h x) (x.bit 11) x.b.toNat

/-- VOTE.uni: arrival (R102, R122). -/
def execVoteUni (h : Hdr) (x : Ext) (s : State) : Out := arriveWide h x.words s (.voteUni h x) (x.bit 11) x.b.toNat

/-- VOTE.bal: arrival (R102, R122). -/
def execVoteBal (h : Hdr) (x : Ext) (s : State) : Out := arriveWide h x.words s (.voteBal h x) (x.bit 11) x.b.toNat

/-- SHFL.idx: arrival (R102, R123). -/
def execShflIdx (h : Hdr) (x : Ext) (s : State) : Out := arriveWide h x.words s (.shflIdx h x) (x.bit 11) x.c.toNat

/-- SHFL.up: arrival (R102, R123). -/
def execShflUp (h : Hdr) (x : Ext) (s : State) : Out := arriveWide h x.words s (.shflUp h x) (x.bit 11) x.c.toNat

/-- SHFL.down: arrival (R102, R123). -/
def execShflDown (h : Hdr) (x : Ext) (s : State) : Out := arriveWide h x.words s (.shflDown h x) (x.bit 11) x.c.toNat

/-- SHFL.xor: arrival (R102, R123). -/
def execShflXor (h : Hdr) (x : Ext) (s : State) : Out := arriveWide h x.words s (.shflXor h x) (x.bit 11) x.c.toNat

/-- MATCH: arrival (R102, R124). -/
def execMatchEq (h : Hdr) (x : Ext) (s : State) : Out := arriveWide h x.words s (.matchEq h x) (x.bit 11) x.b.toNat

/-- REDUX: arrival (R102, R125). -/
def execRedux (h : Hdr) (x : Ext) (s : State) : Out := arriveWide h x.words s (.redux h x) (x.bit 11) x.b.toNat

end Sys2Proof.Machine
end

