-- ==== Sys2Proof/Machine/System.lean ====
section
/-! DEFINITION. The system instructions: TRAP, TRET, PPOINT, SRD, SWR, CAPQ, PFDONE, BRK (R115, R379-R384), the capability
area (R4-R8), and DICT (R42-R47). -/

namespace Sys2Proof.Machine

/-- A cause that an instruction asks for: the gang resumes at the next instruction (R356). -/
def trapAfter (q : Gang) (s : State) (code sub : Nat) : Out :=
  .next (addCause s q.wk { code := code, sub := sub, mask := q.exec, path := q.mask, pc := q.pc, resume := .cont, cont := q.next }).done

/-- TRAP (R379). -/
def execTrap (h : Hdr) (x : Ext) (s : State) : Out :=
  issued h x.words s fun q => if q.exec = 0 then retire q true q.w s else trapAfter q s Code.swTrap (x.field 11 8)

/-- BRK (R115); the delivery finds out whether a debugger is attached (R373). -/
def execBrk (h : Hdr) (n : BitVec 5) (s : State) : Out :=
  issued h 1 s fun q => if q.exec = 0 then retire q h.sw q.w s else trapAfter q s Code.brk n.toNat

/-- TRET (R380): the executing lanes park, and the warp resumes when the last handler lane has (R362). A target is checked as
that of a BRX, and its failure in a handler is a double fault. -/
def execTret (h : Hdr) (x : Ext) (s : State) : Out :=
  issued h x.words s fun q =>
    let byPc := x.bit 11
    let target (i : Nat) : PC := (q.lane i).rdW (q.env i) 0 x.a.toNat
    let out := q.failing fun _ l => !l.handler
    let bad := q.failing fun i _ => byPc && badTarget 64 (target i)
    if out ≠ 0 then trapGang q s Code.tretOut 0 out
    else if bad ≠ 0 then trapGang q s Code.align 0 bad
    else
      let w := q.w.advance q.pc q.next q.mask
      let w₁ := if h.sw then w.switchPoint q.mask else w
      let w₂ := w₁.parkAt q.exec fun i => { pc := q.pc, why := if byPc then .tretPc (target i) else .tret }
      .next (returnTrap (s.setWarp q.wk w₂) q.wk).done

/-- PPOINT (R381): a switch point, and, while a request is pending, the place where its executing lanes stop. -/
def execPpoint (h : Hdr) (lit : DWord) (s : State) : Out :=
  issued h 3 s fun q =>
    let w := (q.w.advance q.pc q.next q.mask).switchPoint q.mask
    commit s q.wk (if (s.wgOf q.w).preempt.isSome then (w.mapIn q.exec fun _ l => l.endChain).parkAt q.exec fun _ => { pc := q.next, why := .ppoint lit } else w)

/-- Identifier field `k` of a lane (R18). -/
def fieldOf (widths : List Nat) (wid : DWord) (k : Nat) : DWord :=
  BitVec.ofNat 64 (natBits wid.toNat ((widths.take k).foldl (· + ·) 0) (widths.getD k 0))

/-- What a trap register reads: that of the trap that the lane's handler serves, else 0 (R41, R357). -/
def trapReg (w : Warp) (l : Lane) (f : Cause → DWord) : DWord := if l.handler then (w.trap.map fun t => f t.shown).getD 0 else 0

/-- Special register `n` in lane `i` (R14, R41). -/
def specialReg (s : State) (q : Gang) (i n : Nat) : DWord :=
  let l := q.lane i
  let nat (x : Nat) : DWord := BitVec.ofNat 64 x
  match n with
  | 0x00 => nat i
  | 0x01 => nat q.w.widx
  | 0x02 => nat (s.wgOf q.w).num
  | 0x03 => nat (coreOfKey q.wk % 48)
  | 0x04 => nat (dieOfKey q.wk)
  | 0x05 => l.wid
  | 0x0C => l.wgen.setWidth 64
  | 0x0D => q.mask.setWidth 64
  | 0x0E => (l.rdFst (q.env i) 0).setWidth 64
  | 0x0F => l.slv.setWidth 64
  | 0x10 => nat (clockOf s (dieOfKey q.wk))
  | 0x11 => trapReg q.w l fun c => (tcause c).setWidth 64
  | 0x12 => trapReg q.w l fun c => c.pc
  | 0x13 => trapReg q.w l fun c => c.mask.setWidth 64
  | n => fieldOf (s.launchOfWarp q.w).hdr.widths l.wid (n - 6)

/-- The register is 64 bits wide (R41). -/
def wideReg (n : Nat) : Bool := decide (5 ≤ n) && decide (n ≤ 0x0B) || n = 0x10 || n = 0x12

/-- SRD (R382). -/
def execSrd (h : Hdr) (x : Ext) (s : State) : Out :=
  issued h x.words s fun q => retire q h.sw (q.w.mapIn q.exec fun i l =>
    let y := specialReg s q i x.a.toNat
    if wideReg x.a.toNat then l.wrW x.d.toNat y else l.wr x.d.toNat (lo32 y)) s

/-- SWR (R382): %fst or %slv, without the bits that it ignores (R72, R206); pending %fst bits may yet land or not (R73). -/
def execSwr (h : Hdr) (x : Ext) (s : State) : Out :=
  laneOp h x.words s fun e l =>
    let y := l.rd e 0 x.a.toNat
    if x.d = 0x0E then { l with fst := y &&& 0x1FFF, pend := l.pend.map fun p => { p with clashF := true } }
    else { l with slv := y &&& 0xFF }

/-- Offset of the entry of capability `k` (R4, R5). R5 lets an entry stand at any rising multiple of 16; that each one stands within
128 bytes of the one before is the model's choice (log 62). -/
def capOffset (k : Nat) : Nat :=
  match k with
  | 0 | 1 => 0
  | 2 => 16
  | k + 1 => capOffset k + 16 * (1 + Config.capGap (k + 1) % 8)

/-- Offset of the body of the energy cost table (R5). R5 lets it lie anywhere beside the entries; that it lies behind the last one
is the model's choice (log 62). -/
def capBodyAt : Nat := capOffset 7 + 16 + Config.capBody % (4096 - 256 - (capOffset 7 + 16) + 1)

/-- The value of capability `k` (R7). -/
def capValue (k : Nat) : Nat :=
  match k with
  | 1 => 0x0E
  | 2 => 1
  | 3 => 2
  | 4 => capBodyAt
  | 5 => 1
  | 6 => 36
  | _ => 8

/-- The entry of capability `k` (R4). -/
def capEntry (k : Nat) : List Byte :=
  bytesOf 2 k ++ bytesOf 2 1 ++ bytesOf 4 (if k = 4 then 256 else 0) ++ bytesOf 4 (if k = 7 then 0 else capOffset (k + 1)) ++ bytesOf 4 (capValue k)

/-- class_cost in pJ per executing lane (R344). -/
def classCosts : List Nat := [2, 3, 10, 8, 2, 1, 4, 6, 20, 30, 2, 4, 4, 8, 40, 40, 20]

/-- bucket_cap and refill_max in pJ, and mac_cost in 1/256 pJ (R344). -/
def bucketCap : Nat := 46875000
def refillMax : Nat := 23437500
def macCost : Nat := 128

/-- The energy cost table, the body of capability 0x0004 (R344). -/
def costTable : List Byte :=
  ((List.range 32).flatMap fun k => bytesOf 4 (classCosts.getD k 0)) ++ bytesOf 4 macCost ++ bytesOf 4 bucketCap ++ bytesOf 4 refillMax
    ++ bytesOf 116 0

/-- A byte of the capability area (R4-R8). -/
def capByte (off : Nat) : Byte :=
  match [1, 2, 3, 4, 5, 6, 7].find? fun k => decide (capOffset k ≤ off) && decide (off < capOffset k + 16) with
  | some k => (capEntry k).getD (off - capOffset k) 0
  | none => if capBodyAt ≤ off ∧ off < capBodyAt + 256 then costTable.getD (off - capBodyAt) 0 else Config.capFill off

/-- A word of the capability area; nothing lies beyond it (R383). -/
def capWord (off : Nat) : Word := if off ≥ 4096 then 0 else BitVec.ofNat 32 (ofBytes ((List.range 4).map fun i => capByte (off + i)))

/-- CAPQ, by its selector (R383). -/
def execCapq (h : Hdr) (x : Ext) (s : State) : Out :=
  issued h x.words s fun q =>
    let at_ (i : Nat) : Nat := ((q.lane i).rd (q.env i) 0 x.a.toNat).toNat
    let bad := q.failing fun i _ => x.field 11 2 = 0 && at_ i % 4 ≠ 0
    if bad ≠ 0 then trapGang q s Code.align 0 bad
    else
      let y (i : Nat) : Word := match x.field 11 2 with
        | 0 => capWord (at_ i)
        | 1 => domainIndex
        | _ => 3
      retire q h.sw (q.w.mapIn q.exec fun i l => l.wr x.d.toNat (y i)) s

/-- PFDONE (R384): in a PFAIL handler each executing lane parks for good. -/
def execPfdone (h : Hdr) (x : Ext) (s : State) : Out :=
  issued h x.words s fun q =>
    let w := q.w.advance q.pc q.next q.mask
    let w' := if h.sw then w.switchPoint q.mask else w
    commit s q.wk (if q.w.pfail then w'.parkAt q.exec fun _ => { pc := q.pc, why := .pfdone } else w')

/-- Fields of a code (R43). -/
def codeIndex (c : BitVec 16) : Nat := bitsAt c 0 10
def codeGrd (c : BitVec 16) : Nat := bitsAt c 10 4

/-- The bank that serves the workgroups of a launch on a core (R44). -/
def bankOf (s : State) (core : Nat) (L : Launch) : Option Bank := (s.coreOf core).banks.find? fun b => b.holds (dictId L)

/-- A dictionary entry with the code's grd and sw in its bits 2 to 6 (R47). -/
def entryWord (c : BitVec 16) (e : Word) : Word :=
  (e.extractLsb' 7 25 ++ c.extractLsb' 10 4 ++ c.extractLsb' 14 1 ++ e.extractLsb' 0 2 : BitVec 32)

/-- PC value of the code after code `k` of a DICT with `n` codes, or of the instruction that follows it (R46). -/
def codeNext (pc : PC) (k n : Nat) : PC :=
  if k + 1 < n then pc + 0x1000000000000000 else (pc &&& 0x0FFFFFFFFFFFFFFF) + BitVec.ofNat 64 (4 * (1 + (n - 1) / 2))

/-- DICT (R46, R47): the code that the path stands at passes the checks of R47, and its entry issues next. -/
def execDict (codes : List (BitVec 16)) (s : State) : Out :=
  issued { grd := 7, sw := false } 1 s fun q =>
    let k := bitsAt q.pc 60 4
    let L := s.launchOfWarp q.w
    match codes[k]? with
    | none => trapGang q s Code.illegalDict 0 q.mask
    | some c =>
      let e := ((bankOf s (coreOfKey q.wk) L).bind fun b => b.words[codeIndex c]?).getD 0
      if bitAt c 15 || codeGrd c = 15 then trapGang q s Code.illegalEnc 0 q.mask
      else if codeIndex c ≥ L.hdr.dictSize then trapGang q s Code.illegalDict 0 q.mask
      else if bitsAt e 0 2 ≠ 0 || bitsAt e 7 7 = 0x7F then trapGang q s Code.illegalDict 0 q.mask
      else .next { s with issue := some { wk := q.wk, pc := q.pc, dict := some { word := entryWord c e, next := codeNext q.pc k codes.length } } }

end Sys2Proof.Machine
end

