-- ==== Sys2Proof/Machine/Fetch.lean ====
section
/-! DEFINITION. Instruction fetch and what decoding finds (R28, R46, R54), for the step and for the arbiter, which looks
ahead. -/

namespace Sys2Proof.Machine

/-- What a fetch finds. -/
inductive Fetched where
  /-- An instruction, with the translations that it used. -/
  | instr (i : Instr) (ps : List Piece)
  /-- A decode fault of R54, precise and for the whole gang. -/
  | bad (code : Nat)
  /-- A fetch that does not translate, at the address given (R241). -/
  | fault (code : Nat) (va : Nat)
  /-- A poisoned word (R249). -/
  | poison
deriving DecidableEq, Repr

/-- The words fetched so far, or why there are none. -/
inductive Words where
  | ok (ws : List Word) (ps : List Piece)
  | fault (code va : Nat)
  | poison
deriving DecidableEq, Repr

/-- Fetch `n` words from `va`; `i` tells their translations apart. -/
def fetchWords (s : State) (ctx va i n : Nat) : Words :=
  match n with
  | 0 => .ok [] []
  | n + 1 =>
    match translate s ctx va 4 (64 + i) .fetch with
    | .fault c => .fault c va
    | .ok p =>
      if poisoned s.mem p.pa 4 then .poison
      else
        match fetchWords s ctx (va + 4) (i + 1) n with
        | .ok ws ps => .ok (BitVec.ofNat 32 (ofBytes (physRead s.mem p.key p.pa 4)) :: ws) (p :: ps)
        | r => r

/-- The words of the instruction at `va`: the first one says how many there are (R29). -/
def fetchInstr (s : State) (ctx va : Nat) : Words :=
  match fetchWords s ctx va 0 1 with
  | .ok ws ps =>
    match fetchWords s ctx (va + 4) 1 (wordCount (ws.getD 0 0) - 1) with
    | .ok ws' ps' => .ok (ws ++ ws') (ps ++ ps')
    | r => r
  | r => r

/-- The trap code of a decode fault (R54). -/
def decodeCode (d : DecodeFault) : Nat :=
  match d with
  | .illegalOp => Code.illegalOp
  | .illegalEnc => Code.illegalEnc

/-- Decode words with the checks of R39 and R40 that look at the workgroup. -/
def checked (s : State) (w : Warp) (ws : List Word) (ps : List Piece) : Fetched :=
  match decode ws with
  | .bad d => .bad (decodeCode d)
  | .ok i =>
    if counterBad i (s.wgOf w) then .bad Code.illegalEnc
    else if !i.inRange (s.regsOf w) then .bad Code.regRange
    else .instr i ps

/-- Fetch the instruction of the path that issues: the entry that a DICT has picked, or the words at its PC value, of which
bits 0 to 59 are the address; a code index other than 0 stands only in a DICT (R46, R47). -/
def fetch (s : State) (i : Issue) (w : Warp) : Fetched :=
  match i.dict with
  | some d => checked s w [d.word] []
  | none =>
    match fetchInstr s (s.ctxOf w) (bitsAt i.pc 0 60) with
    | .fault c va => .fault c va
    | .poison => .poison
    | .ok ws ps =>
      let r := checked s w ws ps
      match r with
      | .instr (.dict _) _ => r
      | _ => if bitsAt i.pc 60 4 ≠ 0 then .bad Code.illegalDict else r

/-- The gang that a fetch fault stops. -/
def fetchGang (s : State) (i : Issue) (w : Warp) : Gang :=
  { wk := i.wk, w := w, pc := i.pc, next := i.pc, mask := w.gang i.pc, exec := w.gang i.pc, g := s.regsOf w, free := s.free }

/-- A fetch that finds no instruction: a precise fault, a fault for Jasper, or a poisoned word (R54, R241, R249). -/
def fetchFault (s : State) (i : Issue) (w : Warp) (f : Fetched) : Out :=
  let q := fetchGang s i w
  match f with
  | .bad code => trapGang q s code 0 q.mask
  | .fault code va => askJasper q s code Access.fetch.sub q.mask (BitVec.ofNat 64 va)
  | _ => .next (addCause s i.wk { code := Code.poison, mask := q.mask, path := q.mask, pc := i.pc, resume := .none, cont := i.pc }).done

/-- The state with the translations of a fetch held by the TLBs. -/
def afterFetch (s : State) (w : Warp) (ps : List Piece) : State := s.setMem (cacheEntries s.mem (s.ctxOf w) ps)

/-- The instruction that a path would issue next, with the gang as its meaning sees it: for a DICT the entry of its code. -/
def lookAhead (s : State) (wk : Nat) (w : Warp) (pc : PC) : Option (Instr × Gang) :=
  let i : Issue := { wk := wk, pc := pc }
  let withGang (i : Issue) (x : Instr) : Option (Instr × Gang) := (gangOf { s with issue := some i } x.hdr (encode x).length).map fun q => (x, q)
  match fetch s i w with
  | .instr (.dict codes) _ =>
    match execDict codes { s with issue := some i } with
    | .next t => t.issue.bind fun j => match j.dict, fetch s j w with
      | some _, .instr x _ => withGang j x
      | _, _ => none
    | _ => none
  | .instr x _ => withGang i x
  | _ => none

end Sys2Proof.Machine
end

