-- ==== Sys2Proof/Machine/Solve.lean ====
section
/-! DEFINITION. Factorisation, solve and matrix functions (R205-R222). A solve runs its fixed algorithm in a state monad
that gathers the flags of its roundings and whether it met a small pivot. -/

namespace Sys2Proof.Machine

/-- What a solve gathers as it runs: flags, and whether a pivot was small (R205, R208). -/
structure SolveAcc where
  fl : Word := 0
  small : Bool := false
deriving DecidableEq, Repr

/-- A computation of a solve. -/
abbrev Solve := StateM SolveAcc

/-- Codes of P by rows and columns. -/
abbrev Mat := List (List Nat)

/-- Hold `x` at row `i`, column `j`. -/
def putMat (a : Mat) (i j x : Nat) : Mat := setAt a i (setAt (a.getD i []) j x)

/-- Exchange two rows. -/
def swapRows (a : Mat) (i j : Nat) : Mat := setAt (setAt a i (a.getD j [])) j (a.getD i [])

/-- Quotient, correctly rounded, in round-to-nearest (R140, R205). -/
def floatDiv (f : Fmt) (a b : Nat) : Nat × Word :=
  let x := unpack f a
  let y := unpack f b
  let neg := x.neg? != y.neg?
  match x, y with
  | .nan _, _ | _, .nan _ => (f.nan, sigFlag x ||| sigFlag y)
  | .inf _, .inf _ => (f.nan, Flag.inv)
  | .inf _, _ => (f.inf neg, 0)
  | _, .inf _ => (f.signed neg 0, 0)
  | .fin _ m₁ e₁, .fin _ m₂ e₂ =>
    if m₂ = 0 then (if m₁ = 0 then (f.nan, Flag.inv) else (f.inf neg, Flag.dz))
    else if m₁ = 0 then (f.signed neg 0, 0)
    else roundRat f 0 false neg m₁.natAbs m₂.natAbs (e₁ - e₂)

/-- The settings of one lane's solve: type code of P, the fields of %slv, and the names of its free values. -/
structure SolveCfg where
  p : Nat
  pexp : Nat
  act : Nat
  free : Nat
  lane : Nat
deriving DecidableEq, Repr

namespace SolveCfg

/-- The format of P. -/
def fmt (c : SolveCfg) : Fmt := fmtOf c.p

/-- Gather the flags of a step. -/
def flt (r : Nat × Word) : Solve Nat := do
  modify fun s => { s with fl := s.fl ||| r.2 }
  pure r.1

def add (c : SolveCfg) (x y : Nat) : Solve Nat := flt (floatAdd c.fmt 0 false x y)
def mul (c : SolveCfg) (x y : Nat) : Solve Nat := flt (floatMul c.fmt 0 false x y)
def fma (c : SolveCfg) (x y z : Nat) : Solve Nat := flt (floatFma c.fmt 0 false x y z)
def div (c : SolveCfg) (x y : Nat) : Solve Nat := flt (floatDiv c.fmt x y)
def sqrt (c : SolveCfg) (x : Nat) : Solve Nat := flt (floatSqrt c.fmt x)
def neg (c : SolveCfg) (x : Nat) : Nat := signMod c.fmt false true x
def mag (c : SolveCfg) (x : Nat) : Nat := signMod c.fmt true false x
def isNan (c : SolveCfg) (x : Nat) : Bool := (unpack c.fmt x).isNan
/-- 1 in P. -/
def one (c : SolveCfg) : Nat := (c.fmt.bias.toNat) * 2 ^ c.fmt.fw
/-- The n×n identity. -/
def eye (c : SolveCfg) (n m : Nat) : Mat := rowsList n m fun i j => if i = j then c.one else 0

/-- τ of R207 from the codes of the pivot source. A NaN among them, which only MEXP's Q can hold, leaves τ open. -/
def tau (c : SolveCfg) (xs : List Nat) : Nat :=
  if xs.any c.isNan then (Config.solve c.free c.lane 0).toNat % (c.fmt.inf false + 1)
  else
    match unpack c.fmt (xs.foldl (fun m x => max m (c.mag x)) 0) with
    | .fin _ m e => (roundTo c.fmt 0 false (.fin false m (e - c.pexp))).1
    | _ => c.fmt.inf false

/-- τ_r of R207. -/
def tauReg (c : SolveCfg) (tau : Nat) : Nat := max tau (2 ^ c.fmt.fw)

/-- A small pivot is flagged, and replaced by `r` with act 1 (R208). -/
def onSmall (c : SolveCfg) (p r : Nat) : Solve Nat := do
  modify fun s => { s with fl := s.fl ||| Flag.sing ||| (if c.act = 1 then Flag.reg else 0), small := true }
  pure (if c.act = 1 then r else p)

/-- Test a pivot and act on it (R207, R208). -/
def pivot (c : SolveCfg) (tau p : Nat) : Solve Nat :=
  if !c.isNan p && c.mag p ≤ tau then c.onSmall p (p - c.mag p + c.tauReg tau) else pure p

/-- MLU (R215): the factors and the pivot bytes. -/
def lu (c : SolveCfg) (n : Nat) (a₀ : Mat) : Solve (Mat × List Nat) := do
  let tau := c.tau (a₀.flatMap id)
  let mut a := a₀
  let mut piv : List Nat := []
  for k in List.range n do
    let q := (List.range n).foldl (fun q i =>
      if k < i && (floatCmp c.fmt 4 (c.mag (rowsAt a i k)) (c.mag (rowsAt a q k))).1 then i else q) k
    piv := piv ++ [q]
    a := swapRows a k q
    let p ← c.pivot tau (rowsAt a k k)
    a := putMat a k k p
    for i in (List.range n).drop (k + 1) do
      let x ← c.div (rowsAt a i k) p
      a := putMat a i k x
      for j in (List.range n).drop (k + 1) do
        let y ← c.fma (c.neg x) (rowsAt a k j) (rowsAt a i j)
        a := putMat a i j y
  pure (a, piv)

/-- Subtract products in order: fma(−x, y, acc) for each pair (R216, R218). -/
def subProducts (c : SolveCfg) (acc : Nat) (xs : List (Nat × Nat)) : Solve Nat :=
  xs.foldlM (fun acc p => c.fma (c.neg p.1) p.2 acc) acc

/-- One column `k` of MCHOL into `l`, or that the factorisation stops (R216). -/
def cholStep (c : SolveCfg) (tau n : Nat) (a l : Mat) (k : Nat) : Solve (Mat × Bool) := do
  let d₀ ← c.subProducts (rowsAt a k k) ((List.range k).map fun j => (rowsAt l k j, rowsAt l k j))
  let negative := (unpack c.fmt d₀).neg?
  let d ← if !c.isNan d₀ && (negative || c.mag d₀ ≤ tau) then c.onSmall d₀ (c.tauReg tau) else pure d₀
  if !(floatCmp c.fmt 4 d 0).1 then
    pure (rowsList n n fun i j => if k ≤ j && j ≤ i then c.fmt.nan else rowsAt l i j, true)
  else
    let r ← c.sqrt d
    let mut out := putMat l k k r
    for i in (List.range n).drop (k + 1) do
      let x ← c.subProducts (rowsAt a i k) ((List.range k).map fun j => (rowsAt out i j, rowsAt out k j))
      let y ← c.div x r
      out := putMat out i k y
    pure (out, false)

/-- MCHOL (R216). -/
def chol (c : SolveCfg) (n : Nat) (a : Mat) : Solve Mat := do
  let tau := c.tau ((List.range n).flatMap fun i => (List.range (i + 1)).map fun j => rowsAt a i j)
  let mut l : Mat := rowsList n n fun _ _ => 0
  let mut stop := false
  for k in List.range n do
    if !stop then
      let r ← c.cholStep tau n a l k
      l := r.1
      stop := r.2
  pure l

/-- One Householder reflection of R217: its index, v and β. -/
structure Mirror where
  k : Nat
  v : List Nat
  beta : Nat
deriving DecidableEq, Repr

/-- Reflect column `j` of `y` (R217). -/
def reflect (c : SolveCfg) (m : Nat) (h : Mirror) (y : Mat) (j : Nat) : Solve Mat := do
  let rows := (List.range m).drop h.k
  let w ← rows.foldlM (fun w i => c.fma (h.v.getD i 0) (rowsAt y i j) w) 0
  let u ← c.mul h.beta w
  rows.foldlM (fun y i => do
    let x ← c.fma (c.neg u) (h.v.getD i 0) (rowsAt y i j)
    pure (putMat y i j x)) y

/-- MQR (R217): R, and the thin Q unless `noQ`. -/
def qr (c : SolveCfg) (noQ : Bool) (m n : Nat) (a₀ : Mat) : Solve (Mat × Mat) := do
  let tau := c.tau (a₀.flatMap id)
  let mut a := a₀
  let mut diag : List Nat := []
  let mut hs : List Mirror := []
  for k in List.range n do
    let s ← ((List.range m).drop k).foldlM (fun s i => c.fma (rowsAt a i k) (rowsAt a i k) s) 0
    let nu ← c.sqrt s
    let x := rowsAt a k k
    if c.mag nu = 0 then
      let r ← c.pivot tau x
      diag := diag ++ [r]
    else
      let al := if x = c.mag x then c.neg nu else nu
      let vk ← c.add x (c.neg al)
      let t ← c.add nu (c.mag x)
      let t' ← c.mul nu t
      let b ← c.div c.one t'
      let col := a.map fun row => row.getD k 0
      let h : Mirror := { k := k, v := setAt col k vk, beta := b }
      for j in (List.range n).drop (k + 1) do
        a ← c.reflect m h a j
      hs := h :: hs
      let r ← c.pivot tau al
      diag := diag ++ [r]
  let r : Mat := rowsList n n fun i j => if i = j then diag.getD i 0 else if i < j then rowsAt a i j else 0
  if noQ then pure (r, [])
  else
    let q ← hs.foldlM (fun q h => (List.range n).foldlM (fun q j => c.reflect m h q j) q) (c.eye m n)
    pure (r, q)

/-- The sweep of R218 on every column of B: `t` is op(T), `order` the sweep order, and `tau` is given when the diagonal is
tested. -/
def sweep (c : SolveCfg) (unit : Bool) (tau : Option Nat) (order : List Nat) (r : Nat) (t : Nat → Nat → Nat) (b : Mat) :
    Solve Mat := do
  let mut x := b
  for j in List.range r do
    let mut seen : List Nat := []
    for i in order do
      let y ← c.subProducts (rowsAt x i j) (seen.map fun q => (t i q, rowsAt x q j))
      if unit then x := putMat x i j y
      else
        let d ← match tau with
          | some tau => c.pivot tau (t i i)
          | none => pure (t i i)
        let z ← c.div y d
        x := putMat x i j z
      seen := seen ++ [i]
  pure x

/-- MTRS (R218). -/
def trs (c : SolveCfg) (lo unit tr : Bool) (n r : Nat) (a b : Mat) : Solve Mat :=
  let inT (i j : Nat) : Bool := if lo then j ≤ i else i ≤ j
  let src := (List.range n).flatMap fun i => (List.range n).filterMap fun j =>
    if inT i j && !(unit && i = j) then some (rowsAt a i j) else none
  let up := List.range n
  c.sweep unit (some (c.tau src)) (if lo != tr then up else up.reverse) r (fun i j => if tr then rowsAt a j i else rowsAt a i j) b

/-- The exchanges and the two sweeps of R219 on an LU result. -/
def luSolve (c : SolveCfg) (n r : Nat) (f : Mat) (piv : List Nat) (b : Mat) : Solve Mat := do
  let b' := (List.range n).foldl (fun b i => swapRows b i (piv.getD i i)) b
  let y ← c.sweep true none (List.range n) r (rowsAt f) b'
  c.sweep false none (List.range n).reverse r (rowsAt f) y

/-- MSOLV without .lu, and MINV (R219, R220). -/
def solve (c : SolveCfg) (n r : Nat) (a b : Mat) : Solve Mat := do
  let f ← c.lu n a
  c.luSolve n r f.1 f.2 b

/-- A product of R221. -/
def product (c : SolveCfg) (n : Nat) (x y : Mat) : Solve Mat :=
  (List.range n).mapM fun i => (List.range n).mapM fun j =>
    (List.range n).foldlM (fun acc k => c.fma (rowsAt x i k) (rowsAt y k j) acc) 0

/-- A sum of R221: coefficients with their matrices, in the order written. -/
def weighted (c : SolveCfg) (n : Nat) (ts : List (Nat × Mat)) : Solve Mat :=
  (List.range n).mapM fun i => (List.range n).mapM fun j => do
    let t := ts.headD (0, [])
    let a ← c.mul t.1 (rowsAt t.2 i j)
    (ts.drop 1).foldlM (fun acc t => c.fma t.1 (rowsAt t.2 i j) acc) a

/-- The coefficients of R221, rounded to P. That this rounding sets no flag is the model's choice (log 108). -/
def coef (c : SolveCfg) (k : Nat) : Nat :=
  let r : Nat × Nat := match k with
    | 0 => (1, 1)
    | 1 => (1, 2)
    | 2 => (7, 60)
    | 3 => (1, 60)
    | 4 => (1, 624)
    | 5 => (1, 9360)
    | 6 => (1, 205920)
    | 7 => (1, 7207200)
    | _ => (1, 518918400)
  (roundRat c.fmt 0 false false r.1 r.2 0).1

/-- ‖A‖₁ of R221. -/
def norm1 (c : SolveCfg) (n : Nat) (a : Mat) : Solve Nat := do
  let sums ← (List.range n).mapM fun j => (List.range n).foldlM (fun acc i => c.add acc (c.mag (rowsAt a i j))) 0
  pure (sums.foldl max 0)

/-- s of R221 for a finite norm; none when the norm has overflowed. -/
def scaling (c : SolveCfg) (norm : Nat) : Option Nat :=
  match unpack c.fmt norm with
  | .fin _ m e =>
    if m = 0 then some 0
    else
      let top := (m.natAbs.log2 : Int) + e
      some ((if m.natAbs = 2 ^ m.natAbs.log2 then top + 1 else top + 2).toNat)
  | _ => none

/-- MEXP (R221). Without an s, because the norm has overflowed, the spec states no result: elements and flags are free. -/
def expm (c : SolveCfg) (n : Nat) (a : Mat) : Solve Mat := do
  let norm ← c.norm1 n a
  match c.scaling norm with
  | none =>
    let fl := (Config.solve c.free c.lane 1).setWidth 32 &&& 0x3FF
    modify fun s => { fl := s.fl ||| fl, small := fl &&& Flag.sing ≠ 0 }
    pure (rowsList n n fun i j => (Config.solve c.free c.lane (2 + n * i + j)).toNat % 2 ^ c.fmt.width)
  | some s =>
    let as ← a.mapM fun row => row.mapM fun x => flt (match unpack c.fmt x with
      | .fin z m e => roundTo c.fmt 0 false (.fin z m (e - s))
      | y => roundTo c.fmt 0 false y)
    let a2 ← c.product n as as
    let a4 ← c.product n a2 a2
    let a6 ← c.product n a4 a2
    let a8 ← c.product n a4 a4
    let i := c.eye n n
    let t ← c.weighted n [(c.coef 1, i), (c.coef 3, a2), (c.coef 5, a4), (c.coef 7, a6)]
    let u ← c.product n as t
    let v ← c.weighted n [(c.coef 0, i), (c.coef 2, a2), (c.coef 4, a4), (c.coef 6, a6), (c.coef 8, a8)]
    let p ← (List.range n).mapM fun i => (List.range n).mapM fun j => c.add (rowsAt v i j) (rowsAt u i j)
    let q ← (List.range n).mapM fun i => (List.range n).mapM fun j => c.add (rowsAt v i j) (c.neg (rowsAt u i j))
    let z ← c.solve n n q p
    (List.range s).foldlM (fun z _ => c.product n z z) z

/-- Binary powering from a base, with the power made so far (R222). -/
def powFrom (c : SolveCfg) (n fuel e : Nat) (base : Mat) (r : Option Mat) : Solve Mat :=
  match fuel with
  | 0 => pure (r.getD (c.eye n n))
  | fuel + 1 =>
    if e = 0 then pure (r.getD (c.eye n n))
    else do
      let r' ← if e % 2 = 1 then (match r with
        | none => pure (some base)
        | some m => some <$> c.product n m base) else pure r
      let b ← if e / 2 > 0 then c.product n base base else pure base
      powFrom c n fuel (e / 2) b r'

/-- MPOW (R222). -/
def pow (c : SolveCfg) (n : Nat) (x : Int) (a : Mat) : Solve Mat := do
  let base ← if x < 0 then c.solve n n a (c.eye n n) else pure a
  c.powFrom n 33 x.natAbs base none

end SolveCfg

/-- t of R222: squarings, and multiplies into a non-empty R. -/
def powCount (x : Int) : Nat :=
  let e := x.natAbs
  let ones := ((List.range 32).filter fun k => e / 2 ^ k % 2 = 1).length
  if e = 0 then 0 else e.log2 + (ones - 1)

/-- What a solve instruction does in one lane: its failing step of R152, the views it names, its result, and its work and
shape group (R213). -/
structure SolvePlan where
  check : Nat
  views : List View
  pend : Pend
  /-- It met a small pivot. -/
  small : Bool
  work : Nat
  key : List Nat
  /-- D of R213. -/
  depth : Nat

/-- The words of a pivot vector for order `n`, as a run (R211, R215). -/
def pivotRun (reg n : Nat) : View := { reg := reg, sh := BitVec.ofNat 32 1024, words := cdiv n 4 }

/-- The bytes of a pivot vector from its words (R215). -/
def pivotBytes (ws : List Word) (n : Nat) : List Nat := (List.range n).map fun i => bitsAt (ws.getD (i / 4) 0) (8 * (i % 4)) 8

/-- Step 4 for a list of views, where `allowed` gives the pairs of places that may be identical (R152, R211). -/
def solveOverlap (vs : List View) (allowed : List (Nat × Nat)) : Bool :=
  (List.range vs.length).any fun j => (List.range j).any fun i =>
    let u := vs.getD i (View.dense 0 0)
    let v := vs.getD j (View.dense 0 0)
    u.meets v && !(allowed.contains (i, j) && u.same v)

/-- Everything about one lane's solve before its algorithm runs. -/
structure SolveArgs where
  /-- Destination views, source views with the elements read, and register runs. -/
  dests : List View
  srcs : List (View × (Nat → Nat → Bool))
  runs : List View
  /-- Pairs of places in `dests ++ srcs ++ runs` that may be identical. -/
  allowed : List (Nat × Nat)
  /-- A failure of step 2 of the instruction's own. -/
  shape : Bool
  /-- Register of the pivot vector that is written, with its length. -/
  piv : Option (Nat × Nat)

/-- Run a solve in one lane (R205-R212): `run` gets the source matrices read in P and answers the destination matrices and
the pivot bytes. -/
def solveLane (x : Ext) (e : Env) (l : Lane) (s : SolveArgs) (work : SolveCfg → List Mat → Nat × List Nat × Nat)
    (run : SolveCfg → List Mat → Solve (List Mat × List Nat)) : SolvePlan :=
  let ha := l.h (haOf x)
  let c : SolveCfg := { p := if Sh.single ha then 1 else 0, pexp := bitsAt l.slv 0 6, act := bitsAt l.slv 6 2, free := e.free, lane := e.lane }
  let mats := s.dests ++ s.srcs.map (·.1)
  let all := mats ++ s.runs
  let shape := mats.any (fun v => v.badDense || Sh.ety v.sh > 1) || c.pexp = 0 || c.pexp > 60 || c.act > 2 || s.shape
  let check := firstStep [(2, shape), (3, all.any fun v => v.past e.g), (4, solveOverlap all s.allowed)]
  let raw : List (Mat × (Nat → Nat → Bool) × Word) := mapFrom (fun k (p : View × (Nat → Nat → Bool)) =>
    (rowsList (Sh.rows p.1.sh) (Sh.cols p.1.sh) (l.mat e (k + 1) p.1), p.2, p.1.sh)) 0 s.srcs
  let read := raw.map fun m => m.1.map fun row => row.map fun y => convert c.p (Sh.ety m.2.2) 0 false y
  let used : List (Nat × Word × Nat × Word) := (mapFrom (fun k m => (k, m)) 0 raw).flatMap fun km =>
    (List.range (Sh.rows km.2.2.2)).flatMap fun i => (List.range (Sh.cols km.2.2.2)).filterMap fun j =>
      if km.2.2.1 i j then
        let r := (((read.getD km.1 []).getD i []).getD j (0, 0))
        some (r.1, r.2, rowsAt km.2.1 i j, km.2.2.2)
      else none
  let bad := used.any fun u => (exactOf c.p u.1).isNone
  let sig := used.any fun u => unpack (fmtOf (Sh.ety u.2.2.2)) u.2.2.1 = .nan true
  let src : List Mat := read.map fun m => m.map fun row => row.map (·.1)
  let readFl := used.foldl (fun a u => a ||| u.2.1) (0 : Word)
  let w := work c src
  let res : (List (View × Mat) × List Nat) × SolveAcc :=
    if bad then ((s.dests.map fun v => (v, rowsList (Sh.rows v.sh) (Sh.cols v.sh) fun _ _ => (fmtOf (Sh.ety v.sh)).nan),
        List.range ((s.piv.map (·.2)).getD 0)), { fl := if sig then Flag.inv else 0 })
    else
      let go : Solve (List (View × Mat) × List Nat) := do
        let r ← run c src
        let outs ← (mapFrom (fun k (v : View) => (k, v)) 0 s.dests).mapM fun kv => do
          let m ← (r.1.getD kv.1 []).mapM fun row => row.mapM fun y => SolveCfg.flt (convert (Sh.ety kv.2.sh) c.p 0 false y)
          pure (kv.2, m)
        pure (outs, r.2)
      go.run { fl := readFl }
  let regs := (res.1.1.flatMap fun p => regRun p.1.reg (denseWords p.1.sh (rowsAt p.2)))
    ++ (match s.piv with
      | some (reg, n) => regRun reg (packElems 8 n fun i => res.1.2.getD i i)
      | none => [])
  { check := check, views := all, small := res.2.small, work := w.1 * (if c.p = 0 then 1024 else 256)
    key := w.2.1 ++ c.p :: mats.map (fun v => Sh.ety v.sh), depth := w.2.2
    pend := { regs := regs, fst := res.2.fl, matrix := true
              raise := if c.act = 2 && res.2.small then some { code := Code.singTrap, sub := 0, pc := e.next, cont := e.next } else none } }

/-- A dense view of a field and a shape register. -/
def solveView (l : Lane) (reg : BitVec 8) (h : Nat) : View := View.dense reg.toNat (l.h h)

/-- A view has `m` rows and `n` columns. -/
def View.dims (v : View) (m n : Nat) : Bool := Sh.rows v.sh = m && Sh.cols v.sh = n

/-- Every element is read. -/
def readAll (_ _ : Nat) : Bool := true

/-- MLU in one lane (R215). -/
def mluPlan (x : Ext) (e : Env) (l : Lane) : SolvePlan :=
  let d := solveView l x.d (hdOf x)
  let a := solveView l x.a (haOf x)
  let n := Sh.rows a.sh
  solveLane x e l
    { dests := [d], srcs := [(a, readAll)], runs := [pivotRun x.c.toNat n], allowed := [(0, 1)]
      shape := !a.dims n n || !d.dims n n, piv := some (x.c.toNat, n) }
    (fun _ _ => (cdiv (n ^ 3) 3, [0x60, n], n))
    fun c ms => do
      let r ← c.lu n (ms.getD 0 [])
      pure ([r.1], r.2)

/-- MCHOL in one lane (R216). -/
def mcholPlan (x : Ext) (e : Env) (l : Lane) : SolvePlan :=
  let d := solveView l x.d (hdOf x)
  let a := solveView l x.a (haOf x)
  let n := Sh.rows a.sh
  solveLane x e l
    { dests := [d], srcs := [(a, fun i j => j ≤ i)], runs := [], allowed := [(0, 1)], shape := !a.dims n n || !d.dims n n, piv := none }
    (fun _ _ => (cdiv (n ^ 3) 6, [0x61, n], n))
    fun c ms => do
      let r ← c.chol n (ms.getD 0 [])
      pure ([r], [])

/-- MQR in one lane (R217). -/
def mqrPlan (x : Ext) (e : Env) (l : Lane) : SolvePlan :=
  let noQ := x.bit 27
  let d := solveView l x.d (hdOf x)
  let a := solveView l x.a (haOf x)
  let b := solveView l x.b (hbOf x)
  let m := Sh.rows a.sh
  let n := Sh.cols a.sh
  solveLane x e l
    { dests := if noQ then [d] else [d, b], srcs := [(a, readAll)], runs := []
      allowed := if m = n then [(0, if noQ then 1 else 2)] else []
      shape := m < n || !d.dims n n || (!noQ && !b.dims m n), piv := none }
    (fun _ _ => ((if noQ then 1 else 2) * m * n ^ 2, [0x62, noQ.toNat, m, n], n))
    fun c ms => do
      let r ← c.qr noQ m n (ms.getD 0 [])
      pure ([r.1, r.2], [])

/-- MTRS in one lane (R218). -/
def mtrsPlan (x : Ext) (e : Env) (l : Lane) : SolvePlan :=
  let lo := x.bit 27
  let unit := x.bit 28
  let d := solveView l x.d (hdOf x)
  let a := solveView l x.a (haOf x)
  let b := solveView l x.b (hbOf x)
  let n := Sh.rows a.sh
  let r := Sh.cols b.sh
  solveLane x e l
    { dests := [d], srcs := [(a, fun i j => (if lo then j ≤ i else i ≤ j) && !(unit && i = j)), (b, readAll)], runs := []
      allowed := [(0, 2)], shape := !a.dims n n || Sh.rows b.sh ≠ n || !d.dims n r, piv := none }
    (fun _ _ => (cdiv (n ^ 2 * r) 2, [0x63, x.field 27 3, n, r], n))
    fun c ms => do
      let y ← c.trs lo unit (x.bit 29) n r (ms.getD 0 []) (ms.getD 1 [])
      pure ([y], [])

/-- MSOLV in one lane (R219). Of a pivot run that passes v(g) the spec does not say what the byte check of step 2 reads; that it reads
0 there is the model's choice (log 91). -/
def msolvPlan (x : Ext) (e : Env) (l : Lane) : SolvePlan :=
  let given := x.bit 27
  let d := solveView l x.d (hdOf x)
  let a := solveView l x.a (haOf x)
  let b := solveView l x.b (hbOf x)
  let n := Sh.rows a.sh
  let r := Sh.cols b.sh
  let run := pivotRun x.c.toNat n
  let piv := if given then pivotBytes (l.words e 3 run) n else []
  solveLane x e l
    { dests := [d], srcs := [(a, readAll), (b, readAll)], runs := if given then [run] else [], allowed := [(0, 2)]
      shape := !a.dims n n || Sh.rows b.sh ≠ n || !d.dims n r || (mapFrom (fun i q => q < i || q ≥ n) 0 piv).any id
      piv := none }
    (fun _ _ => ((if given then 0 else cdiv (n ^ 3) 3) + n ^ 2 * r, [0x64, given.toNat, n, r], if given then 2 * n else 3 * n))
    fun c ms => do
      let y ← if given then c.luSolve n r (ms.getD 0 []) piv (ms.getD 1 []) else c.solve n r (ms.getD 0 []) (ms.getD 1 [])
      pure ([y], [])

/-- MINV in one lane (R220). -/
def minvPlan (x : Ext) (e : Env) (l : Lane) : SolvePlan :=
  let d := solveView l x.d (hdOf x)
  let a := solveView l x.a (haOf x)
  let n := Sh.rows a.sh
  solveLane x e l
    { dests := [d], srcs := [(a, readAll)], runs := [], allowed := [(0, 1)], shape := !a.dims n n || !d.dims n n, piv := none }
    (fun _ _ => (cdiv (n ^ 3) 3 + n ^ 3, [0x65, n], 3 * n))
    fun c ms => do
      let y ← c.solve n n (ms.getD 0 []) (c.eye n n)
      pure ([y], [])

/-- MEXP in one lane (R221). R221 gives no s for a norm that is not finite: its work and shape group take a free value (log 44). -/
def mexpPlan (x : Ext) (e : Env) (l : Lane) : SolvePlan :=
  let d := solveView l x.d (hdOf x)
  let a := solveView l x.a (haOf x)
  let n := Sh.rows a.sh
  solveLane x e l
    { dests := [d], srcs := [(a, readAll)], runs := [], allowed := [(0, 1)], shape := !a.dims n n || !d.dims n n, piv := none }
    (fun c ms =>
      let s := (c.scaling ((c.norm1 n (ms.getD 0 [])).run {}).1).getD (Config.mexpScale e.free e.lane)
      ((6 + s) * n ^ 3 + cdiv (n ^ 3) 3, [0x66, n, s], 3 * n + 5 + s))
    fun c ms => do
      let y ← c.expm n (ms.getD 0 [])
      pure ([y], [])

/-- MPOW in one lane (R222). -/
def mpowPlan (x : Ext) (e : Env) (l : Lane) : SolvePlan :=
  let d := solveView l x.d (hdOf x)
  let a := solveView l x.a (haOf x)
  let n := Sh.rows a.sh
  let k := (l.rd e 9000 x.b.toNat).toInt
  let t := powCount k
  solveLane x e l
    { dests := [d], srcs := [(a, readAll)], runs := [], allowed := [(0, 1)], shape := !a.dims n n || !d.dims n n, piv := none }
    (fun _ _ => (t * n ^ 3 + (if k < 0 then cdiv (n ^ 3) 3 + n ^ 3 else 0), [0x67, n, t],
      t + if k < 0 then 3 * n else 0))
    fun c ms => do
      let y ← c.pow n k (ms.getD 0 [])
      pure ([y], [])

/-- Some executing lane has act 2, so that the instruction acts as a switch point (R209). -/
def Gang.traps2 (q : Gang) : Bool := (lanesOf q.exec).any fun i => bitsAt (q.lane i).slv 6 2 = 2

/-- The result of a solve in one lane: after a parity error in a cell its destinations are undefined, and it raises MATRIX_UE and no
SING_TRAP as it completes (R209, R212). -/
def solvePend (e : Env) (l : Lane) (p : Pend) : Pend :=
  if l.parity then
    { regs := p.regs.map fun r => (r.1, Config.anyWord e.free e.lane r.1), matrix := true
      raise := some { code := Code.matrixUe, sub := 0, pc := e.next, cont := e.next } }
  else p

/-- A solve instruction with the plan of each lane (R205-R212). -/
def solveOp (h : Hdr) (n : Nat) (s : State) (plan : Env → Lane → SolvePlan) : Out :=
  matOp h n s (fun q i => (plan (q.env i) (q.lane i)).check)
    (fun q i => (q.lane i).chainMeets (plan (q.env i) (q.lane i)).views)
    fun q s => retire q (h.sw || q.traps2) (q.w.mapIn q.exec fun i l =>
      l.addPend (solvePend (q.env i) l (plan (q.env i) l).pend)) s

/-- MLU (R215). -/
def execMlu (h : Hdr) (x : Ext) (s : State) : Out := solveOp h x.words s (mluPlan x)

/-- MCHOL (R216). -/
def execMchol (h : Hdr) (x : Ext) (s : State) : Out := solveOp h x.words s (mcholPlan x)

/-- MQR (R217). -/
def execMqr (h : Hdr) (x : Ext) (s : State) : Out := solveOp h x.words s (mqrPlan x)

/-- MTRS (R218). -/
def execMtrs (h : Hdr) (x : Ext) (s : State) : Out := solveOp h x.words s (mtrsPlan x)

/-- MSOLV (R219). -/
def execMsolv (h : Hdr) (x : Ext) (s : State) : Out := solveOp h x.words s (msolvPlan x)

/-- MINV (R220). -/
def execMinv (h : Hdr) (x : Ext) (s : State) : Out := solveOp h x.words s (minvPlan x)

/-- MEXP (R221). -/
def execMexp (h : Hdr) (x : Ext) (s : State) : Out := solveOp h x.words s (mexpPlan x)

/-- MPOW (R222). -/
def execMpow (h : Hdr) (x : Ext) (s : State) : Out := solveOp h x.words s (mpowPlan x)

/-- The solve's plan, for the arbiter (R213). -/
def Instr.solvePlan (i : Instr) (q : Gang) (k : Nat) : Option SolvePlan :=
  match i with
  | .mlu _ x => some (mluPlan x (q.env k) (q.lane k))
  | .mchol _ x => some (mcholPlan x (q.env k) (q.lane k))
  | .mqr _ x => some (mqrPlan x (q.env k) (q.lane k))
  | .mtrs _ x => some (mtrsPlan x (q.env k) (q.lane k))
  | .msolv _ x => some (msolvPlan x (q.env k) (q.lane k))
  | .minv _ x => some (minvPlan x (q.env k) (q.lane k))
  | .mexp _ x => some (mexpPlan x (q.env k) (q.lane k))
  | .mpow _ x => some (mpowPlan x (q.env k) (q.lane k))
  | _ => none

end Sys2Proof.Machine
end

