-- ==== Sys2Proof/Machine/WarpEvents.lean ====
section
/-! DEFINITION. What happens to a warp between its issues: pending results (R49, R53), draining chains (R167), and the
delivery of traps (R355-R361, R373). -/

namespace Sys2Proof.Machine

/-- A lane that waits to exit and has nothing outstanding any more becomes vacant (R113), unless a cause that takes it
elsewhere has arisen; the last lane of a handler lets the warp return (R362). -/
def settleExit (s : State) (wk i : Nat) : State :=
  match s.warp? wk with
  | none => s
  | some w =>
    let l := w.lane i
    if l.wait = some .exit && !l.busy && !(w.causes.any fun c => bitAt c.path i) then returnTrap (vacateLanes s wk (laneBit i)) wk else s

/-- A trap that a result raises as it returns joins the cause of the same code and PC value, if one has arisen already
(R209, R226, R249). -/
def raiseCause (s : State) (wk i : Nat) (r : Raise) : State :=
  let c : Cause := { code := r.code, sub := r.sub, mask := laneBit i, path := laneBit i, pc := r.pc, cont := r.cont
                     resume := if r.code ≥ 0x30 then .none else .cont }
  match s.warp? wk with
  | none => s
  | some w =>
    if w.causes.any fun d => d.code = c.code ∧ d.pc = c.pc then
      s.setWarp wk { w with causes := w.causes.map fun d =>
        if d.code = c.code ∧ d.pc = c.pc then { d with mask := d.mask ||| c.mask, path := d.path ||| c.path } else d }
    else addCause s wk c

/-- The access that pending result `k` of a lane waits for is performed (R49). -/
def returnOne (s : State) (wk i k : Nat) : State :=
  match (((s.warp? wk).map fun w => (w.lane i).pend).getD [])[k]?.bind fun p => p.read with
  | none => s
  | some r => performReads s wk fun j x => j = i && x.id = r.id

/-- Pending result `k` of a lane is written, and raises what it raises. -/
def landOne (s₀ : State) (wk i k : Nat) : State :=
  let s := returnOne s₀ wk i k
  match s.warp? wk with
  | none => s
  | some w =>
    match (w.lane i).pend[k]? with
    | none => s
    | some p =>
      let s' := s.setWarp wk (w.modLane i fun l => { l.land s.free i p with pend := (dropAt l.pend k).map (Lane.noteLanded p) })
      match p.raise with
      | none => s'
      | some r => raiseCause s' wk i r

/-- A pending result may be written now: matrix results in issue order, and not while the lane's chain is open (R53, R167). -/
def mayLand (l : Lane) (k : Nat) : Bool :=
  match l.pend[k]? with
  | none => false
  | some p => !p.matrix || (l.chain.isNone && !((l.pend.take k).any fun q => q.matrix))

/-- PENDING_RESULT_WRITE (R49). -/
def execPendingResultWrite (s : State) : Out :=
  match s.event with
  | some (.pendingResultWrite wk i k) =>
    match s.warp? wk with
    | none => onlyIf false s s
    | some w => onlyIf (mayLand (w.lane i) k && w.stop != .ended) s (settleExit (landOne s wk i k) wk i)
  | _ => .fault .notPosted

/-- CHAIN_DRAIN (R167): a chain that has ended is compared with its destination. -/
def execChainDrain (s : State) : Out :=
  match s.event with
  | some (.chainDrain wk i) =>
    match s.warp? wk with
    | none => onlyIf false s s
    | some w => onlyIf (((w.lane i).chain.map fun c => c.ended).getD false && w.stop != .ended) s (settleExit (drainLanes s wk (laneBit i)).1 wk i)
  | _ => .fault .notPosted

/-- Every lane of a warp drains its chain and writes its pending results, in order (R50, R355). -/
def flushWarp (s : State) (wk : Nat) : State :=
  match s.warp? wk with
  | none => s
  | some w =>
    let all := maskOf fun _ => true
    let s₁ := (drainLanes s wk all).1
    let s₂ := (List.range 32).foldl (fun s i => (List.range ((w.lane i).pend.length)).foldl (fun s _ => landOne s wk i 0) s) s₁
    (List.range 32).foldl (fun s i => settleExit s wk i) (s₂.modWarp wk Warp.switchRelease)

/-- Nothing is outstanding in a warp: no pending result, and no chain (R355). -/
def Warp.settled (w : Warp) : Bool := (List.range 32).all fun i => (w.lane i).pend.isEmpty && (w.lane i).chain.isNone

/-- No cause, for a debugger stop that a command asked for: the frame holds what %tcause, %tmask and %tpc read, 0 outside a handler
(R357, R359). -/
def noCause (w : Warp) : Cause :=
  match w.trap with
  | none => { code := 0, mask := 0, path := 0, pc := 0, resume := .wait, cont := 0 }
  | some t => { code := t.shown.code, sub := t.shown.sub, mask := t.shown.mask, path := 0, pc := t.shown.pc, resume := .wait, cont := 0 }

/-- A debugger stops a warp, and its frame is written (R359, R373). -/
def debugStop (s : State) (wk : Nat) (c : Cause) : State :=
  let (seq, s₁) := s.number (dieOfKey wk)
  let s₂ := writeFrame s₁ wk (dieOfKey wk) seq c 2
  s₂.modWarp wk fun w => { w with stop := .debugger none, limit := (s.ctxFields (s.ctxOf w)).waitLimit.toNat * 1000 }

/-- A BRK with a debugger attached: the warp stops with its path past the BRK (R115, R356, R373). -/
def breakToDebugger (s : State) (wk : Nat) (c : Cause) : State :=
  (debugStop s wk c).modWarp wk fun w => { w.advance c.pc c.cont c.path with causes := w.causes.filter fun d => d != c }

/-- TRAP_DELIVERY (R355, R358). -/
def execTrapDelivery (s : State) : Out :=
  match s.event with
  | some (.trapDelivery wk) =>
    match s.warp? wk with
    | none => onlyIf false s s
    | some w =>
      match firstCause w.due with
      | none => onlyIf false s s
      | some c => onlyIf (w.settled && w.stop == .running) s
          (if c.code = Code.brk && s.hub.debugger then breakToDebugger s wk c else takeTrap s wk c)
  | _ => .fault .notPosted

end Sys2Proof.Machine
end

