-- ==== Sys2Proof/Machine/Arbiter.lean ====
section
/-! DEFINITION. Issue arbitration and energy (R90, R94-R103, R112, R114, R160, R161, R344-R347), and the passing of device
time (R27, R275, R364). -/

namespace Sys2Proof.Machine

/-- Energy class of an instruction (R344). -/
def Instr.energyClass (i : Instr) : Nat :=
  let o := i.opcode
  if o ≤ 0x0C then 5 else if o = 0x0D then 6 else if o ≤ 0x2F then 0
  else if o = 0x37 || o = 0x3E then 3 else if o ≤ 0x36 || o = 0x3F then 1 else if o ≤ 0x3D then 2
  else if o ≤ 0x4A then 4 else if o ≤ 0x4F then 13 else if o ≤ 0x54 then 14 else if o ≤ 0x5A then 16 else if o ≤ 0x67 then 15
  else if o = 0x68 || o = 0x69 || o = 0x6F then 8 else if o ≤ 0x6E || o = 0x71 then 7 else if o = 0x70 || o = 0x72 then 9
  else if o ≤ 0x77 then 10 else if o ≤ 0x7B then 11 else 12

/-- Issue cycles (R48, R126): an FP64 scalar instruction, opcode 0x38 to 0x3E, takes two. -/
def Instr.issueCycles (i : Instr) : Nat := if 0x38 ≤ i.opcode && i.opcode ≤ 0x3E then 2 else 1

/-- A multiply or a solve in one lane: its work in 1/64 BF16-equivalent MACs, and what its shape group agrees in (R159,
R213). -/
def workOf (s : State) (i : Instr) (q : Gang) (k : Nat) : Option (Nat × List Nat) :=
  match Machine.Instr.plan i s q k, Machine.Instr.solvePlan i q k with
  | some p, _ => some (p.work, p.key)
  | none, some p => some (p.work, p.key)
  | none, none => none

/-- The step of R152 that a multiply or a solve fails in one lane, or 0. -/
def checkOf (s : State) (i : Instr) (q : Gang) (k : Nat) : Nat :=
  match Machine.Instr.plan i s q k, Machine.Instr.solvePlan i q k with
  | some p, _ => p.check
  | none, some p => p.check
  | none, none => 0

/-- The work of each executing lane, which the arbiter takes once step 5 has passed in every lane (R158, R188). -/
def works (s : State) (i : Instr) (q : Gang) : List (Nat × List Nat) :=
  if (lanesOf q.exec).any fun k => 1 ≤ checkOf s i q k && checkOf s i q k ≤ 5 then [] else (lanesOf q.exec).filterMap fun k => workOf s i q k

/-- The charge of a gang in pJ (R345, R169): a gang that only arrives at a warp-wide instruction or a REGRP costs 0. -/
def chargeOf (s : State) (i : Instr) (q : Gang) : Nat :=
  let arrives := i.opcode = 0x0D || (match i with
    | .regrp .. => true
    | _ => false)
  let w := (works s i q).foldl (fun n p => n + p.1) 0
  if q.exec = 0 || arrives then 0 else classCosts.getD (Instr.energyClass i) 0 * popCount q.exec + cdiv (w * macCost) (64 * 256)

/-- The work of each shape group, in ascending order of their lowest lanes. -/
def groupWorks (l : List (Nat × List Nat)) : List Nat :=
  (l.foldl (fun (r : List (Nat × List Nat)) p =>
    if r.any fun g => g.2 = p.2 then r.map fun g => if g.2 = p.2 then (g.1 + p.1, g.2) else g else r ++ [p]) []).map (·.1)

/-- Take one cell group back from the largest share above 1, ties to the later group (R160 step 2). -/
def takeBack (cs : List Nat) (n : Nat) : List Nat :=
  match n with
  | 0 => cs
  | n + 1 =>
    let top := cs.foldl max 0
    let at_ := (mapFrom (fun i c => (i, c)) 0 cs).foldl (fun r p => if p.2 = top then p.1 else r) 0
    takeBack (if top > 1 then setAt cs at_ (top - 1) else cs) n

/-- The shares of the 128 cell groups (R160). -/
def cellShares (ws : List Nat) : List Nat :=
  let total := ws.foldl (· + ·) 0
  let c₁ := ws.map fun w => max 1 (128 * w / max 1 total)
  let sum := c₁.foldl (· + ·) 0
  let c₂ := if sum > 128 then takeBack c₁ (sum - 128) else c₁
  let first := (sortBy (fun (a b : Nat × Nat) => decide (a.2 > b.2)) (mapFrom (fun i w => (i, w)) 0 ws)).take (128 - min 128 sum)
  mapFrom (fun i c => if first.any fun p => p.1 = i then c + 1 else c) 0 c₂

/-- Cycles for which a multiply or a solve occupies the matrix pipe (R161). -/
def occupancy (s : State) (i : Instr) (q : Gang) : Nat :=
  let ws := groupWorks (works s i q)
  ((ws.zip (cellShares ws)).map fun p => cdiv p.1 (64 * 16 * p.2)).foldl max 0

/-- The instruction uses the matrix pipe: the multiply and the solve families (R161, R213). -/
def Instr.usesPipe (i : Instr) : Bool := decide (0x50 ≤ i.opcode) && decide (i.opcode ≤ 0x54) || decide (0x60 ≤ i.opcode) && decide (i.opcode ≤ 0x67)

/-- The instruction waits at issue: for its lanes' results, for room in a ring, or for REDs (R49, R119, R267, R269, R315,
R316, R352). -/
def heldBack (s : State) (i : Instr) (q : Gang) : Bool :=
  let g := s.wgOf q.w
  let e := q.env q.lead
  let l := q.lane q.lead
  let room (x : Ext) (n : Nat) : Bool := decide (queueOf x e l < g.queues.length) && decide (ringRoom (g.queues.getD (queueOf x e l) {}) < n)
  q.exec ≠ 0 && match i with
    | .jarr .. | .joinAt .. | .barArrive .. | .barSync .. => q.pending
    | .cpyq _ x => q.pending || room x (popCount q.exec)
    | .cpyf _ x => q.pending || room x 1
    | .launch _ x =>
      let k := bitsAt (l.rd e 40 x.b.toNat) 0 12
      let u := s.queueOf k
      q.pending || (queueNamed s (s.ctxOf q.w) k && decide ((u.writeIdx - u.readIdx).toNat ≥ 2 ^ u.ringLog))
    | .fence _ x => x.field 15 2 ≠ 1 && redsBefore s q (scopeOf x (x.bit 11) x.a.toNat e l)
    | _ => false

/-- What may issue from a warp. -/
inductive Pick where
  | path (i : Option Instr) (q : Gang)
  /-- The set of lanes parked at a warp-wide instruction or a REGRP. -/
  | parked

/-- A candidate of the arbiter (R346). -/
structure Candidate where
  wk : Nat
  pc : PC
  charge : Nat
  pick : Pick

/-- The warp may issue at all: not stopped, no trap due, its dictionary loaded, and issue not stopped by a loss of supply
(R45, R355, R367, R373). -/
def mayIssue (s : State) (w : Warp) : Bool :=
  let L := s.launchOfWarp w
  let up := match s.power.phase with
    | .running => true
    | .window _ _ => w.pfail
    | _ => false
  let go := match w.stop with
    | .running | .debugger (some _) => true
    | _ => false
  up && go && w.due.isEmpty && (L.hdr.dictSize = 0 || (bankOf s (s.wgOf w).core L).isSome)

/-- A path may issue, so far as its lanes say: none of them waits with the gang, the cycle of a branch target has come, and its slots
can leave the lanes that wait in them (R49, R89, R90, R112). -/
def readyPath (w : Warp) (pc : PC) (cycle : Nat) : Bool :=
  w.gang pc ≠ 0 && w.roomAt pc
    && (lanesOf (w.gang pc)).all fun i => (w.lane i).wait.isNone && (w.lane i).sw = 0 && decide ((w.lane i).readyAt ≤ cycle)

/-- The path is passed over after a YIELD (R114). -/
def yielded (w : Warp) (pc : PC) (cycle : Nat) : Bool := (lanesOf (w.gang pc)).any fun i => decide (cycle < (w.lane i).yieldTo)

/-- The parked sets of a warp that are ready to issue; `released` tells that a join has released in this cycle (R101,
R103, R349). -/
def readyParks (s : State) (w : Warp) (released : Bool) : List PC :=
  let pcs := ((List.range 32).filterMap fun i => (w.lane i).park.map fun p => p.pc).eraseDups
  pcs.filter fun pc => match w.wideReady pc, (if w.parkedRegrp pc = 0 then none else regroupReady s w.wg pc) with
    | some part, _ => !(part && released)
    | none, some part => !(part && released)
    | none, none => false

/-- The executing lanes of a parked set, and the instruction at which it is parked. -/
def parkedInstr (w : Warp) (pc : PC) : Option Instr × Mask :=
  let at_ (i : Nat) : Option (Instr × Bool) := match (w.lane i).park with
    | some { pc := p, why := .warpWide x g } => if p = pc then some (x, g) else none
    | some { pc := p, why := .regrp x g } => if p = pc then some (x, g) else none
    | _ => none
  (((List.range 32).findSome? at_).map (·.1), maskOf fun i => ((at_ i).map (·.2)).getD false)

/-- The executing lanes of a REGRP in every warp of the workgroup are charged together (R345). -/
def parkedCharge (s : State) (w : Warp) (pc : PC) : Nat :=
  let cost (i : Option Instr) : Nat := (i.map fun i => classCosts.getD (Instr.energyClass i) 0).getD 0
  if w.parkedRegrp pc = 0 then cost (parkedInstr w pc).1 * popCount (parkedInstr w pc).2
  else (wgWarps s w.wg).foldl (fun n p => n + cost (parkedInstr p.2 pc).1 * popCount ((parkedInstr p.2 pc).2 &&& p.2.parkedRegrp pc)) 0

/-- The path at one PC value of a warp as a candidate, if it is eligible (R346); one that a YIELD passes over only if `yields` (R114). -/
def pathAt (s : State) (wk : Nat) (w : Warp) (cycle pipe : Nat) (yields : Bool) (pc : PC) : Option Candidate :=
  if !readyPath w pc cycle || (!yields && yielded w pc cycle) then none
  else
    match lookAhead s wk w pc with
    | none => some { wk := wk, pc := pc, charge := 0, pick := .path none (fetchGang s { wk := wk, pc := pc } w) }
    | some (i, q) =>
      if heldBack s i q || (Instr.usesPipe i && q.exec ≠ 0 && decide (cycle < pipe)) then none
      else some { wk := wk, pc := pc, charge := chargeOf s i q, pick := .path (some i) q }

/-- The candidate at one PC value of a warp (R90, R346): its path, which would join a set that is parked there, else the parked set
that is ready. -/
def candidateAt (s : State) (wk : Nat) (w : Warp) (cycle pipe : Nat) (parks : List PC) (yields : Bool) (pc : PC) : Option Candidate :=
  match pathAt s wk w cycle pipe yields pc with
  | some c => some c
  | none => if parks.contains pc then some { wk := wk, pc := pc, charge := parkedCharge s w pc, pick := .parked } else none

/-- The candidate of a warp: the lowest eligible PC value among its paths and its ready park sets (R90, R346). `yields` asks
for paths that a YIELD passes over as well. -/
def candidate (s : State) (wk : Nat) (w : Warp) (cycle pipe : Nat) (released yields : Bool) : Option Candidate :=
  if !mayIssue s w then none
  else
    let parks := readyParks s w released
    let pcs := sortBy (fun (a b : PC) => decide (a.toNat < b.toNat)) (w.paths ++ parks)
    let mine := match w.stop with
      | .debugger (some pc) => pcs.filter fun p => p = pc
      | _ => pcs
    mine.findSome? (candidateAt s wk w cycle pipe parks yields)

/-- The instruction waits at issue for the pending results of its lanes, and so ends their chains (R49, R161); a FENCE that waits for
REDs ends none. -/
def Instr.awaitsResults (i : Instr) : Bool :=
  match i with
  | .jarr .. | .joinAt .. | .barArrive .. | .barSync .. | .cpyq .. | .cpyf .. | .launch .. => true
  | _ => false

/-- The chains of paths whose instruction waits for its lanes' results end (R161). -/
def endHeld (s : State) (cycle wk : Nat) : State :=
  match s.warp? wk with
  | none => s
  | some w => s.setWarp wk (w.paths.foldl (fun w pc => match lookAhead s wk w pc with
      | some (i, q) => if readyPath w pc cycle && Instr.awaitsResults i && q.pending && heldBack s i q then w.mapIn q.mask fun _ l => l.endChain else w
      | none => w) w)

/-- The joins of a warp are tested on the state at the start of the cycle, and release together (R96, R99-R101). -/
def releaseJoins (s : State) (wk : Nat) : State × Bool :=
  match s.warp? wk with
  | none => (s, false)
  | some w =>
    let test (j : Nat) : Warp.JoinTest := w.testJoin j
    let out := (List.range 8).filter fun j => test j != .holds
    let lost := out.filter fun j => test j == .lost
    if out = [] || !w.due.isEmpty || w.stop != .running then (s, false)
    else
      let m := out.foldl (fun m j => m ||| w.parkedJoin j) (0 : Mask)
      let m' := lost.foldl (fun m j => m ||| w.parkedJoin j) (0 : Mask)
      let w₁ := w.mapIn m' fun _ l => l.orFst Flag.jlost
      let w₂ := out.foldl (fun w j => w.setJoin j { w.join j with arrived := 0 }) w₁
      let target (i : Nat) : PC := ((w.lane i).park.map fun p => p.pc).getD 0
      let s₁ := s.modLaunch (s.wgOf w).launch fun L => { L with lostJoins := L.lostJoins + lost.length }
      (reenterLanes (s₁.setWarp wk w₂) wk m target, true)

/-- A debugger has halted some warp of the workgroups that `p` accepts. -/
def haltedAmong (s : State) (p : Nat → Workgroup → Bool) : Bool :=
  s.warps.any fun w => (match w.2.stop with
    | .debugger _ => true
    | _ => false) && ((s.wg? w.2.wg).map (p w.2.wg)).getD false

/-- A context shares a collective handle with a peer that is RECOVERING (R275). -/
def peerRecovers (s : State) (ctx : Nat) : Bool :=
  s.hub.handles.any fun h => !h.2.aborted && h.2.members.any (fun m => m.domain = domainIndex.toNat && m.ctx = ctx)
    && h.2.members.any fun m => s.hub.recovering.contains m.domain

/-- The count of a lane's wait stands still (R275, R374). -/
def pausedWait (s : State) (w : Warp) (l : Lane) : Bool :=
  let g := s.wgOf w
  match l.wait with
  | some (.bar true ..) | some (.barNext true ..) => haltedAmong s fun _ h => h.cset = g.cset
  | some (.bar ..) | some (.barNext ..) => haltedAmong s fun k _ => k = w.wg
  | some (.waitv ..) => haltedAmong s (fun _ h => (s.launchOf h).ctx = s.ctxOf w) || peerRecovers s (s.ctxOf w)
  | _ => true

/-- Device time passes: the timestamp, the counts toward wait limits, and those of pre-emption requests (R27, R275, R364). -/
def passTime (s : State) (d : Nat) : State :=
  { s with
    time := s.time + d
    warps := s.warps.map fun p => (p.1, p.2.mapLanes fun _ l => if l.counted.isSome && !pausedWait s p.2 l then l.setCount (· + d) else l)
    wgs := s.wgs.map fun g => (g.1, { g.2 with preempt := g.2.preempt.map fun t => if haltedAmong s (fun k _ => k = g.1) then t else t + d }) }

/-- The quarter's warps with their candidates, and its choice (R346). -/
structure Choice where
  eligible : List Candidate
  pick : Option Candidate
  overdraws : Bool

/-- Among candidates, the oldest warp, then the lower warp slot (R346). -/
def oldest (s : State) (l : List Candidate) : Option Candidate :=
  let age (c : Candidate) : Nat := ((s.warp? c.wk).map fun w => w.age).getD 0
  l.foldl (fun r c => match r with
    | none => some c
    | some b => some (if age c < age b || (age c = age b && decide (c.wk < b.wk)) then c else b)) none

/-- The choice of the arbiter among the eligible candidates (R346). -/
def choose (s : State) (core quarter : Nat) (l : List Candidate) : Choice :=
  let k := s.coreOf core
  let pays (c : Candidate) : Bool := decide ((c.charge : Int) ≤ k.energy)
  let late := l.filter fun c => decide (2048 ≤ ((s.warp? c.wk).map fun w => w.waitCount).getD 0) && (pays c || !bitAt k.overdrawn quarter)
  match oldest s late with
  | some c => { eligible := l, pick := some c, overdraws := !pays c }
  | none =>
    let class_ (p : Nat) : List Candidate := l.filter fun c => pays c && ((s.warp? c.wk).map fun w => (s.launchOfWarp w).hdr.prio).getD 0 = p
    { eligible := l, pick := [7, 6, 5, 4, 3, 2, 1, 0].findSome? fun p => oldest s (class_ p), overdraws := false }

/-- The cycle's accounts: the bucket, the overdraft, the pipe, the issue port, and the wait counts (R48, R161, R346). -/
def account (s : State) (core quarter cycle : Nat) (c : Choice) : State :=
  let counts := c.eligible.foldl (fun s e => s.modWarp e.wk fun w => { w with waitCount := w.waitCount + 1 }) s
  let picked := match c.pick with
    | none => counts
    | some p => counts.modWarp p.wk fun w => { w with waitCount := 0 }
  let busy : Nat × Nat := match c.pick with
    | some { wk := _, pc := _, charge := _, pick := .path (some i) q } =>
      (if Instr.usesPipe i && q.exec ≠ 0 then cycle + occupancy s i q else 0, cycle + Instr.issueCycles i)
    | _ => (0, cycle + 1)
  picked.modCore core fun k => { k with
    energy := k.energy - ((c.pick.map fun p => (p.charge : Int)).getD 0)
    overdrawn := if c.overdraws then k.overdrawn ||| BitVec.ofNat 4 (2 ^ quarter) else k.overdrawn
    pipeFree := if busy.1 = 0 then k.pipeFree else fset k.pipeFree quarter busy.1
    issueFree := fset k.issueFree quarter busy.2
    cycles := fset k.cycles quarter (cycle + 1) }

/-- The instruction is a release of its lanes' accesses, by its ordering or by what it is: a scratchpad access with .rel or .ar, BAR.arrive,
BAR.sync, DCADD, CPYQ, CPYF, LAUNCH, SIGWAKE, PFDONE (R235, R254, R270, R277, R291, R295, R352, R353). -/
def Instr.orders (i : Instr) : Bool :=
  match i with
  | .stsExt _ x | .atomsAdd _ x | .atomsMin _ x | .atomsMax _ x | .atomsAnd _ x | .atomsOr _ x | .atomsXor _ x | .atomsExch _ x | .atomsCas _ x =>
    releasing x
  | .barArrive .. | .barSync .. | .dcadd .. | .cpyq .. | .cpyf .. | .launch .. | .sigwake .. | .sigwakeMb .. | .pfdone .. => true
  | _ => false

/-- The late accesses that an instruction of the lanes `m` waits for are performed before it issues: those that it orders, and, at a REGRP,
which takes items to other lanes, all of them (R254, R282). -/
def orderFirst (s : State) (wk : Nat) (i : Instr) (m : Mask) : State :=
  let moves := match i with
    | .regrp .. => true
    | _ => false
  if moves || Instr.orders i then performEarlier s wk m true moves else s

/-- What the quarter's choice leads to: the gang that the next step issues, or the issue of a parked set. -/
def start (s : State) (c : Choice) : State :=
  match c.pick with
  | none => s
  | some p =>
    let s₁ := s.modWarp p.wk fun w => { w with stop := match w.stop with
      | .debugger _ => .debugger none
      | x => x }
    match p.pick with
    | .parked => { s₁ with event := some (.warpWideIssue p.wk p.pc) }
    | .path none _ => { s₁ with issue := some { wk := p.wk, pc := p.pc } }
    | .path (some i) q => { orderFirst s₁ p.wk i q.mask with issue := some { wk := p.wk, pc := p.pc } }

/-- Late accesses of a warp are performed at any time (R279). -/
def performOwn (s : State) (wk : Nat) : State :=
  match s.warp? wk with
  | none => s
  | some w =>
    let s₁ := performStores s fun a => a.warp = w.uid && Config.anyBool s.free (2 ^ 40 + 64 * a.id + a.lane)
    performReads s₁ wk fun i r => Config.anyBool s.free (2 ^ 40 + 64 * r.id + 32 + i)

/-- The quarters of a core that hold a warp. -/
def quartersOf (s : State) (core : Nat) : List Nat :=
  [0, 1, 2, 3].filter fun q => s.warps.any fun p => coreOfKey p.1 = core ∧ quarterOfKey p.1 = q

/-- The cycles of a core that at least one of its quarters has begun. -/
def coreCycle (s : State) (core : Nat) : Nat := (List.range 4).foldl (fun n q => max n (fgetD (s.coreOf core).cycles q 0)) 0

/-- A quarter of a core has not had the cycle that the core has begun, and neither has one above it, so that it may yet have it (R346). -/
def quarterBehind (s : State) (core quarter : Nat) : Bool :=
  let had (q : Nat) : Bool := fgetD (s.coreOf core).cycles q 0 = coreCycle s core
  !had quarter && !((quartersOf s core).any fun p => quarter < p && had p)

/-- The quarter whose turn it is: within one cycle the quarters of a core are judged in ascending order (R346). -/
def turnQuarter (s : State) (core : Nat) : Option Nat := ((quartersOf s core).find? (quarterBehind s core)).or (quartersOf s core).head?

/-- The cycle that a quarter judges at its turn: the one that the core has begun, or the next. -/
def turnCycle (s : State) (core quarter : Nat) : Nat :=
  if quarterBehind s core quarter then coreCycle s core - 1 else coreCycle s core

/-- A quarter of the core may yet judge the cycle that the core has begun. -/
def cycleOpen (s : State) (core : Nat) : Bool := (quartersOf s core).any (quarterBehind s core)

/-- A core's cycle is over: no quarter of it judges that cycle any more. -/
def closeCycle (s : State) (core : Nat) : State :=
  s.modCore core fun k => { k with cycles := [0, 1, 2, 3].foldl (fun c q => fset c q (coreCycle s core)) k.cycles }

/-- The soft interrupts of each core's cycle that is over are numbered, after the faults of the cycle, and posted to Jasper of their die (R25,
R353). -/
def numberSoft (s : State) : State :=
  let past := s.hub.soft.filter fun p => !cycleOpen s p.1
  past.foldl (fun s p => (s.number (p.1 / 48)).2.notify (p.1 / 48) (.mail (s.number (p.1 / 48)).1 p.2))
    ((past.foldl (fun s p => closeCycle s p.1) s).modHub fun h => { h with soft := s.hub.soft.filter fun p => cycleOpen s p.1 })

/-- One cycle of a quarter: switch points are released, joins are tested, and a candidate is picked (R90, R346). -/
def arbitrate (s : State) (core quarter : Nat) : State :=
  let keys := (quarterWarps s core quarter).map (·.1)
  let cycle := turnCycle s core quarter
  let s₁ := keys.foldl (fun s k => s.modWarp k Warp.switchRelease) s
  let r := keys.foldl (fun (r : State × List Nat) k => let x := releaseJoins r.1 k; (x.1, if x.2 then k :: r.2 else r.2)) (s₁, [])
  let s₂ := keys.foldl performOwn (keys.foldl (fun s k => endHeld s cycle k) r.1)
  let pipe := fgetD (s₂.coreOf core).pipeFree quarter 0
  let list (yields : Bool) : List Candidate := keys.filterMap fun k =>
    (s₂.warp? k).bind fun w => candidate s₂ k w cycle pipe (r.2.contains k) yields
  let l := if cycle < fgetD (s₂.coreOf core).issueFree quarter 0 then [] else if (list false).isEmpty then list true else list false
  let c := choose s₂ core quarter l
  start ({ account s₂ core quarter cycle c with event := none, free := s.free + 1 }) c

/-- ISSUE_ARBITRATION (R346), of the quarter whose turn it is. Where a quarter holds no warp, or a tick generator reaches a boundary, only time
passes. -/
def execIssueArbitration (s : State) : Out :=
  match s.event with
  | some (.issueArbitration core quarter) =>
    if turnQuarter s core = some quarter then
      let t := passTime s (Config.elapsed s.free)
      if ticksDue t then onlyIf true s t else .next (arbitrate t core quarter)
    else onlyIf (!(quartersOf s core).contains quarter) s (passTime s (Config.elapsed s.free))
  | _ => .fault .notPosted

/-- ENERGY_REFILL (R344): once for each microsecond of the device timestamp. -/
def execEnergyRefill (s : State) : Out :=
  match s.event with
  | some (.energyRefill die) =>
    let n := fgetD s.hub.refills die 0
    let θ := Config.theta s.free die % 257
    let fill (c : Nat × Core) : Nat × Core := if c.1 / 48 = die then
      (c.1, { c.2 with energy := min (bucketCap : Int) (c.2.energy + (refillMax * θ / 256 : Nat)), overdrawn := 0 }) else c
    onlyIf (decide (die < 4) && decide (1000 * (n + 1) ≤ clockOf s die)) s
      { s.modHub (fun h => { h with theta := fset h.theta die θ, refills := fset h.refills die (n + 1) }) with cores := s.cores.map fill }
  | _ => .fault .notPosted

end Sys2Proof.Machine
end

