-- ==== Sys2Proof/Machine/MemEvents.lean ====
section
/-! DEFINITION. What Jasper and the host do to pages and memory: faults that Jasper resolves (R241), migration of ownership
(R242, R243), host accesses (R243), and TLB invalidation (R240). -/

namespace Sys2Proof.Machine

/-- The oldest fault of a warp that Jasper works on, of those that `p` accepts; a path that is set aside waits for the
handler's end (R358). -/
def jasperCause (w : Warp) (p : Cause → Bool) : Option Cause :=
  if w.stop != .running then none else w.jasper.find? fun c => p c && (w.trap.isNone || inHandler w c.path)

/-- The lanes of a cause's path that still wait for Jasper. -/
def jasperLanes (w : Warp) (c : Cause) : Mask := c.path &&& maskOf fun i => (w.lane i).wait = some .jasper

/-- Jasper is done with a cause. -/
def dropJasper (w : Warp) (c : Cause) : Warp := { w with jasper := w.jasper.erase c }

/-- The fault is resolved: the path re-executes from its region entries (R241, R242). -/
def jasperFixed (s : State) (wk : Nat) (w : Warp) (c : Cause) : State := reexecute (s.setWarp wk (dropJasper w c)) wk (jasperLanes w c)

/-- The fault cannot be resolved, and is delivered to the program (R356). -/
def jasperGivesUp (s : State) (wk : Nat) (w : Warp) (c : Cause) : State :=
  let m := jasperLanes w c
  let w' := (dropJasper w c).mapIn m fun _ l => { l with wait := none }
  if c.mask &&& m = 0 then s.setWarp wk w' else addCause (s.setWarp wk w') wk { c with mask := c.mask &&& m, path := m }

/-- The TLBs of a context hold nothing for the page of `va` any more (R240). -/
def forgetPage (s : State) (ctx va : Nat) : State := s.setMem (tlbOutside s.mem ctx va (va + 1))

/-- PAGE_FAULT_RESOLUTION (R241): Jasper writes an entry of the page tables, and the path re-executes, or it cannot resolve
the fault. -/
def execPageFaultResolution (s : State) : Out :=
  match s.event with
  | some (.pageFaultResolution wk fix) =>
    match s.warp? wk with
    | none => onlyIf false s s
    | some w =>
      match jasperCause w fun c => c.code ≠ Code.ownership with
      | none => onlyIf false s s
      | some c =>
        match fix with
        | none => onlyIf true s (jasperGivesUp s wk w c)
        | some (pa, e) =>
          let s₁ := s.setMem (physPuts s.mem 0 (pa / 8 * 8) (bytesOf 8 e.toNat))
          onlyIf true s (jasperFixed (forgetPage s₁ (s.ctxOf w) c.va.toNat) wk w c)
  | _ => .fault .notPosted

/-- The page at `va` is the host's (R242). -/
def hostOwns (s : State) (ctx va : Nat) : Bool :=
  match leafAt s.mem va 5 0 (s.ctxFields ctx).root.toNat with
  | none => false
  | some (a, _) => bitAt (pteAt s.mem a) 4

/-- OWNERSHIP_MIGRATION (R242): the host releases the page and the path re-executes, or the page is pinned or the host
refuses, and the fault is delivered. One migration serves every path that faulted on the page. -/
def execOwnershipMigration (s : State) : Out :=
  match s.event with
  | some (.ownershipMigration wk released) =>
    match s.warp? wk with
    | none => onlyIf false s s
    | some w =>
      match jasperCause w fun c => c.code = Code.ownership with
      | none => onlyIf false s s
      | some c =>
        let ctx := s.ctxOf w
        let va := c.va.toNat
        if !hostOwns s ctx va then onlyIf true s (jasperFixed (forgetPage s ctx va) wk w c)
        else if released && !pinnedPage s ctx va then onlyIf true s (jasperFixed (setOwner s ctx va false) wk w c)
        else onlyIf true s (jasperGivesUp s wk w c)
  | _ => .fault .notPosted

/-- Every accepted RED to the page at `va` is applied (R243). -/
def performPage (s : State) (ctx va : Nat) : State :=
  match leafAt s.mem va 5 0 (s.ctxFields ctx).root.toNat with
  | none => s
  | some (a, log) => performReds s fun r => decide (bitsAt (pteAt s.mem a) 16 36 * 65536 / 2 ^ log = r.pa / 2 ^ log)

/-- HOST_PAGE_REQUEST (R243): the host asks for a device-owned page that is not pinned. Every device access to it is performed, REDs
too, before it is the host's. -/
def execHostPageRequest (s : State) : Out :=
  match s.event with
  | some (.hostPageRequest ctx va) =>
    onlyIf ((s.ctx? ctx).isSome && !pinnedPage s ctx va.toNat && !hostOwns s ctx va.toNat) s (setOwner (performPage s ctx va.toNat) ctx va.toNat true)
  | _ => .fault .notPosted

/-- The pieces of a host access, one for each 64 KiB part, with whether the host may reach them: its own pages, and pinned
pages of the device (R243). -/
def hostPieces (s : State) (ctx va n : Nat) : List (Option (Piece × Bool)) :=
  (pagePieces (n / 65536 + 2) va n).map fun p =>
    match walk s.mem (ctxKeys s ctx) (s.ctxFields ctx).root p.1 with
    | .fault _ => none
    | .leaf e log =>
      some ({ pa := bitsAt e 16 36 * 65536 + p.1 % 2 ^ log, key := bitsAt e 52 12, len := p.2, leaf := e, log := log, va := p.1 }, bitAt e 4 || bitAt e 5)

/-- What a host read returns: the bytes, or poisoned data where a line is poisoned or a page is out of its reach (R243). -/
def hostData (s : State) (ps : List (Piece × Bool)) : HostRead :=
  if ps.all fun p => p.2 && !poisoned s.mem p.1.pa p.1.len then .data (readPieces s.mem (ps.map (·.1))) else .poisoned

/-- A host access through CXL.mem (R243): a read answers its data; a write to an unpinned page of the device is dropped; such an access
is an event of the hub for Jasper (R24). -/
def hostAccess (s : State) (ctx : Nat) (va : DWord) (acc : HostAccess) : State :=
  let data : List Byte := match acc with
    | .read _ => []
    | .write bs => bs
  let n := match acc with
    | .read n => n
    | .write bs => bs.length
  let ps := (hostPieces s ctx va.toNat n).filterMap id
  let one (r : State × List Byte) (p : Piece × Bool) : State × List Byte :=
    (if p.2 then r.1.setMem (if data = [] then r.1.mem else physWrite r.1.mem p.1.key p.1.pa (r.2.take p.1.len)) else r.1, r.2.drop p.1.len)
  let s' := match acc with
    | .read _ => s.modHub fun h => { h with hostRead := hostData s ps }
    | .write _ => (ps.foldl one (s, data)).1
  if ps.all fun p => p.2 then s' else (s'.number 4).2.notify 0 (.unpinned (s'.number 4).1 va)

/-- HOST_MEM_ACCESS (R243). An access to a page that is not mapped reaches nothing. -/
def execHostMemAccess (s : State) : Out :=
  match s.event with
  | some (.hostMemAccess ctx va acc) =>
    let n := match acc with
      | .read n => n
      | .write bs => bs.length
    onlyIf ((s.ctx? ctx).isSome && s.power.phase != .off && (hostPieces s ctx va.toNat n).all Option.isSome) s (hostAccess s ctx va acc)
  | _ => .fault .notPosted

/-- TLB_INVALIDATE (R240): the range of a context. Every access that used an old entry is performed first, the REDs that were accepted
under one too. -/
def execTlbInvalidate (s : State) : Out :=
  match s.event with
  | some (.tlbInvalidate ctx lo hi) =>
    let t := performReds s fun r => r.ctx = ctx && decide (r.va < hi) && decide (lo < r.va + r.size)
    onlyIf true s (t.setMem (tlbOutside t.mem ctx lo hi))
  | _ => .fault .notPosted

end Sys2Proof.Machine
end

