-- ==== Sys2Proof/Machine/Preempt.lean ====
section
/-! DEFINITION. Pre-emption: requests, the stop of a workgroup's warps (R364), the save into the save area (R365) and the
restore on a core (R366). -/

namespace Sys2Proof.Machine

/-- The workgroups that a request names. -/
def namedWgs (s : State) (t : PreemptTarget) : List Nat :=
  match t with
  | .workgroup k => if (s.wg? k).isSome then [k] else []
  | .context c => (s.wgs.filter fun g => (s.launchOf g.2).ctx = c).map (·.1)

/-- A request for a member of a cluster set covers the set, and one for a workgroup of a RESIDENT launch all of its
workgroups (R364). -/
def coveredBy (s : State) (base : List Nat) (k : Nat) (g : Workgroup) : Bool :=
  base.any fun b => b = k || ((s.wg? b).map fun h =>
    (g.cset.isSome && h.cset = g.cset) || (h.launch = g.launch && (s.launchOf g).hdr.resident)).getD false

/-- PREEMPT_REQUEST (R364). -/
def execPreemptRequest (s : State) : Out :=
  match s.event with
  | some (.preemptRequest t) =>
    let base := namedWgs s t
    onlyIf (s.power.phase == .running) s
      { s with wgs := s.wgs.map fun g => if coveredBy s base g.1 g.2 then (g.1, { g.2 with preempt := some (g.2.preempt.getD 0) }) else g }
  | _ => .fault .notPosted

/-- The lanes that wait on a full ring at a CPYQ, a CPYF or a LAUNCH (R364). -/
def ringWaits (s : State) (wk : Nat) (w : Warp) : Mask :=
  w.paths.foldl (fun m pc => match lookAhead s wk w pc with
    | some (i, q) =>
      let ring : Bool := match i with
        | .cpyq .. | .cpyf .. | .launch .. => true
        | _ => false
      if ring && readyPath w pc (cycleOf s wk) && !q.pending && heldBack s i q then m ||| q.mask else m
    | none => m) 0

/-- A lane counts as stopped where it stands (R364). -/
def laneStopped (w : Warp) (rings : Mask) (i : Nat) : Bool :=
  let l := w.lane i
  l.vacant || l.park.isSome || w.trap.isSome || w.stop != .running || bitAt rings i || (match l.wait with
    | some (.bar ..) | some (.barNext ..) | some (.waitv ..) | some (.waitvLeft _) | some (.dcwait ..) => true
    | _ => false)

/-- A warp is ready to be saved (R364). -/
def warpReady (s : State) (wk : Nat) (w : Warp) : Bool :=
  w.stop != .ended && !w.pfail && (w.causes.isEmpty || w.stop != .running)
  && (List.range 32).all (laneStopped w (ringWaits s wk w))

/-- A copy entry of the workgroup is in flight: it closes before the record does (R318). -/
def copiesFly (s : State) (k : Nat) (g : Workgroup) : Bool :=
  g.queues.any (fun u => u.performed.isSome || u.begun.isSome) || s.hub.handles.any fun h => h.2.sent.any fun t => t / 4 = k

/-- The workgroups that are saved and restored together: a cluster set, or the one. -/
def setOf (s : State) (k : Nat) : List Nat :=
  match (s.wg? k).bind fun g => g.cset with
  | none => [k]
  | some c => (s.wgs.filter fun g => g.2.cset = some c).map (·.1)

/-- Every warp of a workgroup is ready, or has left (R364). -/
def wgReady (s : State) (k : Nat) : Bool :=
  match s.wg? k with
  | none => false
  | some g => (wgWarps s k).all (fun p => warpReady s p.1 p.2) && !copiesFly s k g

/-- The literal of the PPOINT at which a lane stopped. -/
def Lane.ppoint? (l : Lane) : Option DWord := match l.park with
  | some { pc := _, why := .ppoint lit } => some lit
  | _ => none

/-- The literal that gives the liveness of a lane: none, and so every allocated register, in a warp that stopped at an instruction
boundary, that a debugger or a trap has stopped, or that runs a handler (R364, R372). -/
def Warp.liveness? (w : Warp) (i : Nat) : Option DWord := if w.stop != .running || w.trap.isSome then none else (w.lane i).ppoint?

/-- A lane after a restore: registers outside its liveness hold undefined values (R365, R381). `key` names the lane's values. -/
def restoredLane (free key g : Nat) (live : Option DWord) (l : Lane) : Lane :=
  let l' := { l.setCount fun _ => 0 with readyAt := 0, yieldTo := 0 }
  match live with
  | none => l'
  | some lit => { l' with regs := (List.range g).foldl (fun m r => if bitAt lit (r / 8) then m else fput 0 m r (Config.anyWord free key r)) l'.regs }

/-- The scratchpad ranges of a PPOINT's literal, as from and to (R381). -/
def liveRanges (lit : DWord) : List (Nat × Nat) :=
  [32, 48].map fun k => (1024 * bitsAt lit k 9, 1024 * (bitsAt lit k 9 + bitsAt lit (k + 9) 7))

/-- The live scratchpad of a workgroup: all of it if a lane stopped elsewhere than at a PPOINT, else the union of the ranges
(R365). -/
def liveScratch (ws : List Warp) : Option (List (Nat × Nat)) :=
  let ls := ws.flatMap fun w => (lanesOf w.live).map w.liveness?
  if ls.any Option.isNone then none else some ((ls.filterMap id).flatMap liveRanges)

/-- A workgroup with only the given ranges of its scratchpad still defined (R365). -/
def loseScratch (k alloc : Nat) (g : Workgroup) (live : List (Nat × Nat)) : Workgroup :=
  let kept (off : Nat) : Bool := live.any fun r => decide (r.1 ≤ off) && decide (off < r.2)
  { g with
    scratch := (List.range alloc).foldl (fun m off => if kept off then fset m off (scratchGet k g off) else m) []
    scratchErr := g.scratchErr.filter fun p => kept (4 * p.1)
    losses := g.losses + 1 }

/-- The most bytes that a workgroup's record takes (R365). -/
def recordBound (hd : Header) : Nat := 8192 + 1024 * hd.queues + allocOf hd + hd.warps * (128 * hd.regs + 4096)

/-- The bytes that a workgroup's record takes. -/
def recordLen (s : State) (k : Nat) (hd : Header) : Nat := Config.recordLen s.free k % (recordBound hd + 1)

/-- The warp goes on as if no request had come (R366). -/
def resumeWarp (s : State) (wk : Nat) : State :=
  match s.warp? wk with
  | none => s
  | some w =>
    let m := w.parkedAt fun p => match p.why with
      | .ppoint _ => true
      | _ => false
    let stop : Stop := match w.stop with
      | .preempted => .running
      | x => x
    reenterLanes (s.setWarp wk { w with stop := stop }) wk m fun i => ((w.lane i).park.map fun p => p.pc).getD 0

/-- A save is abandoned (R366). -/
def abandonSave (s : State) (k : Nat) : State :=
  (wgWarps s k).foldl (fun s p => resumeWarp s p.1) (s.modWg k fun g => { g with preempt := none })

/-- A workgroup whose warps have written their results leaves its core for the save area (R365). -/
def saveWg (s₀ : State) (len k : Nat) : State :=
  let s₁ := (wgWarps s₀ k).foldl (fun s p => flushWarp s p.1) s₀
  let s := ((s₁.wg? k).map (noteWriter s₁)).getD s₁
  match s.wg? k with
  | none => s
  | some g =>
    let L := s.launchOf g
    let limit := (s.ctxFields L.ctx).waitLimit.toNat * 1000
    let ws := wgWarps s k
    let one (p : Nat × Warp) : Nat × Warp := (p.2.widx,
      { p.2.mapLanes (fun i l => restoredLane s.free (32 * p.1 + i) L.hdr.regs (p.2.liveness? i) l) with
        waitCount := 0, limit := limit
        stop := match p.2.stop with
          | .preempted => .running
          | x => x })
    let g' := match liveScratch (ws.map (·.2)) with
      | none => g
      | some live => loseScratch k (allocOf L.hdr) g live
    let v : SavedWg := { id := k, wg := { g' with preempt := none, warps := [] }, warps := ws.map one, len := len }
    { s with warps := s.warps.filter fun p => p.2.wg != k, wgs := ferase s.wgs k, hub := { s.hub with saved := s.hub.saved ++ [v] } }

/-- Bytes of the save area that records of a context take. -/
def savedBytes (s : State) (ctx : Nat) : Nat :=
  (s.hub.saved.filter fun v => (s.launchOf v.wg).ctx = ctx).foldl (fun n v => n + v.len) 0

/-- Save workgroups of one context, if their records fit and the save area translates; its layout is private, so that every
byte of it holds a free value afterwards (R365, R366). -/
def saveAll (s : State) (ctx : Nat) (ks : List Nat) : Option State :=
  let c := s.ctxFields ctx
  let lens := ks.map fun k => (k, ((s.wg? k).map fun g => recordLen s k (s.launchOf g).hdr).getD 0)
  let total := lens.foldl (fun n p => n + p.2) 0
  if savedBytes s ctx + total > c.saveLen then none
  else
    match writeVa s ctx c.saveArea.toNat 0 ((List.range c.saveLen).map fun i => Config.anyByte s.free i) with
    | .fault _ => none
    | .ok t => some (lens.foldl (fun s p => saveWg s p.2 p.1) t)

/-- WORKGROUP_SAVE (R365); a cluster set is saved as one. -/
def execWorkgroupSave (s : State) : Out :=
  match s.event with
  | some (.workgroupSave k) =>
    match s.wg? k with
    | none => onlyIf false s s
    | some g =>
      let ks := setOf s k
      if g.preempt.isNone || s.power.phase != .running || !(ks.all fun k => wgReady s k) then onlyIf false s s
      else
        match saveAll s (s.launchOf g).ctx ks with
        | some t => onlyIf true s t
        | none =>
          let (n, t) := (ks.foldl abandonSave s).number (g.core / 48)
          onlyIf true s (t.notify (g.core / 48) (.saveFault n k))
  | _ => .fault .notPosted

/-- A warp that still runs stops at an instruction boundary for a save (R354, R364). -/
def preemptWarp (s : State) (wk : Nat) : State :=
  s.modWarp wk fun w =>
    if w.stop == .running then { w with stop := .preempted, limit := (s.ctxFields (s.ctxOf w)).waitLimit.toNat * 1000 } else w

/-- PREEMPT_TIMEOUT (R364): after 200 µs every warp that still runs stops with full liveness; the stop brings it its context's wait
limit (R354). -/
def execPreemptTimeout (s : State) : Out :=
  match s.event with
  | some (.preemptTimeout k) =>
    let t := ((s.wg? k).bind fun g => g.preempt).getD 0
    let ws := (wgWarps s k).filter fun p => p.2.stop == .running && !p.2.pfail && !warpReady s p.1 p.2
    onlyIf (decide (200000 ≤ t) && s.power.phase == .running) s
      (ws.foldl (fun s p => preemptWarp (flushWarp s p.1) p.1) s)
  | _ => .fault .notPosted

/-- The granules of a core hold the data of a context (R416). -/
def claimGranules (s : State) (core ctx : Nat) (gs : List Nat) : State :=
  s.modCore core fun c => { c with writers := gs.foldl (fun m n => fset m n ctx) c.writers }

/-- Put a saved workgroup on a core, its warps at the positions given, as one that is placed (R44, R366, R416). -/
def restoreOn (s₀ : State) (v : SavedWg) (core : Nat) (ps : List Nat) : State :=
  let at_ := (v.warps.zip ps).map fun p => (p.2, p.1.2)
  let L := s₀.launchOf v.wg
  let gs := freeGranules s₀ core (allocOf L.hdr / 1024)
  let s := claimGranules (freshBank s₀ L core) core L.ctx gs
  let age := (s.coreOf core).dispatched
  let place (m : FMap Nat) (p : Nat × Warp) : FMap Nat := fset m p.2.widx p.1
  let s₁ := { s with wgs := fset s.wgs v.id { v.wg with core := core, warps := at_.foldl place [], granules := gs } }
  let s₂ := (mapFrom (fun i p => (i, p)) 0 at_).foldl (fun s p => s.setWarp p.2.1 { p.2.2 with age := age + p.1 }) s₁
  let s₃ := s₂.modCore core fun c => { c with dispatched := c.dispatched + at_.length }
  let s₄ := s₃.modLaunch v.wg.launch fun L => { L with usedDies := if L.usedDies.contains (core / 48) then L.usedDies else core / 48 :: L.usedDies }
  at_.foldl (fun s p => resumeWarp s p.1) (s₄.modHub fun h => { h with saved := h.saved.filter fun x => x.id != v.id })

/-- The core of a saved workgroup when its set goes to the cluster of `core`: member r on the r-th core (R334, R366). -/
def restoreCore (s : State) (v : SavedWg) (core : Nat) : Nat :=
  match v.wg.cset with
  | none => core
  | some c => core / 4 * 4 + (((fget? s.hub.csets c).bind fun cs => cs.members.find? fun m => m.2 = v.id).map (·.1)).getD 0

/-- WORKGROUP_RESTORE (R366); a cluster set goes onto one cluster. The clocks of two dies are up to 4 ns apart: a thread that comes to
another one is not there before that time is over (R27). -/
def execWorkgroupRestore (s : State) : Out :=
  match s.event with
  | some (.workgroupRestore k core) =>
    match s.hub.saved.find? fun v => v.id = k with
    | none => onlyIf false s s
    | some v =>
      let L := s.launchOf v.wg
      let vs := s.hub.saved.filter fun x => x.id = k || (v.wg.cset.isSome && x.wg.cset = v.wg.cset)
      let plan := vs.map fun x => (x, restoreCore s x core, coreFits s L (restoreCore s x core))
      let s₁ := if plan.any fun p => p.1.wg.core / 48 ≠ p.2.1 / 48 then passTime s 4 else s
      let moved := match v.wg.cset with
        | none => s₁
        | some c => s₁.modHub fun h => { h with csets := fmod h.csets c fun cs => { cs with cluster := core / 4 } }
      onlyIf (s.power.phase == .running && decide (core < 192) && (diesOf L.hdr).contains (core / 48) && plan.all fun p => p.2.2.isSome) s
        (plan.foldl (fun s p => restoreOn s p.1 p.2.1 (p.2.2.getD [])) moved)
  | _ => .fault .notPosted

end Sys2Proof.Machine
end

