-- ==== Sys2Proof/Machine/PowerFail.lean ====
section
/-! DEFINITION. Loss of supply: PFAIL and its handlers (R367), the quiesce and the save into the keep store (R295, R368), the
keep report (R369), and power-up (R378). -/

namespace Sys2Proof.Machine

/-- A warp of a context without a handler stops: its part is over (R367). -/
def pfailStop (s : State) (wk : Nat) : State := (flushWarp s wk).modWarp wk fun w => { w with stop := .ended, causes := [], jasper := [] }

/-- The record of a power-fail handler of the lanes `m` (R357, R367). -/
def pfailTrap (m : Mask) : TrapRec :=
  let c : Cause := { code := Code.pfail, mask := m, path := 0, pc := 0, resume := .none, cont := 0 }
  { cause := c, shown := c, saved := [] }

/-- Every non-vacant lane of a warp leaves its wait, park or handler, and they form one gang at `vec` (R367). -/
def pfailWarp (w : Warp) (vec : PC) (limit : Nat) : Warp :=
  let m := w.live
  let w' := w.mapIn m fun _ l => { l with park := none, wait := none, sw := 0, handler := true, region := vec, readyAt := 0, yieldTo := 0 }
  { w' with
    slices := (List.range 8).map fun k => { slots := if sub4 m k = 0 then [] else [{ pc := vec, mask := sub4 m k }] }
    members := [], causes := [], jasper := [], stop := .running, pfail := true, limit := limit
    trap := some (pfailTrap m) }

/-- A warp enters its power-fail handler, its frame written (R359, R367); a containment cause that its last results raise
comes first (R355). -/
def pfailEnter (s : State) (seq wk : Nat) : State :=
  let s₁ := flushWarp s wk
  match s₁.warp? wk with
  | none => s₁
  | some w =>
    if w.causes.any fun c => decide (c.code ≥ 0x30) then s₁
    else
      let c := s₁.ctxFields (s₁.ctxOf w)
      let s₂ := writeFrame s₁ wk 4 seq { code := Code.pfail, mask := w.live, path := 0, pc := 0, resume := .none, cont := 0 } 0
      s₂.setWarp wk (pfailWarp w c.pfailVec (c.waitLimit.toNat * 1000))

/-- Every resident warp meets the loss of supply, but one whose part is over (R367). -/
def pfailAll (s : State) (seq : Nat) : State :=
  s.warps.foldl (fun s p => match s.warp? p.1 with
    | none => s
    | some w =>
      if w.stop == .ended then s
      else if (s.ctxFields (s.ctxOf w)).pfailVec = 0 then pfailStop s p.1
      else pfailEnter s seq p.1) s

/-- PFAIL (R296, R367): numbered by the hub; dispensers close, no save goes on. -/
def execPfail (s : State) : Out :=
  match s.event with
  | some .pfail =>
    if s.power.phase != .running then onlyIf false s s
    else
      let (seq, s₁) := s.number 4
      let s₂ := closeLaunches s₁ fun _ _ => true
      let s₃ := { s₂ with
        power := { s₂.power with phase := .window s.time seq }
        wgs := s₂.wgs.map fun g => (g.1, { g.2 with preempt := none }) }
      onlyIf true s (pfailAll s₃ seq)
  | _ => .fault .notPosted

/-- Every handler warp has finished: its non-vacant lanes are parked at PFDONE (R367, R384). -/
def windowDone (s : State) : Bool :=
  s.warps.all fun p => !p.2.pfail || p.2.stop == .ended || p.2.live &&& ~~~(p.2.parkedAt fun a => a.why == .pfdone) = 0

/-- PFAIL_WINDOW_CLOSE (R367): 20 µs after the PFAIL, or once every handler warp has finished. -/
def execPfailWindowClose (s : State) : Out :=
  match s.event with
  | some .pfailWindowClose =>
    match s.power.phase with
    | .window began seq => onlyIf (decide (began + 20000 ≤ s.time) || windowDone s) s { s with power := { s.power with phase := .closed seq } }
    | _ => onlyIf false s s
  | _ => .fault .notPosted

/-- Complete every copy entry that has been performed; with `force` also one whose event record finds no room. -/
def completeEntries (s : State) (force : Bool) : State :=
  s.wgs.foldl (fun s g => (List.range g.2.queues.length).foldl (fun s q =>
    match (g.2.queues.getD q {}).performed with
    | none => s
    | some r =>
      let s' := completeEntry s g.1 q r
      if force && queueDone s' g.1 q = queueDone s g.1 q then endEntry s' g.1 q r else s') s) s

/-- The engine performs an entry of any operation (R302); what an RCOPY get brings is not known here. -/
def runEntry (k : CopyCtx) (e : BitVec 256) (token : Nat) (queue : Nat × Word) : Ended :=
  match Ent.op e with
  | 0x01 => tileEntry k e false false
  | 0x02 => tileEntry k e true false
  | 0x03 => lcopyEntry k e
  | 0x04 => tileEntry k e false true
  | 0x05 => tileEntry k e true true
  | 0x06 => fillEntry k e
  | 0x07 => if Ent.mode e = 1 then hintTagEntry k e else hintL2Entry k e
  | 0x08 => if Ent.mode e = 1 then rcopyGetEntry k e ((List.range (Ent.extra e)).map fun i => Config.anyByte k.s.free i) queue else rcopyPutEntry k e token queue
  | 0x09 => qfenceEntry k e
  | _ => copyStatus k Cpy.opBad

/-- A started entry that something still holds up when it must end is a transfer: it ends with its peer lost (R312, R368). Where it need not
end, it stays as it is. -/
def forceEnd (k : CopyCtx) (e : BitVec 256) (force : Bool) (r : Ended) : Ended := if r.1.isNone && force then rcopyLost k e else r

/-- The entry at the head of a queue has started and is delayed, or its tokens are under way. -/
def entryStarted (s : State) (wg q : Nat) (u : CopyQueue) : Bool :=
  u.begun.isSome || s.hub.handles.any fun h => h.2.sent.contains (4 * wg + q)

/-- The started entries of the queues that `may` accepts are performed; with `force` none of them stays delayed. -/
def finishStarted (s : State) (may : Nat → Bool) (force : Bool) : State :=
  s.wgs.foldl (fun s g => (List.range g.2.queues.length).foldl (fun s q =>
    let u := g.2.queues.getD q {}
    match headEntry s g.1 q with
    | none => s
    | some e =>
      if !entryStarted s g.1 q u || !may (4 * g.1 + q) then s
      else
        let k : CopyCtx := { s := s, ctx := (s.launchOf g.2).ctx, wg := g.1, die := g.2.core / 48, begun := u.begun, last := force }
        let r := forceEnd k e force (runEntry k e (4 * g.1 + q) (4 * g.1 + q, u.done))
        match r.1 with
        | none => r.2
        | some res => modCopyQueue r.2 g.1 q fun u => { u with performed := some res, begun := none }) s) s

/-- The COPY nodes that `may` accepts by their tokens, whose entries have started, end with their statuses in their records (R295, R342,
R368). -/
def finishNodes (s : State) (may : Nat → Bool) (force : Bool) : State :=
  s.hub.graphs.foldl (fun s g => g.2.copying.foldl (fun s p =>
    if !may (nodeToken g.1 p.1) then s
    else
      let k := nodeEngine s g.1 p.1 g.2 true force
      let r := forceEnd k p.2 force (runNodeEntry k p.2 (nodeToken g.1 p.1))
      match r.1, readVa s g.2.ctx p.1.toNat 64 0 with
      | none, _ => r.2
      | some res, .ok bs => endCopyNode r.2 g.1 p.1 g.2 (ofBytes bs) res.status
      | some _, .fault _ => nodeEnds r.2 g.1 p.1) s) s

/-- The records of the queues are written to their event rings, as far as there is room (R323). -/
def flushRecords (s : State) : State :=
  s.hub.queues.foldl (fun s q => q.2.records.foldl (fun s _ =>
    let u := s.queueOf q.1
    match u.records with
    | [] => s
    | r :: rest => if (u.evWrite - u.evRead).toNat < 2 ^ u.evLog && !beforeSignal s r then writeEvent s q.1 r rest else s) s) s

/-- Started copy entries and COPY nodes complete, each entry with its event record in the ring before its done count (R299, R368). -/
def settleCopies (s : State) (may : Nat → Bool) (force : Bool) : State :=
  completeEntries (flushRecords (completeEntries (finishStarted (finishNodes s may force) may force) false)) force

/-- QUIESCE (R295, R368): every store performed reaches its home, accepted REDs are applied and started copy entries complete. -/
def execQuiesce (s : State) : Out :=
  match s.event with
  | some .quiesce =>
    match s.power.phase with
    | .closed seq => onlyIf true s { performReds (settleCopies s (fun _ => true) true) fun _ => true with power := { s.power with phase := .quiesced seq } }
    | _ => onlyIf false s s
  | _ => .fault .notPosted

/-- The bytes of a range as far as the first poisoned line, and whether it was met (R368). -/
def cleanBytes (m : MemSys) (n : Nat) (lines : List (Nat × Nat × Nat)) : List Byte × Bool :=
  match n, lines with
  | n + 1, (key, pa, len) :: t =>
    if poisoned m pa len then ([], true)
    else
      let r := cleanBytes m n t
      (physRead m key pa len ++ r.1, r.2)
  | _, _ => ([], false)

/-- The 64-byte lines of translated pieces: key, address and length. -/
def linesOf (ps : List Piece) : List (Nat × Nat × Nat) :=
  ps.flatMap fun p => (List.range (cdiv p.len 64)).map fun i => (p.key, p.pa + 64 * i, min 64 (p.len - 64 * i))

/-- Save one must-save range: nothing of it unless all of it translates to device-owned pages; else its data, as far as the first
poisoned line, and, if none is met, a CRC-32 and a commit word (R368). -/
def saveRange (s : State) (ctx : Nat) (tag : DWord) (i : Nat) (r : DWord × Nat) : KeepRange :=
  match translateRange s ctx r.1.toNat r.2 i .load with
  | .fault _ => { tag := tag, addr := r.1, len := r.2, idx := i }
  | .ok ps =>
    let b := cleanBytes s.mem (linesOf ps).length (linesOf ps)
    { tag := tag, addr := r.1, len := r.2, idx := i, data := b.1, stopped := b.2, crc := if b.2 then none else some (Config.crc32 b.1), commit := !b.2 }

/-- What the keep report says of a range (R369): 2 whole, 1 torn, 0 absent. DESIGN CHOICE (log 66): a range that stops at its first line
is torn, as R368 has it, although nothing of it was written. -/
def KeepRange.status (r : KeepRange) : Nat :=
  if r.commit && r.crc = some (Config.crc32 r.data) then 2 else if r.stopped || r.data ≠ [] then 1 else 0

/-- The contexts in the order of the save: save_prio, descending, then creation (R368). -/
def saveOrder (s : State) : List (Nat × Ctx) :=
  sortBy (fun (a b : Nat × Ctx) => decide (a.2.savePrio > b.2.savePrio) || (a.2.savePrio = b.2.savePrio && decide (a.2.order < b.2.order))) s.hub.ctxs

/-- The keep image of the device (R368). -/
def keepImage (s : State) (seq : Nat) : KeepImage :=
  { seq := seq
    ranges := (saveOrder s).flatMap fun c => mapFrom (fun i r => saveRange s c.1 c.2.keepTag i r) 0 c.2.keeps
    queues := (saveOrder s).flatMap fun c => (s.hub.queues.filter fun q => q.2.ctx = some c.1).map fun q => (c.2.keepTag, q.1, q.2.readIdx) }

/-- KEEP_SAVE (R368): into the slot that does not hold the newest image, which it then does. -/
def execKeepSave (s : State) : Out :=
  match s.event with
  | some .keepSave =>
    match s.power.phase with
    | .quiesced seq =>
      let img := keepImage s seq
      let p : Power := if s.power.newest = 0 then { s.power with slot1 := some img, newest := 1, phase := .off } else { s.power with slot0 := some img, newest := 0, phase := .off }
      onlyIf true s { s with power := p }
    | _ => onlyIf false s s
  | _ => .fault .notPosted

/-- The firmware is verified (R378): an image that fails keeps the device in reset, and is reported. -/
def verifyFirmware (s : State) : State :=
  if Config.imageGood s.free then s
  else { s.modHub (fun h => { h with reply := .imageBad }) with power := { s.power with phase := .held } }

/-- POWER_UP (R24, R27, R378): the device starts as after reset; the keep store keeps its images. -/
def execPowerUp (s : State) : Out :=
  match s.event with
  | some .powerUp => onlyIf (s.power.phase == .off || s.power.phase == .held) s
      (verifyFirmware { State.reset with power := { s.power with phase := .running }, free := s.free, agenda := s.agenda, event := s.event })
  | _ => .fault .notPosted

/-- The attestation report of the security engine: firmware measurements and the capability list, signed (R378). -/
def attestation : List Byte :=
  let body := Config.measurements ++ (List.range (capOffset 7 + 16)).map capByte
  body ++ Config.sign body

/-- The newest keep image (R368). -/
def Power.image (p : Power) : Option KeepImage := if p.newest = 0 then p.slot0 else p.slot1

/-- The keep report that the host reads at window offset 0x0002_0000 (R369). -/
def keepReport (p : Power) : List Byte :=
  match p.image with
  | none => bytesOf 32 0
  | some m =>
    bytesOf 8 m.seq ++ bytesOf 4 m.ranges.length ++ bytesOf 4 m.queues.length ++ bytesOf 16 0
      ++ m.ranges.flatMap (fun r => bytesOf 8 r.tag.toNat ++ bytesOf 8 r.addr.toNat ++ bytesOf 8 r.len ++ bytesOf 1 r.idx ++ bytesOf 1 r.status ++ bytesOf 6 0)
      ++ m.queues.flatMap fun q => bytesOf 8 q.1.toNat ++ bytesOf 2 q.2.1 ++ bytesOf 2 0 ++ bytesOf 4 q.2.2.toNat

end Sys2Proof.Machine
end

