-- ==== Sys2Proof/Machine/Contexts.lean ====
section
/-! DEFINITION. What the host asks of Jasper and of the security engine: contexts (R354, R370), their end (R320, R360), compand
tables (R82), keys (R378), and the warm reset (R371, R372). -/

namespace Sys2Proof.Machine

/-- Jasper's answer to a host command. -/
def State.answer (s : State) (r : Reply) : State := s.modHub fun h => { h with reply := r }

-- Fields of a context descriptor (R354).
namespace CtxDesc
def dword (x at_ : Nat) : DWord := BitVec.ofNat 64 (natBits x (8 * at_) 64)
def byte (x at_ : Nat) : Nat := natBits x (8 * at_) 8
def keepN (x : Nat) : Nat := byte x 54
def restore (x : Nat) : Bool := byte x 55 = 1
def keepList (x : Nat) : Nat := natBits x 512 64

/-- The context that a descriptor describes, without its must-save ranges. -/
def fields (x : Nat) : Ctx :=
  { root := dword x 0, trapVec := dword x 8, pfailVec := dword x 16, trapArea := dword x 24, saveArea := dword x 32
    saveLen := natBits x 320 64, waitLimit := BitVec.ofNat 32 (natBits x 384 32), policyHalt := x.testBit 416
    mmMode := natBits x 417 2, savePrio := byte x 53, keepTag := dword x 56 }

/-- DESC_BAD (R354). -/
def bad (x : Nat) : Bool :=
  let c := fields x
  c.root.toNat % 4096 ≠ 0 || c.trapVec.toNat % 4 ≠ 0 || c.pfailVec.toNat % 4 ≠ 0 || c.trapArea.toNat % 1024 ≠ 0
  || decide (c.saveLen < 13312) || c.mmMode = 0 || natBits x 419 5 ≠ 0 || decide (byte x 53 > 7) || decide (keepN x > 16) || natBits x 576 1472 ≠ 0
end CtxDesc

/-- The trap-frame area: 1,024 bytes for each warp slot (R354, R359). -/
def trapAreaLen : Nat := 12 * 2 ^ 20

/-- A must-save range that R354 accepts. -/
def keepOk (s : State) (ctx : Nat) (r : DWord × Nat) : Bool :=
  r.1.toNat % 64 = 0 && r.2 % 64 = 0 && r.2 ≠ 0 && pinnedRange s ctx r.1.toNat r.2 0

/-- Bytes of must-save ranges (R354). -/
def keepBytes (c : Ctx) : Nat := c.keeps.foldl (fun n r => n + r.2) 0

/-- The ranges of the newest keep image with a tag, in list order. -/
def imageRanges (p : Power) (tag : DWord) : List KeepRange := (p.image.map fun m => m.ranges.filter fun r => r.tag = tag).getD []

/-- Each whole range of the keep image is copied into the pages of a context whose list is the image's own (R370). -/
def restoreKeeps (s : State) (ctx : Nat) : State :=
  let c := s.ctxFields ctx
  let rs := imageRanges s.power c.keepTag
  if (rs.map fun r => (r.addr, r.len)) ≠ c.keeps then s
  else rs.foldl (fun s r => if r.status ≠ 2 then s else match translateRange s ctx r.addr.toNat r.len 0 .load with
    | .ok ps => s.setMem (writePieces s.mem ps r.data)
    | .fault _ => s) s

/-- Create a context from its descriptor, or say why not: the checks in the order of the table of R354, then those of the
paragraph that follows it. -/
def createContext (s : State) (desc : List Byte) (queues : List Nat) : State :=
  let x := ofBytes desc
  let id := s.hub.created
  let c : Ctx := { CtxDesc.fields x with order := id }
  let try_ := s.modHub fun h => { h with ctxs := fset h.ctxs id c, created := id + 1 }
  let list : Option (List (DWord × Nat)) :=
    if CtxDesc.keepN x = 0 then some []
    else match readVa try_ id (CtxDesc.keepList x) (16 * CtxDesc.keepN x) 1 with
      | .ok bs => some (rangeList bs (CtxDesc.keepN x))
      | .fault _ => none
  let keeps := list.getD []
  if CtxDesc.bad x then s.answer .descBad
  else if !pinnedRange try_ id c.trapArea.toNat trapAreaLen 0 || !pinnedRange try_ id c.saveArea.toNat c.saveLen 0
      || list.isNone || !(keeps.all (keepOk try_ id)) then s.answer .unpinned
  else if keepBytes { c with keeps := keeps } + s.hub.ctxs.foldl (fun n k => n + keepBytes k.2) 0 > 2 ^ 32 then s.answer .pfBudget
  else if s.hub.ctxs.length ≥ 512 then s.answer .noContext
  else
    let made := try_.modHub fun h => { h with
      ctxs := fset h.ctxs id { c with keeps := keeps }, reply := .created id
      queues := queues.foldl (fun m q => if q < 4096 && (fgetD m q {}).ctx.isNone then fset m q { fgetD m q {} with ctx := some id } else m) h.queues }
    if CtxDesc.restore x then restoreKeeps made id else made

/-- CONTEXT_CREATE (R319, R354, R370). -/
def execContextCreate (s : State) : Out :=
  match s.event with
  | some (.contextCreate desc queues) => onlyIf (s.power.phase == .running && desc.length = 256) s (createContext s desc queues)
  | _ => .fault .notPosted

/-- Nothing of a killed context is left to be written: its records and signals are out (R320, R360). -/
def ctxIdle (s : State) (ctx : Nat) : Bool :=
  !(s.hub.launches.any fun L => L.2.ctx = ctx) && !(s.hub.graphs.any fun g => g.2.ctx = ctx) && !(s.mem.reds.any fun r => r.ctx = ctx)
  && s.hub.queues.all fun q => q.2.ctx != some ctx || q.2.records.isEmpty

/-- A context goes, with its tables and keys; its queues keep their indexes and belong to none (R82, R320). -/
def dropContext (s : State) (ctx : Nat) : State :=
  { s.modHub (fun h => { h with
      ctxs := ferase h.ctxs ctx
      queues := h.queues.map fun q => if q.2.ctx = some ctx then (q.1, { q.2 with ctx := none, state := 2, started := [], hold := none }) else q
      reply := .done }) with
    mem := { s.mem with tlb := s.mem.tlb.filter fun t => t.ctx != ctx } }

/-- CONTEXT_DESTROY (R320): the context is killed, if it was not, and gone once its records are out; until then Jasper comes
back to it. -/
def execContextDestroy (s : State) : Out :=
  match s.event with
  | some (.contextDestroy ctx) =>
    match s.ctx? ctx with
    | none => onlyIf false s s
    | some c =>
      if c.killed && ctxIdle s ctx then onlyIf true s (dropContext s ctx)
      else
        let t := if c.killed then s else killCtx s ctx
        onlyIf true s { t with agenda := t.agenda ++ [.contextDestroy ctx] }
  | _ => .fault .notPosted

/-- CONTEXT_UPDATE (R354): each warp meets the new settings at its next stop. A vector that creation would refuse is
refused. -/
def execContextUpdate (s : State) : Out :=
  match s.event with
  | some (.contextUpdate ctx u) =>
    if (s.ctx? ctx).isNone then onlyIf false s s
    else if u.trapVec.toNat % 4 ≠ 0 || u.pfailVec.toNat % 4 ≠ 0 then onlyIf true s (s.answer .descBad)
    else onlyIf true s ((s.modCtx ctx fun c => { c with
      policyHalt := u.policyHalt, trapVec := u.trapVec, pfailVec := u.pfailVec, waitLimit := u.waitLimit }).answer .done)
  | _ => .fault .notPosted

/-- LOAD_TABLE (R82): 68 bytes are read, checked under R80 and installed, or the command is refused. -/
def execLoadTable (s : State) : Out :=
  match s.event with
  | some (.loadTable ctx table addr) =>
    if (s.ctx? ctx).isNone then onlyIf false s s
    else if table < 1 || table > 7 then onlyIf true s (s.answer .compandBad)
    else
      match hubRead s ctx addr.toNat 68 0 with
      | .bytes bs =>
        if tableOk bs then onlyIf true s ((s.modCtx ctx fun c => { c with tables := fset c.tables table bs }).answer .done)
        else onlyIf true s (s.answer .compandBad)
      | .delayed t => onlyIf true s { t with agenda := t.agenda ++ [.loadTable ctx table addr] }
      | .lost | .poison => onlyIf true s (s.answer .compandBad)
  | _ => .fault .notPosted

/-- KEY_LOAD (R378): a key of 512 bits with an id from 1 to 4,095, assigned to a context. What was written under an earlier key of the id is
decrypted with this one from then on (R238). -/
def execKeyLoad (s : State) : Out :=
  match s.event with
  | some (.keyLoad key ctx bits) =>
    let add (l : List Nat) : List Nat := if l.contains key then l else key :: l
    onlyIf (decide (1 ≤ key) && decide (key ≤ 4095) && (s.ctx? ctx).isSome) s
      ((s.setMem { s.mem with
          keyGens := fset s.mem.keyGens key (fgetD s.mem.keyGens key 0 + 1)
          keyBits := fset s.mem.keyBits (key + 4096 * (fgetD s.mem.keyGens key 0 + 1)) (bits % 2 ^ 512) }).modHub fun h => { h with
        keys := add h.keys, ctxs := fmod h.ctxs ctx fun c => { c with keys := add c.keys }, reply := .done })
  | _ => .fault .notPosted

/-- HOST_KILL_COMMAND (R360). -/
def execHostKillCommand (s : State) : Out :=
  match s.event with
  | some (.hostKillCommand ctx) => onlyIf ((s.ctx? ctx).any fun c => !c.killed) s (killCtx s ctx)
  | _ => .fault .notPosted

/-- The workgroups of a context, each set once. -/
def ctxSets (s : State) (ctx : Nat) : List (List Nat) :=
  ((s.wgs.filter fun g => (s.launchOf g.2).ctx = ctx).map fun g => setOf s g.1).eraseDups

/-- Stop the warps of a workgroup with full liveness, for a warm reset (R355, R372). -/
def stopForReset (s : State) (k : Nat) : State := (wgWarps s k).foldl (fun s p => preemptWarp (flushWarp s p.1) p.1) s

/-- An untouched context over a warm reset: its workgroups are saved, or the one that cannot be implicates it (R372). -/
def saveContext (s : State) (ctx : Nat) : State :=
  let sets := ctxSets s ctx
  let s₁ := sets.foldl (fun s ks => ks.foldl stopForReset s) s
  let saveable := (sets.flatMap id).all fun k => wgReady s₁ k
  let saved := if saveable then saveAll s₁ ctx (sets.flatMap id) else none
  saved.getD (killCtx s₁ ctx)

/-- The dies, their caches and cores are as after reset; Opal, the keep store, the timestamp, the event numbers, the memory
and what the hub holds for contexts are not touched (R8, R372). -/
def resetDies (s : State) : State :=
  { s with
    cores := [], mem := { s.mem with tlb := [] }
    hub := { s.hub with lastCore := [], theta := [], asked := [] } }

/-- A reset event goes to each queue of a context; its kind and its further bits are not stated (R372). -/
def postReset (s : State) (ctx : Nat) : State :=
  let (n, s₁) := s.number 4
  let free (lo len : Nat) : Nat := ofBytes ((List.range len).map fun i => Config.anyByte s.free (lo + i))
  (s.hub.queues.filter fun q => q.2.ctx = some ctx && q.2.state ≠ 2).foldl (fun s q =>
    postRecord s q.1 (recordOf n (clockOf s 4) (free 0 2) (free 2 14))) s₁

/-- A context has work or copies on a die: workgroups, identifiers of a launch, accepted REDs, or a COPY node (R372). -/
def workOn (s : State) (die ctx : Nat) : Bool :=
  (s.wgs.any fun g => g.2.core / 48 = die && (s.launchOf g.2).ctx = ctx)
  || (s.hub.launches.any fun p => p.2.ctx = ctx && (fget? p.2.dies die).any fun d => decide (d.chunkLo < d.chunkHi) || decide (d.laneLo < d.laneHi))
  || (s.mem.reds.any fun r => r.die = die && r.ctx = ctx)
  || (s.hub.graphs.any fun g => g.2.ctx = ctx && g.2.copying.any fun p => nodeDie g.1 p.1 = die)

/-- The contexts that the failing unit implicates (R372): for a hub error every one; for a die's sequencer or an L2 tag those with work on the
die; for a TLB those with translations. DESIGN CHOICE (log 70): which contexts have state in one L2 tag or in the TLBs of one die beyond that is
free. -/
def implicated (s : State) (u : FailUnit) (ctx : Nat) : Bool :=
  let some_ : Bool := Config.anyBool s.free (2 ^ 101 + ctx)
  match u with
  | .hub => true
  | .host => false
  | .sequencer die => workOn s die ctx
  | .l2 die => workOn s die ctx || some_
  | .tlb _ => (s.mem.tlb.any fun t => t.ctx = ctx) && some_

/-- WARM_RESET (R371, R372, R378): the implicated contexts are killed, the others saved; accepted REDs are applied, and started copy
entries complete, each within the 5 ms or not. The firmware is verified before the queues run again. -/
def execWarmReset (s : State) : Out :=
  match s.event with
  | some (.warmReset unit) =>
    if s.power.phase != .running then onlyIf false s s
    else
      let live := (s.hub.ctxs.filter fun c => !c.2.killed).map (·.1)
      let s₁ := performReds (settleCopies s (fun t => Config.anyBool s.free (2 ^ 100 + t)) false) fun _ => true
      let s₂ := (live.filter (implicated s unit)).foldl killCtx s₁
      let s₃ := (live.filter fun c => !implicated s unit c).foldl saveContext s₂
      let s₄ := resetDies s₃
      let s₅ := verifyFirmware s₄
      let kept := if s₅.power.phase == .running then (s₅.hub.ctxs.filter fun c => !c.2.killed).map (·.1) else []
      onlyIf true s (kept.foldl postReset s₅)
  | _ => .fault .notPosted

end Sys2Proof.Machine
end

