-- ==== Sys2Proof/Machine/Debug.lean ====
section
/-! DEFINITION. The debugger (R373, R374), and the resumption of a warp that the fault policy has halted (R360). -/

namespace Sys2Proof.Machine

/-- The warps that a debugger command covers. -/
def targetWarps (s : State) (t : DebugTarget) : List Nat :=
  match t with
  | .warp wk => [wk]
  | .workgroup k => (wgWarps s k).map (·.1)

/-- A debugger halts a warp that runs: its results are written, and then its frame (R355, R359, R373). -/
def haltWarp (s : State) (wk : Nat) : State :=
  match s.warp? wk with
  | none => s
  | some w =>
    if w.stop != .running then s
    else
      let t := flushWarp s wk
      if (t.warp? wk).isSome then debugStop t wk (noCause w) else t

/-- DEBUG_HALT (R373). -/
def execDebugHalt (s : State) : Out :=
  match s.event with
  | some (.debugHalt t) => onlyIf s.hub.debugger s ((targetWarps s t).foldl haltWarp s)
  | _ => .fault .notPosted

/-- A warp that the debugger has halted goes on. -/
def unhaltWarp (s : State) (wk : Nat) : State :=
  s.modWarp wk fun w => { w with stop := match w.stop with
    | .debugger _ => .running
    | x => x }

/-- DEBUG_RESUME (R373). -/
def execDebugResume (s : State) : Out :=
  match s.event with
  | some (.debugResume t) => onlyIf s.hub.debugger s ((targetWarps s t).foldl unhaltWarp s)
  | _ => .fault .notPosted

/-- DEBUG_STEP (R373): the next issue of the path, and of it alone, is let through. -/
def execDebugStep (s : State) : Out :=
  match s.event with
  | some (.debugStep wk pc) =>
    let halted := ((s.warp? wk).map fun w => match w.stop with
      | .debugger _ => w.paths.contains pc
      | _ => false).getD false
    onlyIf (s.hub.debugger && halted) s (s.modWarp wk fun w => { w with stop := .debugger (some pc) })
  | _ => .fault .notPosted

/-- HALTED_WARP_RESUME (R360). -/
def execHaltedWarpResume (s : State) : Out :=
  match s.event with
  | some (.haltedWarpResume wk) =>
    match (s.warp? wk).map Warp.stop with
    | some (.halted c) => onlyIf true s (resumeHalted s wk c)
    | _ => onlyIf false s s
  | _ => .fault .notPosted

/-- DEBUGGER_ATTACH (R115, R373). -/
def execDebuggerAttach (s : State) : Out :=
  match s.event with
  | some (.debuggerAttach on) => onlyIf true s (s.modHub fun h => { h with debugger := on })
  | _ => .fault .notPosted

end Sys2Proof.Machine
end

