-- ==== Sys2Proof/Machine/Fabric.lean ====
section
/-! DEFINITION. The fabric: collective handles, recovering and lost peers, and tokens (R312, R375-R377). -/

namespace Sys2Proof.Machine

/-- COLLECTIVE_HANDLE_CREATE (R375). -/
def execCollectiveHandleCreate (s : State) : Out :=
  match s.event with
  | some (.collectiveHandleCreate k members) =>
    onlyIf (fget? s.hub.handles k).isNone s (s.modHub fun h => { h with handles := fset h.handles k { members := members } })
  | _ => .fault .notPosted

/-- PEER_RECOVERING (R375). -/
def execPeerRecovering (s : State) : Out :=
  match s.event with
  | some (.peerRecovering p) => onlyIf (!s.hub.recovering.contains p) s (s.modHub fun h => { h with recovering := p :: h.recovering })
  | _ => .fault .notPosted

/-- PEER_RECOVERED (R375). -/
def execPeerRecovered (s : State) : Out :=
  match s.event with
  | some (.peerRecovered p) => onlyIf true s (s.modHub fun h => { h with recovering := h.recovering.filter fun x => x != p })
  | _ => .fault .notPosted

/-- TOKEN_RETRANSMIT (R376): a token that is not acknowledged leaves once more; the source keeps it. -/
def execTokenRetransmit (s : State) : Out :=
  match s.event with
  | some (.tokenRetransmit k token) =>
    onlyIf ((fget? s.hub.handles k).any fun h => h.sent.contains token) s
      (s.modHandle k fun h => { h with sent := if h.sent.contains token then h.sent else token :: h.sent })
  | _ => .fault .notPosted

/-- PEER_LOST (R377): the handle is aborted; its running transfers end with PEER_LOST, later ones with HANDLE_BAD. -/
def execPeerLost (s : State) : Out :=
  match s.event with
  | some (.peerLost k) => onlyIf (fget? s.hub.handles k).isSome s (s.modHandle k fun h => h.abort (busyQueues s))
  | _ => .fault .notPosted

/-- This device's window on a handle (R375). -/
def Handle.window (h : Handle) : Option HandleMember := h.members.find? fun m => m.domain = domainIndex.toNat

/-- A token is performed in this device's window, `off` bytes from its base, and acknowledged; a token seen before is only
acknowledged (R376). A token for an aborted handle, or outside the window, is dropped; one whose bytes cannot be written yet
comes again. -/
def receiveToken (s : State) (k token off : Nat) (data : List Byte) : State :=
  match fget? s.hub.handles k with
  | none => s
  | some h =>
    match h.window with
    | none => s
    | some m =>
      let note (t : State) : State := t.modHandle k fun h => { h with received := token :: h.received }
      if h.aborted || h.stalls s.hub.recovering || h.received.contains token || m.len < off + data.length then s
      else if data = [] then note s
      else
        match hubWrite s m.ctx (m.base + off) 0 data with
        | .written t => note t
        | .delayed t => t
        | .lost => s

/-- TOKEN_RECEIVED (R376). -/
def execTokenReceived (s : State) : Out :=
  match s.event with
  | some (.tokenReceived k token addr data) => onlyIf true s (receiveToken s k token addr.toNat data)
  | _ => .fault .notPosted

end Sys2Proof.Machine
end

