-- ==== Sys2Proof/Machine/LaneConvert.lean ====
section
/-! DEFINITION. The conversion instructions (R83-R88), fixed-latency. -/

namespace Sys2Proof.Machine

/-- Write a value of a type as R67 holds it. -/
def putTyped (code d bits : Nat) (l : Lane) : Lane :=
  if tyWidth code = 64 then l.wrW d (BitVec.ofNat 64 bits) else l.wr d (BitVec.ofNat 32 (holdBits code bits))

/-- CVT (R85). -/
def laneCvt (x : Ext) (e : Env) (l : Lane) : Lane :=
  let dt := x.field 11 4
  let st := x.field 15 4
  let a := if tyWidth st = 64 then (l.rdW e 0 x.a.toNat).toNat else (l.rd e 0 x.a.toNat).toNat
  let r := convert dt st (x.field 19 3) (x.bit 22) a
  (putTyped dt x.d.toNat r.1 l).orFst r.2

/-- PACK: consecutive registers converted and packed, element 0 lowest (R86). -/
def lanePack (x : Ext) (e : Env) (l : Lane) : Lane :=
  let dt := x.field 11 4
  let b := tyWidth dt
  let rs := (List.range (packCount dt)).map fun i =>
    convert dt (x.field 15 4) (x.field 19 3) (x.bit 22) (l.rd e (10 + i) (x.a.toNat + i)).toNat
  let y := (mapFrom (fun i r => r.1 * 2 ^ (b * i)) 0 rs).foldl (· + ·) 0
  (l.wr x.d.toNat (BitVec.ofNat 32 y)).orFst (rs.foldl (fun f r => f ||| r.2) 0)

/-- UNPK: packed elements widened into consecutive registers (R87). -/
def laneUnpk (x : Ext) (e : Env) (l : Lane) : Lane :=
  let dt := x.field 11 4
  let st := x.field 15 4
  let b := tyWidth st
  let a := (l.rd e 0 x.a.toNat).toNat
  let rs := (List.range (packCount st)).map fun i => convert dt st 0 false (a / 2 ^ (b * i) % 2 ^ b)
  (l.wrRun x.d.toNat (rs.map fun r => BitVec.ofNat 32 r.1)).orFst (rs.foldl (fun f r => f ||| r.2) 0)

/-- FCLASS: the class mask, or with bit 15 its test against the mask (R88). -/
def laneFclass (x : Ext) (e : Env) (l : Lane) : Lane :=
  let ft := x.field 11 4
  let a := if ft = 0 then (l.rdW e 0 x.a.toNat).toNat else (l.rd e 0 x.a.toNat).toNat
  let m := classMask (fmtOf ft) (a % 2 ^ tyWidth ft)
  if x.bit 15 then l.wrP x.d.toNat (m &&& x.field 16 10 ≠ 0) else l.wr x.d.toNat (BitVec.ofNat 32 m)

/-- CVT (R85). -/
def execCvt (h : Hdr) (x : Ext) (s : State) : Out := laneOp h x.words s (laneCvt x)

/-- PACK (R86). -/
def execPack (h : Hdr) (x : Ext) (s : State) : Out := laneOp h x.words s (lanePack x)

/-- UNPK (R87). -/
def execUnpk (h : Hdr) (x : Ext) (s : State) : Out := laneOp h x.words s (laneUnpk x)

/-- FCLASS (R88). -/
def execFclass (h : Hdr) (x : Ext) (s : State) : Out := laneOp h x.words s (laneFclass x)

end Sys2Proof.Machine
end

