-- ==== Sys2Proof/Machine/Special.lean ====
section
/-! DEFINITION. The special functions of FSFU whose bits the spec leaves open within a bound (R145): the exact result to
about 100 bits, and the choice of any FP32 value within the bound of it. -/

namespace Sys2Proof.Machine

/-- 2^(f / 2^128), times 2^128, for f below 2^128: the product of the roots 2^(2^−i) at the bits of f. `root` is the
root at bit `i − 1`. -/
def exp2Frac (f i root acc : Nat) : Nat :=
  match i with
  | 0 => acc
  | i + 1 =>
    let r := isqrt (root * 2 ^ 128)
    exp2Frac f i r (if f.testBit i then acc * r / 2 ^ 128 else acc)

/-- The next `i` bits of the fraction of log2 of a mantissa from 1 to 2, times 2^128, after the bits `acc`. -/
def log2Bits (i m acc : Nat) : Nat :=
  match i with
  | 0 => acc
  | i + 1 =>
    let q := m * m / 2 ^ 128
    if q ≥ 2 ^ 129 then log2Bits i (q / 2) (2 * acc + 1) else log2Bits i q (2 * acc)

/-- The rest of the Taylor sum of a sine or cosine at an angle with square `sq`, all times 2^128: `n` terms from `term`,
which is divided by k (k + 1) next. -/
def taylor (n : Nat) (sq : Int) (k : Nat) (term acc : Int) : Int :=
  match n with
  | 0 => acc
  | n + 1 =>
    let t := -(term * sq / 2 ^ 128) / (k * (k + 1) : Nat)
    taylor n sq (k + 2) t (acc + t)

/-- 2π times 2^128, and 2^384 / 2π. -/
def twoPi : Nat := 0x6487ed5110b4611a62633145c06e0e689
def invTwoPi : Nat := 0x28be60db9391054a7f09d5f47d4d377036d8a5664f10e4107f9458eaf7aef1586dc91b8e909374b801924bba82746487

/-- The part of a turn that is |m| × 2^e radians, times 2^128, for e from −149. -/
def turnOf (m e : Int) : Nat := m.natAbs * 2 ^ (e + 149).toNat * invTwoPi / 2 ^ 405 % 2 ^ 128

/-- Sine and cosine of a part of a turn, times 2^128. -/
def sinCos (t : Nat) : Int × Int :=
  let r : Int := (t % 2 ^ 126) * twoPi / 2 ^ 128
  let sq := r * r / 2 ^ 128
  let s := taylor 30 sq 2 r r
  let c := taylor 30 sq 1 (2 ^ 128) (2 ^ 128)
  match t / 2 ^ 126 with
  | 0 => (s, c)
  | 1 => (c, -s)
  | 2 => (-s, -c)
  | _ => (-c, s)

/-- A result of R145: FP32 code and flags. -/
abbrev Code32 := Nat × Word

/-- The value `n` × 2^`q` within `t` × 2^`u`: the part's own code if that lies within the bound, else the nearest one;
INX, and UNF for a subnormal result, not for 0 (R145, R61; DEDUCED, log 33). -/
def withinBound (sub : Nat) (x : Word) (n q t u : Int) : Code32 :=
  let c := (Config.sfu sub x).toNat
  let near : Bool := match unpack .f32 c with
    | .fin _ m e =>
      let d := addExact m e (-n) q
      cmpExact d.1.natAbs d.2 t u != .gt
    | _ => false
  let r := if near then c else if n = 0 then 0 else (roundRat .f32 0 false (n < 0) n.natAbs 1 q).1
  (r, Flag.inx ||| (if 0 < r % 2 ^ 31 ∧ r % 2 ^ 31 < 2 ^ 23 then Flag.unf else 0))

/-- The spacing exponent of FP32 at the value |n| × 2^q. -/
def ulpExp (n q : Int) : Int := max (-149) ((n.natAbs.log2 : Int) + q - 23)

/-- The exact value `k` as FP32. -/
def exactly (k e : Int) : Code32 := ((roundTo .f32 0 false (.fin false k e)).1, 0)

/-- FSFU.rsq (R145). -/
def sfuRsq (x : Word) : Code32 :=
  match unpack .f32 x.toNat with
  | .nan s => (Fmt.f32.nan, if s then Flag.inv else 0)
  | .inf neg => if neg then (Fmt.f32.nan, Flag.inv) else (0, 0)
  | .fin z m e =>
    if m = 0 then (Fmt.f32.inf z, Flag.dz)
    else if m < 0 then (Fmt.f32.nan, Flag.inv)
    else
      let lg : Int := (m.natAbs.log2 : Int) + e
      if m = 2 ^ m.natAbs.log2 ∧ lg % 2 = 0 then exactly 1 (-lg / 2)
      else
        let m' := if e % 2 = 0 then m.natAbs else 2 * m.natAbs
        let e' := if e % 2 = 0 then e else e - 1
        let n : Int := isqrt (2 ^ 300 / m')
        withinBound 1 x n (-150 - e' / 2) 1 (ulpExp n (-150 - e' / 2))

/-- FSFU.exp2 (R145). -/
def sfuExp2 (x : Word) : Code32 :=
  match unpack .f32 x.toNat with
  | .nan s => (Fmt.f32.nan, if s then Flag.inv else 0)
  | .inf neg => if neg then (0, 0) else (Fmt.f32.inf false, 0)
  | .fin _ m e =>
    let all := if e + 128 ≥ 0 then m * 2 ^ (e + 128).toNat else m / 2 ^ (-(e + 128)).toNat
    let k := all / 2 ^ 128
    let integral := e ≥ 0 || m % 2 ^ (-e).toNat = 0
    if k ≥ 128 then (Fmt.f32.inf false, Flag.ovf ||| Flag.inx)
    else if integral ∧ k ≥ -149 then exactly 1 k
    else
      let n := exp2Frac (all % 2 ^ 128).toNat 128 (2 ^ 129) (2 ^ 128)
      -- below the smallest subnormal only the order of size matters
      let k' := max k (-400)
      withinBound 3 x n (k' - 128) 2 (max (-149) (k' - 23))

/-- FSFU.log2: from 0.5 to 2 the absolute bound holds in place of the relative one (R145). -/
def sfuLog2 (x : Word) : Code32 :=
  match unpack .f32 x.toNat with
  | .nan s => (Fmt.f32.nan, if s then Flag.inv else 0)
  | .inf neg => if neg then (Fmt.f32.nan, Flag.inv) else (Fmt.f32.inf false, 0)
  | .fin _ m e =>
    if m = 0 then (Fmt.f32.inf true, Flag.dz)
    else if m < 0 then (Fmt.f32.nan, Flag.inv)
    else
      let k : Int := (m.natAbs.log2 : Int) + e
      if m = 2 ^ m.natAbs.log2 then exactly k 0
      else
        let n := k * 2 ^ 64 + log2Bits 64 (m.natAbs * 2 ^ (128 - m.natAbs.log2)) 0
        if k = -1 ∨ k = 0 then withinBound 4 x n (-64) 1 (-22)
        else withinBound 4 x n (-64) 2 (ulpExp n (-64))

/-- FSFU.sin, and FSFU.cos when `cos` holds (R145). -/
def sfuSin (cos : Bool) (x : Word) : Code32 :=
  match unpack .f32 x.toNat with
  | .nan s => (Fmt.f32.nan, if s then Flag.inv else 0)
  | .inf _ => (Fmt.f32.nan, Flag.inv)
  | .fin z m e =>
    if m = 0 then (if cos then exactly 1 0 else (Fmt.f32.signed z 0, 0))
    else
      let sc := sinCos (turnOf m e)
      withinBound (if cos then 6 else 5) x (if cos then sc.2 else if m < 0 then -sc.1 else sc.1) (-128) 1 (-21)

end Sys2Proof.Machine
end

