-- ==== Sys2Proof/Machine/LaneFloat.lean ====
section
/-! DEFINITION. The float instructions of lanes (R139-R146). They are fixed-latency, FSFU and DSFU variable (R126). -/

namespace Sys2Proof.Machine

/-- Operand a after absolute value (bit 18) and negation (bit 15) (R139). -/
def fltA (f : Fmt) (wide : Bool) (x : Ext) (e : Env) (l : Lane) : Nat :=
  signMod f (x.bit 18) (x.bit 15) (if wide then (l.rdW e 0 x.a.toNat).toNat else (l.rd e 0 x.a.toNat).toNat)

/-- Operand b after absolute value (bit 19) and negation (bit 16), also of a literal (R139). -/
def fltB (f : Fmt) (wide : Bool) (x : Ext) (e : Env) (l : Lane) : Nat :=
  signMod f (x.bit 19) (x.bit 16) (if wide then (opBW l e 2 x).toNat else (opB l e 2 x).toNat)

/-- Operand c after absolute value (bit 20) and negation (bit 17) (R139). -/
def fltC (f : Fmt) (wide : Bool) (x : Ext) (e : Env) (l : Lane) : Nat :=
  signMod f (x.bit 20) (x.bit 17) (if wide then (opCW l e 4 x).toNat else (opC l e 4 x).toNat)

/-- Write a code and set its flags. -/
def putFlt (wide : Bool) (x : Ext) (r : Nat × Word) (l : Lane) : Lane :=
  (if wide then l.wrW x.d.toNat (BitVec.ofNat 64 r.1) else l.wr x.d.toNat (BitVec.ofNat 32 r.1)).orFst r.2

/-- FP64 or FP32. -/
def fltFmt (wide : Bool) : Fmt := if wide then .f64 else .f32

/-- FADD and DADD (R141). -/
def laneFadd (wide : Bool) (x : Ext) (e : Env) (l : Lane) : Lane :=
  let f := fltFmt wide
  putFlt wide x (floatAdd f (x.field 11 3) (x.bit 14) (fltA f wide x e l) (fltB f wide x e l)) l

/-- FMUL and DMUL (R141). -/
def laneFmul (wide : Bool) (x : Ext) (e : Env) (l : Lane) : Lane :=
  let f := fltFmt wide
  putFlt wide x (floatMul f (x.field 11 3) (x.bit 14) (fltA f wide x e l) (fltB f wide x e l)) l

/-- FFMA and DFMA (R141). -/
def laneFfma (wide : Bool) (x : Ext) (e : Env) (l : Lane) : Lane :=
  let f := fltFmt wide
  putFlt wide x (floatFma f (x.field 11 3) (x.bit 14) (fltA f wide x e l) (fltB f wide x e l) (fltC f wide x e l)) l

/-- FMIN, FMAX, DMIN and DMAX (R142). -/
def laneFmin (wide max : Bool) (x : Ext) (e : Env) (l : Lane) : Lane :=
  let f := fltFmt wide
  putFlt wide x (minMax f max (fltA f wide x e l) (fltB f wide x e l)) l

/-- FCMP and DCMP (R143). -/
def laneFcmp (wide : Bool) (x : Ext) (e : Env) (l : Lane) : Lane :=
  let a := if wide then (l.rdW e 0 x.a.toNat).toNat else (l.rd e 0 x.a.toNat).toNat
  let b := if wide then (opBW l e 2 x).toNat else (opB l e 2 x).toNat
  let r := floatCmp (fltFmt wide) (x.field 11 3) a b
  (l.wrP x.d.toNat (combine (x.field 15 2) r.1 (l.rdP e 6 x.c.toNat))).orFst r.2

/-- FRND (R144). -/
def laneFrnd (x : Ext) (e : Env) (l : Lane) : Lane :=
  putFlt false x (floatRound (x.field 11 3) (l.rd e 0 x.a.toNat).toNat) l

/-- The pending result of FSFU: word and flags (R145, R49). -/
def lanePend32 (f : Word → Nat × Word) (x : Ext) (e : Env) (l : Lane) : Pend :=
  let r := f (l.rd e 0 x.a.toNat)
  { regs := [(x.d.toNat, BitVec.ofNat 32 r.1)], fst := r.2 }

/-- The pending result of DSFU (R145, R49). -/
def lanePend64 (f : DWord → Nat × Word) (x : Ext) (e : Env) (l : Lane) : Pend :=
  let r := f (l.rdW e 0 x.a.toNat)
  let y := BitVec.ofNat 64 r.1
  { regs := [(x.d.toNat, lo32 y), (x.d.toNat + 1, hi32 y)], fst := r.2 }

/-- HFMA2: each BF16 element by itself, its flags ORed (R146). -/
def laneHfma2 (x : Ext) (e : Env) (l : Lane) : Lane :=
  let a := l.rd e 0 x.a.toNat
  let b := opB l e 2 x
  let c := opC l e 4 x
  let el (k : Nat) : Nat × Word := floatFma .bf16 (x.field 11 3) (x.bit 14)
    (signMod .bf16 (x.bit 18) (x.bit 15) (bitsAt a (16 * k) 16))
    (signMod .bf16 (x.bit 19) (x.bit 16) (bitsAt b (16 * k) 16))
    (signMod .bf16 (x.bit 20) (x.bit 17) (bitsAt c (16 * k) 16))
  (l.wr x.d.toNat (BitVec.ofNat 32 ((el 0).1 + 2 ^ 16 * (el 1).1))).orFst ((el 0).2 ||| (el 1).2)

/-- FADD (R141), base form. -/
def execFadd (h : Hdr) (d a b : BitVec 6) (s : State) : Out := laneOp h 1 s (laneFadd false (baseExt d a b))

/-- FADD (R141). -/
def execFaddExt (h : Hdr) (x : Ext) (s : State) : Out := laneOp h x.words s (laneFadd false x)

/-- FMUL (R141), base form. -/
def execFmul (h : Hdr) (d a b : BitVec 6) (s : State) : Out := laneOp h 1 s (laneFmul false (baseExt d a b))

/-- FMUL (R141). -/
def execFmulExt (h : Hdr) (x : Ext) (s : State) : Out := laneOp h x.words s (laneFmul false x)

/-- FFMA (R141). -/
def execFfma (h : Hdr) (x : Ext) (s : State) : Out := laneOp h x.words s (laneFfma false x)

/-- FMIN (R142), base form. -/
def execFmin (h : Hdr) (d a b : BitVec 6) (s : State) : Out := laneOp h 1 s (laneFmin false false (baseExt d a b))

/-- FMIN (R142). -/
def execFminExt (h : Hdr) (x : Ext) (s : State) : Out := laneOp h x.words s (laneFmin false false x)

/-- FMAX (R142), base form. -/
def execFmax (h : Hdr) (d a b : BitVec 6) (s : State) : Out := laneOp h 1 s (laneFmin false true (baseExt d a b))

/-- FMAX (R142). -/
def execFmaxExt (h : Hdr) (x : Ext) (s : State) : Out := laneOp h x.words s (laneFmin false true x)

/-- FCMP (R143). -/
def execFcmp (h : Hdr) (x : Ext) (s : State) : Out := laneOp h x.words s (laneFcmp false x)

/-- DADD (R141), base form. -/
def execDadd (h : Hdr) (d a b : BitVec 6) (s : State) : Out := laneOp h 1 s (laneFadd true (baseExt d a b))

/-- DADD (R141). -/
def execDaddExt (h : Hdr) (x : Ext) (s : State) : Out := laneOp h x.words s (laneFadd true x)

/-- DMUL (R141), base form. -/
def execDmul (h : Hdr) (d a b : BitVec 6) (s : State) : Out := laneOp h 1 s (laneFmul true (baseExt d a b))

/-- DMUL (R141). -/
def execDmulExt (h : Hdr) (x : Ext) (s : State) : Out := laneOp h x.words s (laneFmul true x)

/-- DFMA (R141). -/
def execDfma (h : Hdr) (x : Ext) (s : State) : Out := laneOp h x.words s (laneFfma true x)

/-- DMIN (R142), base form. -/
def execDmin (h : Hdr) (d a b : BitVec 6) (s : State) : Out := laneOp h 1 s (laneFmin true false (baseExt d a b))

/-- DMIN (R142). -/
def execDminExt (h : Hdr) (x : Ext) (s : State) : Out := laneOp h x.words s (laneFmin true false x)

/-- DMAX (R142), base form. -/
def execDmax (h : Hdr) (d a b : BitVec 6) (s : State) : Out := laneOp h 1 s (laneFmin true true (baseExt d a b))

/-- DMAX (R142). -/
def execDmaxExt (h : Hdr) (x : Ext) (s : State) : Out := laneOp h x.words s (laneFmin true true x)

/-- DCMP (R143). -/
def execDcmp (h : Hdr) (x : Ext) (s : State) : Out := laneOp h x.words s (laneFcmp true x)

/-- FRND (R144), base form. -/
def execFrnd (h : Hdr) (d a : BitVec 6) (s : State) : Out := laneOp h 1 s (laneFrnd (baseExt d a 0))

/-- FRND (R144). -/
def execFrndExt (h : Hdr) (x : Ext) (s : State) : Out := laneOp h x.words s (laneFrnd x)

/-- FSFU.rcp (R145). -/
def execFsfuRcp (h : Hdr) (x : Ext) (s : State) : Out := pendOp h x.words s (lanePend32 (fun a => floatRcp .f32 a.toNat) x)

/-- FSFU.rsq (R145). -/
def execFsfuRsq (h : Hdr) (x : Ext) (s : State) : Out := pendOp h x.words s (lanePend32 sfuRsq x)

/-- FSFU.sqrt (R145). -/
def execFsfuSqrt (h : Hdr) (x : Ext) (s : State) : Out := pendOp h x.words s (lanePend32 (fun a => floatSqrt .f32 a.toNat) x)

/-- FSFU.exp2 (R145). -/
def execFsfuExp2 (h : Hdr) (x : Ext) (s : State) : Out := pendOp h x.words s (lanePend32 sfuExp2 x)

/-- FSFU.log2 (R145). -/
def execFsfuLog2 (h : Hdr) (x : Ext) (s : State) : Out := pendOp h x.words s (lanePend32 sfuLog2 x)

/-- FSFU.sin (R145). -/
def execFsfuSin (h : Hdr) (x : Ext) (s : State) : Out := pendOp h x.words s (lanePend32 (sfuSin false) x)

/-- FSFU.cos (R145). -/
def execFsfuCos (h : Hdr) (x : Ext) (s : State) : Out := pendOp h x.words s (lanePend32 (sfuSin true) x)

/-- DSFU.rcp (R145). -/
def execDsfuRcp (h : Hdr) (x : Ext) (s : State) : Out := pendOp h x.words s (lanePend64 (fun a => floatRcp .f64 a.toNat) x)

/-- DSFU.sqrt (R145). -/
def execDsfuSqrt (h : Hdr) (x : Ext) (s : State) : Out := pendOp h x.words s (lanePend64 (fun a => floatSqrt .f64 a.toNat) x)

/-- HFMA2 (R146). -/
def execHfma2 (h : Hdr) (x : Ext) (s : State) : Out := laneOp h x.words s (laneHfma2 x)

end Sys2Proof.Machine
end

