-- ==== Sys2Proof/Machine/Migrate.lean ====
section
/-! DEFINITION. Nelrak-1 translation (R402; log 73), and moving a context to another device (R403; log 74). -/

namespace Sys2Proof.Machine

/-- The lanes of a warp that Jasper looks at next: those that wait at one Nelrak-1 address for a function whose slot it has not looked
up (R402). -/
def enteringLanes (w : Warp) : Mask :=
  let m := maskOf fun i => (w.lane i).wait = some (.translation 0) || (w.lane i).wait = some .midway
  m &&& maskOf fun i => w.pcOf i = w.pcOf (lowest m)

/-- A Nelrak-1 address is the entry of a function: lanes have been dispatched, refilled or called there, or Jasper knows it as one (R402). -/
def isEntry (s : State) (w : Warp) (m : Mask) (pc : PC) : Bool :=
  ((lanesOf m).any fun i => (w.lane i).wait = some (.translation 0)) || (s.hub.funcs.any fun f => f.ctx = s.ctxOf w && f.entry = pc)
    || Config.isEntry (s.ctxOf w) pc

/-- A binding slot may be that of a function: a multiple of 16 other than 0, and each function of a context has one slot of its own
(R402). -/
def bindOk (s : State) (ctx : Nat) (entry slot : DWord) : Bool :=
  slot ≠ 0 && slot.toNat % 16 = 0 && s.hub.funcs.all fun f => f.ctx ≠ ctx || decide (f.entry = entry) == decide (f.slot = slot)

/-- Jasper knows the slot of a function. -/
def bindSlot (s : State) (ctx : Nat) (entry slot : DWord) : State :=
  if s.hub.funcs.any fun f => f.ctx = ctx && f.slot = slot then s
  else s.modHub fun h => { h with funcs := h.funcs ++ [{ ctx := ctx, entry := entry, slot := slot }] }

/-- Lanes go to native code, and so does a region entry at the Nelrak-1 address at which they stand. -/
def enterNative (s : State) (wk : Nat) (m : Mask) (native : Nat → PC) : State :=
  match s.warp? wk with
  | none => s
  | some w =>
    let w' := (w.takeOut m).mapIn m fun i l => { l with wait := none, region := if l.region = w.pcOf i then native i else l.region }
    reenterLanes (s.setWarp wk w') wk m native

/-- A function that cannot be translated: ILLEGAL_OP at its Nelrak-1 entry, one cause for each PC value (R402). The lanes still wait for Jasper
where they stand, so that one which comes back there takes it again. -/
def refuseNative (s : State) (wk : Nat) (m : Mask) : State :=
  match s.warp? wk with
  | none => s
  | some w =>
    let pcs := ((lanesOf m).map w.pcOf).eraseDups
    pcs.foldl (fun s pc =>
      let at_ := m &&& maskOf fun i => w.pcOf i = pc
      addCause s wk { code := Code.illegalOp, mask := at_, path := at_, pc := pc, resume := .region, cont := pc }) s

/-- The state byte of a binding slot, and its native address (R402). -/
def slotState (x : Nat) : Nat := natBits x 64 8
def slotNative (x : Nat) : DWord := BitVec.ofNat 64 (natBits x 0 64)

/-- The bytes of a binding slot (R402). -/
def slotBytes (native : DWord) (state die : Nat) : List Byte := bytesOf 8 native.toNat ++ bytesOf 1 state ++ bytesOf 1 die ++ bytesOf 6 0

/-- Jasper of the die looks at the binding slot of the function whose entry lanes have reached: it claims it, or they wait for another
claim, or go on in the native code, or take ILLEGAL_OP (R402). That a slot which says otherwise than Jasper has published leaves them waiting is
the model's choice (log 73). -/
def claimSlot (s : State) (wk : Nat) (w : Warp) (slot : DWord) (pc : PC) : State :=
  let m := enteringLanes w
  let parked (t : State) : State :=
    (bindSlot t (s.ctxOf w) pc slot).modWarp wk fun w => w.mapIn m fun _ l => { l.endChain with wait := some (.translation slot) }
  match readVa s (s.ctxOf w) slot.toNat 16 0 with
  | .fault _ => s
  | .ok bs =>
    let x := ofBytes bs
    match slotState x, s.hub.funcs.find? fun f => f.ctx = s.ctxOf w && f.slot = slot with
    | 0, _ =>
      match writeVa s (s.ctxOf w) slot.toNat 1 (slotBytes 0 1 (dieOfKey wk)) with
      | .ok t => parked t
      | .fault _ => s
    | 1, some _ => parked s
    | 2, some f => if f.native.any fun r => r.1 = slotNative x then enterNative s wk m fun _ => slotNative x else s
    | 3, some f => if f.failed then refuseNative s wk m else s
    | _, _ => s

/-- Address `a` is reached from `at_` by whole instructions (R29, R402). -/
def boundary (s : State) (ctx a fuel at_ : Nat) : Bool :=
  match fuel with
  | 0 => false
  | n + 1 => at_ = a || (decide (at_ < a) && match fetchWords s ctx at_ 0 1 with
      | .ok ws _ => boundary s ctx a n (at_ + 4 * wordCount (ws.getD 0 0))
      | _ => false)

/-- A native PC value is an instruction boundary of a translated function of a context (R402). -/
def inFunction (s : State) (ctx : Nat) (p : PC) : Bool :=
  let a := bitsAt p 0 60
  a % 4 = 0 && a < 2 ^ 57 && s.hub.funcs.any fun f => f.ctx = ctx && f.native.any fun r =>
    decide (r.1.toNat ≤ a) && decide (a < r.1.toNat + r.2) && boundary s ctx a ((a - r.1.toNat) / 4 + 1) r.1.toNat

/-- Lanes that a register has sent into the midst of a function go on at the native PC value for which their address stands, or take
ILLEGAL_OP where no translated function holds one (R402). -/
def goMidway (s : State) (wk : Nat) (w : Warp) (pc : PC) : State :=
  let p := fromNelrak (s.ctxOf w) pc
  if inFunction s (s.ctxOf w) p then enterNative s wk (enteringLanes w) fun _ => p else refuseNative s wk (enteringLanes w)

/-- TRANSLATION_CLAIM (R402), of the function at whose entry lanes wait; lanes elsewhere need no slot. -/
def execTranslationClaim (s : State) : Out :=
  match s.event with
  | some (.translationClaim wk slot) =>
    match s.warp? wk with
    | none => onlyIf false s s
    | some w =>
      let m := enteringLanes w
      let pc := w.pcOf (lowest m)
      let entry := isEntry s w m pc
      onlyIf ((s.launchOfWarp w).hdr.isaRev = 1 && w.stop == .running && w.causes.isEmpty && m ≠ 0 && (!entry || bindOk s (s.ctxOf w) pc slot)) s
        (if entry then claimSlot s wk w slot pc else goMidway s wk w pc)
  | _ => .fault .notPosted

/-- The warps of a context with the lanes that wait on a slot. -/
def slotWaiters (s : State) (ctx : Nat) (slot : DWord) : List (Nat × Mask) :=
  s.warps.filterMap fun p =>
    let m := maskOf fun i => (p.2.lane i).wait = some (.translation slot)
    if s.ctxOf p.2 = ctx && m ≠ 0 then some (p.1, m) else none

/-- Native code of a context: executable, on pinned pages of the device, at a multiple of 4 (R402). -/
def codePages (s : State) (ctx : Nat) (r : DWord × Nat) : Bool :=
  r.1.toNat % 4 = 0 && decide (0 < r.2) && decide (r.1.toNat + r.2 ≤ 2 ^ 57) && pinnedRange s ctx r.1.toNat r.2 2
    && (match translateRange s ctx r.1.toNat r.2 2 .fetch with
      | .ok _ => true
      | .fault _ => false)

/-- Jasper knows where the native code of a slot's function lies, or that it has none. -/
def bindNative (s : State) (ctx : Nat) (slot : DWord) (native : Option (DWord × Nat)) : State :=
  s.modHub fun h => { h with funcs := h.funcs.map fun f => if f.ctx = ctx ∧ f.slot = slot then { f with native := native, failed := native.isNone } else f }

/-- TRANSLATION_PUBLISH (R402): the die that has claimed the slot stores the native address and state 2, and every warp that waits enters the
native code; or state 3, and they take ILLEGAL_OP. -/
def execTranslationPublish (s : State) : Out :=
  match s.event with
  | some (.translationPublish die ctx slot native) =>
    match readVa s ctx slot.toNat 16 0 with
    | .fault _ => onlyIf false s s
    | .ok bs =>
      let x := ofBytes bs
      if slotState x ≠ 1 || natBits x 72 8 ≠ die || !(s.hub.funcs.any fun f => f.ctx = ctx && f.slot = slot) || native.any fun r => !codePages s ctx r then
        onlyIf false s s
      else
        match writeVa s ctx slot.toNat 1 (slotBytes ((native.map (·.1)).getD 0) (if native.isSome then 2 else 3) die) with
        | .fault _ => onlyIf false s s
        | .ok t => onlyIf true s ((slotWaiters t ctx slot).foldl (fun s p => match native with
            | some r => enterNative s p.1 p.2 fun _ => r.1
            | none => refuseNative s p.1 p.2) (bindNative t ctx slot native))
  | _ => .fault .notPosted

/-- A launch that a drain moves: it is not RESIDENT, and runs (R403). -/
def drains (ctx : Nat) (L : Launch) : Bool := L.ctx = ctx && L.stage == .running && !L.hdr.resident

/-- The nodes of a graph that have not started move to another device (R403); a COPY node whose entry has started ends here. -/
def Graph.drain (g : Graph) : Graph :=
  let under (n : DWord) : Bool := g.copying.any fun p => p.1 = n
  { g with ready := g.ready.filter under, moved := g.moved ++ g.ready.filter fun n => !under n }

/-- DRAIN (R403): a report for each launch that is not RESIDENT, whose dispenser closes; nodes that have not started are left to the
other device. -/
def execDrain (s : State) : Out :=
  match s.event with
  | some (.drain ctx) =>
    let mine := s.hub.launches.filter fun p => drains ctx p.2
    let reports := mine.map fun p => ({ ctx := ctx, launch := p.1, hdr := p.2.hdr, ranges := p.2.undispensed } : DrainReport)
    onlyIf ((s.ctx? ctx).any fun c => !c.killed) s
      (s.modHub fun h => { h with
        launches := h.launches.map fun p => if drains ctx p.2 then (p.1, p.2.close) else p
        graphs := h.graphs.map fun p => if p.2.ctx = ctx && p.2.stage == .running then (p.1, p.2.drain) else p
        drains := h.drains ++ reports, ctxs := fmod h.ctxs ctx fun c => { c with drained := true } })
  | _ => .fault .notPosted

/-- The packet that the queue would start next is of the kind given and starts as any other would: no tick is due, and with bar every earlier
one is complete (R326, R328). -/
def drainedPacket (s : State) (q : Nat) (idx : Word) (kind : Nat) (f : Nat → Nat → State) : State :=
  let u := s.queueOf q
  match u.ctx with
  | none => s
  | some ctx =>
    if !parses s u || u.nextIdx ≠ idx || ticksDue s then s
    else
      match hubRead s ctx (slotAt u idx) 64 0 with
      | .bytes bs =>
        let x := ofBytes bs
        if Pkt.kind x ≠ kind || Pkt.bad (u.tickSel ≠ 0) x || (Pkt.bar x && u.readIdx ≠ u.nextIdx) then s else f ctx x
      | .delayed t => t
      | _ => stopQueue s q QErr.queueFault idx

/-- A KERNEL node whose launch another device has drained starts again, its dispenser restricted (R403). -/
def drainedNode (s : State) (k : Nat) (node : DWord) (only : List (Nat × Nat)) : State :=
  match s.graph? k with
  | none => s
  | some g =>
    if g.stage != .running || !g.moved.contains node || s.power.phase != .running || (s.ctxFields g.ctx).drained then s
    else walkerRead s g.ctx node.toNat 64 0 fun bs =>
      if Node.kind (ofBytes bs) ≠ 1 then s
      else startNode s k node g (ofBytes bs) (some only) fun t => t.modGraph k fun g => { g with moved := dropOne g.moved node, running := node :: g.running }

/-- DRAINED_LAUNCH (R403): a launch that another device has drained starts here with its dispenser restricted to the reported ranges, once the
source has written its record and performed its signal, if it has one (R294); or a task graph goes on here with its ready nodes and those of
which launches are still to come. -/
def execDrainedLaunch (s : State) : Out :=
  match s.event with
  | some (.drainedLaunch (.packet q idx) only recorded signalled) =>
    onlyIf true s (drainedPacket s q idx 1 fun ctx x =>
      if recorded && (signalled || Pkt.word x 192 = 0) then beginLaunch s q ctx x false (some only) else s)
  | some (.drainedLaunch (.node k node) only recorded _) => onlyIf recorded s (drainedNode s k node only)
  | some (.drainedLaunch (.graph q idx ready rest) _ _ _) =>
    onlyIf true s (drainedPacket s q idx 5 fun ctx x => openGraph s q ctx x false ready rest)
  | _ => .fault .notPosted

end Sys2Proof.Machine
end

