-- ==== Sys2Proof/Machine/Dispatch.lean ====
section
/-! DEFINITION. The meaning of every row of spec/opcode_table.json: one arm for each. -/

namespace Sys2Proof.Machine

/-- What one step of the device does: an instruction of the gang that issues, or a device step. -/
def exec (i : Instr) (s : State) : Host.Outcome State Fault Refusal :=
  match i with
  | .nop h => Sys2Proof.Machine.execNop h s
  | .bra h off => Sys2Proof.Machine.execBra h off s
  | .braLit h target => Sys2Proof.Machine.execBraLit h target s
  | .bru h off => Sys2Proof.Machine.execBru h off s
  | .bruLit h target => Sys2Proof.Machine.execBruLit h target s
  | .call h off => Sys2Proof.Machine.execCall h off s
  | .callLit h target => Sys2Proof.Machine.execCallLit h target s
  | .brx h a => Sys2Proof.Machine.execBrx h a s
  | .callx h a => Sys2Proof.Machine.execCallx h a s
  | .ret h => Sys2Proof.Machine.execRet h s
  | .exitItem h => Sys2Proof.Machine.execExitItem h s
  | .yield h => Sys2Proof.Machine.execYield h s
  | .brk h n => Sys2Proof.Machine.execBrk h n s
  | .rgn h => Sys2Proof.Machine.execRgn h s
  | .plop h x => Sys2Proof.Machine.execPlop h x s
  | .jset h x => Sys2Proof.Machine.execJset h x s
  | .jarr h x => Sys2Proof.Machine.execJarr h x s
  | .jwait h x => Sys2Proof.Machine.execJwait h x s
  | .joinAt h x => Sys2Proof.Machine.execJoinAt h x s
  | .jget h x => Sys2Proof.Machine.execJget h x s
  | .voteAny h x => Sys2Proof.Machine.execVoteAny h x s
  | .voteAll h x => Sys2Proof.Machine.execVoteAll h x s
  | .voteUni h x => Sys2Proof.Machine.execVoteUni h x s
  | .voteBal h x => Sys2Proof.Machine.execVoteBal h x s
  | .shflIdx h x => Sys2Proof.Machine.execShflIdx h x s
  | .shflUp h x => Sys2Proof.Machine.execShflUp h x s
  | .shflDown h x => Sys2Proof.Machine.execShflDown h x s
  | .shflXor h x => Sys2Proof.Machine.execShflXor h x s
  | .matchEq h x => Sys2Proof.Machine.execMatchEq h x s
  | .redux h x => Sys2Proof.Machine.execRedux h x s
  | .iadd h d a b => Sys2Proof.Machine.execIadd h d a b s
  | .iaddExt h x => Sys2Proof.Machine.execIaddExt h x s
  | .isub h d a b => Sys2Proof.Machine.execIsub h d a b s
  | .isubExt h x => Sys2Proof.Machine.execIsubExt h x s
  | .iaddc h x => Sys2Proof.Machine.execIaddc h x s
  | .imul h d a b => Sys2Proof.Machine.execImul h d a b s
  | .imulExt h x => Sys2Proof.Machine.execImulExt h x s
  | .imulh h d a b => Sys2Proof.Machine.execImulh h d a b s
  | .imulhExt h x => Sys2Proof.Machine.execImulhExt h x s
  | .imad h x => Sys2Proof.Machine.execImad h x s
  | .imadw h x => Sys2Proof.Machine.execImadw h x s
  | .imin h d a b => Sys2Proof.Machine.execImin h d a b s
  | .iminExt h x => Sys2Proof.Machine.execIminExt h x s
  | .imax h d a b => Sys2Proof.Machine.execImax h d a b s
  | .imaxExt h x => Sys2Proof.Machine.execImaxExt h x s
  | .iabs h d a => Sys2Proof.Machine.execIabs h d a s
  | .iabsExt h x => Sys2Proof.Machine.execIabsExt h x s
  | .ineg h d a => Sys2Proof.Machine.execIneg h d a s
  | .inegExt h x => Sys2Proof.Machine.execInegExt h x s
  | .andBase h d a b => Sys2Proof.Machine.execAndBase h d a b s
  | .andExt h x => Sys2Proof.Machine.execAndExt h x s
  | .orBase h d a b => Sys2Proof.Machine.execOrBase h d a b s
  | .orExt h x => Sys2Proof.Machine.execOrExt h x s
  | .xorBase h d a b => Sys2Proof.Machine.execXorBase h d a b s
  | .xorExt h x => Sys2Proof.Machine.execXorExt h x s
  | .notBase h d a => Sys2Proof.Machine.execNotBase h d a s
  | .notExt h x => Sys2Proof.Machine.execNotExt h x s
  | .lop3 h x => Sys2Proof.Machine.execLop3 h x s
  | .shl h d a n => Sys2Proof.Machine.execShl h d a n s
  | .shlExt h x => Sys2Proof.Machine.execShlExt h x s
  | .shr h d a n => Sys2Proof.Machine.execShr h d a n s
  | .shrExt h x => Sys2Proof.Machine.execShrExt h x s
  | .sar h d a n => Sys2Proof.Machine.execSar h d a n s
  | .sarExt h x => Sys2Proof.Machine.execSarExt h x s
  | .rot h d a n => Sys2Proof.Machine.execRot h d a n s
  | .rotExt h x => Sys2Proof.Machine.execRotExt h x s
  | .shf h x => Sys2Proof.Machine.execShf h x s
  | .popc h d a => Sys2Proof.Machine.execPopc h d a s
  | .popcExt h x => Sys2Proof.Machine.execPopcExt h x s
  | .clz h d a => Sys2Proof.Machine.execClz h d a s
  | .clzExt h x => Sys2Proof.Machine.execClzExt h x s
  | .brev h d a => Sys2Proof.Machine.execBrev h d a s
  | .brevExt h x => Sys2Proof.Machine.execBrevExt h x s
  | .bfe h x => Sys2Proof.Machine.execBfe h x s
  | .bfi h x => Sys2Proof.Machine.execBfi h x s
  | .icmp h x => Sys2Proof.Machine.execIcmp h x s
  | .isel h x => Sys2Proof.Machine.execIsel h x s
  | .mov h d a => Sys2Proof.Machine.execMov h d a s
  | .movExt h x => Sys2Proof.Machine.execMovExt h x s
  | .movi h x => Sys2Proof.Machine.execMovi h x s
  | .lea h x => Sys2Proof.Machine.execLea h x s
  | .iadd64 h d a b => Sys2Proof.Machine.execIadd64 h d a b s
  | .iadd64Ext h x => Sys2Proof.Machine.execIadd64Ext h x s
  | .fadd h d a b => Sys2Proof.Machine.execFadd h d a b s
  | .faddExt h x => Sys2Proof.Machine.execFaddExt h x s
  | .fmul h d a b => Sys2Proof.Machine.execFmul h d a b s
  | .fmulExt h x => Sys2Proof.Machine.execFmulExt h x s
  | .ffma h x => Sys2Proof.Machine.execFfma h x s
  | .fmin h d a b => Sys2Proof.Machine.execFmin h d a b s
  | .fminExt h x => Sys2Proof.Machine.execFminExt h x s
  | .fmax h d a b => Sys2Proof.Machine.execFmax h d a b s
  | .fmaxExt h x => Sys2Proof.Machine.execFmaxExt h x s
  | .fcmp h x => Sys2Proof.Machine.execFcmp h x s
  | .frnd h d a => Sys2Proof.Machine.execFrnd h d a s
  | .frndExt h x => Sys2Proof.Machine.execFrndExt h x s
  | .fsfuRcp h x => Sys2Proof.Machine.execFsfuRcp h x s
  | .fsfuRsq h x => Sys2Proof.Machine.execFsfuRsq h x s
  | .fsfuSqrt h x => Sys2Proof.Machine.execFsfuSqrt h x s
  | .fsfuExp2 h x => Sys2Proof.Machine.execFsfuExp2 h x s
  | .fsfuLog2 h x => Sys2Proof.Machine.execFsfuLog2 h x s
  | .fsfuSin h x => Sys2Proof.Machine.execFsfuSin h x s
  | .fsfuCos h x => Sys2Proof.Machine.execFsfuCos h x s
  | .dadd h d a b => Sys2Proof.Machine.execDadd h d a b s
  | .daddExt h x => Sys2Proof.Machine.execDaddExt h x s
  | .dmul h d a b => Sys2Proof.Machine.execDmul h d a b s
  | .dmulExt h x => Sys2Proof.Machine.execDmulExt h x s
  | .dfma h x => Sys2Proof.Machine.execDfma h x s
  | .dmin h d a b => Sys2Proof.Machine.execDmin h d a b s
  | .dminExt h x => Sys2Proof.Machine.execDminExt h x s
  | .dmax h d a b => Sys2Proof.Machine.execDmax h d a b s
  | .dmaxExt h x => Sys2Proof.Machine.execDmaxExt h x s
  | .dcmp h x => Sys2Proof.Machine.execDcmp h x s
  | .dsfuRcp h x => Sys2Proof.Machine.execDsfuRcp h x s
  | .dsfuSqrt h x => Sys2Proof.Machine.execDsfuSqrt h x s
  | .hfma2 h x => Sys2Proof.Machine.execHfma2 h x s
  | .cvt h x => Sys2Proof.Machine.execCvt h x s
  | .pack h x => Sys2Proof.Machine.execPack h x s
  | .unpk h x => Sys2Proof.Machine.execUnpk h x s
  | .fclass h x => Sys2Proof.Machine.execFclass h x s
  | .hset h x => Sys2Proof.Machine.execHset h x s
  | .hget h x => Sys2Proof.Machine.execHget h x s
  | .hmov h x => Sys2Proof.Machine.execHmov h x s
  | .mzero h x => Sys2Proof.Machine.execMzero h x s
  | .mfill h x => Sys2Proof.Machine.execMfill h x s
  | .mmov h x => Sys2Proof.Machine.execMmov h x s
  | .mld h x => Sys2Proof.Machine.execMld h x s
  | .mst h x => Sys2Proof.Machine.execMst h x s
  | .mext h x => Sys2Proof.Machine.execMext h x s
  | .mins h x => Sys2Proof.Machine.execMins h x s
  | .mma h x => Sys2Proof.Machine.execMma h x s
  | .mmt h x => Sys2Proof.Machine.execMmt h x s
  | .mtm h x => Sys2Proof.Machine.execMtm h x s
  | .mms h x => Sys2Proof.Machine.execMms h x s
  | .mmg h x => Sys2Proof.Machine.execMmg h x s
  | .mtrn h x => Sys2Proof.Machine.execMtrn h x s
  | .mewAdd h x => Sys2Proof.Machine.execMewAdd h x s
  | .mewSub h x => Sys2Proof.Machine.execMewSub h x s
  | .mewMul h x => Sys2Proof.Machine.execMewMul h x s
  | .mewMax h x => Sys2Proof.Machine.execMewMax h x s
  | .mewMin h x => Sys2Proof.Machine.execMewMin h x s
  | .mewScale h x => Sys2Proof.Machine.execMewScale h x s
  | .mredRow h x => Sys2Proof.Machine.execMredRow h x s
  | .mredCol h x => Sys2Proof.Machine.execMredCol h x s
  | .mredAll h x => Sys2Proof.Machine.execMredAll h x s
  | .mprn h x => Sys2Proof.Machine.execMprn h x s
  | .mtopk h x => Sys2Proof.Machine.execMtopk h x s
  | .mgnorm h x => Sys2Proof.Machine.execMgnorm h x s
  | .mlu h x => Sys2Proof.Machine.execMlu h x s
  | .mchol h x => Sys2Proof.Machine.execMchol h x s
  | .mqr h x => Sys2Proof.Machine.execMqr h x s
  | .mtrs h x => Sys2Proof.Machine.execMtrs h x s
  | .msolv h x => Sys2Proof.Machine.execMsolv h x s
  | .minv h x => Sys2Proof.Machine.execMinv h x s
  | .mexp h x => Sys2Proof.Machine.execMexp h x s
  | .mpow h x => Sys2Proof.Machine.execMpow h x s
  | .ld h d a imm => Sys2Proof.Machine.execLd h d a imm s
  | .ldExt h x => Sys2Proof.Machine.execLdExt h x s
  | .st h d a imm => Sys2Proof.Machine.execSt h d a imm s
  | .stExt h x => Sys2Proof.Machine.execStExt h x s
  | .lds h d a imm => Sys2Proof.Machine.execLds h d a imm s
  | .ldsExt h x => Sys2Proof.Machine.execLdsExt h x s
  | .sts h d a imm => Sys2Proof.Machine.execSts h d a imm s
  | .stsExt h x => Sys2Proof.Machine.execStsExt h x s
  | .tagl h x => Sys2Proof.Machine.execTagl h x s
  | .tagi h x => Sys2Proof.Machine.execTagi h x s
  | .tage h x => Sys2Proof.Machine.execTage h x s
  | .pref h x => Sys2Proof.Machine.execPref h x s
  | .atomAdd h x => Sys2Proof.Machine.execAtomAdd h x s
  | .atomMin h x => Sys2Proof.Machine.execAtomMin h x s
  | .atomMax h x => Sys2Proof.Machine.execAtomMax h x s
  | .atomAnd h x => Sys2Proof.Machine.execAtomAnd h x s
  | .atomOr h x => Sys2Proof.Machine.execAtomOr h x s
  | .atomXor h x => Sys2Proof.Machine.execAtomXor h x s
  | .atomExch h x => Sys2Proof.Machine.execAtomExch h x s
  | .atomCas h x => Sys2Proof.Machine.execAtomCas h x s
  | .atomsAdd h x => Sys2Proof.Machine.execAtomsAdd h x s
  | .atomsMin h x => Sys2Proof.Machine.execAtomsMin h x s
  | .atomsMax h x => Sys2Proof.Machine.execAtomsMax h x s
  | .atomsAnd h x => Sys2Proof.Machine.execAtomsAnd h x s
  | .atomsOr h x => Sys2Proof.Machine.execAtomsOr h x s
  | .atomsXor h x => Sys2Proof.Machine.execAtomsXor h x s
  | .atomsExch h x => Sys2Proof.Machine.execAtomsExch h x s
  | .atomsCas h x => Sys2Proof.Machine.execAtomsCas h x s
  | .redAdd h x => Sys2Proof.Machine.execRedAdd h x s
  | .redMin h x => Sys2Proof.Machine.execRedMin h x s
  | .redMax h x => Sys2Proof.Machine.execRedMax h x s
  | .redAnd h x => Sys2Proof.Machine.execRedAnd h x s
  | .redOr h x => Sys2Proof.Machine.execRedOr h x s
  | .redXor h x => Sys2Proof.Machine.execRedXor h x s
  | .fence h x => Sys2Proof.Machine.execFence h x s
  | .barArrive h x => Sys2Proof.Machine.execBarArrive h x s
  | .barWait h x => Sys2Proof.Machine.execBarWait h x s
  | .barSync h x => Sys2Proof.Machine.execBarSync h x s
  | .waitv h x => Sys2Proof.Machine.execWaitv h x s
  | .dcadd h x => Sys2Proof.Machine.execDcadd h x s
  | .dcwait h x => Sys2Proof.Machine.execDcwait h x s
  | .cpyq h x => Sys2Proof.Machine.execCpyq h x s
  | .cpyf h x => Sys2Proof.Machine.execCpyf h x s
  | .cpys h x => Sys2Proof.Machine.execCpys h x s
  | .launch h x => Sys2Proof.Machine.execLaunch h x s
  | .refill h x => Sys2Proof.Machine.execRefill h x s
  | .regrp h x => Sys2Proof.Machine.execRegrp h x s
  | .sigwake h x => Sys2Proof.Machine.execSigwake h x s
  | .sigwakeMb h x => Sys2Proof.Machine.execSigwakeMb h x s
  | .trap h x => Sys2Proof.Machine.execTrap h x s
  | .tret h x => Sys2Proof.Machine.execTret h x s
  | .ppoint h lit => Sys2Proof.Machine.execPpoint h lit s
  | .srd h x => Sys2Proof.Machine.execSrd h x s
  | .swr h x => Sys2Proof.Machine.execSwr h x s
  | .capq h x => Sys2Proof.Machine.execCapq h x s
  | .pfdone h x => Sys2Proof.Machine.execPfdone h x s
  | .dict codes => Sys2Proof.Machine.execDict codes s
  | .issueArbitration => Sys2Proof.Machine.execIssueArbitration s
  | .warpWideIssue => Sys2Proof.Machine.execWarpWideIssue s
  | .pendingResultWrite => Sys2Proof.Machine.execPendingResultWrite s
  | .chainDrain => Sys2Proof.Machine.execChainDrain s
  | .trapDelivery => Sys2Proof.Machine.execTrapDelivery s
  | .pageFaultResolution => Sys2Proof.Machine.execPageFaultResolution s
  | .ownershipMigration => Sys2Proof.Machine.execOwnershipMigration s
  | .hostPageRequest => Sys2Proof.Machine.execHostPageRequest s
  | .hostMemAccess => Sys2Proof.Machine.execHostMemAccess s
  | .tlbInvalidate => Sys2Proof.Machine.execTlbInvalidate s
  | .waitvRelease => Sys2Proof.Machine.execWaitvRelease s
  | .watchdog => Sys2Proof.Machine.execWatchdog s
  | .redApply => Sys2Proof.Machine.execRedApply s
  | .energyRefill => Sys2Proof.Machine.execEnergyRefill s
  | .chunkClaim => Sys2Proof.Machine.execChunkClaim s
  | .workgroupPlacement => Sys2Proof.Machine.execWorkgroupPlacement s
  | .dictionaryLoad => Sys2Proof.Machine.execDictionaryLoad s
  | .warpRefill => Sys2Proof.Machine.execWarpRefill s
  | .workgroupRetire => Sys2Proof.Machine.execWorkgroupRetire s
  | .launchCompletion => Sys2Proof.Machine.execLaunchCompletion s
  | .launchSignal => Sys2Proof.Machine.execLaunchSignal s
  | .eventRecordPost => Sys2Proof.Machine.execEventRecordPost s
  | .dispenserClose => Sys2Proof.Machine.execDispenserClose s
  | .doorbell => Sys2Proof.Machine.execDoorbell s
  | .queueEnable => Sys2Proof.Machine.execQueueEnable s
  | .queueRestart => Sys2Proof.Machine.execQueueRestart s
  | .wakeClear => Sys2Proof.Machine.execWakeClear s
  | .registerWrite => Sys2Proof.Machine.execRegisterWrite s
  | .tickGeneratorCommit => Sys2Proof.Machine.execTickGeneratorCommit s
  | .tick => Sys2Proof.Machine.execTick s
  | .tickwaitComplete => Sys2Proof.Machine.execTickwaitComplete s
  | .launchPacket => Sys2Proof.Machine.execLaunchPacket s
  | .fencePacket => Sys2Proof.Machine.execFencePacket s
  | .fencePacketComplete => Sys2Proof.Machine.execFencePacketComplete s
  | .signalPacket => Sys2Proof.Machine.execSignalPacket s
  | .tickwaitPacket => Sys2Proof.Machine.execTickwaitPacket s
  | .graphPacket => Sys2Proof.Machine.execGraphPacket s
  | .kernelNode => Sys2Proof.Machine.execKernelNode s
  | .copyNode => Sys2Proof.Machine.execCopyNode s
  | .signalNode => Sys2Proof.Machine.execSignalNode s
  | .nodeComplete => Sys2Proof.Machine.execNodeComplete s
  | .nodeRollback => Sys2Proof.Machine.execNodeRollback s
  | .tload => Sys2Proof.Machine.execTload s
  | .tstore => Sys2Proof.Machine.execTstore s
  | .lcopy => Sys2Proof.Machine.execLcopy s
  | .gather => Sys2Proof.Machine.execGather s
  | .scatter => Sys2Proof.Machine.execScatter s
  | .fill => Sys2Proof.Machine.execFill s
  | .hintL2 => Sys2Proof.Machine.execHintL2 s
  | .hintTag => Sys2Proof.Machine.execHintTag s
  | .rcopyPut => Sys2Proof.Machine.execRcopyPut s
  | .rcopyGet => Sys2Proof.Machine.execRcopyGet s
  | .qfence => Sys2Proof.Machine.execQfence s
  | .copyEntryComplete => Sys2Proof.Machine.execCopyEntryComplete s
  | .copyEntrySkip => Sys2Proof.Machine.execCopyEntrySkip s
  | .preemptRequest => Sys2Proof.Machine.execPreemptRequest s
  | .preemptTimeout => Sys2Proof.Machine.execPreemptTimeout s
  | .workgroupSave => Sys2Proof.Machine.execWorkgroupSave s
  | .workgroupRestore => Sys2Proof.Machine.execWorkgroupRestore s
  | .pfail => Sys2Proof.Machine.execPfail s
  | .pfailWindowClose => Sys2Proof.Machine.execPfailWindowClose s
  | .quiesce => Sys2Proof.Machine.execQuiesce s
  | .keepSave => Sys2Proof.Machine.execKeepSave s
  | .powerUp => Sys2Proof.Machine.execPowerUp s
  | .warmReset => Sys2Proof.Machine.execWarmReset s
  | .contextCreate => Sys2Proof.Machine.execContextCreate s
  | .contextDestroy => Sys2Proof.Machine.execContextDestroy s
  | .contextUpdate => Sys2Proof.Machine.execContextUpdate s
  | .loadTable => Sys2Proof.Machine.execLoadTable s
  | .keyLoad => Sys2Proof.Machine.execKeyLoad s
  | .collectiveHandleCreate => Sys2Proof.Machine.execCollectiveHandleCreate s
  | .peerRecovering => Sys2Proof.Machine.execPeerRecovering s
  | .tokenRetransmit => Sys2Proof.Machine.execTokenRetransmit s
  | .debugHalt => Sys2Proof.Machine.execDebugHalt s
  | .debugResume => Sys2Proof.Machine.execDebugResume s
  | .debugStep => Sys2Proof.Machine.execDebugStep s
  | .haltedWarpResume => Sys2Proof.Machine.execHaltedWarpResume s
  | .drain => Sys2Proof.Machine.execDrain s
  | .translationClaim => Sys2Proof.Machine.execTranslationClaim s
  | .translationPublish => Sys2Proof.Machine.execTranslationPublish s
  | .peerLost => Sys2Proof.Machine.execPeerLost s
  | .peerRecovered => Sys2Proof.Machine.execPeerRecovered s
  | .tokenReceived => Sys2Proof.Machine.execTokenReceived s
  | .hostKillCommand => Sys2Proof.Machine.execHostKillCommand s
  | .debuggerAttach => Sys2Proof.Machine.execDebuggerAttach s
  | .drainedLaunch => Sys2Proof.Machine.execDrainedLaunch s

end Sys2Proof.Machine
end

