-- ==== Sys2Proof/Machine/Schedule.lean ====
section
/-! DEFINITION. Which device step comes next: one that an outside agent or Jasper has on the agenda, or one of those that the
device may take by itself. The list of the latter names every step that may be enabled; one that is not has no effect. -/

namespace Sys2Proof.Machine

/-- Steps of one warp: its pending results, chains, traps, waits and refill. -/
def warpEvents (wk : Nat) (w : Warp) : List Event :=
  let lanes := (List.range 32).flatMap fun i =>
    (List.range (w.lane i).pend.length).map (fun k => Event.pendingResultWrite wk i k)
      ++ (if (w.lane i).chain.isSome then [Event.chainDrain wk i] else [])
      ++ (match (w.lane i).wait with
        | some (.waitv ..) => [Event.waitvRelease wk i]
        | _ => [])
  lanes ++ [.trapDelivery wk, .watchdog wk, .warpRefill wk]

/-- Steps of one queue of a workgroup. -/
def copyEvents (wg q : Nat) : List Event :=
  [.tload wg q, .tstore wg q, .lcopy wg q, .gather wg q, .scatter wg q, .fill wg q, .hintL2 wg q, .hintTag wg q, .rcopyPut wg q,
   .rcopyGet wg q [], .qfence wg q, .copyEntryComplete wg q, .copyEntrySkip wg q]

/-- Steps of one workgroup. -/
def wgEvents (k : Nat) (g : Workgroup) : List Event :=
  (List.range g.queues.length).flatMap (copyEvents k) ++ [.workgroupRetire k, .preemptTimeout k, .workgroupSave k, .dictionaryLoad g.launch g.core]

/-- Steps of one launch. -/
def launchEvents (k : Nat) : List Event :=
  ((List.range 4).flatMap fun d => [Event.chunkClaim k d, Event.workgroupPlacement k d]) ++ [.launchCompletion k, .launchSignal k, .nodeRollback k]

/-- Steps of one launch queue. -/
def queueEvents (q : Nat) : List Event :=
  [.launchPacket q, .fencePacket q, .fencePacketComplete q, .signalPacket q, .tickwaitPacket q, .tickwaitComplete q, .graphPacket q,
   .eventRecordPost q]

/-- Steps of one task graph. -/
def graphEvents (k : Nat) (g : Graph) : List Event :=
  g.ready.flatMap (fun n => [Event.kernelNode k n, .copyNode k n, .signalNode k n]) ++ g.finished.map (fun n => Event.nodeComplete k n)
    ++ [.launchCompletion k, .launchSignal k]

/-- The quarters that hold a warp. -/
def busyQuarters (s : State) : List (Nat × Nat) := (s.warps.map fun p => (coreOfKey p.1, quarterOfKey p.1)).eraseDups

/-- The steps that the device may take by itself. -/
def ownEvents (s : State) : List Event :=
  match s.power.phase with
  | .off | .held => []
  | .closed _ => [.quiesce]
  | .quiesced _ => [.keepSave]
  | _ =>
    [.issueArbitration 0 0, .pfailWindowClose] ++ (busyQuarters s).map (fun p => Event.issueArbitration p.1 p.2)
      ++ (List.range 4).map Event.energyRefill ++ s.warps.flatMap (fun p => warpEvents p.1 p.2) ++ s.wgs.flatMap (fun g => wgEvents g.1 g.2)
      ++ (List.range s.mem.reds.length).map Event.redApply ++ s.hub.launches.flatMap (fun L => launchEvents L.1)
      ++ s.hub.queues.flatMap (fun q => queueEvents q.1) ++ s.hub.graphs.flatMap (fun g => graphEvents g.1 g.2)
      ++ s.hub.gens.map (fun g => Event.tick g.1)
      ++ s.hub.saved.flatMap fun v => (List.range 192).map fun c => Event.workgroupRestore v.id c

/-- The device takes the step: without supply it only powers up, and once issue has stopped it only ends its save (R367,
R368). -/
def powered (s : State) (e : Event) : Bool :=
  match s.power.phase, e with
  | .running, _ | .window _ _, _ => true
  | _, .quiesce | _, .keepSave | _, .powerUp => true
  | _, _ => false

/-- The step asks for no access of a lane to be performed before it: it is one of a warp, of the host, of a register or of a copy engine, which
are parties of their own (R279; log 80). -/
def Event.aside (e : Event) : Bool :=
  match e with
  | .issueArbitration .. | .warpWideIssue .. | .pendingResultWrite .. | .chainDrain .. | .waitvRelease .. | .redApply .. | .energyRefill ..
  | .hostMemAccess .. | .doorbell .. | .wakeClear .. | .registerWrite ..
  | .tload .. | .tstore .. | .lcopy .. | .gather .. | .scatter .. | .fill .. | .hintL2 .. | .hintTag .. | .rcopyPut .. | .rcopyGet ..
  | .qfence .. | .copyEntryComplete .. | .copyEntrySkip .. => true
  | _ => false

/-- The state from which a device step starts. The late accesses are performed, but for a step that stays aside (R279); and the soft interrupts
of a core's cycle that is over are numbered, but before the issue of a parked set, which belongs to the cycle of its judgement (R25). Jasper
forgets the faults of units that it has resolved (R242). -/
def beforeEvent (s : State) (e : Option Event) : State :=
  let s₁ := dropAsked (if e.all Event.aside then s else performAll s)
  match e with
  | some (.warpWideIssue ..) => s₁
  | _ => numberSoft s₁

/-- The TICK that comes before any other step: of the boundaries that have been reached, the earliest, and of two the one of the lower generator
(R25, R321). -/
def dueTick (s : State) : Option Event :=
  let up : Bool := match s.power.phase with
    | .running | .window _ _ => true
    | _ => false
  if !up then none
  else (s.hub.gens.find? fun p => p.2.due (clockOf s 4) && !tickWaits s p.1 p.2).map fun p => .tick p.1

/-- The next device step, if there is one, and what is left of the agenda: the agenda's next entry, or one of the device's own. -/
def pickEvent (s : State) : Option Event × List Event :=
  if (dueTick s).isSome then (dueTick s, s.agenda) else
  match s.agenda with
  | [] => ((ownEvents s)[Config.next s.free % (ownEvents s).length]?, [])
  | e :: t =>
    if Config.agentActs s.free || (ownEvents s).isEmpty then (if powered s e then some e else none, t)
    else ((ownEvents s)[Config.next s.free % (ownEvents s).length]?, e :: t)

/-- The next device step, if there is one, and the state that it starts from. -/
def nextEvent (s : State) : Option Event × State :=
  ((pickEvent s).1, beforeEvent { s with agenda := (pickEvent s).2 } (pickEvent s).1)

/-- Nothing happens but that time passes (R27). -/
def idle (s : State) : State := (if s.power.phase == .off || s.power.phase == .held then s else passTime s (Config.elapsed s.free)).ended

/-- The path that issues is gone. -/
def dropIssue (s : State) : State := s.done

end Sys2Proof.Machine
end

