-- ==== Sys2Proof/Machine/Program.lean ====
section
/-! DEFINITION. A machine about to issue one given instruction: a context, a launch, a workgroup and a warp as the host and the
distributor leave them, and the instruction's bytes in memory. -/

namespace Sys2Proof.Machine

/-- Where the program's page tables and its code lie. -/
def tableAt : Nat := 0x10000
def codeAt : Nat := 0x20000

/-- Page tables that map the first GiB to itself, writable and executable (R232, R233). -/
def identityTables : List (Nat × Nat) := [(tableAt, 0x1001 + tableAt), (tableAt + 0x1000, 0x2001 + tableAt), (tableAt + 0x2000, 0xC3)]

/-- The program's launch: one warp with every register and resource (R329). -/
def programHeader : Header :=
  { code := BitVec.ofNat 64 codeAt, items := 32, scratch := 0x4000, widths := [32, 32, 0, 0, 0, 0], regs := 256, queues := 4, dctr := true, tagSlots := 4, tagLog := 6 }

/-- The program's launch as it runs. -/
def programLaunch : Launch := { ctx := 0, by_ := .packet 0 0, hdr := programHeader, usedDies := [0], nextWg := 1 }

/-- The program's warp, its 32 lanes at `pc` (R337, R338). -/
def programWarp (pc : PC) : Warp := { fillWarp programHeader (newWarp 0 0 0 0 0) 0 32 pc true with age := 0 }

/-- Memory with the tables and the bytes of an instruction. -/
def programMem (m : MemSys) (bs : List Byte) : MemSys :=
  let m₁ := identityTables.foldl (fun m p => physPuts m 0 p.1 (bytesOf 8 p.2)) { m with tlb := [], poison := [] }
  physPuts m₁ 0 codeAt bs

/-- The machine with the program placed and its first path about to issue. -/
def withProgram (s : State) (bs : List Byte) : State :=
  { s with
    warps := fset s.warps 0 (programWarp (BitVec.ofNat 64 codeAt))
    wgs := fset s.wgs 0 { newWg 0 0 0 programHeader none (List.range 16) [] with warps := [(0, 0)] }
    hub := { s.hub with
      ctxs := fset s.hub.ctxs 0 { root := BitVec.ofNat 64 tableAt }
      launches := fset s.hub.launches 0 programLaunch }
    mem := programMem s.mem bs
    uid := max 1 s.uid
    issue := some { wk := 0, pc := BitVec.ofNat 64 codeAt } }

end Sys2Proof.Machine
end

