-- ==== Sys2Proof/Machine/Step.lean ====
section
/-! DEFINITION. One step of the device. -/

namespace Sys2Proof.Machine

/-- One step: the path that has been picked issues its instruction, or the device step that is about to happen does, or the
next one is chosen. -/
def step (s : State) : Host.Outcome State Fault Refusal :=
  match s.issue with
  | some i =>
    match s.warp? i.wk with
    | none => .next (dropIssue s)
    | some w =>
      if w.gang i.pc = 0 then .next (dropIssue s)
      else
        match fetch s i w with
        | .instr x ps => exec x (afterFetch s w ps)
        | f => fetchFault s i w f
  | none =>
    match s.event with
    | some e => exec e.row s
    | none =>
      match nextEvent s with
      | (none, t) => .next (idle t)
      | (some e, t) => exec e.row { t with event := some e }

/-- `s` with the instruction of `nbits` bits `w` stored where the picked path fetches, every later bit 0. -/
def State.withFetchWord (s : State) (nbits w : Nat) : State := withProgram s (bytesOf 20 (w % 2 ^ nbits))

end Sys2Proof.Machine
end

