-- ==== Sys2Proof/Safety.lean ====
section
/-! DEFINITION. The terms in which claims are stated: what counts as a safe run, the form that memory keeps, and what an
instruction may change in a lane, in its warp and elsewhere. -/

namespace Sys2Proof.Machine

/-- The keys of a map rise strictly. -/
abbrev Sorted {α : Type} (m : FMap α) : Prop := fsorted 0 m = true

/-- Memory holds its canonical form (R238, R249): its bytes, their keys, and poison. -/
structure MemSys.Ok (m : MemSys) : Prop where
  cells : Memory.wf m.cells = true
  keys : Sorted m.keys
  keysNonzero : ∀ p ∈ m.keys, p.2 ≠ 0

/-- A step answers a next state. -/
def Goes (o : Out) : Prop := ∃ t, o = .next t

/-- A pending result without the notes of what has been written since (R52). -/
def Pend.bare (p : Pend) : Pend := { p with clashV := [], clashP := [], clashF := false, clashH := [] }

/-- What an instruction does in one lane. Of several values for one place the last is written. -/
structure Effect where
  /-- Words and predicates written at once, and %fst bits set. -/
  v : List (Nat × Word) := []
  p : List (Nat × Bool) := []
  fst : Word := 0
  /-- Results that become pending. -/
  pend : List Pend := []
  /-- Shape registers: number, word, and row mask. -/
  h : List (Nat × Word × Word) := []
  /-- The region that it opens. -/
  region : Option PC := none
  /-- %fst and %slv written whole. -/
  setFst : Option Word := none
  setSlv : Option Word := none
  /-- What the lane waits for, or where it parks. -/
  wait : Option Wait := none
  park : Option Park := none
  arrivals : Option (FMap Nat) := none
  /-- Cycles before which its path does not issue. -/
  ready : Option Nat := none
  yield : Option Nat := none

namespace Effect

/-- One word written to register `d`. -/
def word (d : Nat) (x : Word) : Effect := { v := [(d, x)] }

/-- A pair written at register `d`, the low word first (R67). -/
def wide (d : Nat) (x : DWord) : Effect := { v := [(d, lo32 x), (d + 1, hi32 x)] }

/-- The same effect with %fst bits set (R72). -/
def flags (f : Effect) (fl : Word) : Effect := { f with fst := f.fst ||| fl }

end Effect

/-- Lane `l` becomes `l'` by an instruction with the effect `f`, and everything that `f` does not name is as before. A
switch point (`sw`) may end the lane's chain and make it wait (R49). -/
structure Lane.Becomes (sw : Bool) (l l' : Lane) (f : Effect) : Prop where
  words : ∀ n, l'.v n = (lastFor f.v n).getD (l.v n)
  preds : ∀ n, n < 7 → l'.p n = (lastFor f.p n).getD (l.p n)
  fst : l'.fst = f.setFst.getD l.fst ||| f.fst
  pend : l'.pend.map Pend.bare = l.pend.map Pend.bare ++ f.pend.map Pend.bare
  shapes : ∀ n, l'.h n = ((lastFor f.h n).map fun y => y.1).getD (l.h n)
  rows : ∀ n, l'.rm n = ((lastFor f.h n).map fun y => y.2).getD (l.rm n)
  region : l'.region = f.region.getD l.region
  wid : l'.wid = l.wid
  wgen : l'.wgen = l.wgen
  slv : l'.slv = f.setSlv.getD l.slv
  vacant : l'.vacant = l.vacant
  wait : l'.wait = f.wait.or l.wait
  park : l'.park = f.park.or l.park
  arrivals : l'.arrivals = f.arrivals.getD l.arrivals
  handler : l'.handler = l.handler
  parity : l'.parity = l.parity
  readyAt : l'.readyAt = f.ready.getD l.readyAt
  yieldTo : l'.yieldTo = f.yield.getD l.yieldTo
  chain : sw = false → l'.chain = l.chain
  waits : sw = false → l'.sw = l.sw

/-- The instruction of gang `q` completes in the state `S`: its warp becomes one with the slices `sl` that differs from `W` in
slices and lanes only, and each lane has the effect `f`. -/
def CompletesAs (o : Out) (S : State) (q : Gang) (W : Warp) (sl : List Slice) (sw : Bool) (f : Nat → Lane → Effect) : Prop :=
  ∃ w' : Warp, o = .next (S.setWarp q.wk w').done
    ∧ { w' with lanes := W.lanes, slices := W.slices } = W
    ∧ w'.slices = sl
    ∧ w'.lanes.length = q.w.lanes.length
    ∧ ∀ k, k < q.w.lanes.length → (q.lane k).Becomes sw (w'.lane k) (f k (q.lane k))

/-- The instruction completes and the gang goes on to the next one: each executing lane has the effect `f`, and no other lane of
the warp changes (R31, R90). -/
def Completes (o : Out) (S : State) (q : Gang) (W : Warp) (sw : Bool) (f : Nat → Lane → Effect) : Prop :=
  CompletesAs o S q W (W.advance q.pc q.next q.mask).slices sw fun k l => if bitAt q.exec k then f k l else {}

/-- In every state, instruction `i`, of `n` words with header `h`, completes with the effect `f` in each executing lane and
changes nothing but its warp. -/
def LaneRule (i : Instr) (h : Hdr) (n : Nat) (f : Env → Lane → Effect) : Prop :=
  ∀ s q, gangOf s h n = some q → Completes (exec i s) s q q.w h.sw fun k l => f (q.env k) l

/-- The gang traps: the cause arises in its warp, and nothing else changes (R54, R355). -/
def Traps (o : Out) (s : State) (q : Gang) (c : Cause) : Prop := o = .next (addCause s q.wk c).done

/-- The device step `i` happens in `s` and leaves `t`, with its free values used up. -/
def Happens (i : Instr) (s t : State) : Prop := exec i s = .next t.ended

/-- `r` is the sum of the values, formed exactly and rounded once to `f` by .rn, with its flags (R64, R69, R140). That INV is set where +∞
and −∞ come before a NaN, and not where one of them comes after it, is the model's choice (log 89). -/
def SumRounds (f : Fmt) (vs : List FReal) (r : Nat × Word) : Prop :=
  let early := vs.takeWhile fun v => !v.isNan
  let clash : Prop := FReal.inf true ∈ early ∧ FReal.inf false ∈ early
  let nan : Prop := ∃ v ∈ vs, v.isNan = true
  (clash → r = (f.nan, Flag.inv)) ∧ (¬clash → nan → r = (f.nan, 0))
  ∧ (¬clash → ¬nan → ∀ s, FReal.inf s ∈ vs → r = (f.inf s, 0))
  ∧ ((∀ v ∈ vs, ∃ z m e, v = .fin z m e) → ∃ (q : Int) (num : FReal → Int),
      (∀ z m e, FReal.fin z m e ∈ vs → q ≤ e ∧ num (.fin z m e) = m * 2 ^ (e - q).toNat)
      ∧ r = roundTo f 0 false (.fin (vs.all FReal.neg?) (vs.map num).sum q))

/-- Register `r` with shape register `n` names a dense view that R152 accepts in a lane with `g` registers (R147, R150). -/
abbrev Lane.fits (l : Lane) (g r n : Nat) : Prop :=
  Sh.packed (l.h n) = false ∧ Sh.dense (l.h n) ≤ 256 ∧ (Sh.ety (l.h n) = 0 → r % 2 = 0) ∧ r + Sh.dense (l.h n) ≤ g

/-- No word is in both of two dense views (R152). -/
abbrev Lane.apart (l : Lane) (r n r' n' : Nat) : Prop := r + Sh.dense (l.h n) ≤ r' ∨ r' + Sh.dense (l.h n') ≤ r

/-- What a matrix instruction does when the open chains of the lanes `e` drain before it reads (R161): the state after the drain with the
gang there, and the lanes whose chain has an error that it cannot correct. -/
def afterDrain (s : State) (q : Gang) (e : Mask) : State × Gang × Mask :=
  let r := drainLanes (s.setWarp q.wk (q.w.mapIn (e &&& ~~~q.exec) fun _ l => l.endChain)) q.wk (e &&& q.exec)
  (r.1, { q with w := (r.1.warp? q.wk).getD q.w }, r.2)

/-- A matrix instruction when every executing lane is `okay` (R152, R161): without an open chain that `ends` names it is `done` in the
state in which it issues; else those chains drain first, and unless one has an error that it cannot correct it is `done` after that, where
its lanes are `okay` then. -/
def MatRule (i : Instr) (h : Hdr) (n : Nat) (okay : State → Gang → Nat → Prop) (ends : State → Gang → Nat → Bool)
    (done : Out → State → Gang → Prop) : Prop :=
  ∀ s q, gangOf s h n = some q →
    let fine (s : State) (q : Gang) : Prop := ∀ k, k < 32 → bitAt q.exec k = true → okay s q k
    ((∀ k, k < 32 → bitAt q.mask k = true → (q.lane k).chain.isSome = true → ends s q k = false) → fine s q → done (exec i s) s q)
    ∧ (let r := afterDrain s q (maskOf fun k => bitAt q.mask k && (q.lane k).chain.isSome && ends s q k)
       (r.2.2 = 0 → fine r.1 r.2.1 → done (exec i s) r.1 r.2.1) ∧ (r.2.2 ≠ 0 → exec i s = .next r.1.done))

/-- The rule of a matrix instruction that reads and writes the registers of its lanes only: it names `views`, and leaves the pending
result `f`. -/
def MatPendRule (i : Instr) (h : Hdr) (n : Nat) (okay : Gang → Lane → Env → Prop) (views : Lane → Env → List View) (f : Env → Lane → Pend) :
    Prop :=
  MatRule i h n (fun _ q k => okay q (q.lane k) (q.env k)) (fun _ q k => (q.lane k).chainMeets (views (q.lane k) (q.env k)))
    fun o s q => Completes o s q q.w h.sw fun k l => { pend := [f (q.env k) l] }

/-- A matrix instruction with lanes that fail the step `check` of R152 traps by the lowest step that one fails, with the lanes that
fail it, after the open chains that end at it have drained (R161). -/
def MatTraps (i : Instr) (h : Hdr) (n : Nat) (check : State → Gang → Nat → Nat) : Prop :=
  ∀ s q, gangOf s h n = some q → ∃ e : Mask, (∀ j, bitAt e j = true → bitAt q.mask j = true ∧ (q.lane j).chain.isSome = true) ∧
    let r := afterDrain s q e
    r.2.2 = 0 → ∀ k, 1 ≤ k → k ≤ 7 → (∃ j, j < 32 ∧ bitAt q.exec j = true ∧ check r.1 r.2.1 j = k) →
      (∀ j, j < 32 → bitAt q.exec j = true → check r.1 r.2.1 j = 0 ∨ k ≤ check r.1 r.2.1 j) →
      Traps (exec i s) r.1 r.2.1
        { code := [0, 0x05, 0x0A, 0x04, 0x0B, 0x0C, 0x0D, 0x09].getD k 0, sub := if k = 2 then 2 else 0
          mask := maskOf fun j => bitAt q.exec j && decide (check r.1 r.2.1 j = k)
          path := q.mask, pc := q.pc, resume := .region, cont := q.next }

end Sys2Proof.Machine
end

