-- ==== Sys2Proof/Certificates/Slice0/Obligations.lean ====
section
/-! DEFINITION. The statements about the model that are to be proved. -/

open Sys2Proof Sys2Proof.Machine

/-- R28, R46, R54: a step in which a path issues runs the instruction that the words at its PC value decode to, with the translations of the
fetch held by the TLBs; a fetch that finds no instruction traps. -/
def Obligations.StepRunsDecoded : Prop :=
  (∀ (s : State) (i : Issue) (w : Warp) (x : Instr) (ps : List Piece), s.issue = some i → s.warp? i.wk = some w → w.gang i.pc ≠ 0 →
    fetch s i w = .instr x ps → step s = exec x (s.setMem (cacheEntries s.mem (s.ctxOf w) ps)))
  ∧ (∀ (s : State) (i : Issue) (w : Warp) (ws : List Word) (ps : List Piece) (x : Instr), i.dict = none →
      fetchInstr s (s.ctxOf w) (bitsAt i.pc 0 60) = .ok ws ps → bitsAt i.pc 60 4 = 0 → decode ws = .ok x → counterBad x (s.wgOf w) = false →
        x.inRange (s.regsOf w) = true → fetch s i w = .instr x ps)
  ∧ (∀ (s : State) (i : Issue) (w : Warp) (d : DictCode) (x : Instr), i.dict = some d → decode [d.word] = .ok x → counterBad x (s.wgOf w) = false →
      x.inRange (s.regsOf w) = true → fetch s i w = .instr x [])
  ∧ ∀ (s : State) (i : Issue) (w : Warp) (c : Nat), s.issue = some i → s.warp? i.wk = some w → w.gang i.pc ≠ 0 → fetch s i w = .bad c →
      step s = trapGang (fetchGang s i w) s c 0 (w.gang i.pc)

/-- The words that the spec writes out for some statements decode to these instructions. -/
def Obligations.DecodesSpecWords : Prop :=
  decode [0x1851CA38] = .ok (.imulh { grd := 7, sw := false } 7 5 6)
  ∧ decode [0x1139, 0x00090403, 0x1] = .ok (.sarExt { grd := 7, sw := false } { len := .x3, d := 3, a := 4, b := 9, c := 0, sub := 1, scope := 0, mod := 0, lit := 0 })
  ∧ decode [0x06B9, 0x0404, 0x380B] = .ok (.shflXor { grd := 7, sw := false } { len := .x3, d := 4, a := 4, b := 0, c := 0, sub := 11, scope := 0, mod := 7, lit := 0 })
  ∧ decode [0x3EBA, 0x7, 0x1004] = .ok (.ppoint { grd := 7, sw := false } 0x100400000007)
  ∧ decode [0x3F39, 0x1D, 0] = .ok (.srd { grd := 7, sw := false } { len := .x3, d := 29, a := 0, b := 0, c := 0, sub := 0, scope := 0, mod := 0, lit := 0 })
  ∧ decode [0x3F39, 0x1006, 0] = .ok (.srd { grd := 7, sw := false } { len := .x3, d := 6, a := 16, b := 0, c := 0, sub := 0, scope := 0, mod := 0, lit := 0 })
  ∧ decode [0x3F39, 0, 3] = .ok (.pfdone { grd := 7, sw := false } { len := .x3, d := 0, a := 0, b := 0, c := 0, sub := 3, scope := 0, mod := 0, lit := 0 })
  ∧ decode [0x3CB9, 0x00041000, 0] = .ok (.launch { grd := 7, sw := false } { len := .x3, d := 0, a := 16, b := 4, c := 0, sub := 0, scope := 0, mod := 0, lit := 0 })
  ∧ decode [0x3C39, 0, 0x8001] = .ok (.cpyf { grd := 7, sw := false } { len := .x3, d := 0, a := 0, b := 0, c := 0, sub := 1, scope := 0, mod := 0x10, lit := 0 })

/-- R28, R29, R30, R33, R35, R38, R42, R54: decoding the words of a well-formed instruction, whatever words follow them, gives it back. -/
def Obligations.DecodeOfEncode : Prop :=
  ∀ i : Instr, i.wf = true → i.hdr.grd ≠ 15 → encode i ≠ [] → ∀ rest, decode (encode i ++ rest) = .ok i

/-- R28, R29, R54: what decodes is well formed, and its words are those that it was read from: no bit of them is dropped. -/
def Obligations.EncodeOfDecode : Prop :=
  ∀ (ws : List Word) (i : Instr), 5 ≤ ws.length → decode ws = .ok i →
    i.wf = true ∧ i.hdr.grd ≠ 15 ∧ encode i ≠ [] ∧ encode i = ws.take (encode i).length

/-- The device always goes on: a step in any state answers a next state. -/
def Obligations.StepNeverStops : Prop :=
  ∀ s : State, ∃ t, step s = .next t

/-- R238, R249: every step keeps the canonical form of memory: its bytes and the keys that wrote them. -/
def Obligations.MemoryStaysCanonical : Prop :=
  ∀ s t : State, s.mem.Ok → step s = .next t → t.mem.Ok

/-- R24, R27, R82, R320, R333, R344, R368: after power-up no context exists, every queue is disabled, no event has a number, the timestamp
is 0, every bucket is full, θ is 256, each cluster's last used core is 3, and memory has its canonical form. -/
def Obligations.ResetState : Prop :=
  let s := State.reset
  s.mem.Ok ∧ s.warps = [] ∧ s.wgs = [] ∧ s.hub.ctxs = [] ∧ s.hub.launches = [] ∧ s.time = 0 ∧ s.power.phase = .running
  ∧ (∀ q, (s.queueOf q).state = 2 ∧ (s.queueOf q).ctx = none) ∧ (∀ d, fgetD s.hub.seqs d 0 = 0)
  ∧ (∀ c, (s.coreOf c).energy = 46875000 ∧ (s.coreOf c).banks = []) ∧ (∀ d, fgetD s.hub.theta d 256 = 256) ∧ ∀ k, fgetD s.hub.lastCore k 3 = 3

/-- R130, R131: what the integer sums, differences and products write, in both their forms, wrapped or clamped with SAT; and that nothing
else changes. That an IADDC with pc = p7 adds a carry of 1 is the model's choice (log entry 12), against the closing sentence of R131. R130:
the smaller and the larger, signed or unsigned; the magnitude and the negation, of which only that of the most negative word does not fit,
and then saturates when asked to. R130, R132: the bitwise instructions and the counts of bits. R130, R132: bit by bit, what LOP3, BREV, POPC
and CLZ compute. -/
def Obligations.IntegerInstructions : Prop :=
  (
    ∀ (h : Hdr) (d a b : BitVec 6) (x : Ext),
    let clamp (y : Int) : Int := if x.bit 12 then max 0 (min (2 ^ 32 - 1) y) else max (-(2 ^ 31)) (min (2 ^ 31 - 1) y)
    let val (y : Word) : Int := if x.bit 12 then y.toNat else y.toInt
    let sum (f : Int → Int → Int) (e : Env) (l : Lane) : Effect :=
      let y := f (val (l.rd e 0 x.a.toNat)) (val (opB l e 2 x))
      if x.bit 11 then (Effect.word x.d.toNat (BitVec.ofInt 32 (clamp y))).flags (if clamp y = y then 0 else Flag.sat)
      else .word x.d.toNat (BitVec.ofInt 32 y)
    LaneRule (.iadd h d a b) h 1 (fun e l => .word d.toNat (l.rd e 0 a.toNat + l.rd e 2 b.toNat))
    ∧ LaneRule (.iaddExt h x) h x.words (sum fun a b => a + b)
    ∧ LaneRule (.isub h d a b) h 1 (fun e l => .word d.toNat (l.rd e 0 a.toNat - l.rd e 2 b.toNat))
    ∧ LaneRule (.isubExt h x) h x.words (sum fun a b => a - b)
    ∧ LaneRule (.iaddc h x) h x.words (fun e l =>
        let y := if x.bit 14 then ~~~(opB l e 2 x) else opB l e 2 x
        let t := (l.rd e 0 x.a.toNat).toNat + y.toNat + (if l.rdP e 6 x.c.toNat then 1 else 0)
        { v := [(x.d.toNat, BitVec.ofNat 32 t)], p := [(x.field 11 3, decide (2 ^ 32 ≤ t))] })
    ∧ LaneRule (.imul h d a b) h 1 (fun e l => .word d.toNat (l.rd e 0 a.toNat * l.rd e 2 b.toNat))
    ∧ LaneRule (.imulExt h x) h x.words (fun e l => .word x.d.toNat (l.rd e 0 x.a.toNat * opB l e 2 x))
    ∧ LaneRule (.imulh h d a b) h 1 (fun e l =>
        .word d.toNat (BitVec.ofInt 32 ((l.rd e 0 a.toNat).toInt * (l.rd e 2 b.toNat).toInt / 2 ^ 32)))
    ∧ LaneRule (.imulhExt h x) h x.words (fun e l =>
        let n (y : Word) : Int := if x.bit 11 then y.toNat else y.toInt
        .word x.d.toNat (BitVec.ofInt 32 (n (l.rd e 0 x.a.toNat) * n (opB l e 2 x) / 2 ^ 32)))
    ∧ LaneRule (.imad h x) h x.words (fun e l => .word x.d.toNat (l.rd e 0 x.a.toNat * opB l e 2 x + opC l e 4 x))
    ∧ LaneRule (.imadw h x) h x.words (fun e l =>
        let n (y : Word) : Int := if x.bit 11 then y.toNat else y.toInt
        .wide x.d.toNat (BitVec.ofInt 64 (n (l.rd e 0 x.a.toNat) * n (opB l e 2 x)) + opCW l e 4 x)))
  ∧ (
    ∀ (h : Hdr) (d a b : BitVec 6) (x : Ext),
    let val (y : Word) : Int := if x.bit 11 then y.toNat else y.toInt
    let sat (f : Int → Int) (e : Env) (l : Lane) : Effect :=
      let y := f (l.rd e 0 x.a.toNat).toInt
      if x.bit 11 then (Effect.word x.d.toNat (BitVec.ofInt 32 (min y (2 ^ 31 - 1)))).flags (if y = 2 ^ 31 then Flag.sat else 0)
      else .word x.d.toNat (BitVec.ofInt 32 y)
    LaneRule (.imin h d a b) h 1 (fun e l => .word d.toNat (BitVec.ofInt 32 (min (l.rd e 0 a.toNat).toInt (l.rd e 2 b.toNat).toInt)))
    ∧ LaneRule (.iminExt h x) h x.words (fun e l =>
        .word x.d.toNat (BitVec.ofInt 32 (min (val (l.rd e 0 x.a.toNat)) (val (opB l e 2 x)))))
    ∧ LaneRule (.imax h d a b) h 1 (fun e l => .word d.toNat (BitVec.ofInt 32 (max (l.rd e 0 a.toNat).toInt (l.rd e 2 b.toNat).toInt)))
    ∧ LaneRule (.imaxExt h x) h x.words (fun e l =>
        .word x.d.toNat (BitVec.ofInt 32 (max (val (l.rd e 0 x.a.toNat)) (val (opB l e 2 x)))))
    ∧ LaneRule (.iabs h d a) h 1 (fun e l => .word d.toNat (BitVec.ofInt 32 (l.rd e 0 a.toNat).toInt.natAbs))
    ∧ LaneRule (.iabsExt h x) h x.words (sat fun y => y.natAbs)
    ∧ LaneRule (.ineg h d a) h 1 (fun e l => .word d.toNat (- l.rd e 0 a.toNat))
    ∧ LaneRule (.inegExt h x) h x.words (sat fun y => -y))
  ∧ (
    ∀ (h : Hdr) (d a b : BitVec 6) (x : Ext),
    let two (f : Word → Word → Word) (e : Env) (l : Lane) : Effect := .word x.d.toNat (f (l.rd e 0 x.a.toNat) (opB l e 2 x))
    let twoBase (f : Word → Word → Word) (e : Env) (l : Lane) : Effect := .word d.toNat (f (l.rd e 0 a.toNat) (l.rd e 2 b.toNat))
    let one (f : Word → Word) (e : Env) (l : Lane) : Effect := .word x.d.toNat (f (l.rd e 0 x.a.toNat))
    let oneBase (f : Word → Word) (e : Env) (l : Lane) : Effect := .word d.toNat (f (l.rd e 0 a.toNat))
    LaneRule (.andBase h d a b) h 1 (twoBase fun a b => a &&& b) ∧ LaneRule (.andExt h x) h x.words (two fun a b => a &&& b)
    ∧ LaneRule (.orBase h d a b) h 1 (twoBase fun a b => a ||| b) ∧ LaneRule (.orExt h x) h x.words (two fun a b => a ||| b)
    ∧ LaneRule (.xorBase h d a b) h 1 (twoBase fun a b => a ^^^ b) ∧ LaneRule (.xorExt h x) h x.words (two fun a b => a ^^^ b)
    ∧ LaneRule (.notBase h d a) h 1 (oneBase fun a => ~~~a) ∧ LaneRule (.notExt h x) h x.words (one fun a => ~~~a)
    ∧ LaneRule (.popc h d a) h 1 (oneBase popWord) ∧ LaneRule (.popcExt h x) h x.words (one popWord)
    ∧ LaneRule (.clz h d a) h 1 (oneBase clzWord) ∧ LaneRule (.clzExt h x) h x.words (one clzWord)
    ∧ LaneRule (.brev h d a) h 1 (oneBase revWord) ∧ LaneRule (.brevExt h x) h x.words (one revWord)
    ∧ LaneRule (.lop3 h x) h x.words (fun e l =>
        .word x.d.toNat (lop3Word (x.field 11 8) (l.rd e 0 x.a.toNat) (opB l e 2 x) (opC l e 4 x))))
  ∧ (
    (∀ (tt : Nat) (a b c : Word) (i : Nat), i < 32 →
        bitAt (lop3Word tt a b c) i = tt.testBit ((bitAt a i).toNat + 2 * (bitAt b i).toNat + 4 * (bitAt c i).toNat))
    ∧ (∀ (a : Word) (i : Nat), i < 32 → bitAt (revWord a) i = bitAt a (31 - i))
    ∧ (∀ a : Word, (popWord a).toNat = ((List.range 32).filter fun i => bitAt a i).length)
    ∧ (∀ a : Word, a ≠ 0 → (clzWord a).toNat < 32 ∧ bitAt a (31 - (clzWord a).toNat) = true
        ∧ ∀ i, 31 - (clzWord a).toNat < i → bitAt a i = false)
    ∧ clzWord 0 = 32)

/-- R133, R134, R135: shifts by every count, and the bit fields. -/
def Obligations.ShiftsAndFields : Prop :=
  ∀ (h : Hdr) (d a : BitVec 6) (n : BitVec 5) (x : Ext),
  let shift (f : Word → Nat → Word) (e : Env) (l : Lane) : Effect :=
    .word x.d.toNat (f (l.rd e 0 x.a.toNat) (if x.sub = 1 then (l.rd e 2 x.b.toNat).toNat else x.field 11 5))
  let base (f : Word → Nat → Word) (e : Env) (l : Lane) : Effect := .word d.toNat (f (l.rd e 0 a.toNat) n.toNat)
  let shl (a : Word) (n : Nat) : Word := BitVec.ofNat 32 (a.toNat * 2 ^ n)
  let shr (a : Word) (n : Nat) : Word := BitVec.ofNat 32 (a.toNat / 2 ^ n)
  let sar (a : Word) (n : Nat) : Word := BitVec.ofInt 32 (a.toInt / 2 ^ n)
  let rot (a : Word) (n : Nat) : Word := BitVec.ofNat 32 (a.toNat * 2 ^ (n % 32) + a.toNat / 2 ^ (32 - n % 32))
  let ctl (e : Env) (l : Lane) (i r : Nat) : Nat × Nat :=
    if x.bit 12 then (x.field 13 5, x.field 18 6) else ((l.rd e i r).toNat % 256, (l.rd e i r).toNat / 256 % 256)
  LaneRule (.shl h d a n) h 1 (base shl) ∧ LaneRule (.shlExt h x) h x.words (shift shl)
  ∧ LaneRule (.shr h d a n) h 1 (base shr) ∧ LaneRule (.shrExt h x) h x.words (shift shr)
  ∧ LaneRule (.sar h d a n) h 1 (base sar) ∧ LaneRule (.sarExt h x) h x.words (shift sar)
  ∧ LaneRule (.rot h d a n) h 1 (base rot) ∧ LaneRule (.rotExt h x) h x.words (shift rot)
  ∧ LaneRule (.shf h x) h x.words (fun e l =>
      let y := (l.rd e 2 x.b.toNat).toNat * 2 ^ 32 + (l.rd e 0 x.a.toNat).toNat
      let n := if x.bit 12 then x.field 13 6 else (l.rd e 4 x.c.toNat).toNat % 64
      .word x.d.toNat (BitVec.ofNat 32 (if x.bit 11 then y / 2 ^ n else y * 2 ^ n % 2 ^ 64 / 2 ^ 32)))
  ∧ LaneRule (.bfe h x) h x.words (fun e l =>
      let c := ctl e l 2 x.b.toNat
      let k := min c.2 (32 - c.1)
      let f := (l.rd e 0 x.a.toNat).toNat / 2 ^ c.1 % 2 ^ k
      .word x.d.toNat (if 32 ≤ c.1 ∨ c.2 = 0 then 0
        else BitVec.ofInt 32 (if x.bit 11 = false ∧ 2 ^ (k - 1) ≤ f then (f : Int) - 2 ^ k else f)))
  ∧ LaneRule (.bfi h x) h x.words (fun e l =>
      let c := ctl e l 4 x.c.toNat
      let k := min c.2 (32 - c.1)
      let a := (l.rd e 0 x.a.toNat).toNat
      let b := (l.rd e 2 x.b.toNat).toNat
      .word x.d.toNat (BitVec.ofNat 32 (if 32 ≤ c.1 ∨ c.2 = 0 then b
        else b / 2 ^ (c.1 + k) * 2 ^ (c.1 + k) + a % 2 ^ k * 2 ^ c.1 + b % 2 ^ c.1)))

/-- R136, R137, R138: compares with their combination, selection, moves and immediates, and address sums. R114, R116, R117: NOP does
nothing, RGN opens a region at the next instruction, and PLOP looks three predicates up in its truth table. -/
def Obligations.ComparesSelectionsMoves : Prop :=
  (
    ∀ (h : Hdr) (d a b : BitVec 6) (x : Ext),
    let wideA (e : Env) (l : Lane) : DWord := l.rdW e 0 x.a.toNat
    LaneRule (.icmp h x) h x.words (fun e l =>
        let cmp (a b : Int) : Bool := match x.field 11 3 with
          | 0 => decide (a = b)
          | 1 => decide (a ≠ b)
          | 2 => decide (a < b)
          | 3 => decide (a ≤ b)
          | 4 => decide (a > b)
          | _ => decide (a ≥ b)
        let t := match x.bit 17, x.bit 14 with
          | false, false => cmp (l.rd e 0 x.a.toNat).toInt (opB l e 2 x).toInt
          | false, true => cmp (l.rd e 0 x.a.toNat).toNat (opB l e 2 x).toNat
          | true, false => cmp (wideA e l).toInt (opBW l e 2 x).toInt
          | true, true => cmp (wideA e l).toNat (opBW l e 2 x).toNat
        let pc := l.rdP e 6 x.c.toNat
        { p := [(x.d.toNat, match x.field 15 2 with
          | 1 => t && pc
          | 2 => t || pc
          | _ => t)] })
    ∧ LaneRule (.isel h x) h x.words (fun e l =>
        let pc := l.rdP e 6 x.c.toNat
        if x.bit 11 then .wide x.d.toNat (if pc then wideA e l else opBW l e 2 x)
        else .word x.d.toNat (if pc then l.rd e 0 x.a.toNat else opB l e 2 x))
    ∧ LaneRule (.mov h d a) h 1 (fun e l => .word d.toNat (l.rd e 0 a.toNat))
    ∧ LaneRule (.movExt h x) h x.words (fun e l =>
        if x.bit 11 then .wide x.d.toNat (wideA e l) else .word x.d.toNat (l.rd e 0 x.a.toNat))
    ∧ LaneRule (.movi h x) h x.words (fun _ _ =>
        let imm : Int := if x.field 12 20 < 2 ^ 19 then x.field 12 20 else x.field 12 20 - 2 ^ 20
        let y : DWord := if x.len = .x3 then BitVec.ofInt 64 imm else x.lit
        if x.bit 11 then .wide x.d.toNat y else .word x.d.toNat (lo32 y))
    ∧ LaneRule (.lea h x) h x.words (fun e l =>
        let b := l.rd e 2 x.b.toNat
        let y : DWord := if x.litB then x.lit else if x.bit 14 then BitVec.ofNat 64 b.toNat else BitVec.ofInt 64 b.toInt
        .wide x.d.toNat (wideA e l + y * BitVec.ofNat 64 (2 ^ x.field 11 3)))
    ∧ LaneRule (.iadd64 h d a b) h 1 (fun e l => .wide d.toNat (l.rdW e 0 a.toNat + l.rdW e 2 b.toNat))
    ∧ LaneRule (.iadd64Ext h x) h x.words (fun e l => .wide x.d.toNat (wideA e l + opBW l e 2 x)))
  ∧ (
    ∀ (h : Hdr) (x : Ext),
    LaneRule (.nop h) h 1 (fun _ _ => {})
    ∧ LaneRule (.rgn h) h 1 (fun e _ => { region := some e.next })
    ∧ LaneRule (.plop h x) h x.words (fun e l =>
        { p := [(x.d.toNat, (x.field 11 8).testBit
          ((l.rdP e 0 x.a.toNat).toNat + 2 * (l.rdP e 1 x.b.toNat).toNat + 4 * (l.rdP e 2 x.c.toNat).toNat))] }))

/-- R141, R142, R143, R144: FP32 arithmetic with one rounding, minimum, maximum, compares and FRND; %fst gets the flags of round() and of
the operands. R141, R142, R143: the same in FP64, on register pairs. R142, R143, R144: minimum and maximum return one operand, −0 being
below +0, the one that is no NaN if the other is, and the canonical NaN for two; compares order the values of which none is a NaN; FRND
gives the integral value that its mode chooses, with the operand's own sign for a zero; and INV is set by a signalling NaN alone. -/
def Obligations.FloatInstructions : Prop :=
  (
    ∀ (h : Hdr) (d a b : BitVec 6) (x : Ext),
    let opd (k : Nat) (y : Word) : Nat := signMod .f32 (x.bit (18 + k)) (x.bit (15 + k)) y.toNat
    let A (e : Env) (l : Lane) : Nat := opd 0 (l.rd e 0 x.a.toNat)
    let B (e : Env) (l : Lane) : Nat := opd 1 (opB l e 2 x)
    let put (d : Nat) (r : Nat × Word) : Effect := (Effect.word d (BitVec.ofNat 32 r.1)).flags r.2
    let base (f : Nat → Nat → Nat × Word) (e : Env) (l : Lane) : Effect :=
      put d.toNat (f (l.rd e 0 a.toNat).toNat (l.rd e 2 b.toNat).toNat)
    let ext (f : Nat → Nat → Nat × Word) (e : Env) (l : Lane) : Effect := put x.d.toNat (f (A e l) (B e l))
    LaneRule (.fadd h d a b) h 1 (base (floatAdd .f32 0 false))
    ∧ LaneRule (.faddExt h x) h x.words (ext (floatAdd .f32 (x.field 11 3) (x.bit 14)))
    ∧ LaneRule (.fmul h d a b) h 1 (base (floatMul .f32 0 false))
    ∧ LaneRule (.fmulExt h x) h x.words (ext (floatMul .f32 (x.field 11 3) (x.bit 14)))
    ∧ LaneRule (.ffma h x) h x.words (fun e l =>
        put x.d.toNat (floatFma .f32 (x.field 11 3) (x.bit 14) (A e l) (B e l) (opd 2 (opC l e 4 x))))
    ∧ LaneRule (.fmin h d a b) h 1 (base (minMax .f32 false)) ∧ LaneRule (.fminExt h x) h x.words (ext (minMax .f32 false))
    ∧ LaneRule (.fmax h d a b) h 1 (base (minMax .f32 true)) ∧ LaneRule (.fmaxExt h x) h x.words (ext (minMax .f32 true))
    ∧ LaneRule (.fcmp h x) h x.words (fun e l =>
        let r := floatCmp .f32 (x.field 11 3) (l.rd e 0 x.a.toNat).toNat (opB l e 2 x).toNat
        { p := [(x.d.toNat, combine (x.field 15 2) r.1 (l.rdP e 6 x.c.toNat))], fst := r.2 })
    ∧ LaneRule (.frnd h d a) h 1 (fun e l => put d.toNat (floatRound 0 (l.rd e 0 a.toNat).toNat))
    ∧ LaneRule (.frndExt h x) h x.words (fun e l => put x.d.toNat (floatRound (x.field 11 3) (l.rd e 0 x.a.toNat).toNat)))
  ∧ (
    ∀ (h : Hdr) (d a b : BitVec 6) (x : Ext),
    let opd (k : Nat) (y : DWord) : Nat := signMod .f64 (x.bit (18 + k)) (x.bit (15 + k)) y.toNat
    let A (e : Env) (l : Lane) : Nat := opd 0 (l.rdW e 0 x.a.toNat)
    let B (e : Env) (l : Lane) : Nat := opd 1 (opBW l e 2 x)
    let put (d : Nat) (r : Nat × Word) : Effect := (Effect.wide d (BitVec.ofNat 64 r.1)).flags r.2
    let base (f : Nat → Nat → Nat × Word) (e : Env) (l : Lane) : Effect :=
      put d.toNat (f (l.rdW e 0 a.toNat).toNat (l.rdW e 2 b.toNat).toNat)
    let ext (f : Nat → Nat → Nat × Word) (e : Env) (l : Lane) : Effect := put x.d.toNat (f (A e l) (B e l))
    LaneRule (.dadd h d a b) h 1 (base (floatAdd .f64 0 false))
    ∧ LaneRule (.daddExt h x) h x.words (ext (floatAdd .f64 (x.field 11 3) (x.bit 14)))
    ∧ LaneRule (.dmul h d a b) h 1 (base (floatMul .f64 0 false))
    ∧ LaneRule (.dmulExt h x) h x.words (ext (floatMul .f64 (x.field 11 3) (x.bit 14)))
    ∧ LaneRule (.dfma h x) h x.words (fun e l =>
        put x.d.toNat (floatFma .f64 (x.field 11 3) (x.bit 14) (A e l) (B e l) (opd 2 (opCW l e 4 x))))
    ∧ LaneRule (.dmin h d a b) h 1 (base (minMax .f64 false)) ∧ LaneRule (.dminExt h x) h x.words (ext (minMax .f64 false))
    ∧ LaneRule (.dmax h d a b) h 1 (base (minMax .f64 true)) ∧ LaneRule (.dmaxExt h x) h x.words (ext (minMax .f64 true))
    ∧ LaneRule (.dcmp h x) h x.words (fun e l =>
        let r := floatCmp .f64 (x.field 11 3) (l.rdW e 0 x.a.toNat).toNat (opBW l e 2 x).toNat
        { p := [(x.d.toNat, combine (x.field 15 2) r.1 (l.rdP e 6 x.c.toNat))], fst := r.2 }))
  ∧ (
    ∀ f ∈ [Fmt.f64, .f32], ∀ (a b : Nat), a < 2 ^ f.width → b < 2 ^ f.width →
    let key (c : Nat) : EReal := match unpack f c with
      | .inf neg => if neg then ⊥ else ⊤
      | .fin _ m e => (((m : ℝ) * (2 : ℝ) ^ e : ℝ) : EReal)
      | .nan _ => 0
    let minus (c : Nat) : Prop := c / 2 ^ (f.fw + f.ew) % 2 = 1
    let nan (c : Nat) : Prop := ∃ s, unpack f c = .nan s
    let fl : Word := if unpack f a = .nan true ∨ unpack f b = .nan true then Flag.inv else 0
    (∀ top : Bool, (minMax f top a b).2 = fl
      ∧ (nan a → nan b → (minMax f top a b).1 = f.nan) ∧ (nan a → ¬nan b → (minMax f top a b).1 = b) ∧ (¬nan a → nan b → (minMax f top a b).1 = a)
      ∧ (¬nan a → ¬nan b → let r := (minMax f top a b).1
          (r = a ∨ r = b) ∧ ∀ c, c = a ∨ c = b →
            if top = true then key c ≤ key r ∧ (key c = key r → minus r → minus c) else key r ≤ key c ∧ (key c = key r → minus c → minus r)))
    ∧ (∀ cc, cc < 8 → (floatCmp f cc a b).2 = fl ∧ ((floatCmp f cc a b).1 = true ↔ match cc with
        | 0 => ¬nan a ∧ ¬nan b ∧ key a = key b
        | 1 => nan a ∨ nan b ∨ key a ≠ key b
        | 2 => ¬nan a ∧ ¬nan b ∧ key a < key b
        | 3 => ¬nan a ∧ ¬nan b ∧ key a ≤ key b
        | 4 => ¬nan a ∧ ¬nan b ∧ key b < key a
        | 5 => ¬nan a ∧ ¬nan b ∧ key b ≤ key a
        | 6 => ¬nan a ∧ ¬nan b
        | _ => nan a ∨ nan b))
    ∧ ∀ rnd, rnd < 5 → f = .f32 →
        (∀ s, unpack f a = .nan s → floatRound rnd a = (f.nan, if s then Flag.inv else 0))
        ∧ (∀ s, unpack f a = .inf s → floatRound rnd a = (a, 0))
        ∧ (∀ z e, unpack f a = .fin z 0 e → floatRound rnd a = (a, 0))
        ∧ ∀ z m e, unpack f a = .fin z m e → m ≠ 0 →
            let y : ℚ := (m : ℚ) * (2 : ℚ) ^ e
            ∃ (j : Int) (z' : Bool) (m' e' : Int), |(j : ℚ) - y| < 1
              ∧ (match rnd with
                | 0 => |(j : ℚ) - y| ≤ 1 / 2 ∧ (|(j : ℚ) - y| = 1 / 2 → j % 2 = 0)
                | 1 => |(j : ℚ)| ≤ |y| ∧ 0 ≤ (j : ℚ) * y
                | 2 => (j : ℚ) ≤ y
                | 3 => y ≤ (j : ℚ)
                | _ => |(j : ℚ) - y| ≤ 1 / 2 ∧ (|(j : ℚ) - y| = 1 / 2 → |y| < |(j : ℚ)|))
              ∧ (floatRound rnd a).2 = 0 ∧ unpack f (floatRound rnd a).1 = .fin z' m' e' ∧ (m' : ℚ) * (2 : ℚ) ^ e' = j
              ∧ (j = 0 → z' = decide (m < 0)))

/-- R145, R49: FSFU and DSFU give pending results: word and flags of the function named, nothing at once. The bits of .rsq, .exp2, .log2,
.sin and .cos between their bounds are free values of the part. R85, R86, R87, R88, R146: conversion of one element, packing, unpacking,
classes, and the two BF16 elements of HFMA2, with the flags of all elements. R88, R145: the class of a code, with one bit; and the
reciprocal and the square root, which are rounded correctly, with their special values. -/
def Obligations.SpecialFunctionsAndConversions : Prop :=
  (
    ∀ (h : Hdr) (x : Ext),
    let one (f : Word → Nat × Word) (e : Env) (l : Lane) : Effect :=
      let r := f (l.rd e 0 x.a.toNat)
      { pend := [{ regs := [(x.d.toNat, BitVec.ofNat 32 r.1)], fst := r.2 }] }
    let two (f : DWord → Nat × Word) (e : Env) (l : Lane) : Effect :=
      let r := f (l.rdW e 0 x.a.toNat)
      { pend := [{ regs := [(x.d.toNat, BitVec.ofNat 32 r.1), (x.d.toNat + 1, BitVec.ofNat 32 (r.1 / 2 ^ 32))], fst := r.2 }] }
    LaneRule (.fsfuRcp h x) h x.words (one fun a => floatRcp .f32 a.toNat)
    ∧ LaneRule (.fsfuRsq h x) h x.words (one sfuRsq)
    ∧ LaneRule (.fsfuSqrt h x) h x.words (one fun a => floatSqrt .f32 a.toNat)
    ∧ LaneRule (.fsfuExp2 h x) h x.words (one sfuExp2)
    ∧ LaneRule (.fsfuLog2 h x) h x.words (one sfuLog2)
    ∧ LaneRule (.fsfuSin h x) h x.words (one (sfuSin false))
    ∧ LaneRule (.fsfuCos h x) h x.words (one (sfuSin true))
    ∧ LaneRule (.dsfuRcp h x) h x.words (two fun a => floatRcp .f64 a.toNat)
    ∧ LaneRule (.dsfuSqrt h x) h x.words (two fun a => floatSqrt .f64 a.toNat))
  ∧ (
    ∀ (h : Hdr) (x : Ext),
    let dt := x.field 11 4
    let st := x.field 15 4
    let put (code d bits : Nat) : Effect :=
      if tyWidth code = 64 then .wide d (BitVec.ofNat 64 bits) else .word d (BitVec.ofNat 32 (holdBits code bits))
    LaneRule (.cvt h x) h x.words (fun e l =>
        let r := convert dt st (x.field 19 3) (x.bit 22)
          (if tyWidth st = 64 then (l.rdW e 0 x.a.toNat).toNat else (l.rd e 0 x.a.toNat).toNat)
        (put dt x.d.toNat r.1).flags r.2)
    ∧ LaneRule (.pack h x) h x.words (fun e l =>
        let r (i : Nat) := convert dt st (x.field 19 3) (x.bit 22) (l.rd e (10 + i) (x.a.toNat + i)).toNat
        let ks := List.range (packCount dt)
        (Effect.word x.d.toNat (BitVec.ofNat 32 (ks.foldr (fun i n => (r i).1 * 2 ^ (tyWidth dt * i) + n) 0))).flags
          (ks.foldr (fun i f => (r i).2 ||| f) 0))
    ∧ LaneRule (.unpk h x) h x.words (fun e l =>
        let b := tyWidth st
        let r (i : Nat) := convert dt st 0 false ((l.rd e 0 x.a.toNat).toNat / 2 ^ (b * i) % 2 ^ b)
        let ks := List.range (packCount st)
        { v := ks.map fun i => (x.d.toNat + i, BitVec.ofNat 32 (r i).1), fst := ks.foldr (fun i f => (r i).2 ||| f) 0 })
    ∧ LaneRule (.fclass h x) h x.words (fun e l =>
        let a := if dt = 0 then (l.rdW e 0 x.a.toNat).toNat else (l.rd e 0 x.a.toNat).toNat
        let m := classMask (fmtOf dt) (a % 2 ^ tyWidth dt)
        if x.bit 15 then { p := [(x.d.toNat, decide (m &&& x.field 16 10 ≠ 0))] } else .word x.d.toNat (BitVec.ofNat 32 m))
    ∧ LaneRule (.hfma2 h x) h x.words (fun e l =>
        let el (k : Nat) : Nat × Word :=
          let opd (i : Nat) (y : Word) : Nat := signMod .bf16 (x.bit (18 + i)) (x.bit (15 + i)) (y.toNat / 2 ^ (16 * k) % 2 ^ 16)
          floatFma .bf16 (x.field 11 3) (x.bit 14) (opd 0 (l.rd e 0 x.a.toNat)) (opd 1 (opB l e 2 x)) (opd 2 (opC l e 4 x))
        (Effect.word x.d.toNat (BitVec.ofNat 32 ((el 0).1 + 2 ^ 16 * (el 1).1))).flags ((el 0).2 ||| (el 1).2)))
  ∧ (
    (∀ f ∈ [Fmt.f64, .f32, .bf16, .f16, .e5m2, .e4m3fmt], ∀ a : Nat,
      (∀ s, unpack f a = .nan s → classMask f a = if s then 2 ^ 8 else 2 ^ 9)
      ∧ (∀ s, unpack f a = .inf s → classMask f a = if s then 2 ^ 0 else 2 ^ 7)
      ∧ (∀ z e, unpack f a = .fin z 0 e → classMask f a = if z then 2 ^ 3 else 2 ^ 4)
      ∧ ∀ z m e, unpack f a = .fin z m e → m ≠ 0 → classMask f a =
          if |(m : ℚ) * (2 : ℚ) ^ e| < (2 : ℚ) ^ (1 - f.bias) then (if m < 0 then 2 ^ 2 else 2 ^ 5) else (if m < 0 then 2 ^ 1 else 2 ^ 6))
    ∧ ∀ f ∈ [Fmt.f64, .f32], ∀ a : Nat,
      (∀ s, unpack f a = .nan s → floatRcp f a = (f.nan, if s then Flag.inv else 0) ∧ floatSqrt f a = (f.nan, if s then Flag.inv else 0))
      ∧ (∀ s, unpack f a = .inf s → floatRcp f a = (f.signed s 0, 0) ∧ floatSqrt f a = if s then (f.nan, Flag.inv) else (f.inf false, 0))
      ∧ (∀ z e, unpack f a = .fin z 0 e → floatRcp f a = (f.inf z, Flag.dz) ∧ floatSqrt f a = (a, 0))
      ∧ ∀ z m e, unpack f a = .fin z m e → m ≠ 0 →
          let y : ℝ := (m : ℝ) * (2 : ℝ) ^ e
          (∃ (n d : Nat) (k : Int), 0 < n ∧ 0 < d ∧ floatRcp f a = roundRat f 0 false (decide (m < 0)) n d k ∧ (n : ℝ) / d * (2 : ℝ) ^ k = |1 / y|)
          ∧ (m < 0 → floatSqrt f a = (f.nan, Flag.inv))
          ∧ (0 < m → ∃ (z' : Bool) (m' e' u : Int), unpack f (floatSqrt f a).1 = .fin z' m' e'
              ∧ (2 : ℝ) ^ (u + f.fw) ≤ Real.sqrt y ∧ Real.sqrt y < (2 : ℝ) ^ (u + f.fw + 1)
              ∧ |(m' : ℝ) * (2 : ℝ) ^ e' - Real.sqrt y| ≤ (2 : ℝ) ^ u / 2
              ∧ (floatSqrt f a).2 = if Real.sqrt y = (m' : ℝ) * (2 : ℝ) ^ e' then 0 else Flag.inx))

/-- R34, R109, R110, R111, R91, R112: a branch whose targets are aligned takes each executing lane to its target and leaves every other lane
of the gang at the next instruction; CALL and CALLX write the link pair; the new slices are those of R91. In a translation of Nelrak-1 code
the link is a Nelrak-1 address, and a lane that has called or that a register has sent somewhere waits for Jasper, whatever the state of its
function's slot (R402), which is the model's choice (log entry 73). -/
def Obligations.BranchInstructions : Prop :=
  ∀ (h : Hdr) (off : BitVec 18) (target : DWord) (a : BitVec 6) (s : State) (q : Gang)
    (sl : List Slice),
  let goes (i : Instr) (dest : Nat → PC) (f : Effect) : Prop :=
    (q.w.split q.pc q.mask fun k => if bitAt q.exec k then dest k else q.next) = some sl →
      CompletesAs (exec i s) s q q.w sl h.sw fun k _ => if bitAt q.exec k then { f with ready := some (cycleOf s q.wk + 1) } else {}
  let waits (w : Wait) (f : Effect) : Effect := if q.nelrak.isSome then { f with wait := some w } else f
  let link : Effect := waits (.translation 0) (.wide (q.g - 2) (q.nelrak.getD q.next))
  let computed : Effect := waits .midway {}
  let near (_ : Nat) : PC := (BitVec.ofInt 60 (q.pc.toNat % 2 ^ 60 + 4 * off.toInt)).setWidth 64
  let far (_ : Nat) : PC := target
  let reg (k : Nat) : PC := (q.lane k).rdW (q.env k) 0 a.toNat
  let back (k : Nat) : PC := (q.lane k).rdW (q.env k) 0 (q.g - 2)
  let uniform : Prop := q.exec = 0 ∨ q.exec = q.mask
  let aligned (top : Nat) (dest : Nat → PC) : Prop :=
    ∀ k, k < 32 → bitAt q.exec k = true → (dest k).toNat % 4 = 0 ∧ (dest k).toNat / 2 ^ 57 % 2 ^ (top - 57) = 0
  (gangOf s h 1 = some q →
    goes (.bra h off) near {} ∧ goes (.call h off) near link ∧ (uniform → goes (.bru h off) near {})
    ∧ (aligned 64 reg → goes (.brx h a) reg computed ∧ goes (.callx h a) reg link)
    ∧ (aligned 60 back → goes (.ret h) back computed))
  ∧ (gangOf s h 3 = some q → target.toNat % 4 = 0 → target.toNat < 2 ^ 57 →
    goes (.braLit h target) far {} ∧ goes (.callLit h target) far link ∧ (uniform → goes (.bruLit h target) far {}))

/-- R89, R91, R92, R93, R94: what a slice does: its slot moves on as a whole, or splits in two in ascending PC order; what is more than two
groups is pushed on the divergence stack, the older slot first and then the new groups in descending PC order, and only where the depth
would exceed 8 there is no room; slots with one PC value merge into the older, and an entry is popped into a free slot while the depth is
above the handler's base. Lanes that wait in the slot stay there while the others go on. That of groups placed at once those with the lower
PC values are the older ones is the model's choice (log entry 23). -/
def Obligations.SliceMoves : Prop :=
  (∀ (sl : Slice) (pc t n : PC) (m e : BitVec 4) (k : Nat), sl.slots = [{ pc := pc, mask := m }] → sl.stack = [] →
    let rest : Slice := { sl with slots := [] }
    (m ≠ 0 → sl.advance pc n m = { sl with slots := [{ pc := n, mask := m }] })
    ∧ (m &&& e ≠ 0 → m &&& ~~~e ≠ 0 → n ≠ pc →
        sl.advance pc n e = { sl with slots := [{ pc := pc, mask := m &&& ~~~e }, { pc := n, mask := m &&& e }] })
    ∧ (m ≠ 0 → rest.place (groupsOf m k fun _ => t) = some { sl with slots := [{ pc := t, mask := m }] })
    ∧ (m &&& e ≠ 0 → m &&& ~~~e ≠ 0 → t ≠ n →
        rest.place (groupsOf m k fun i => if bitAt e (i - 4 * k) then t else n) = some { sl with slots :=
          if t.toNat < n.toNat then [{ pc := t, mask := m &&& e }, { pc := n, mask := m &&& ~~~e }]
          else [{ pc := n, mask := m &&& ~~~e }, { pc := t, mask := m &&& e }] }))
  ∧ (∀ (sl : Slice) (groups : List Slot), sl.slots.length ≤ 1 → (∀ a ∈ sl.slots, a.mask ≠ 0) → (∀ a ∈ groups, a.mask ≠ 0) →
      (groups.Pairwise fun a b => a.pc.toNat < b.pc.toNat) →
      let older := sl.slots.map fun o => { o with mask := (groups.filter fun a => a.pc = o.pc).foldl (fun m a => m ||| a.mask) o.mask }
      let fresh := groups.filter fun a => decide (∀ o ∈ sl.slots, a.pc ≠ o.pc)
      let all := older ++ fresh.reverse
      let n := all.length - 2
      2 ≤ all.length →
        (sl.stack.length + n ≤ 8 → sl.place groups = some { sl with
          slots := if n = 0 then older ++ fresh else fresh.take 2, stack := ((all.take n).map entryOf).reverse ++ sl.stack })
        ∧ (8 < sl.stack.length + n → sl.place groups = none))
  ∧ (∀ (sl : Slice) (a b : Slot) (x : DWord) (l : List DWord), a.mask ≠ 0 → b.mask ≠ 0 →
      sl.settle = ({ sl with slots := sl.slots.filter fun a => a.mask ≠ 0 } : Slice).settle
      ∧ (a.pc ≠ b.pc → ({ sl with slots := [a, b] } : Slice).settle = { sl with slots := [a, b] })
      ∧ (a.pc = b.pc → ({ sl with slots := [a, b] } : Slice).settle = ({ sl with slots := [{ a with mask := a.mask ||| b.mask }] } : Slice).settle)
      ∧ ∀ one : List Slot, one = [] ∨ one = [a] →
          (l.length ≤ sl.base → ({ sl with slots := one, stack := l } : Slice).settle = { sl with slots := one, stack := l })
          ∧ (sl.base < (x :: l).length → ({ sl with slots := one, stack := x :: l } : Slice).settle =
              ({ sl with slots := if (slotOf x).mask = 0 then one else one ++ [slotOf x], stack := l } : Slice).settle))
  ∧ ∀ a : Slot, let x := (entryOf a).toNat
      x % 4 + 4 * (x / 2 ^ 57 % 4) = a.mask.toNat ∧ x / 4 % 2 ^ 55 = a.pc.toNat / 4 % 2 ^ 55 ∧ x / 2 ^ 59 % 2 = 1
      ∧ x / 2 ^ 60 = a.pc.toNat / 2 ^ 60 ∧ (slotOf (entryOf a)).mask = a.mask
      ∧ (a.pc.toNat % 4 = 0 → a.pc.toNat / 2 ^ 57 % 8 = 0 → slotOf (entryOf a) = a)

/-- R118, R119, R120, R98, R108: the join instructions complete: JSET with a uniform mask on a join at which no lane is parked sets expect
to the mask's live lanes; JARR and JOIN end the chains of their path (R161), and while an executing lane has a result outstanding they have
not issued; with none outstanding they record the arrival of the expected lanes and open a region; JWAIT and JOIN park the executing lanes,
which continue at the next instruction; JGET reads a mask. R98, R99, R100, R101, R103: when a join releases, and when a warp-wide
instruction may issue: in full when every non-vacant member lane is parked there, and in part when no join of the warp could release and
every other member lane is parked at a join, another warp-wide instruction or a REGRP. That a lane parked at a REGRP counts where R100 names
warp-wide instructions alone, and that nothing set aside by a handler releases or issues, are the model's readings (log entries 94, 101).
R96, R99, R100: what the release of joins does, those of a warp that release in a cycle together: their arrived masks become 0 and their
expect masks stay; each lane parked at one of them leaves the park state for a slot or a stack entry at its own PC value, or, where its
slice has no room, raises DIVERGE_OVF; and at a join released by lost reconvergence each gets JLOST, and the launch counts the join. No
other lane moves. -/
def Obligations.JoinInstructions : Prop :=
  (
    ∀ (h : Hdr) (x : Ext) (s : State) (q : Gang), gangOf s h x.words = some q →
    let j := x.d.toNat
    let e : Gang := { q with w := q.w.mapIn q.mask fun _ l => { l with chain := l.chain.map fun c => { c with ended := true } } }
    let W (w : Warp) (a : Join) : Warp := { w with joins := setAt q.w.joins j a }
    let old := q.w.joins.getD j {}
    let arrived : Warp := W e.w { old with arrived := old.arrived ||| (q.exec &&& old.expect) }
    let parks (g : Gang) (W : Warp) (f : Effect) (o : Out) : Prop :=
      CompletesAs o s g W (((W.advance q.pc q.next q.mask).takeOut q.exec).slices) h.sw
        fun k _ => if bitAt q.exec k then { f with park := some { pc := q.next, why := .join j } } else {}
    let region : Effect := { region := some q.next }
    (∀ m : Mask, q.exec ≠ 0 → (∀ k, k < 32 → bitAt q.exec k = true → (if x.bit 11 then q.exec else (q.lane k).rd (q.env k) 0 x.a.toNat) = m) →
        q.w.parkedJoin j = 0 → Completes (exec (.jset h x) s) s q (W q.w { expect := m &&& q.w.live, arrived := 0 }) h.sw fun _ _ => {})
    ∧ (q.exec = 0 → Completes (exec (.jset h x) s) s q q.w h.sw fun _ _ => {})
    ∧ (q.pending = false → Completes (exec (.jarr h x) s) s e arrived h.sw fun _ _ => region)
    ∧ parks q q.w {} (exec (.jwait h x) s)
    ∧ (q.pending = false → parks e arrived region (exec (.joinAt h x) s))
    ∧ (q.pending = true → ∀ i ∈ [Instr.jarr h x, .joinAt h x], CompletesAs (exec i s) s e e.w e.w.slices false fun _ _ => {})
    ∧ (Completes (exec (.jget h x) s) s q q.w h.sw fun _ _ =>
        let a := q.w.joins.getD x.a.toNat {}
        { pend := [{ regs := [(x.d.toNat, if x.bit 11 then a.arrived else a.expect)] }] }))
  ∧ (
    ∀ (w : Warp) (j : Nat),
    let here := w.parkedJoin j
    let miss := (w.join j).expect &&& ~~~(w.join j).arrived
    let stuck (k : Nat) : Prop := ∃ p, (w.lane k).park = some p ∧
      ((∃ i, p.why = .join i) ∨ (∃ i g, p.why = .warpWide i g) ∨ (∃ i g, p.why = .regrp i g))
    w.trap = none →
      (w.testJoin j = .releases ↔ here ≠ 0 ∧ miss = 0)
      ∧ (w.testJoin j = .lost ↔ here ≠ 0 ∧ miss ≠ 0 ∧ ∀ k, k < 32 → bitAt miss k = true → stuck k)
      ∧ ∀ pc : PC,
          let absent := w.memberMask pc &&& w.live &&& ~~~w.parkedWide pc
          (w.wideReady pc = some false ↔ w.parkedWide pc ≠ 0 ∧ absent = 0)
          ∧ (w.wideReady pc = some true ↔ w.parkedWide pc ≠ 0 ∧ absent ≠ 0 ∧ (∀ i, i < 8 → w.testJoin i = .holds)
              ∧ ∀ k, k < 32 → bitAt absent k = true → stuck k))
  ∧ (
    ∀ (s : State) (wk : Nat) (w : Warp), s.warp? wk = some w → w.due = [] → w.stop = .running →
    (∃ j, j < 8 ∧ w.testJoin j ≠ .holds) →
      let at_ (i j : Nat) (p : Park) : Prop := j < 8 ∧ (w.lane i).park = some p ∧ p.why = .join j
      ∃ t w', releaseJoins s wk = (t, true) ∧ t.warp? wk = some w' ∧ t.mem = s.mem ∧ t.wgs = s.wgs
        ∧ (∀ L, s.launch? (s.wgOf w).launch = some L → t.launch? (s.wgOf w).launch =
            some { L with lostJoins := L.lostJoins + ((List.range 8).filter fun j => w.testJoin j = .lost).length })
        ∧ (∀ j, j < 8 → j < w.joins.length → w'.join j = if w.testJoin j = .holds then w.join j else { w.join j with arrived := 0 })
        ∧ ∀ i, i < 32 → i < w.lanes.length → i / 4 < w.slices.length →
            ((∀ j p, at_ i j p → w.testJoin j = .holds) → { w'.lane i with chain := (w.lane i).chain } = w.lane i)
            ∧ ∀ j p, at_ i j p → w.testJoin j ≠ .holds → p.pc.toNat % 4 = 0 → p.pc.toNat / 2 ^ 57 % 8 = 0 →
                let sl := w'.slices.getD (i / 4) {}
                { w'.lane i with chain := (w.lane i).chain, park := none } = { w.lane i with
                  park := none, fst := if w.testJoin j = .lost then (w.lane i).fst ||| 0x1000 else (w.lane i).fst }
                ∧ (((w'.lane i).park = none ∧ ∃ a ∈ sl.slots ++ sl.stack.map slotOf, a.pc = p.pc ∧ bitAt a.mask (i % 4) = true)
                  ∨ ((w'.lane i).park = some { pc := p.pc, why := .overflow } ∧ ∃ c ∈ w'.causes, c.code = 0x07 ∧ bitAt c.mask i = true ∧ c.resume = .own)))

/-- R113, R114, R115, R379: YIELD holds its path back for 8 cycles; EXIT is a switch point after which its lanes wait to become vacant, and
those without an outstanding result do so at once; TRAP and BRK raise their cause, which resumes at the next instruction, and do nothing
when no lane executes. R97: lanes that become vacant are in no slot, no stack entry and no park, wait for nothing, and no join expects them.
-/
def Obligations.ExitYieldTrapAndVacancy : Prop :=
  (
    ∀ (h : Hdr) (n : BitVec 5) (x : Ext) (s : State) (q : Gang),
    let cause (code sub : Nat) : Cause :=
      { code := code, sub := sub, mask := q.exec, path := q.mask, pc := q.pc, resume := .cont, cont := q.next }
    (gangOf s h 1 = some q →
      (Completes (exec (.yield h) s) s q q.w h.sw fun _ _ => { yield := some (cycleOf s q.wk + 8) })
      ∧ (∃ S, (Completes (.next (S : State).done) s q q.w true fun _ _ => { wait := some .exit })
          ∧ exec (.exitItem h) s = .next (returnTrap (vacateLanes S q.wk (maskOf fun k => bitAt q.exec k && !(q.lane k).busy)) q.wk).done)
      ∧ (q.exec = 0 → Completes (exec (.brk h n) s) s q q.w h.sw fun _ _ => {})
      ∧ (q.exec ≠ 0 → Traps (exec (.brk h n) s) s q (cause 0x22 n.toNat)))
    ∧ (gangOf s h x.words = some q →
      (q.exec = 0 → Completes (exec (.trap h x) s) s q q.w true fun _ _ => {})
      ∧ (q.exec ≠ 0 → Traps (exec (.trap h x) s) s q (cause 0x23 (x.field 11 8)))))
  ∧ (
    ∀ (w : Warp) (m : Mask) (k : Nat), k < w.lanes.length → bitAt m k = true →
    ((w.vacate m).lane k).vacant = true ∧ ((w.vacate m).lane k).park = none ∧ ((w.vacate m).lane k).wait = none
    ∧ (∀ sl ∈ (w.vacate m).slices[k / 4]?, (∀ a ∈ sl.slots, bitAt a.mask (k % 4) = false)
        ∧ (∀ e ∈ sl.stack, bitAt (slotOf e).mask (k % 4) = false) ∧ ∀ a ∈ sl.aside, bitAt a.mask (k % 4) = false)
    ∧ ∀ j ∈ (w.vacate m).joins, bitAt j.expect k = false ∧ bitAt j.arrived k = false)

/-- R34, R109, R111, R93: where a branch traps instead: ALIGN with the executing lanes whose target is misaligned or out of range, UNIFORM
for a BRU whose guard differs, with the lanes that differ from the lowest, and, with good targets, DIVERGE_OVF with the whole gang when a
slice's stack has no room; that a misaligned target comes before it is the model's choice (log entry 95). R118: where JSET traps: UNIFORM
with the lanes whose mask differs from that of the lowest, else JOIN_BUSY with the gang. R102, R106: where an arrival traps: UNIFORM with
the lanes whose member mask differs from that of the lowest executing lane, else UNIFORM with the gang when the mask is not the fixed one,
else MEMBER_MASK with the executing lanes outside it. R49, R106, R314, R352, R353: where the instructions that name a queue trap: UNIFORM
with the lanes that differ from the lowest, ILLEGAL_ENC for a copy queue that the workgroup does not have, QUEUE_REF for a launch queue that
is not bound to the context or is disabled. That pending results are waited for before these checks is the model's reading (log entry 28),
and that a queue number in the encoding which the launch does not have traps whatever the guards are is log entry 29's. R39, R106, R255,
R272, R276, R277, R278: where instructions that name a scope, a counter or a cluster barrier trap: UNIFORM with the lanes whose scope,
counter or amount differs from that of the lowest executing lane, else ILLEGAL_ENC with the gang for a scope that is not allowed, a counter
that the workgroup does not hold, and a BAR.cl of a workgroup without a cluster set; that a counter in the encoding or a BAR.cl traps so
whatever the guards are is the model's reading (log entry 29). -/
def Obligations.ControlTraps : Prop :=
  (
    ∀ (h : Hdr) (off : BitVec 18) (target : DWord) (a : BitVec 6) (s : State) (q : Gang),
    let cause (code : Nat) (m : Mask) : Cause :=
      { code := code, mask := m, path := q.mask, pc := q.pc, resume := .region, cont := q.next }
    let bad (top : Nat) (dest : PC) : Bool := decide (dest.toNat % 4 ≠ 0) || decide (dest.toNat / 2 ^ 57 % 2 ^ (top - 57) ≠ 0)
    let reg (k : Nat) : PC := (q.lane k).rdW (q.env k) 0 a.toNat
    let back (k : Nat) : PC := (q.lane k).rdW (q.env k) 0 (q.g - 2)
    let wrong (top : Nat) (dest : Nat → PC) : Mask := maskOf fun k => bitAt q.exec k && bad top (dest k)
    let differ : Mask := if bitAt q.exec (lowest q.mask) then q.mask &&& ~~~q.exec else q.exec
    let partly : Prop := q.exec ≠ 0 ∧ q.exec ≠ q.mask
    let near : PC := branchAt q.pc off
    let noRoom (dest : Nat → PC) : Prop := (q.w.split q.pc q.mask fun k => if bitAt q.exec k then dest k else q.next) = none
    let overflows (i : Instr) : Prop := Traps (exec i s) s q (cause 0x07 q.mask)
    (gangOf s h 1 = some q →
      (wrong 64 reg ≠ 0 → Traps (exec (.brx h a) s) s q (cause 0x09 (wrong 64 reg))
        ∧ Traps (exec (.callx h a) s) s q (cause 0x09 (wrong 64 reg)))
      ∧ (wrong 60 back ≠ 0 → Traps (exec (.ret h) s) s q (cause 0x09 (wrong 60 back)))
      ∧ (partly → Traps (exec (.bru h off) s) s q (cause 0x05 differ))
      ∧ ((noRoom fun _ => near) → overflows (.bra h off) ∧ overflows (.call h off) ∧ (¬partly → overflows (.bru h off)))
      ∧ (wrong 64 reg = 0 → noRoom reg → overflows (.brx h a) ∧ overflows (.callx h a))
      ∧ (wrong 60 back = 0 → noRoom back → overflows (.ret h)))
    ∧ (gangOf s h 3 = some q →
      (bad 64 target = true → q.exec ≠ 0 → Traps (exec (.braLit h target) s) s q (cause 0x09 q.exec)
        ∧ Traps (exec (.callLit h target) s) s q (cause 0x09 q.exec)
        ∧ (¬partly → Traps (exec (.bruLit h target) s) s q (cause 0x09 q.exec)))
      ∧ (partly → Traps (exec (.bruLit h target) s) s q (cause 0x05 differ))
      ∧ (bad 64 target = false → (noRoom fun _ => target) →
        overflows (.braLit h target) ∧ overflows (.callLit h target) ∧ (¬partly → overflows (.bruLit h target)))))
  ∧ (
    ∀ (h : Hdr) (x : Ext) (s : State) (q : Gang), gangOf s h x.words = some q →
    x.bit 11 = false → q.exec ≠ 0 →
      let val (k : Nat) : Mask := (q.lane k).rd (q.env k) 0 x.a.toNat
      let differ : Mask := maskOf fun k => bitAt q.exec k && decide (val k ≠ val (lowest q.exec))
      let cause (code : Nat) (m : Mask) : Cause :=
        { code := code, mask := m, path := q.mask, pc := q.pc, resume := .region, cont := q.next }
      (differ ≠ 0 → Traps (exec (.jset h x) s) s q (cause 0x05 differ))
      ∧ (differ = 0 → q.w.parkedJoin x.d.toNat ≠ 0 → Traps (exec (.jset h x) s) s q (cause 0x08 q.mask)))
  ∧ (
    ∀ (h : Hdr) (x : Ext) (s : State) (q : Gang), gangOf s h x.words = some q →
    q.exec ≠ 0 →
    let traps (i : Instr) (reg : Nat) : Prop :=
      let val (k : Nat) : Mask := if x.bit 11 then 0xFFFFFFFF else (q.lane k).rd (q.env k) 40 reg
      let m := val (lowest q.exec)
      let differ : Mask := maskOf fun k => bitAt q.exec k && decide (val k ≠ m)
      let cause (code : Nat) (m : Mask) : Cause :=
        { code := code, mask := m, path := q.mask, pc := q.pc, resume := .region, cont := q.next }
      (differ ≠ 0 → Traps (exec i s) s q (cause 0x05 differ))
      ∧ (differ = 0 → (∃ p, q.w.members.find? (fun p => p.1 == q.pc) = some p ∧ p.2 ≠ m) → Traps (exec i s) s q (cause 0x05 q.mask))
      ∧ (differ = 0 → (∀ p ∈ q.w.members, p.1 = q.pc → p.2 = m) → q.exec &&& ~~~m ≠ 0 →
          Traps (exec i s) s q (cause 0x06 (q.exec &&& ~~~m)))
    traps (.voteAny h x) x.b.toNat ∧ traps (.voteAll h x) x.b.toNat ∧ traps (.voteUni h x) x.b.toNat
    ∧ traps (.voteBal h x) x.b.toNat ∧ traps (.shflIdx h x) x.c.toNat ∧ traps (.shflUp h x) x.c.toNat
    ∧ traps (.shflDown h x) x.c.toNat ∧ traps (.shflXor h x) x.c.toNat ∧ traps (.matchEq h x) x.b.toNat
    ∧ traps (.redux h x) x.b.toNat)
  ∧ (
    ∀ (h : Hdr) (x : Ext) (s : State) (q : Gang), gangOf s h x.words = some q → q.exec ≠ 0 →
    let ctx := s.ctxOf q.w
    let cause (code : Nat) (m : Mask) : Cause :=
      { code := code, mask := m, path := q.mask, pc := q.pc, resume := .region, cont := q.next }
    let copy (i : Nat) : Nat := if x.bit 13 then ((q.lane i).rd (q.env i) 40 x.b.toNat).toNat % 4 else x.field 11 2
    let lead := lowest q.exec
    let copyDiffer : Mask := maskOf fun i => bitAt q.exec i && decide (copy i ≠ copy lead)
    let num (i : Nat) : Nat := ((q.lane i).rd (q.env i) 40 x.b.toNat).toNat % 4096
    let hdr (i : Nat) : DWord := (q.lane i).rdW (q.env i) 2 (x.a.toNat + 2)
    let differ : Mask := maskOf fun i => bitAt q.exec i && (decide (num i ≠ num lead) || decide (hdr i ≠ hdr lead))
    let named (k : Nat) : Bool := decide ((s.queueOf k).ctx = some ctx) && decide ((s.queueOf k).state ≠ 2)
    let wake (i : Nat) : Nat := ((q.lane i).rd (q.env i) 0 x.a.toNat).toNat % 4096
    let wakeDiffer : Mask := maskOf fun i => bitAt q.exec i && decide (wake i ≠ wake lead)
    let copies (i : Instr) : Prop :=
      (copyDiffer ≠ 0 → Traps (exec i s) s q (cause 0x05 copyDiffer))
      ∧ (copyDiffer = 0 → (s.wgOf q.w).queues.length ≤ copy lead → Traps (exec i s) s q (cause 0x02 q.mask))
    copies (.cpyq h x) ∧ copies (.cpyf h x) ∧ copies (.cpys h x)
    ∧ (q.pending = false → differ ≠ 0 → Traps (exec (.launch h x) s) s q (cause 0x05 differ))
    ∧ (q.pending = false → differ = 0 → named (num lead) = false → Traps (exec (.launch h x) s) s q (cause 0x11 q.mask))
    ∧ (wakeDiffer ≠ 0 → Traps (exec (.sigwake h x) s) s q (cause 0x05 wakeDiffer))
    ∧ (wakeDiffer = 0 → named (wake lead) = false → Traps (exec (.sigwake h x) s) s q (cause 0x11 q.exec)))
  ∧ (
    ∀ (h : Hdr) (x : Ext) (s : State) (q : Gang), gangOf s h x.words = some q →
    let cause (code : Nat) (m : Mask) : Cause :=
      { code := code, mask := m, path := q.mask, pc := q.pc, resume := .region, cont := q.next }
    let lead := lowest q.exec
    let held := (s.wgOf q.w).counters.length
    let reg (slot r i : Nat) : Word := (q.lane i).rd (q.env i) slot r
    let differ {α : Type} [DecidableEq α] (f : Nat → α) : Mask := maskOf fun i => bitAt q.exec i && decide (f i ≠ f lead)
    let uniform (f : Nat → Nat) (okay : Nat → Bool) (i : Instr) : Prop :=
      (differ f ≠ 0 → Traps (exec i s) s q (cause 0x05 (differ f)))
      ∧ (differ f = 0 → okay (f lead) = false → Traps (exec i s) s q (cause 0x02 q.mask))
    let scope (r top : Nat) (i : Instr) : Prop := uniform (fun k => (reg 30 r k).toNat % 8) (fun y => decide (1 ≤ y ∧ y ≤ top)) i
    let counter (k : Nat) : Nat := (reg 0 x.a.toNat k).toNat % 64
    let named (k : Nat) : Nat := if x.sub = 2 then counter k else x.d.toNat
    let added (k : Nat) : Word := if x.sub = 1 then BitVec.ofInt 32 (BitVec.ofNat 21 (x.field 11 21)).toInt else reg 2 x.b.toNat k
    let both : Mask := maskOf fun k => bitAt q.exec k && (decide (named k ≠ named lead) || decide (added k ≠ added lead))
    (q.exec ≠ 0 → x.bit 11 = true → scope x.a.toNat 6 (.fence h x))
    ∧ (q.exec ≠ 0 → x.bit 18 = true → scope x.c.toNat (if x.bit 16 then 3 else 6) (.waitv h x))
    ∧ (x.sub ≠ 2 → held ≤ x.d.toNat → Traps (exec (.dcadd h x) s) s q (cause 0x02 q.mask))
    ∧ (q.exec ≠ 0 → x.sub = 2 ∨ x.d.toNat < held →
        (both ≠ 0 → Traps (exec (.dcadd h x) s) s q (cause 0x05 both))
        ∧ (both = 0 → held ≤ named lead → Traps (exec (.dcadd h x) s) s q (cause 0x02 q.mask)))
    ∧ (x.sub = 0 → held ≤ x.a.toNat → Traps (exec (.dcwait h x) s) s q (cause 0x02 q.mask))
    ∧ (q.exec ≠ 0 → x.sub = 1 → uniform counter (fun y => decide (y < held)) (.dcwait h x))
    ∧ (x.scope.toNat = 3 → (s.wgOf q.w).cset = none →
        Traps (exec (.barArrive h x) s) s q (cause 0x02 q.mask) ∧ Traps (exec (.barWait h x) s) s q (cause 0x02 q.mask)
        ∧ Traps (exec (.barSync h x) s) s q (cause 0x02 q.mask)))

/-- R102, R95: arrival at a warp-wide instruction. With a uniform member mask that holds every executing lane and agrees with the one fixed
for its PC value, and also when no lane executes, the whole gang parks there, each lane with its guard; the mask of the first gang with an
executing lane is fixed. R102, R103, R104, R96: WARP_WIDE_ISSUE at a warp-wide instruction that may issue, in a warp that runs and has no
trap to take: each receiving lane gets its result, no other lane of the warp gets one, every lane there leaves the park state or lacks the
room to, and the member mask is forgotten. -/
def Obligations.WarpWidePasses : Prop :=
  (
    ∀ (h : Hdr) (x : Ext) (s : State) (q : Gang), gangOf s h x.words = some q →
    let arrives (i : Instr) (reg : Nat) : Prop :=
      let parks (W : Warp) : Prop := CompletesAs (exec i s) s q W (W.takeOut q.mask).slices false fun k _ =>
        if bitAt q.mask k then { park := some { pc := q.pc, why := .warpWide i (bitAt q.exec k) } } else {}
      (q.exec = 0 → parks q.w)
      ∧ ∀ m : Mask, q.exec ≠ 0 → q.exec &&& ~~~m = 0 →
          (∀ k, k < 32 → bitAt q.exec k = true → (if x.bit 11 then 0xFFFFFFFF else (q.lane k).rd (q.env k) 40 reg) = m) →
          (∀ p ∈ q.w.members, p.1 = q.pc → p.2 = m) →
            parks (if ∃ p ∈ q.w.members, p.1 = q.pc then q.w else { q.w with members := (q.pc, m) :: q.w.members })
    arrives (.voteAny h x) x.b.toNat ∧ arrives (.voteAll h x) x.b.toNat ∧ arrives (.voteUni h x) x.b.toNat
    ∧ arrives (.voteBal h x) x.b.toNat ∧ arrives (.shflIdx h x) x.c.toNat ∧ arrives (.shflUp h x) x.c.toNat
    ∧ arrives (.shflDown h x) x.c.toNat ∧ arrives (.shflXor h x) x.c.toNat ∧ arrives (.matchEq h x) x.b.toNat
    ∧ arrives (.redux h x) x.b.toNat)
  ∧ (
    ∀ (s : State) (wk : Nat) (pc : PC) (w : Warp) (part : Bool),
    s.event = some (.warpWideIssue wk pc) → s.warp? wk = some w → w.wideReady pc = some part → w.stop = .running → w.due = [] →
      let here := w.parkedWide pc
      let i := (wideInstr w here).1
      let ex := (wideInstr w here).2
      let q : WideGang := { w := w, pc := pc, free := s.free, here := here, exec := ex, contrib := ex &&& w.memberMask pc,
                            members := w.memberMask pc, part := part }
      ∃ t w', exec .warpWideIssue s = .next t ∧ t.warp? wk = some w' ∧ t.mem = s.mem ∧ t.wgs = s.wgs ∧ t.hub = s.hub
        ∧ t.event = none ∧ (∀ p ∈ w'.members, p.1 ≠ pc)
        ∧ ∀ k, k < w.lanes.length →
            (w'.lane k).pend = (w.lane k).pend ++ (if bitAt ex k then [q.result i k] else [])
            ∧ (w'.lane k).regs = (w.lane k).regs ∧ (w'.lane k).preds = (w.lane k).preds
            ∧ (bitAt here k = true → ∀ p, (w'.lane k).park = some p → p = { pc := pc + 12, why := .overflow }))

/-- R104, R122, R123, R124, R125: what each receiving lane gets from a vote, a shuffle, a match and a reduction, over the contributing lanes
of its segment; a partial issue sets WPART, and so does a shuffle from a lane that is not there. -/
def Obligations.WarpWideResults : Prop :=
  ∀ (h : Hdr) (x : Ext) (q : WideGang) (k : Nat),
  let g : Nat := [32, 16, 8, 4].getD (x.field 18 2) 4
  let C (j : Nat) : Prop := j < 32 ∧ bitAt q.contrib j = true ∧ j / g = k / g
  let pa (j : Nat) : Bool := (q.w.lane j).rdP (q.env j) 0 x.a.toNat
  let va (j : Nat) : Word := (q.w.lane j).rd (q.env j) 0 x.a.toNat
  let part : Word := if q.part then 0x800 else 0
  let votes (i : Instr) (b : Prop) : Prop := ∃ t : Bool, (t = true ↔ b) ∧ q.result i k = { preds := [(x.d.toNat, t)], fst := part }
  let masks (i : Instr) (f : Nat → Prop) : Prop :=
    ∃ m : Mask, (∀ j, j < 32 → (bitAt m j = true ↔ C j ∧ f j)) ∧ q.result i k = { regs := [(x.d.toNat, m)], fst := part }
  let shfl (i : Instr) (src : Nat → Nat) : Prop :=
    let b := if x.bit 12 then x.field 13 5 else ((q.w.lane k).rd (q.env k) 2 x.b.toNat).toNat
    let j := src b
    let there : Bool := bitAt q.here j && bitAt q.members j
    q.result i k = { regs := [(x.d.toNat, if there then va j else 0)], fst := part ||| (if there then 0 else 0x800) }
  let base := k / g * g
  votes (.voteAny h x) (∃ j, C j ∧ pa j = true) ∧ votes (.voteAll h x) (∀ j, C j → pa j = true)
  ∧ votes (.voteUni h x) (∀ i j, C i → C j → pa i = pa j) ∧ masks (.voteBal h x) (fun j => pa j = true)
  ∧ shfl (.shflIdx h x) (fun b => base + b % g) ∧ shfl (.shflUp h x) (fun b => base + (((k - base : Nat) - b : Int) % g).toNat)
  ∧ shfl (.shflDown h x) (fun b => base + (k - base + b) % g) ∧ (k < 32 → shfl (.shflXor h x) (fun b => k ^^^ (b % g)))
  ∧ masks (.matchEq h x) (fun j => if x.bit 15 then (q.w.lane j).rdW (q.env j) 0 x.a.toNat = (q.w.lane k).rdW (q.env k) 0 x.a.toNat
      else va j = va k)
  ∧ (∃ l : List Nat, l.Nodup ∧ (∀ j, j ∈ l ↔ C j) ∧
      let sum : Word := match x.field 12 3 with
        | 0 => l.foldl (fun y j => y + va j) 0
        | 1 => if x.bit 15 then BitVec.ofInt 32 (l.foldl (fun y j => min y (va j).toInt) 0x7FFFFFFF)
          else BitVec.ofNat 32 (l.foldl (fun y j => min y (va j).toNat) 0xFFFFFFFF)
        | 2 => if x.bit 15 then BitVec.ofInt 32 (l.foldl (fun y j => max y (va j).toInt) (-0x80000000))
          else BitVec.ofNat 32 (l.foldl (fun y j => max y (va j).toNat) 0)
        | 3 => l.foldl (fun y j => y &&& va j) 0xFFFFFFFF
        | 4 => l.foldl (fun y j => y ||| va j) 0
        | _ => l.foldl (fun y j => y ^^^ va j) 0
      q.result (.redux h x) k = { regs := [(x.d.toNat, sum)], fst := part })

/-- R14, R41, R357, R382: SRD writes the special register that it names, a pair for the 64-bit ones; the trap registers read 0 in a lane
that is in no handler, and after a double fault show the second cause. R382, R72, R206: SWR replaces %fst or %slv, without the bits that do
not exist. R383: CAPQ reads the capability area at an aligned offset, the domain index, or the ISA revision; a misaligned offset raises
ALIGN with its lanes. That the stepping and the upper half of CAPQ.rev read 0 is the model's reading (log entry 62). R362, R380, R381, R384:
TRET in a handler, with targets that are aligned if it takes them, parks its executing lanes until the warp returns; PPOINT is a switch
point, at which the executing lanes, of a handler too, stop while a pre-emption request covers the workgroup; PFDONE parks them in a PFAIL
handler and has no effect outside one. TRET outside a handler raises TRET_OUT, and in a handler a bad target raises ALIGN with its lanes,
which is a double fault. That PPOINT stops the lanes of a handler too is the model's reading (log entry 63). -/
def Obligations.SystemInstructions : Prop :=
  (
    ∀ (h : Hdr) (x : Ext) (s : State) (q : Gang), gangOf s h x.words = some q →
    let die := q.wk / 3072
    let trap (l : Lane) (f : Cause → Nat) : Nat := if l.handler then (q.w.trap.map fun t => f t.shown).getD 0 else 0
    let hd := (s.launchOfWarp q.w).hdr
    let val (k : Nat) (l : Lane) : Nat := match x.a.toNat with
      | 0x00 => k
      | 0x01 => q.w.widx
      | 0x02 => (s.wgOf q.w).num
      | 0x03 => q.wk / 64 % 48
      | 0x04 => die
      | 0x05 => l.wid.toNat
      | 0x0C => l.wgen.toNat
      | 0x0D => q.mask.toNat
      | 0x0E => (l.rdFst (q.env k) 0).toNat
      | 0x0F => l.slv.toNat
      | 0x10 => clockOf s die
      | 0x11 => trap l fun c => c.code % 256 + 256 * (c.sub % 256)
      | 0x12 => trap l fun c => c.pc.toNat
      | 0x13 => trap l fun c => c.mask.toNat
      | n => l.wid.toNat / 2 ^ ((hd.widths.take (n - 6)).foldl (· + ·) 0) % 2 ^ (hd.widths.getD (n - 6) 0)
    Completes (exec (.srd h x) s) s q q.w h.sw fun k l =>
      if (5 ≤ x.a.toNat ∧ x.a.toNat ≤ 0x0B) ∨ x.a.toNat = 0x10 ∨ x.a.toNat = 0x12 then .wide x.d.toNat (BitVec.ofNat 64 (val k l))
      else .word x.d.toNat (BitVec.ofNat 32 (val k l)))
  ∧ (
    ∀ (h : Hdr) (x : Ext) (s : State) (q : Gang), gangOf s h x.words = some q →
    let va (k : Nat) : Word := (q.lane k).rd (q.env k) 0 x.a.toNat
    let wrong : Mask := maskOf fun k => bitAt q.exec k && decide ((va k).toNat % 4 ≠ 0)
    (x.d = 0x0E → Completes (exec (.swr h x) s) s q q.w h.sw fun k _ => { setFst := some (va k &&& 0x1FFF) })
    ∧ (x.d = 0x0F → Completes (exec (.swr h x) s) s q q.w h.sw fun k _ => { setSlv := some (va k &&& 0xFF) })
    ∧ (x.field 11 2 = 0 → wrong = 0 → Completes (exec (.capq h x) s) s q q.w h.sw fun k _ =>
        .word x.d.toNat (if 4096 ≤ (va k).toNat then 0 else
          BitVec.ofNat 32 (ofBytes ((List.range 4).map fun i => capByte ((va k).toNat + i)))))
    ∧ (x.field 11 2 = 0 → wrong ≠ 0 → Traps (exec (.capq h x) s) s q
        { code := 0x09, mask := wrong, path := q.mask, pc := q.pc, resume := .region, cont := q.next })
    ∧ (x.field 11 2 = 1 → Completes (exec (.capq h x) s) s q q.w h.sw fun _ _ => .word x.d.toNat domainIndex)
    ∧ (x.field 11 2 = 2 → Completes (exec (.capq h x) s) s q q.w h.sw fun _ _ => .word x.d.toNat 3))
  ∧ (
    ∀ (h : Hdr) (x : Ext) (lit : DWord) (s : State) (q : Gang),
    let parked : List Slice := ((q.w.advance q.pc q.next q.mask).takeOut q.exec).slices
    let parks (sw : Bool) (o : Out) (S : State) (f : Nat → Park) : Prop :=
      CompletesAs o S q q.w parked sw fun k _ => if bitAt q.exec k then { park := some (f k) } else {}
    let target (k : Nat) : PC := (q.lane k).rdW (q.env k) 0 x.a.toNat
    let outside : Mask := maskOf fun k => bitAt q.exec k && !(q.lane k).handler
    let wrong : Mask := maskOf fun k => bitAt q.exec k && (decide ((target k).toNat % 4 ≠ 0) || decide (2 ^ 57 ≤ (target k).toNat))
    (gangOf s h x.words = some q →
      (outside = 0 → (x.bit 11 = true → ∀ k, k < 32 → bitAt q.exec k = true → (target k).toNat % 4 = 0 ∧ (target k).toNat < 2 ^ 57) →
        ∃ S, (parks h.sw (.next (S : State).done) s fun k => { pc := q.pc, why := if x.bit 11 then .tretPc (target k) else .tret })
          ∧ exec (.tret h x) s = .next (returnTrap S q.wk).done)
      ∧ (outside ≠ 0 → Traps (exec (.tret h x) s) s q
          { code := 0x12, mask := outside, path := q.mask, pc := q.pc, resume := .region, cont := q.next })
      ∧ (outside = 0 → x.bit 11 = true → wrong ≠ 0 → Traps (exec (.tret h x) s) s q
          { code := 0x09, mask := wrong, path := q.mask, pc := q.pc, resume := .region, cont := q.next })
      ∧ (q.w.pfail = true → parks h.sw (exec (.pfdone h x) s) s fun _ => { pc := q.pc, why := .pfdone })
      ∧ (q.w.pfail = false → Completes (exec (.pfdone h x) s) s q q.w h.sw fun _ _ => {}))
    ∧ (gangOf s h 3 = some q →
      let asked := (s.wgOf q.w).preempt.isSome
      (asked = false → Completes (exec (.ppoint h lit) s) s q q.w true fun _ _ => {})
      ∧ (asked = true → parks true (exec (.ppoint h lit) s) s fun _ => { pc := q.next, why := .ppoint lit })))

/-- R145: .rsq, .exp2, .log2, .sin and .cos have their special values, and elsewhere an inexact result within the bound of the exact one,
with INX, and UNF where it is subnormal. Which of the codes within the bound is the result is a free value of the part. The model knows the
exact result to a limited number of bits, so that the bound is stated with a slack of 2^−30 of itself. That the free value is a fixed
function of the operand is log entry 34, and that UNF is not set with a result of 0 is log entry 33: the model's choices. -/
def Obligations.SpecialFunctionBounds : Prop :=
  ∀ x : Word,
  let f := Fmt.f32
  let ulp (y : ℝ) : ℝ := (2 : ℝ) ^ (max (-149) (Int.log 2 |y| - 23))
  let near (r : Nat × Word) (y bound : ℝ) : Prop := ∃ z m e, unpack f r.1 = .fin z m e
    ∧ |(m : ℝ) * (2 : ℝ) ^ e - y| ≤ bound * (1 + (2 : ℝ) ^ (-30 : Int))
    ∧ r.2 = Flag.inx ||| if m ≠ 0 ∧ |(m : ℝ) * (2 : ℝ) ^ e| < (2 : ℝ) ^ (-126 : Int) then Flag.unf else 0
  let is (r : Nat × Word) (y : ℝ) : Prop := ∃ z m e, unpack f r.1 = .fin z m e ∧ (m : ℝ) * (2 : ℝ) ^ e = y ∧ (m = 0 → z = false) ∧ r.2 = 0
  (∀ s, unpack f x.toNat = .nan s → ∀ r ∈ [sfuRsq x, sfuExp2 x, sfuLog2 x, sfuSin false x, sfuSin true x], r = (f.nan, if s then Flag.inv else 0))
  ∧ (unpack f x.toNat = .inf false → sfuRsq x = (0, 0) ∧ sfuExp2 x = (f.inf false, 0) ∧ sfuLog2 x = (f.inf false, 0)
      ∧ sfuSin false x = (f.nan, Flag.inv) ∧ sfuSin true x = (f.nan, Flag.inv))
  ∧ (unpack f x.toNat = .inf true → sfuRsq x = (f.nan, Flag.inv) ∧ sfuExp2 x = (0, 0) ∧ sfuLog2 x = (f.nan, Flag.inv)
      ∧ sfuSin false x = (f.nan, Flag.inv) ∧ sfuSin true x = (f.nan, Flag.inv))
  ∧ (∀ z e, unpack f x.toNat = .fin z 0 e → sfuRsq x = (f.inf z, Flag.dz) ∧ is (sfuExp2 x) 1 ∧ sfuLog2 x = (f.inf true, Flag.dz)
      ∧ sfuSin false x = (f.signed z 0, 0) ∧ is (sfuSin true x) 1)
  ∧ ∀ z m e, unpack f x.toNat = .fin z m e → m ≠ 0 →
      let y : ℝ := (m : ℝ) * (2 : ℝ) ^ e
      (m < 0 → sfuRsq x = (f.nan, Flag.inv) ∧ sfuLog2 x = (f.nan, Flag.inv))
      ∧ (∀ k : Int, y = (4 : ℝ) ^ k → is (sfuRsq x) ((2 : ℝ) ^ (-k)))
      ∧ (0 < m → (∀ k : Int, y ≠ (4 : ℝ) ^ k) → near (sfuRsq x) (1 / Real.sqrt y) (ulp (1 / Real.sqrt y)))
      ∧ (∀ k : Int, y = k → -149 ≤ k → k < 128 → is (sfuExp2 x) ((2 : ℝ) ^ k))
      ∧ (128 ≤ y → sfuExp2 x = (f.inf false, Flag.ovf ||| Flag.inx))
      ∧ (y < 128 → (∀ k : Int, y = k → k < -149) → near (sfuExp2 x) (Real.rpow 2 y) (2 * ulp (Real.rpow 2 y)))
      ∧ (∀ k : Int, y = (2 : ℝ) ^ k → is (sfuLog2 x) k)
      ∧ (0 < m → (∀ k : Int, y ≠ (2 : ℝ) ^ k) →
          near (sfuLog2 x) (Real.logb 2 y) (if 1 / 2 ≤ y ∧ y ≤ 2 then (2 : ℝ) ^ (-22 : Int) else 2 * ulp (Real.logb 2 y)))
      ∧ near (sfuSin false x) (Real.sin y) ((2 : ℝ) ^ (-21 : Int)) ∧ near (sfuSin true x) (Real.cos y) ((2 : ℝ) ^ (-21 : Int))

/-- R46, R47: a DICT whose code at the path's code index passes the checks hands its entry, with the code's grd and sw, to the next step as
a one-word instruction, and changes nothing else; the checks that fail trap in R47's order. -/
def Obligations.DictIssues : Prop :=
  ∀ (codes : List (BitVec 16)) (s : State) (q : Gang) (c : BitVec 16),
  gangOf s { grd := 7, sw := false } 1 = some q → codes[q.pc.toNat / 2 ^ 60 % 16]? = some c →
  let L := s.launchOfWarp q.w
  let idx := c.toNat % 1024
  let e : Word := ((bankOf s (q.wk / 64) L).bind fun b => b.words[idx]?).getD 0
  let bad1 : Prop := bitAt c 15 = true ∨ c.toNat / 1024 % 16 = 15
  let bad2 : Prop := L.hdr.dictSize ≤ idx
  let bad3 : Prop := e.toNat % 4 ≠ 0 ∨ e.toNat / 128 % 128 = 0x7F
  let cause (code : Nat) : Cause := { code := code, mask := q.mask, path := q.mask, pc := q.pc, resume := .region, cont := q.next }
  let k := q.pc.toNat / 2 ^ 60 % 16
  let after : PC := if k + 1 < codes.length then q.pc + 0x1000000000000000
    else (q.pc &&& 0x0FFFFFFFFFFFFFFF) + BitVec.ofNat 64 (4 * (1 + (codes.length - 1) / 2))
  (bad1 → Traps (exec (.dict codes) s) s q (cause 0x02))
  ∧ (¬bad1 → bad2 → Traps (exec (.dict codes) s) s q (cause 0x03))
  ∧ (¬bad1 → ¬bad2 → bad3 → Traps (exec (.dict codes) s) s q (cause 0x03))
  ∧ (¬bad1 → ¬bad2 → ¬bad3 → ∃ word : Word, word.toNat % 4 = 0 ∧ word.toNat / 128 = e.toNat / 128
      ∧ word.toNat / 4 % 2 = c.toNat / 2 ^ 14 % 2 ∧ word.toNat / 8 % 16 = c.toNat / 1024 % 16
      ∧ exec (.dict codes) s = .next { s with issue := some { wk := q.wk, pc := q.pc, dict := some { word := word, next := after } } })

/-- R223, R235, R246, R247, R249, R279, R282: a load of global memory whose lanes all translate, and are aligned if it is ordered,
completes: each executing lane gets the bytes at its address as a pending result, widened by sign or zero, or, from a poisoned line, POISON
with free values in its destinations; or, unless it acquires, the lane's result waits for the access to be performed; or, but on SO pages or
RC pages under MM1, it is that of a late store of the lane, which stays late: these are the model's choices (log entry 80). Else late
accesses of those lanes that come before it are performed first; memory, and every other register, stays as it is but for that; the TLBs may
hold more. -/
def Obligations.GlobalLoads : Prop :=
  ∀ (h : Hdr) (d a i : BitVec 6) (x : Ext) (s : State) (q : Gang),
  let ctx := s.ctxOf q.w
  let loads (o : Out) (d n : Nat) (sgn ordered : Bool) (ea : Nat → DWord) : Prop :=
    (∀ k, k < 32 → bitAt q.exec k = true → faultAt s ctx (ea k) n k .load = none ∧ (ordered = true → (ea k).toNat % n = 0)) →
      let ps (k : Nat) := piecesAt s ctx (ea k) n k .load
      let mode := (s.ctxFields ctx).mmMode
      ∃ (tlb : List TlbEntry) (late : Nat → Bool) (fwd : Nat → Option (List Byte)),
        let own := ownFirst s q ctx fun k => if (fwd k).isSome then [] else ps k
        let q' : Gang := { q with w := q.after own }
        (∀ k bs, fwd k = some bs → ownBytes s q k (ps k) = some bs
          ∧ ∀ p ∈ ps k, p.leaf.toNat / 4 % 4 ≠ 1 ∧ (p.leaf.toNat / 4 % 4 = 0 → mode ≠ 1))
        ∧ (∀ k, late k = true → (∀ p ∈ ps k, p.leaf.toNat / 4 % 4 = 2)
          ∨ (ordered = false ∧ (mode = 2 → ∀ p ∈ ps k, p.leaf.toNat / 4 % 4 ≠ 0)))
        ∧ Completes o (own.setMem { own.mem with tlb := tlb }) q' q'.w h.sw fun k _ =>
          let y := ofBytes ((fwd k).getD (readPieces own.mem (ps k)))
          let trap : Raise := { code := 0x32, sub := 0, pc := q.pc, cont := q.next }
          { pend := [if late k && (fwd k).isNone then
              ({ id := s.free, pieces := ps k, d := d, n := n, sgn := sgn, raise := trap } : LateRead).waiting
            else if piecesPoisoned own.mem (ps k) && (fwd k).isNone then
              { regs := (List.range (max 1 (n / 4))).map fun j => (d + j, Config.anyWord s.free k (d + j)), raise := some trap }
            else if n ≤ 4 then
              { regs := [(d, if sgn = true ∧ 2 ^ (8 * n - 1) ≤ y then BitVec.ofInt 32 ((y : Int) - 2 ^ (8 * n)) else BitVec.ofNat 32 y)] }
            else { regs := (List.range (n / 4)).map fun j => (d + j, BitVec.ofNat 32 (y / 2 ^ (32 * j))) }] }
  let rdW (k : Nat) (r : Nat) : DWord := (q.lane k).rdW (q.env k) 0 r
  let index (k : Nat) : DWord := if x.bit 19 then BitVec.ofInt 64 ((q.lane k).rd (q.env k) 2 x.b.toNat).toInt else 0
  (gangOf s h 1 = some q → loads (exec (.ld h d a i) s) d.toNat 4 false false fun k => rdW k a.toNat + BitVec.ofInt 64 (4 * i.toInt))
  ∧ (gangOf s h x.words = some q → loads (exec (.ldExt h x) s) x.d.toNat ([4, 1, 2, 8, 16].getD (x.field 11 3) 4) (x.bit 14)
      (decide (x.field 15 2 ≠ 0)) fun k => rdW k x.a.toNat + index k + BitVec.ofInt 64 (BitVec.ofNat 12 (x.field 20 12)).toInt)

/-- R223, R235, R238, R246, R247, R248, R249, R254, R279, R282: a store to global memory whose lanes all translate, and are aligned if it is
ordered, completes. A lane's store may stay late, which is the model's choice (log entry 80), but not to a poisoned line, nor where that of
a higher lane to the same bytes is performed; the others are performed. When the pages that those store to have one key, every byte of
memory, read under that key, is the one of the last of them in ascending lane order that stores there, and else what it was; a byte of a
64-byte unit that none of them stores to reads as before under every key. A poisoned line that the lanes cover whole between them loses its
mark, and no other does. Late accesses of the lanes that come before it are performed first, and before a release all of them but those to
UN pages. No register changes. R235, R248, R258, R267, R279, R282: accesses that have stayed late. Before a gang accesses bytes, those late
accesses of its executing lanes are performed that come before: those to the same bytes, and on SO pages, or on RC pages under MM1, all to
such pages; before a RED, those writes to its location that a releasing FENCE of its scope or a wider one stands after. Where there are
none, nothing happens; else none of them is left. A releasing FENCE leaves its scope on what stays late. What a load may take from its
lane's own late store is the bytes of the last one that meets it, if that covers it. An access that is performed takes the bytes that memory
holds then, and an atomic leaves its new value; from a poisoned line it raises its trap, with free values in its destinations, and leaves
memory as it is. Which accesses stay late, and that they are performed so, are the model's choices (log entry 80), and so is the poisoned
line's (log entry 31). -/
def Obligations.GlobalStores : Prop :=
  (
    ∀ (h : Hdr) (d a i : BitVec 6) (x : Ext) (s : State) (q : Gang),
    let ctx := s.ctxOf q.w
    let mode := (s.ctxFields ctx).mmMode
    let un (p : Piece) : Bool := decide (p.leaf.toNat / 4 % 4 = 2)
    let rc (p : Piece) : Bool := decide (p.leaf.toNat / 4 % 4 = 0)
    let stores (o : Out) (d n : Nat) (ordered : Bool) (ea : Nat → DWord) : Prop :=
      let ps (k : Nat) := piecesAt s ctx (ea k) n k .store
      let bytes (k : Nat) : List Byte := if n ≤ 4 then bytesOf n ((q.lane k).rd (q.env k) 20 d).toNat
        else (List.range (n / 4)).flatMap fun j => bytesOf 4 ((q.lane k).rd (q.env k) (20 + j) (d + j)).toNat
      let stored (k : Nat) : List (Nat × Byte) := ((ps k).flatMap fun p => (List.range p.len).map fun j => p.pa + j).zip (bytes k)
      let covered (line : Nat) : Bool := (List.range 64).all fun j => (lanesOf q.exec).any fun k => (ps k).any fun p =>
        decide (p.pa ≤ 64 * line + j ∧ 64 * line + j < p.pa + p.len)
      let release : Mask := maskOf fun k => bitAt q.exec k && (ps k).any (fun p => !un p) && (ordered || (decide (mode = 2) && (ps k).any rc))
      let first := performEarlier (ownFirst s q ctx ps) q.wk release true false
      let own := first.mem
      let q' : Gang := { q with w := q.after first }
      (∀ k, k < 32 → bitAt q.exec k = true → faultAt s ctx (ea k) n k .store = none ∧ (ordered = true → (ea k).toNat % n = 0)) →
        ∃ (m : MemSys) (stay : Nat → Bool), Completes o (first.setMem m) q' q'.w h.sw (fun _ _ => {})
          ∧ (∀ k, stay k = true → piecesPoisoned s.mem (ps k) = false
              ∧ ∀ j, k < j → j < 32 → bitAt q.exec j = true → stay j = false → piecesMeet (ps j) (ps k) = false)
          ∧ m.late = own.late ++ ((lanesOf q.exec).filter stay).map (fun k =>
              ({ id := s.free, warp := q.w.uid, lane := k, pieces := ps k, bytes := bytes k } : Late))
          ∧ m.reds = own.reds ∧ m.keyGens = own.keyGens ∧ m.keyBits = own.keyBits ∧ m.poison = own.poison.filter (fun l => !covered l.1)
          ∧ let now := (lanesOf q.exec).filter fun k => !stay k
            (∀ key b, (∀ k ∈ now, ∀ p ∈ ps k, ¬(p.pa / 64 ≤ b / 64 ∧ b / 64 ≤ (p.pa + p.len - 1) / 64)) →
              physByte m key b = physByte own key b)
            ∧ ∀ κ, (∀ k ∈ now, ∀ p ∈ ps k, p.key = κ) →
                ∀ b, physByte m κ b = (lastFor (now.flatMap stored) b).getD (physByte own κ b)
    let rdW (k : Nat) (r : Nat) : DWord := (q.lane k).rdW (q.env k) 0 r
    let index (k : Nat) : DWord := if x.bit 19 then BitVec.ofInt 64 ((q.lane k).rd (q.env k) 2 x.b.toNat).toInt else 0
    (gangOf s h 1 = some q → stores (exec (.st h d a i) s) d.toNat 4 false fun k => rdW k a.toNat + BitVec.ofInt 64 (4 * i.toInt))
    ∧ (gangOf s h x.words = some q → stores (exec (.stExt h x) s) x.d.toNat ([4, 1, 2, 8, 16].getD (x.field 11 3) 4)
        (decide (x.field 15 2 ≠ 0)) fun k => rdW k x.a.toNat + index k + BitVec.ofInt 64 (BitVec.ofNat 12 (x.field 20 12)).toInt))
  ∧ (
    (∀ (s : State) (q : Gang) (w : Warp) (ctx sc : Nat) (ps : Nat → List Piece), s.warp? q.wk = some w →
      let so (p : Piece) : Bool := decide (p.leaf.toNat / 4 % 4 = 1) || (decide (p.leaf.toNat / 4 % 4 = 0) && decide ((s.ctxFields ctx).mmMode = 1))
      let before (xs ys : List Piece) : Bool := piecesMeet xs ys || (xs.any so && ys.any so)
      let performs (t : State) (store : Late → Prop) (read : Nat → LateRead → Prop) : Prop :=
        ((∀ a ∈ s.mem.late, ¬store a) → (∀ k, k < 32 → ∀ r ∈ (w.lane k).reads, ¬read k r) → t = s)
        ∧ ∃ w', t.warp? q.wk = some w' ∧ (∀ a ∈ t.mem.late, a ∈ s.mem.late ∧ ¬store a)
          ∧ w'.lanes.length = w.lanes.length ∧ ∀ k, k < w.lanes.length →
              (w'.lane k).regs = (w.lane k).regs ∧ (w'.lane k).pend.length = (w.lane k).pend.length ∧ (k < 32 → ∀ r ∈ (w'.lane k).reads, ¬read k r)
      performs (ownFirst s q ctx ps)
        (fun a => a.warp = q.w.uid ∧ bitAt q.exec a.lane = true ∧ before a.pieces (ps a.lane) = true)
        (fun k r => bitAt q.exec k = true ∧ before r.pieces (ps k) = true)
      ∧ performs (fencedFirst s q sc ps)
        (fun a => a.warp = q.w.uid ∧ bitAt q.exec a.lane = true ∧ 0 < a.fence ∧ sc ≤ a.fence ∧ piecesMeet a.pieces (ps a.lane) = true)
        (fun k r => r.rmw ≠ none ∧ bitAt q.exec k = true ∧ 0 < r.fence ∧ sc ≤ r.fence ∧ piecesMeet r.pieces (ps k) = true)
      ∧ (let t := fenceMarks s q sc
         t.mem = { s.mem with late := s.mem.late.map fun a =>
           if a.warp = w.uid ∧ bitAt q.exec a.lane = true then { a with fence := max a.fence sc } else a }
         ∧ ∃ w', t.warp? q.wk = some w' ∧ w'.lanes.length = w.lanes.length ∧ ∀ k, k < w.lanes.length → (w'.lane k).regs = (w.lane k).regs
           ∧ (w'.lane k).reads = (w.lane k).reads.map fun r => if bitAt q.exec k then { r with fence := max r.fence sc } else r)
      ∧ ∀ (k : Nat) (xs : List Piece) (bs : List Byte), ownBytes s q k xs = some bs ↔
          ∃ a, (s.mem.late.filter fun a => decide (a.warp = q.w.uid) && decide (a.lane = k) && piecesMeet a.pieces xs).getLast? = some a
            ∧ bs.map some = (xs.flatMap fun p => (List.range p.len).map fun j => (p.pa + j, p.key)).map fun c => List.lookup c ((a.pieces.flatMap fun p => (List.range p.len).map fun j => (p.pa + j, p.key)).zip a.bytes))
    ∧ ∀ (m : MemSys) (k : Nat) (r : LateRead) (p : Pend),
        (r.waiting.read = some r ∧ r.waiting.regs.map (fun y => y.1) = if r.n ≤ 4 then [r.d] else (List.range (r.n / 4)).map fun j => r.d + j)
        ∧ (piecesPoisoned m r.pieces = false → r.perform m k p =
            ({ p with regs := loadRegs r.d r.n r.sgn (readPieces m r.pieces), read := none }, match r.rmw with
              | none => m
              | some (o, x, c) => match o.apply (ofBytes (readPieces m r.pieces)) x c with
                | some y => writePieces m r.pieces (bytesOf r.n y)
                | none => m))
        ∧ (piecesPoisoned m r.pieces = true → (r.perform m k p).2 = m ∧ (r.perform m k p).1.raise = some r.raise ∧ (r.perform m k p).1.read = none
            ∧ (r.perform m k p).1.regs = r.waiting.regs.map fun y => (y.1, Config.anyWord r.id k y.1)))

/-- R223, R236, R241, R242, R249, R260: what accesses to global memory do that meet a fault: ALIGN with the misaligned lanes comes first,
for atomics, REDs, WAITV and ordered loads and stores; of the other causes the one with the lowest code is put to Jasper, as a numbered
event, with the lanes that meet it alone, and the path stops issuing, unless the address that fails is none that Jasper could map (R223),
when it traps at once. Naming those lanes alone is the model's choice (log entry 20); WAITV checks as an ATOM does (R274), and that its
subcode is that of a load is the model's reading (log entry 30). A store may have performed any of its pieces that translate (log entry 19);
the others have performed none. R224, R225, R226, R249, R260: where an access to the scratchpad stops: ALIGN with the misaligned lanes, else
SCRATCH_BOUNDS with the lanes outside, else, for one that reads, SCRATCH_UE when its results return in the lanes that read a word with two
bits in error. -/
def Obligations.AccessFaults : Prop :=
  (
    ∀ (h : Hdr) (d a i : BitVec 6) (x : Ext) (s : State) (q : Gang),
    let ctx := s.ctxOf q.w
    let size := [4, 1, 2, 8, 16].getD (x.field 11 3) 4
    let cause (code sub : Nat) (m : Mask) (va : DWord) : Cause :=
      { code := code, sub := sub, mask := m, path := q.mask, pc := q.pc, resume := .region, cont := q.next, va := va }
    let told (S : State) (c : Cause) : State :=
      let n := fgetD S.hub.seqs (q.wk / 3072) 0 + 1
      { S with
        warps := fmod S.warps q.wk fun w =>
          { w.mapIn q.mask (fun _ l => { l.endChain with wait := some .jasper }) with jasper := w.jasper ++ [{ c with seq := n }] }
        hub := { S.hub with
          seqs := fset S.hub.seqs (q.wk / 3072) n
          notices := fset S.hub.notices (q.wk / 3072) (fgetD S.hub.notices (q.wk / 3072) [] ++ [.fault n c.code q.wk c.va]) } }
    let wrong (n : Nat) (ea : Nat → DWord) : Mask := maskOf fun k => bitAt q.exec k && decide ((ea k).toNat % n ≠ 0)
    let faults (acc : Access) (sub n : Nat) (ordered : Bool) (ea : Nat → DWord) (after : State → Prop) (o : Out) : Prop :=
      (ordered = true → wrong n ea ≠ 0 → Traps o s q (cause 0x09 0 (wrong n ea) 0))
      ∧ (ordered = false ∨ wrong n ea = 0 → ∀ (code : Nat) (m : Mask) (va : DWord),
          laneFault q (fun k => faultAt s ctx (ea k) n k acc) = some (code, m, va) → ∃ S, after S
            ∧ (2 ^ 57 ≤ va.toNat → Traps o S q (cause code sub m va))
            ∧ (va.toNat < 2 ^ 57 → o = .next (told S (cause code sub m va)).done))
    let untouched (S : State) : Prop := S = s
    let parts (u : MemUse) (bytes : Nat → List Byte) (S : State) : Prop :=
      let own := storeFirst s q ctx u (partPieces u q ctx s)
      S = own.setMem S.mem ∧ S.mem.reds = s.mem.reds ∧ S.mem.late = own.mem.late ∧ S.mem.tlb = s.mem.tlb
      ∧ ∀ κ, (∀ k ∈ lanesOf q.exec, ∀ p ∈ partPieces u q ctx s k, p.key = κ) → ∀ b,
          physByte S.mem κ b = physByte own.mem κ b
          ∨ ∃ k ∈ lanesOf q.exec, ∃ p ∈ partPieces u q ctx s k, p.pa ≤ b ∧ b < p.pa + p.len
              ∧ physByte S.mem κ b = (bytes k).getD (p.va - (u.ea (q.env k) (q.lane k)).toNat + (b - p.pa)) 0
    let base (k : Nat) : DWord := baseEa a i (q.env k) (q.lane k)
    let ext (k : Nat) : DWord := extEa x (q.env k) (q.lane k)
    let atom (k : Nat) : DWord := (q.lane k).rdW (q.env k) 0 x.a.toNat + BitVec.ofInt 64 (BitVec.ofNat 11 (x.field 20 11)).toInt
    let scopeOk : Prop := x.bit 18 = true → ∃ sc, 1 ≤ sc ∧ sc ≤ 6 ∧ ∀ k, k < 32 → bitAt q.exec k = true → ((q.lane k).rd (q.env k) 30 x.c.toNat).toNat % 8 = sc
    (gangOf s h 1 = some q →
      faults .load 1 4 false base untouched (exec (.ld h d a i) s)
      ∧ faults .store 2 4 false base (parts (baseUse d (baseEa a i)) fun k => bytesOf 4 ((q.lane k).rd (q.env k) 20 d.toNat).toNat)
          (exec (.st h d a i) s))
    ∧ (gangOf s h x.words = some q →
      faults .load 1 size (decide (x.field 15 2 ≠ 0)) ext untouched (exec (.ldExt h x) s)
      ∧ faults .store 2 size (decide (x.field 15 2 ≠ 0)) ext
          (parts (extUse x false) fun k => storeBytes (q.lane k) (q.env k) x.d.toNat size) (exec (.stExt h x) s)
      ∧ (∀ j ∈ [Instr.atomAdd h x, .atomMin h x, .atomMax h x, .atomAnd h x, .atomOr h x, .atomXor h x, .atomExch h x, .atomCas h x,
            .redAdd h x, .redMin h x, .redMax h x, .redAnd h x, .redOr h x, .redXor h x],
          faults .store 2 size true atom untouched (exec j s))
      ∧ (x.bit 16 = false → scopeOk → faults .store 1 (if x.bit 15 then 8 else 4) true atom untouched (exec (.waitv h x) s))))
  ∧ (
    ∀ (h : Hdr) (d a i : BitVec 6) (x : Ext) (s : State) (q : Gang),
    let size := [4, 1, 2, 8, 16].getD (x.field 11 3) 4
    let cause (code : Nat) (m : Mask) : Cause :=
      { code := code, mask := m, path := q.mask, pc := q.pc, resume := .region, cont := q.next }
    let faults (n : Nat) (cl reads : Bool) (ea : Nat → Word) (o : Out) : Prop :=
      let wrong : Mask := maskOf fun k => bitAt q.exec k && decide ((ea k).toNat % n ≠ 0)
      let outside : Mask := maskOf fun k => bitAt q.exec k && (scratchTarget s q.w.wg cl (ea k) n).isNone
      let broken (k : Nat) : Bool :=
        ((scratchTarget s q.w.wg cl (ea k) n).bind fun p => (s.wg? p.1).map fun g => scratchUe g p.2 n).getD false
      (wrong ≠ 0 → Traps o s q (cause 0x09 wrong))
      ∧ (wrong = 0 → outside ≠ 0 → Traps o s q (cause 0x0D outside))
      ∧ (wrong = 0 → outside = 0 → reads = true → (∃ k, k < 32 ∧ bitAt q.exec k = true ∧ broken k = true) →
          ∃ S : State, { S with wgs := s.wgs, hub := s.hub } = s ∧ { S.hub with launches := s.hub.launches } = s.hub
            ∧ (∀ j g, s.wg? j = some g → ∃ e, S.wg? j = some { g with scratchErr := e })
            ∧ Completes o S q q.w h.sw fun k _ =>
                if broken k then { pend := [{ raise := some { code := 0x31, sub := 0, pc := q.pc, cont := q.next } }] } else {})
    let base (k : Nat) : Word := (q.lane k).rd (q.env k) 0 a.toNat + BitVec.ofInt 32 (4 * i.toInt)
    let ext (k : Nat) : Word := lo32 (extPad x (q.env k) (q.lane k))
    let atom (k : Nat) : Word := (q.lane k).rd (q.env k) 0 x.a.toNat + BitVec.ofInt 32 (BitVec.ofNat 11 (x.field 20 11)).toInt
    (gangOf s h 1 = some q → faults 4 false true base (exec (.lds h d a i) s) ∧ faults 4 false false base (exec (.sts h d a i) s))
    ∧ (gangOf s h x.words = some q →
      faults size (x.bit 17) true ext (exec (.ldsExt h x) s) ∧ faults size (x.bit 17) (decide (size < 4)) ext (exec (.stsExt h x) s)
      ∧ (∀ j ∈ [Instr.atomsAdd h x, .atomsMin h x, .atomsMax h x, .atomsAnd h x, .atomsOr h x, .atomsXor h x, .atomsExch h x, .atomsCas h x],
          faults size (x.bit 17) true atom (exec j s))
      ∧ (x.bit 16 = true → (x.bit 18 = true → ∃ sc, 1 ≤ sc ∧ sc ≤ 3 ∧ ∀ k, k < 32 → bitAt q.exec k = true →
            ((q.lane k).rd (q.env k) 30 x.c.toNat).toNat % 8 = sc) →
          faults (if x.bit 15 then 8 else 4) (x.bit 17) false atom (exec (.waitv h x) s))))

/-- R224, R225, R226, R247: a load of the scratchpad whose lanes are aligned, inside the allocation, and free of double-bit errors
completes: each executing lane gets its bytes as a pending result, and the scratchpad holds the bytes that it held. R224, R225, R226, R227,
R247, R248: a store to the scratchpad whose lanes are aligned and inside the allocation, and whose merges meet no double-bit error,
completes: every byte of every workgroup's scratchpad is the one of the last lane in ascending order that stores there, and else what it
was. No register and no byte of global memory changes. -/
def Obligations.ScratchAccess : Prop :=
  (
    ∀ (h : Hdr) (d a i : BitVec 6) (x : Ext) (s : State) (q : Gang) (dest : Nat → Nat × Nat)
      (G : Nat → Workgroup),
    let loads (o : Out) (d n : Nat) (sgn cl : Bool) (ea : Nat → Word) : Prop :=
      (∀ k, k < 32 → bitAt q.exec k = true → (ea k).toNat % n = 0 ∧ scratchTarget s q.w.wg cl (ea k) n = some (dest k)
          ∧ s.wg? (dest k).1 = some (G k) ∧ scratchUe (G k) (dest k).2 n = false) →
        ∃ S : State, { S with wgs := s.wgs, hub := s.hub } = s ∧ { S.hub with launches := s.hub.launches } = s.hub
          ∧ (∀ j g, s.wg? j = some g → ∃ e, S.wg? j = some { g with scratchErr := e })
          ∧ Completes o S q q.w h.sw fun k _ =>
              let y := ofBytes (scratchRead (dest k).1 (G k) (dest k).2 n)
              { pend := [if n ≤ 4 then
                  { regs := [(d, if sgn = true ∧ 2 ^ (8 * n - 1) ≤ y then BitVec.ofInt 32 ((y : Int) - 2 ^ (8 * n)) else BitVec.ofNat 32 y)] }
                else { regs := (List.range (n / 4)).map fun j => (d + j, BitVec.ofNat 32 (y / 2 ^ (32 * j))) }] }
    let rd (k : Nat) (o r : Nat) : Word := (q.lane k).rd (q.env k) o r
    (gangOf s h 1 = some q → loads (exec (.lds h d a i) s) d.toNat 4 false false fun k => rd k 0 a.toNat + BitVec.ofInt 32 (4 * i.toInt))
    ∧ (gangOf s h x.words = some q → loads (exec (.ldsExt h x) s) x.d.toNat ([4, 1, 2, 8, 16].getD (x.field 11 3) 4) (x.bit 14) (x.bit 17)
        fun k => rd k 0 x.a.toNat + (if x.bit 19 then rd k 2 x.b.toNat else 0) + BitVec.ofInt 32 (BitVec.ofNat 12 (x.field 20 12)).toInt))
  ∧ (
    ∀ (h : Hdr) (d a i : BitVec 6) (x : Ext) (s : State) (q : Gang) (dest : Nat → Nat × Nat)
      (G : Nat → Workgroup),
    let stores (o : Out) (d n : Nat) (cl : Bool) (ea : Nat → Word) : Prop :=
      let bytes (k : Nat) : List Byte := if n ≤ 4 then bytesOf n ((q.lane k).rd (q.env k) 20 d).toNat
        else (List.range (n / 4)).flatMap fun j => bytesOf 4 ((q.lane k).rd (q.env k) (20 + j) (d + j)).toNat
      let stored (j : Nat) : List (Nat × Byte) := ((lanesOf q.exec).filter fun k => (dest k).1 = j).flatMap fun k =>
        mapFrom (fun b y => ((dest k).2 + b, y)) 0 (bytes k)
      (∀ k, k < 32 → bitAt q.exec k = true → (ea k).toNat % n = 0 ∧ scratchTarget s q.w.wg cl (ea k) n = some (dest k)
          ∧ s.wg? (dest k).1 = some (G k) ∧ (n < 4 → scratchUe (G k) (dest k).2 n = false)) →
        ∃ S : State, { S with wgs := s.wgs, hub := s.hub } = s ∧ { S.hub with launches := s.hub.launches } = s.hub
          ∧ (∀ j g, s.wg? j = some g → ∃ c e, S.wg? j = some { g with scratch := c, scratchErr := e }
              ∧ ∀ b, scratchGet j { g with scratch := c, scratchErr := e } b = (lastFor (stored j) b).getD (scratchGet j g b))
          ∧ Completes o S q q.w h.sw fun _ _ => {}
    let rd (k : Nat) (o r : Nat) : Word := (q.lane k).rd (q.env k) o r
    (gangOf s h 1 = some q → stores (exec (.sts h d a i) s) d.toNat 4 false fun k => rd k 0 a.toNat + BitVec.ofInt 32 (4 * i.toInt))
    ∧ (gangOf s h x.words = some q → stores (exec (.stsExt h x) s) x.d.toNat ([4, 1, 2, 8, 16].getD (x.field 11 3) 4) (x.bit 17)
        fun k => rd k 0 x.a.toNat + (if x.bit 19 then rd k 2 x.b.toNat else 0) + BitVec.ofInt 32 (BitVec.ofNat 12 (x.field 20 12)).toInt))

/-- R229, R230, R251, R252: the tag instructions act in the executing lanes in ascending order, each on the tags that the lanes below it
left, and give slot word and key as pending results; PREF changes nothing that a program can read. R229, R230, R251: what one lane of a tag
instruction finds and leaves: a lookup gives the slot that holds its key, or the miss code, and a hit makes the slot the most recently used;
an install of a key that none holds takes the lowest invalid slot, or else the least recently used one that is not pinned, and gives the key
that it displaces, or misses where every slot is pinned; an eviction gives the key of a valid slot and leaves it invalid, or clears its pin
alone. The key of all ones is found nowhere and never installed, so that no slot ever holds it. -/
def Obligations.TagInstructions : Prop :=
  (
    ∀ (h : Hdr) (x : Ext) (s : State) (q : Gang), gangOf s h x.words = some q →
    let hd := (s.launchOfWarp q.w).hdr
    let key (k : Nat) : DWord := (q.lane k).rdW (q.env k) 0 x.a.toNat
    let slotNo (k : Nat) : Nat := ((q.lane k).rd (q.env k) 0 x.a.toNat).toNat
    let tags (o : Out) (pair : Bool) (f : Nat → Workgroup → TagAnswer × Workgroup) : Prop :=
      ∃ G : Nat → Workgroup, G 0 = s.wgOf q.w
        ∧ (∀ k, k < 32 → G (k + 1) = if bitAt q.exec k then (f k (G k)).2 else G k)
        ∧ Completes o (s.modWg q.w.wg fun _ => G 32) q q.w h.sw fun k _ =>
            let y := (f k (G k)).1
            { pend := [{ regs := (x.d.toNat, y.1) :: if pair then [(x.c.toNat, lo32 y.2), (x.c.toNat + 1, hi32 y.2)] else [] }] }
    tags (exec (.tagl h x) s) false (fun k g => taglLane hd (x.bit 11) (key k) g)
    ∧ tags (exec (.tagi h x) s) true (fun k g => tagiLane hd (x.bit 11) (x.bit 12) (key k) g)
    ∧ tags (exec (.tage h x) s) true (fun k g =>
        tageLane hd (x.bit 12) (if x.bit 11 then (if slotNo k < g.tags.length then some (slotNo k) else none) else tagFind g (key k)) g)
    ∧ ∃ tlb, Completes (exec (.pref h x) s) (s.setMem { s.mem with tlb := tlb }) q q.w h.sw fun _ _ => {})
  ∧ (
    ∀ (hd : Header) (adr pin : Bool) (key : DWord) (g : Workgroup),
    let slot (k : Nat) : TagSlot := g.tags.getD k {}
    let holds (k : Nat) : Prop := k < g.tags.length ∧ (slot k).valid = true ∧ (slot k).key = key
    let word (k : Nat) : Word := if adr then hd.tagBase + BitVec.ofNat 32 (k * 2 ^ hd.tagLog) else BitVec.ofNat 32 k
    let ones : DWord := 0xFFFFFFFFFFFFFFFF
    let clean (g : Workgroup) : Prop := ∀ t ∈ g.tags, t.valid = true → t.key ≠ ones
    (key = ones ∨ (∀ k, ¬holds k) → taglLane hd adr key g = ((0xFFFFFFFF, ones), g))
    ∧ (key ≠ ones → ∀ k, holds k → (∀ j, j < k → ¬holds j) →
        tagFind g key = some k
        ∧ taglLane hd adr key g = ((word k, ones),
          { g with stamp := g.stamp + 1, tags := g.tags.set k { slot k with stamp := g.stamp + 1 } })
        ∧ tagiLane hd adr pin key g = ((word k ||| 0x40000000, ones),
          { g with stamp := g.stamp + 1, tags := g.tags.set k { slot k with pin := (slot k).pin || pin, stamp := g.stamp + 1 } }))
    ∧ (key = ones ∨ (∀ k, ¬holds k) → tagFind g key = none)
    ∧ (key = ones → tagiLane hd adr pin key g = ((0xFFFFFFFF, ones), g))
    ∧ (key ≠ ones → (∀ k, ¬holds k) → ∀ k, k < g.tags.length →
        (slot k).valid = false → (∀ j, j < k → (slot j).valid = true) →
          tagiLane hd adr pin key g = ((word k, ones),
            { g with stamp := g.stamp + 1, tags := g.tags.set k { valid := true, key := key, pin := pin, stamp := g.stamp + 1 } }))
    ∧ (key ≠ ones → (∀ k, ¬holds k) → (∀ k, k < g.tags.length → (slot k).valid = true) → ∀ k, k < g.tags.length →
        (slot k).pin = false → (∀ j, j < g.tags.length → (slot j).pin = false → j ≠ k → (slot k).stamp < (slot j).stamp) →
          tagiLane hd adr pin key g = ((word k, (slot k).key),
            { g with stamp := g.stamp + 1, tags := g.tags.set k { valid := true, key := key, pin := pin, stamp := g.stamp + 1 } }))
    ∧ ((∀ k, ¬holds k) → (∀ k, k < g.tags.length → (slot k).valid = true ∧ (slot k).pin = true) →
        tagiLane hd adr pin key g = ((0xFFFFFFFF, ones), g))
    ∧ (∀ unpin : Bool, tageLane hd unpin none g = ((0xFFFFFFFF, ones), g))
    ∧ (∀ (unpin : Bool) (k : Nat), k < g.tags.length →
        ((slot k).valid = false → tageLane hd unpin (some k) g = ((0xFFFFFFFF, ones), g))
        ∧ ((slot k).valid = true → (tageLane hd unpin (some k) g).1 = (BitVec.ofNat 32 k, (slot k).key)
            ∧ ∃ t, (tageLane hd unpin (some k) g).2 = { g with tags := g.tags.set k t }
              ∧ if unpin = true then t = { slot k with pin := false } else t.valid = false ∧ t.pin = false))
    ∧ (clean g → clean (taglLane hd adr key g).2 ∧ clean (tagiLane hd adr pin key g).2 ∧ ∀ (unpin : Bool) (k : Option Nat), clean (tageLane hd unpin k g).2))

/-- R235, R254, R256, R258, R260, R261, R279, R282, R108: ATOM whose lanes are aligned and translate completes, after the late accesses of
the lanes that come before it, and, if it releases, after all of them but those to UN pages: in ascending order each executing lane takes
the value that the lanes below it left as its pending result, and leaves there the new value, if the operation gives one; on a poisoned line
it raises POISON and leaves memory and the mark as they are, which is the model's choice (log entry 31). Where the pages and its ordering
let it, the ATOM of all the lanes that name one location may stay late, with its results, which is the model's choice too (log entry 80).
Each lane opens a region at the next instruction. R224, R256, R258, R260, R261, R108: the same of ATOMS in the scratchpad. -/
def Obligations.AtomicInstructions : Prop :=
  (
    ∀ (h : Hdr) (x : Ext) (s : State) (q : Gang), gangOf s h x.words = some q →
    let n := [4, 1, 2, 8, 16].getD (x.field 11 3) 4
    let ctx := s.ctxOf q.w
    let ea (k : Nat) : DWord := (q.lane k).rdW (q.env k) 0 x.a.toNat + BitVec.ofInt 64 (BitVec.ofNat 11 (x.field 20 11)).toInt
    let ps (k : Nat) := piecesAt s ctx (ea k) n k .store
    let un (p : Piece) : Bool := decide (p.leaf.toNat / 4 % 4 = 2)
    let ord := x.field 15 2
    let opB' (k : Nat) : Nat := (if n = 8 then (opBW (q.lane k) (q.env k) 4 x).toNat else (opB (q.lane k) (q.env k) 4 x).toNat) % 2 ^ (8 * n)
    let opC' (k : Nat) : Nat := (if n = 8 then (opCW (q.lane k) (q.env k) 6 x).toNat else (opC (q.lane k) (q.env k) 6 x).toNat) % 2 ^ (8 * n)
    let release : Mask := maskOf fun k => bitAt q.exec k && decide (2 ≤ ord) && (ps k).any fun p => !un p
    let first := performEarlier (ownFirst s q ctx ps) q.wk release true false
    let q' : Gang := { q with w := q.after first }
    let trap : Raise := { code := 0x32, sub := 0, pc := q.pc, cont := q.next }
    (∀ k, k < 32 → bitAt q.exec k = true → (ea k).toNat % n = 0 ∧ faultAt s ctx (ea k) n k .store = none) →
    let atom (op : Nat) (o : Out) : Prop := ∃ (M : Nat → MemSys) (r : Nat → Pend) (late : Nat → Bool) (tlb : List TlbEntry),
      let f : AtomOp := { op := op, n := n, sgn := x.bit 14, flt := x.bit 18 }
      M 0 = { first.mem with tlb := tlb }
      ∧ (∀ k, late k = true → (∀ p ∈ ps k, un p = true) ∨ ord = 0 ∨ ord = 2)
      ∧ (∀ j k, j < 32 → k < 32 → bitAt q.exec j = true → bitAt q.exec k = true → ps j = ps k → late j = late k)
      ∧ (∀ k, k < 32 → bitAt q.exec k = false → M (k + 1) = M k)
      ∧ (∀ k, k < 32 → bitAt q.exec k = true → late k = true → M (k + 1) = M k ∧ r k =
          ({ id := s.free, pieces := ps k, d := x.d.toNat, n := n, sgn := x.bit 14, raise := trap, rmw := some (f, opB' k, opC' k) } : LateRead).waiting)
      ∧ (∀ k, k < 32 → bitAt q.exec k = true → late k = false → piecesPoisoned (M k) (ps k) = true →
          M (k + 1) = M k ∧ (r k).raise = some trap ∧ (r k).read = none)
      ∧ (∀ k, k < 32 → bitAt q.exec k = true → late k = false → piecesPoisoned (M k) (ps k) = false →
          let bs := readPieces (M k) (ps k)
          r k = { regs := loadRegs x.d.toNat n (x.bit 14) bs }
          ∧ M (k + 1) = match f.apply (ofBytes bs) (opB' k) (opC' k) with
            | some y => writePieces (M k) (ps k) (bytesOf n y)
            | none => M k)
      ∧ Completes o (first.setMem (M 32)) q' q'.w h.sw fun k _ => { pend := [r k], region := some q.next }
    atom 0 (exec (.atomAdd h x) s) ∧ atom 1 (exec (.atomMin h x) s) ∧ atom 2 (exec (.atomMax h x) s) ∧ atom 3 (exec (.atomAnd h x) s)
    ∧ atom 4 (exec (.atomOr h x) s) ∧ atom 5 (exec (.atomXor h x) s) ∧ atom 6 (exec (.atomExch h x) s) ∧ atom 7 (exec (.atomCas h x) s))
  ∧ (
    ∀ (h : Hdr) (x : Ext) (s : State) (q : Gang) (dest : Nat → Nat × Nat) (g₀ : Nat → Workgroup),
    gangOf s h x.words = some q →
    let n := [4, 1, 2, 8, 16].getD (x.field 11 3) 4
    let ea (k : Nat) : Word := (q.lane k).rd (q.env k) 0 x.a.toNat + BitVec.ofInt 32 (BitVec.ofNat 11 (x.field 20 11)).toInt
    let opB' (k : Nat) : Nat := (if n = 8 then (opBW (q.lane k) (q.env k) 4 x).toNat else (opB (q.lane k) (q.env k) 4 x).toNat) % 2 ^ (8 * n)
    let opC' (k : Nat) : Nat := (if n = 8 then (opCW (q.lane k) (q.env k) 6 x).toNat else (opC (q.lane k) (q.env k) 6 x).toNat) % 2 ^ (8 * n)
    (∀ k, k < 32 → bitAt q.exec k = true → (ea k).toNat % n = 0 ∧ scratchTarget s q.w.wg (x.bit 17) (ea k) n = some (dest k)
        ∧ s.wg? (dest k).1 = some (g₀ k) ∧ scratchUe (g₀ k) (dest k).2 n = false) →
    let atom (op : Nat) (o : Out) : Prop := ∃ (S : Nat → State) (r : Nat → Pend),
      S 0 = fixReads s q.exec (fun k => [{ wg := (dest k).1, off := (dest k).2, len := n }])
      ∧ (∀ k, k < 32 → bitAt q.exec k = false → S (k + 1) = S k)
      ∧ (∀ k, k < 32 → bitAt q.exec k = true → ∃ g, (S k).wg? (dest k).1 = some g ∧
          let bs := scratchRead (dest k).1 g (dest k).2 n
          r k = { regs := loadRegs x.d.toNat n (x.bit 14) bs }
          ∧ S (k + 1) = match ({ op := op, n := n, sgn := x.bit 14, flt := x.bit 18 } : AtomOp).apply (ofBytes bs) (opB' k) (opC' k) with
            | some y => (S k).modWg (dest k).1 fun g => scratchWrite g (dest k).2 (bytesOf n y)
            | none => S k)
      ∧ Completes o (S 32) q q.w h.sw fun k _ => { pend := [r k], region := some q.next }
    atom 0 (exec (.atomsAdd h x) s) ∧ atom 1 (exec (.atomsMin h x) s) ∧ atom 2 (exec (.atomsMax h x) s) ∧ atom 3 (exec (.atomsAnd h x) s)
    ∧ atom 4 (exec (.atomsOr h x) s) ∧ atom 5 (exec (.atomsXor h x) s) ∧ atom 6 (exec (.atomsExch h x) s) ∧ atom 7 (exec (.atomsCas h x) s))

/-- R258, R259: the new value of each atomic operation on integers, n bytes wide, and on floats, which set no flag. R61, R64, R68, R69,
R140, R141: what a rounding gives, and what is rounded. A finite value that is not 0 lies between two neighbours of the format, k and k + 1
times a power of two that is the smallest subnormal or leaves k no more digits than the format holds; the mode chooses one, with INX unless
the value is k of them, and UNF when the chosen one is below the smallest normal. Beyond the largest finite value the result is an infinity
or the largest value, with OVF, and saturates with SAT. Sums, products, fused products and quotients are exact before they are rounded. R65,
R69, R70, R71, R85: what a conversion gives: from one float type to another the value rounded, with INV for a signalling NaN; from an
integer type the value rounded, or the nearest bound with SAT; and to an integer type the value rounded to an integer by the mode, with INX
if that changed it, or the nearest bound with INV and SAT, and 0 with INV for a NaN. -/
def Obligations.AtomicOperations : Prop :=
  (
    ∀ (n m x c : Nat) (sgn : Bool), 0 < n → m < 2 ^ (8 * n) → x < 2 ^ (8 * n) →
    let s (y : Nat) : Int := if y < 2 ^ (8 * n - 1) then y else (y : Int) - 2 ^ (8 * n)
    let new (op : Nat) (flt : Bool) : Option Nat := ({ op := op, n := n, sgn := sgn, flt := flt } : AtomOp).apply m x c
    new 0 false = some ((m + x) % 2 ^ (8 * n))
    ∧ (∃ y, new 1 false = some y ∧ (y = m ∨ y = x)
        ∧ if sgn then s y ≤ s m ∧ s y ≤ s x else y ≤ m ∧ y ≤ x)
    ∧ (∃ y, new 2 false = some y ∧ (y = m ∨ y = x)
        ∧ if sgn then s m ≤ s y ∧ s x ≤ s y else m ≤ y ∧ x ≤ y)
    ∧ new 3 false = some (m &&& x) ∧ new 4 false = some (m ||| x) ∧ new 5 false = some (m ^^^ x) ∧ new 6 false = some x
    ∧ new 7 false = (if m = c then some x else none)
    ∧ (n = 4 → new 0 true = some (floatAdd .f32 0 false m x).1 ∧ new 1 true = some (minMax .f32 false m x).1
        ∧ new 2 true = some (minMax .f32 true m x).1)
    ∧ (n = 8 → new 0 true = some (floatAdd .f64 0 false m x).1 ∧ new 1 true = some (minMax .f64 false m x).1
        ∧ new 2 true = some (minMax .f64 true m x).1))
  ∧ (
    let num (x : FReal) : ℚ := match x with
      | .fin _ m e => (m : ℚ) * (2 : ℚ) ^ e
      | _ => 0
    ∀ f ∈ [Fmt.f64, .f32, .bf16, .f16, .e5m2, .e4m3fmt], ∀ (rnd : Nat) (sat : Bool), rnd < 5 →
      (∀ (neg : Bool) (n d : Nat) (e : Int), 0 < n → 0 < d →
        let x : ℚ := (n : ℚ) / d * (2 : ℚ) ^ e
        let r := roundRat f rnd sat neg n d e
        ∃ (u : Int) (k j : Nat), f.minExp ≤ u ∧ x < (2 : ℚ) ^ (u + f.fw + 1) ∧ (u = f.minExp ∨ (2 : ℚ) ^ (u + f.fw) ≤ x)
          ∧ (k : ℚ) * (2 : ℚ) ^ u ≤ x ∧ x < ((k : ℚ) + 1) * (2 : ℚ) ^ u
          ∧ (let half : ℚ := ((k : ℚ) + 1 / 2) * (2 : ℚ) ^ u
             let up : Prop := match rnd with
               | 0 => half < x ∨ (x = half ∧ k % 2 = 1)
               | 1 => False
               | 2 => neg = true
               | 3 => neg = false
               | _ => half ≤ x
             ((k : ℚ) * (2 : ℚ) ^ u = x → j = k) ∧ ((k : ℚ) * (2 : ℚ) ^ u ≠ x → (up → j = k + 1) ∧ (¬up → j = k)))
          ∧ let y : ℚ := (j : ℚ) * (2 : ℚ) ^ u
            let inx : Word := if x = (k : ℚ) * (2 : ℚ) ^ u then 0 else Flag.inx
            let toInf : Prop := rnd = 0 ∨ rnd = 4 ∨ (rnd = 2 ∧ neg = true) ∨ (rnd = 3 ∧ neg = false)
            (y ≤ num (unpack f f.maxCode) →
              (∃ e' m', unpack f r.1 = .fin neg m' e') ∧ num (unpack f r.1) = (if neg then -y else y)
              ∧ r.2 = inx ||| (if inx ≠ 0 ∧ y < (2 : ℚ) ^ (1 - f.bias) then Flag.unf else 0))
            ∧ (num (unpack f f.maxCode) < y → (toInf → if sat = true ∨ f.e4m3 = true
                then r = (f.signed neg f.maxCode, Flag.inx ||| Flag.ovf ||| Flag.sat) else r = (f.inf neg, Flag.inx ||| Flag.ovf))
              ∧ (¬toInf → r = (f.signed neg f.maxCode, Flag.inx ||| Flag.ovf))))
      ∧ (∀ z m e, m ≠ 0 → roundTo f rnd sat (.fin z m e) = roundRat f rnd sat (decide (m < 0)) m.natAbs 1 e)
      ∧ (∀ z e, roundTo f rnd sat (.fin z 0 e) = (f.signed z 0, 0))
      ∧ (∀ neg, roundTo f rnd sat (.inf neg) = if f.e4m3 || sat then (f.signed neg f.maxCode, Flag.sat) else (f.inf neg, 0))
      ∧ (∀ b, roundTo f rnd sat (.nan b) = (f.nan, 0))
      ∧ (∀ (a b c : Nat) (za zb zc : Bool) (ma ea mb eb mc ec : Int),
          unpack f a = .fin za ma ea → unpack f b = .fin zb mb eb → unpack f c = .fin zc mc ec →
          let A := num (unpack f a)
          let B := num (unpack f b)
          let C := num (unpack f c)
          (∃ z m e, floatAdd f rnd sat a b = roundTo f rnd sat (.fin z m e) ∧ num (.fin z m e) = A + B
            ∧ (m = 0 → z = if za = zb then za else decide (rnd = 2)))
          ∧ (∃ z m e, floatMul f rnd sat a b = roundTo f rnd sat (.fin z m e) ∧ num (.fin z m e) = A * B ∧ (m = 0 → z = (za != zb)))
          ∧ (∃ z m e, floatFma f rnd sat a b c = roundTo f rnd sat (.fin z m e) ∧ num (.fin z m e) = A * B + C
            ∧ (m = 0 → z = if (za != zb) = zc then zc else decide (rnd = 2))))
      ∧ (∀ (a b : Nat) (za zb : Bool) (ma ea mb eb : Int), unpack f a = .fin za ma ea → unpack f b = .fin zb mb eb →
          let neg : Bool := (if ma = 0 then za else decide (ma < 0)) != (if mb = 0 then zb else decide (mb < 0))
          (ma ≠ 0 → mb ≠ 0 → ∃ (n d : Nat) (e : Int), 0 < n ∧ 0 < d ∧ floatDiv f a b = roundRat f 0 false neg n d e
            ∧ (n : ℚ) / d * (2 : ℚ) ^ e = |num (unpack f a) / num (unpack f b)|)
          ∧ (ma = 0 → mb ≠ 0 → floatDiv f a b = (f.signed neg 0, 0)) ∧ (ma ≠ 0 → mb = 0 → floatDiv f a b = (f.inf neg, Flag.dz))
          ∧ (ma = 0 → mb = 0 → floatDiv f a b = (f.nan, Flag.inv)))
      ∧ (∀ (a b : Nat) (s : Bool), unpack f a = .nan s ∨ unpack f b = .nan s →
          (floatAdd f rnd sat a b).1 = f.nan ∧ (floatMul f rnd sat a b).1 = f.nan
          ∧ (s = true → (floatAdd f rnd sat a b).2 = Flag.inv ∧ (floatMul f rnd sat a b).2 = Flag.inv)))
  ∧ (
    ∀ (dt st rnd x : Nat) (sat : Bool), rnd < 5 →
    let v := unpack (fmtOf st) (x % 2 ^ tyWidth st)
    let n := tyWidth dt
    let lo := (intRange dt).1
    let hi := (intRange dt).2
    let bits (y : Int) : Nat := (y % 2 ^ n).toNat
    (tyIsFloat st = true → tyIsFloat dt = true → convert dt st rnd sat x =
      ((roundTo (fmtOf dt) rnd sat v).1, (roundTo (fmtOf dt) rnd sat v).2 ||| if v = .nan true then Flag.inv else 0))
    ∧ (tyIsFloat st = false → tyIsFloat dt = true → convert dt st rnd sat x =
        let r := roundTo (fmtOf dt) rnd sat (.fin false (readInt st x).1 0)
        (r.1, r.2 ||| (readInt st x).2))
    ∧ (tyIsFloat st = false → tyIsFloat dt = false → lo ≤ hi → convert dt st rnd sat x =
        let y := (readInt st x).1
        (bits (max lo (min hi y)), (if lo ≤ y ∧ y ≤ hi then 0 else Flag.sat) ||| (readInt st x).2))
    ∧ (tyIsFloat st = true → tyIsFloat dt = false → lo ≤ hi →
        (∀ b, v = .nan b → convert dt st rnd sat x = (0, Flag.inv))
        ∧ (∀ b, v = .inf b → convert dt st rnd sat x = (bits (if b then lo else hi), Flag.inv ||| Flag.sat))
        ∧ ∀ z m e, v = .fin z m e →
            let y : ℚ := (m : ℚ) * (2 : ℚ) ^ e
            ∃ j : Int, |(j : ℚ) - y| < 1
              ∧ (match rnd with
                | 0 => |(j : ℚ) - y| ≤ 1 / 2 ∧ (|(j : ℚ) - y| = 1 / 2 → j % 2 = 0)
                | 1 => |(j : ℚ)| ≤ |y| ∧ 0 ≤ (j : ℚ) * y
                | 2 => (j : ℚ) ≤ y
                | 3 => y ≤ (j : ℚ)
                | _ => |(j : ℚ) - y| ≤ 1 / 2 ∧ (|(j : ℚ) - y| = 1 / 2 → |y| < |(j : ℚ)|))
              ∧ convert dt st rnd sat x = (bits (max lo (min hi j)),
                  (if (j : ℚ) = y then 0 else Flag.inx) ||| if lo ≤ j ∧ j ≤ hi then 0 else Flag.inv ||| Flag.sat)))

/-- R255, R263, R264, R265, R267: RED whose lanes are aligned and translate leaves its values with the near-memory units and goes on: one
reduction for each location that an executing lane names, with the operation, the scope and the key of the access, the lanes that name it,
and the value that their operands combine to: of integers, minima and maxima in ascending lane order; of float sums by adding two of them at
a time, each sum rounded, in an order that is not promised. REDs do not change memory until they are applied; a lane's late writes to the
location are performed before one where a releasing FENCE of its scope or a wider one stands between (R282). FENCE completes, after the late
accesses of its lanes that it orders, and leaves its mark on those that stay late, if it releases, unless it releases and an executing lane
has a RED of the fence's scope or a narrower one that is not applied yet, for which it waits without effect. In which order float sums of
one instruction are combined is free by the model's choice (log entry 60), what an interleaved page's unit numbers is log entry 85, and
which accesses are late, and so performed by a FENCE, is log entry 80: these are the model's choices. -/
def Obligations.RedsAndFences : Prop :=
  (∀ (h : Hdr) (x : Ext) (s : State) (q : Gang), gangOf s h x.words = some q →
    let n := [4, 1, 2, 8, 16].getD (x.field 11 3) 4
    let ctx := s.ctxOf q.w
    let ea (k : Nat) : DWord := (q.lane k).rdW (q.env k) 0 x.a.toNat + BitVec.ofInt 64 (BitVec.ofNat 11 (x.field 20 11)).toInt
    let operand (k : Nat) : Nat := (if n = 8 then (opBW (q.lane k) (q.env k) 4 x).toNat else (opB (q.lane k) (q.env k) 4 x).toNat) % 2 ^ (8 * n)
    let red (op : Nat) (o : Out) : Prop :=
      (∀ k, k < 32 → bitAt q.exec k = true → (ea k).toNat % n = 0 ∧ faultAt s ctx (ea k) n k .store = none) →
        let own := fencedFirst s q x.scope.toNat fun k => piecesAt s ctx (ea k) n k .store
        let q' : Gang := { q with w := q.after own }
        ∃ (tlb : List TlbEntry) (rs : List Red),
          (rs.map fun r => r.va).Nodup
          ∧ (∀ k, k < 32 → bitAt q.exec k = true → ∃ r ∈ rs, r.va = (ea k).toNat)
          ∧ (∀ r ∈ rs, ∃ k, k < 32 ∧ bitAt q.exec k = true ∧ ∃ p ∈ piecesAt s ctx (ea k) n k .store,
              let ls := (lanesOf q.exec).filter fun j => decide (ea j = ea k)
              let vals := ls.map operand
              let one (a b : Nat) : Nat := (({ op := op, n := n, sgn := x.bit 14, flt := x.bit 18 } : AtomOp).apply a b 0).getD a
              r = { launch := (s.wgOf q.w).launch, die := q.wk / 3072, wg := q.w.wg, warp := q.w.uid
                    lanes := maskOf fun j => bitAt q.exec j && decide (ea j = ea k)
                    scope := x.scope.toNat, ctx := ctx, va := (ea k).toNat, pa := p.pa, key := p.key, arb := r.arb
                    op := op, size := n, signed := x.bit 14, float := x.bit 18, val := r.val }
              ∧ r.val = BitVec.ofNat 64 (if op = 0 ∧ x.bit 18 = true
                  then combineSums (if n = 8 then .f64 else .f32) (s.free + (ls.headD 0)) vals.length vals
                  else (vals.drop 1).foldl one (vals.headD 0))
              ∧ r.arb = if p.leaf.toNat / 2 ^ 10 % 2 = 1 ∧ p.leaf.toNat / 2 ^ 11 % 4 = q.wk / 3072 then q.wk / 3072 else 4)
          ∧ Completes o (own.setMem { own.mem with tlb := tlb, reds := s.mem.reds ++ rs }) q' q'.w h.sw fun _ _ => { region := some q.next }
    let named (k : Nat) : Nat := if x.bit 11 then ((q.lane k).rd (q.env k) 30 x.a.toNat).toNat % 8 else x.scope.toNat
    red 0 (exec (.redAdd h x) s) ∧ red 1 (exec (.redMin h x) s) ∧ red 2 (exec (.redMax h x) s) ∧ red 3 (exec (.redAnd h x) s)
    ∧ red 4 (exec (.redOr h x) s) ∧ red 5 (exec (.redXor h x) s)
    ∧ (q.exec = 0 → Completes (exec (.fence h x) s) s q q.w h.sw fun _ _ => {})
    ∧ ∀ sc, q.exec ≠ 0 → (∀ k, k < 32 → bitAt q.exec k = true → named k = sc) → (x.bit 11 = true → 1 ≤ sc ∧ sc ≤ 6) →
        let waits : Prop := x.field 15 2 ≠ 1 ∧ ∃ r ∈ s.mem.reds, r.warp = q.w.uid ∧ r.lanes &&& q.exec ≠ 0 ∧ r.scope ≤ sc
        let first := performEarlier s q.wk q.exec (decide (x.field 15 2 ≠ 1)) (decide (5 ≤ sc))
        let marked := if x.field 15 2 = 1 then first else fenceMarks first q sc
        let q' : Gang := { q with w := q.after marked }
        (¬waits → Completes (exec (.fence h x) s) marked q' q'.w h.sw fun _ _ => {})
        ∧ (waits → exec (.fence h x) s = .next (s.setWarp q.wk q.w).done))
  ∧ ∀ (f : Fmt) (free fuel a b : Nat) (t : List Nat), ∃ (y z : Nat) (rest : List Nat), (a :: b :: t).Perm (y :: z :: rest)
      ∧ combineSums f free (fuel + 1) (a :: b :: t) = combineSums f free fuel ((floatAdd f 0 false y z).1 :: rest)
      ∧ combineSums f free fuel [a] = a

/-- R108, R268, R269, R270: BAR.wait makes the lanes that have arrived in the phase that is open wait for its end, and lets the others go
on. BAR.arrive and BAR.sync, with no result outstanding, end the chains of the path (R161) and act in each executing lane in ascending
order: a lane that has arrived in the phase waits to arrive in the next one; another arrives, and then goes on in a region of its own, or,
at BAR.sync, waits for the end of the phase. Then the phases that are full complete. R108, R268, R269, R270: a barrier is one of the
workgroup, whose members are its warps, or one of its cluster set, whose members are the warps of all its workgroups. A lane's arrival sets
its bit in its warp's arrived mask, and the first of a warp in a phase fixes the warp's required mask as its live lanes; lanes that become
vacant leave the required mask; a barrier is full when every warp that takes part has arrived with its required lanes; completing the phase
raises its number, empties the masks, and lets the lanes go that waited for it, those at BAR.sync in a region of their own; a lane that
waited to arrive arrives then. -/
def Obligations.BarrierInstructions : Prop :=
  (
    ∀ (h : Hdr) (x : Ext) (s : State) (q : Gang), gangOf s h x.words = some q →
    let cl := decide (x.scope.toNat = 3)
    let id := x.field 11 3
    (cl = true → (s.wgOf q.w).cset.isSome = true) →
    let ph := (barOf s q.w.wg cl id).phase
    let here (l : Lane) (p : Nat) : Bool := decide (fget? l.arrivals (id + if cl then 8 else 0) = some p)
    (Completes (exec (.barWait h x) s) s q q.w h.sw fun _ l =>
      if here l ph then { wait := some (.bar cl id ph false q.pc q.next 0) } else {})
    ∧ (q.pending = false → ∀ sync : Bool, ∃ S : Nat → State,
        let e : Gang := { q with w := q.w.mapIn q.mask fun _ l => { l with chain := l.chain.map fun c => { c with ended := true } } }
        (Completes (.next (S 0).done) s e e.w h.sw fun _ _ => {})
        ∧ (∀ k, k < 32 → bitAt q.exec k = false → S (k + 1) = S k)
        ∧ (∀ k, k < 32 → bitAt q.exec k = true →
            let p := (barOf (S k) q.w.wg cl id).phase
            let lane (t : State) (f : Lane → Lane) : State := t.modWarp q.wk fun w => w.modLane k f
            S (k + 1) = if here (q.lane k) p then lane (S k) fun l => { l with wait := some (.barNext cl id p sync q.pc q.next 0) }
              else lane (barArriveLane (S k) q.wk k cl id) fun l =>
                if sync then { l with wait := some (.bar cl id p true q.pc q.next 0) } else l.setRegion q.next)
        ∧ exec (if sync then .barSync h x else .barArrive h x) s = .next (barSettle 3 (S 32) q.w.wg cl id).done))
  ∧ (
    ∀ (s : State) (wk lane id : Nat) (cl : Bool) (w : Warp) (g : Workgroup) (b : Barrier) (cs : ClusterSet),
    s.warp? wk = some w → s.wg? w.wg = some g → (cl = true → g.cset.bind (fget? s.hub.csets) = some cs) → (if cl then cs.bars else g.bars)[id]? = some b →
      let members : List (Nat × Nat) := if cl then cs.members.flatMap fun m => ((s.wg? m.2).map fun v => v.warps.map fun p => (32 * m.1 + p.1, p.2)).getD []
        else g.warps
      let place := if cl then 32 * (g.core % 4) + w.widx else w.widx
      let b' := barOf (barArriveLane s wk lane cl id) w.wg cl id
      b'.phase = b.phase
      ∧ fgetD b'.arrived place 0 = fgetD b.arrived place 0 ||| laneBit lane
      ∧ fget? b'.required place = some ((fget? b.required place).getD w.live)
      ∧ (∀ m : Mask, id < 8 → fget? (barOf (barForget s w m) w.wg cl id).required place = (fget? b.required place).map fun r => r &&& ~~~m)
      ∧ (barFull s w.wg cl id = true ↔ members ≠ [] ∧ ∀ m ∈ members, ∃ r, fget? b.required m.1 = some r ∧ r &&& ~~~fgetD b.arrived m.1 0 = 0)
      ∧ (barFull s w.wg cl id = false → ∀ fuel, barSettle fuel s w.wg cl id = s)
      ∧ (barFull s w.wg cl id = true →
          (∀ m ∈ members, ∀ v, s.warp? m.2 = some v → ∀ i p y pc nx t, (v.lane i).wait ≠ some (.barNext cl id p y pc nx t)) →
          let t := barSettle 1 s w.wg cl id
          barOf t w.wg cl id = { phase := b.phase + 1 }
          ∧ ∀ m ∈ members, ∀ v, s.warp? m.2 = some v → ∃ v', t.warp? m.2 = some v' ∧ ∀ i, i < v.lanes.length →
              ∀ p y pc nx c, p ≤ b.phase → (v.lane i).wait = some (.bar cl id p y pc nx c) →
                (v'.lane i).wait = none ∧ (v'.lane i).region = if y then nx else (v.lane i).region)
      ∧ ∀ (ph : Nat) (y : Bool) (pc nx : PC), lane < w.lanes.length →
          let t := barLateArrive s wk cl id ph (lane, y, pc, nx)
          barOf t w.wg cl id = b' ∧ ∃ v', t.warp? wk = some v' ∧ (v'.lane lane).wait = (if y then some (.bar cl id (ph + 1) true pc nx 0) else none)
            ∧ (v'.lane lane).region = if y then (w.lane lane).region else nx)

/-- R274, R276, R277, R278, R255, R282: WAITV of an aligned location that translates, checked as that of an ATOM, parks its executing lanes
in a wait with the address and operand that it read, after their late accesses that come before it, which is the model's reading (log entry
80); at a switch point its other lanes wait for them (R49), which is the model's reading too (log entry 13). DCADD adds once to a counter
that the workgroup holds; DCWAIT goes on when the counter is 0 and else waits. R276, R277, R278: an addition to a dependence counter wraps
at 2^32, changes no other counter, and, when it gives 0, lets the lanes of the workgroup's warps go that wait for that counter. -/
def Obligations.WaitsAndCounters : Prop :=
  (
    ∀ (h : Hdr) (x : Ext) (s : State) (q : Gang), gangOf s h x.words = some q → q.exec ≠ 0 →
    let ctx := s.ctxOf q.w
    let n := if x.bit 15 then 8 else 4
    let off : Int := (BitVec.ofNat 11 (x.field 20 11)).toInt
    let ea (k : Nat) : DWord := if x.bit 16 then ((q.lane k).rd (q.env k) 0 x.a.toNat + BitVec.ofInt 32 off).setWidth 64
      else (q.lane k).rdW (q.env k) 0 x.a.toNat + BitVec.ofInt 64 off
    let val (k : Nat) : DWord := if x.bit 15 then (q.lane k).rdW (q.env k) 4 x.b.toNat else ((q.lane k).rd (q.env k) 4 x.b.toNat).setWidth 64
    let cs := (s.wgOf q.w).counters
    let ctr (byReg : Bool) (field : BitVec 8) (k : Nat) : Nat :=
      if byReg then ((q.lane k).rd (q.env k) 0 x.a.toNat).toNat % 64 else field.toNat
    let added (k : Nat) : Word := if x.sub = 1 then BitVec.ofInt 32 (BitVec.ofNat 21 (x.field 11 21)).toInt else (q.lane k).rd (q.env k) 2 x.b.toNat
    let each (p : Nat → Prop) : Prop := ∀ k, k < 32 → bitAt q.exec k = true → p k
    ((∃ sc, each (fun k => (if x.bit 18 then ((q.lane k).rd (q.env k) 30 x.c.toNat).toNat % 8 else x.scope.toNat) = sc)
          ∧ (x.bit 18 = true → 1 ≤ sc ∧ sc ≤ if x.bit 16 then 3 else 6)) →
        each (fun k => (ea k).toNat % n = 0
          ∧ if x.bit 16 then (scratchTarget s q.w.wg (x.bit 17) (lo32 (ea k)) n).isSome = true else faultAt s ctx (ea k) n k .store = none) →
        let own := if x.bit 16 then s else ownFirst s q ctx fun k => piecesAt s ctx (ea k) n k .load
        let q' : Gang := { q with w := q.after own }
        CompletesAs (exec (.waitv h x) s) own q' q'.w (q'.w.advance q.pc q.next q.mask).slices h.sw fun k _ =>
          if bitAt q.exec k then { wait := some (.waitv x (ea k) (val k) q.pc q.exec 0) }
          else if h.sw = true ∧ bitAt q.mask k = true then { wait := some (.waitvLeft q.exec) } else {})
    ∧ (∀ c y, c < cs.length → each (fun k => ctr (decide (x.sub = 2)) x.d k = c ∧ added k = y) →
        ∃ S : State, (Completes (.next S.done) s q q.w h.sw fun _ _ => {})
          ∧ exec (.dcadd h x) s = .next (counterAdd S q.w.wg c y).done)
    ∧ (∀ c, c < cs.length → each (fun k => ctr (decide (x.sub = 1)) x.a k = c) →
        Completes (exec (.dcwait h x) s) s q q.w h.sw fun _ _ => if cs.getD c 0 = 0 then {} else { wait := some (.dcwait c q.pc) }))
  ∧ (
    ∀ (s : State) (k c : Nat) (y : Word) (g : Workgroup), s.wg? k = some g → c < g.counters.length →
    let s' := counterAdd s k c y
    s'.wg? k = some { g with counters := g.counters.set c (g.counters.getD c 0 + y) } ∧ s'.mem = s.mem ∧ s'.hub = s.hub
    ∧ ∀ p ∈ g.warps, ∀ w, s.warp? p.2 = some w → ∃ w', s'.warp? p.2 = some w' ∧ ∀ i, i < w.lanes.length →
        (w'.lane i).regs = (w.lane i).regs
        ∧ (g.counters.getD c 0 + y = 0 → ∀ pc, (w.lane i).wait = some (.dcwait c pc) → (w'.lane i).wait = none)
        ∧ ((∀ pc, (w.lane i).wait ≠ some (.dcwait c pc)) ∨ g.counters.getD c 0 + y ≠ 0 → w'.lane i = w.lane i))

/-- R49, R108, R298, R314, R315, R316, R317: CPYQ writes one entry for each executing lane, in ascending order from the tail, and advances
the tail; CPYF writes one QFENCE entry; both end the chains of their path (R161); CPYS reads the queue into a pending result, and with .clr
clears the error and lets the queue go on. A CPYQ or a CPYF that finds results outstanding or too little room has not issued: R316 names
only the ring, and that CPYF waits for its lanes' pending results, as R161 lists it among the instructions that do, is log entry 49. -/
def Obligations.CopyQueueInstructions : Prop :=
  ∀ (h : Hdr) (x : Ext) (s : State) (q : Gang) (g : Workgroup) (k : Nat),
  gangOf s h x.words = some q → s.wg? q.w.wg = some g → k < g.queues.length →
  (∀ i, i < 32 → bitAt q.exec i = true → (if x.bit 13 then ((q.lane i).rd (q.env i) 40 x.b.toNat).toNat % 4 else x.field 11 2) = k) →
  let u := g.queues.getD k {}
  let room := 32 - (u.tail - u.done).toNat
  let n := popCount q.exec
  let entry (i : Nat) : BitVec 256 :=
    BitVec.ofNat 256 (ofBytes ((List.range 8).flatMap fun j => bytesOf 4 ((q.lane i).rd (q.env i) j (x.a.toNat + j)).toNat))
  let with_ (u' : CopyQueue) : State := s.modWg q.w.wg fun g => { g with queues := g.queues.set k u' }
  let e : Gang := { q with w := q.w.mapIn q.mask fun _ l => { l with chain := l.chain.map fun c => { c with ended := true } } }
  let retry (o : Out) : Prop := CompletesAs o s e e.w e.w.slices false fun _ _ => {}
  let tail (j : Nat) : Nat := if (x.field 14 4).testBit j then (g.queues.getD j {}).tail.toNat else 0
  let read : Word := match x.field 14 3 with
    | 0 => u.tail
    | 1 => u.done
    | 3 => u.last
    | _ => u.err
  (q.exec = 0 → (x.bit 13 = true ∨ x.field 11 2 < g.queues.length) →
    Completes (exec (.cpyq h x) s) s e e.w h.sw (fun _ _ => {}) ∧ Completes (exec (.cpyf h x) s) s e e.w h.sw (fun _ _ => {})
    ∧ Completes (exec (.cpys h x) s) s q q.w h.sw (fun _ _ => {}))
  ∧ (q.exec ≠ 0 → q.pending = true ∨ room < n → retry (exec (.cpyq h x) s))
  ∧ (q.exec ≠ 0 → q.pending = false → n ≤ room → ∃ u' : CopyQueue,
      Completes (exec (.cpyq h x) s) (with_ u') e e.w h.sw (fun _ _ => { region := some q.next })
      ∧ u' = { u with ring := u'.ring, tail := u.tail + BitVec.ofNat 32 n }
      ∧ (∀ i, i < 32 → bitAt q.exec i = true →
          fgetD u'.ring ((u.tail.toNat + ((lanesOf q.exec).filter fun j => decide (j < i)).length) % 32) 0 = entry i)
      ∧ ∀ slot, (∀ j, j < n → (u.tail.toNat + j) % 32 ≠ slot) → fgetD u'.ring slot 0 = fgetD u.ring slot 0)
  ∧ (q.exec ≠ 0 → q.pending = true ∨ room < 1 → retry (exec (.cpyf h x) s))
  ∧ (q.exec ≠ 0 → q.pending = false → 1 ≤ room → ∃ u' : CopyQueue,
      Completes (exec (.cpyf h x) s) (with_ u') e e.w h.sw (fun _ _ => {})
      ∧ u' = { u with ring := u'.ring, tail := u.tail + 1 }
      ∧ fgetD u'.ring (u.tail.toNat % 32) 0 = BitVec.ofNat 256 (0x09 + x.field 14 4 * 2 ^ 32 + tail 0 * 2 ^ 128 + tail 1 * 2 ^ 160
          + tail 2 * 2 ^ 192 + tail 3 * 2 ^ 224)
      ∧ ∀ slot, slot ≠ u.tail.toNat % 32 → fgetD u'.ring slot 0 = fgetD u.ring slot 0)
  ∧ (q.exec ≠ 0 → Completes (exec (.cpys h x) s) (if x.field 14 3 = 4 then with_ { u with err := 0, stopped := false } else s) q q.w h.sw
      fun _ _ => { pend := [{ regs := [(x.d.toNat, read)] }] })

/-- R108, R161, R352: LAUNCH ends the chains of its path, and writes the 16 words of the lowest executing lane to the ring slot at write_idx
of a queue of its context, when its lanes have no result outstanding, the ring has room and the slot translates, and advances write_idx; no
other byte and no register changes. While results are outstanding or the ring is full it has not issued. A poisoned line that the slot
covers whole loses its mark (R249), and no other does. R24, R25, R108, R319, R324, R353: SIGWAKE, whose executing lanes name one queue of
their context, acts in them in ascending order: it ORs the value into the queue's wake register and the hub posts a soft-interrupt record,
with the next number of its arbiter. With .mb each executing lane's value is a soft interrupt of its core, in the same order; those that
wait, of cores of which no quarter can judge any more the cycle that the core has begun, are numbered one after another by the arbiter of
their die, and each is posted to that die's Jasper under its number; that a core's cycle is over then is the model's reading (log entry 10).
-/
def Obligations.LaunchAndSigwake : Prop :=
  (
    ∀ (h : Hdr) (x : Ext) (s : State) (q : Gang) (k : Nat) (hd : DWord),
    gangOf s h x.words = some q →
    let e : Gang := { q with w := q.w.mapIn q.mask fun _ l => { l with chain := l.chain.map fun c => { c with ended := true } } }
    (q.exec = 0 → Completes (exec (.launch h x) s) s e e.w h.sw fun _ _ => {})
    ∧ (q.exec ≠ 0 →
        let u := s.queueOf k
        let ctx := s.ctxOf q.w
        let lead := lowest q.exec
        let va := u.ringBase + BitVec.ofNat 64 (64 * (u.writeIdx.toNat % 2 ^ u.ringLog))
        let ps := piecesAt s ctx va 64 lead .store
        let bytes : List Byte := (List.range 16).flatMap fun j => bytesOf 4 ((q.lane lead).rd (q.env lead) j (x.a.toNat + j)).toNat
        let stored : List (Nat × Byte) := (ps.flatMap fun p => (List.range p.len).map fun j => p.pa + j).zip bytes
        let full : Prop := 2 ^ u.ringLog ≤ (u.writeIdx - u.readIdx).toNat
        (∀ i, i < 32 → bitAt q.exec i = true → ((q.lane i).rd (q.env i) 40 x.b.toNat).toNat % 4096 = k
            ∧ (q.lane i).rdW (q.env i) 2 (x.a.toNat + 2) = hd) →
        u.ctx = some ctx → u.state ≠ 2 →
          (q.pending = true ∨ full → CompletesAs (exec (.launch h x) s) s e e.w e.w.slices false fun _ _ => {})
          ∧ (q.pending = false → ¬full → faultAt s ctx va 64 lead .store = none → ∃ m : MemSys,
              Completes (exec (.launch h x) s) ((s.setMem m).modQueue k fun u => { u with writeIdx := u.writeIdx + 1 }) e e.w h.sw
                (fun _ _ => { region := some q.next })
              ∧ m.reds = s.mem.reds ∧ m.late = s.mem.late ∧ m.keyGens = s.mem.keyGens ∧ m.keyBits = s.mem.keyBits
              ∧ m.poison = s.mem.poison.filter (fun l => !(ps.any fun p =>
                  decide (p.pa ≤ 64 * l.1 ∧ 64 * l.1 + 64 ≤ p.pa + p.len)))
              ∧ (∀ key b, (∀ p ∈ ps, ¬(p.pa / 64 ≤ b / 64 ∧ b / 64 ≤ (p.pa + p.len - 1) / 64)) → physByte m key b = physByte s.mem key b)
              ∧ ∀ κ, (∀ p ∈ ps, p.key = κ) → ∀ b, physByte m κ b = (lastFor stored b).getD (physByte s.mem κ b))))
  ∧ (
    ∀ (h : Hdr) (x : Ext) (s : State) (q : Gang), gangOf s h x.words = some q →
    let ctx := s.ctxOf q.w
    let g := s.wgOf q.w
    let val (i : Nat) : Word := (q.lane i).rd (q.env i) 2 x.b.toNat
    (∀ k, (∀ i, i < 32 → bitAt q.exec i = true → ((q.lane i).rd (q.env i) 0 x.a.toNat).toNat % 4096 = k) →
        (s.queueOf k).ctx = some ctx → (s.queueOf k).state ≠ 2 →
      ∃ S : Nat → State, S 0 = s ∧ (∀ i, i < 32 → bitAt q.exec i = false → S (i + 1) = S i)
        ∧ (∀ i, i < 32 → bitAt q.exec i = true →
            let n := fgetD (S i).hub.seqs 4 0 + 1
            let u := (S i).queueOf k
            S (i + 1) = ((S i).modHub fun b => { b with seqs := fset b.seqs 4 n, queues := fset b.queues k { u with
              wake := u.wake ||| val i
              records := u.records ++ [recordOf n (clockOf s 4) 2 ((val i).toNat * 2 ^ 16 + g.num * 2 ^ 48 + g.core / 48 * 2 ^ 80)] } }))
        ∧ Completes (exec (.sigwake h x) s) (S 32) q q.w h.sw fun _ _ => { region := some q.next })
    ∧ (q.exec = 0 → Completes (exec (.sigwake h x) s) s q q.w h.sw fun _ _ => {})
    ∧ ∃ S : Nat → State, S 0 = s ∧ (∀ i, i < 32 → bitAt q.exec i = false → S (i + 1) = S i)
        ∧ (∀ i, i < 32 → bitAt q.exec i = true → S (i + 1) = (S i).modHub fun b => { b with soft := b.soft ++ [(q.wk / 64, val i)] })
        ∧ Completes (exec (.sigwakeMb h x) s) (S 32) q q.w h.sw (fun _ _ => { region := some q.next })
        ∧ ∀ u : State,
            let had (c k : Nat) : Prop := fgetD (u.coreOf c).cycles k 0 = (List.range 4).foldl (fun n k => max n (fgetD (u.coreOf c).cycles k 0)) 0
            let holds (c k : Nat) : Prop := k < 4 ∧ ∃ p ∈ u.warps, coreOfKey p.1 = c ∧ quarterOfKey p.1 = k
            let waiting := u.hub.soft.filter fun p => cycleOpen u p.1
            let gone := u.hub.soft.filter fun p => !cycleOpen u p.1
            (∀ c, cycleOpen u c = true ↔ ∃ k, holds c k ∧ ¬had c k ∧ ∀ j, k < j → holds c j → ¬had c j)
            ∧ ∃ N : Nat → State, { N 0 with cores := u.cores } = u.modHub (fun b => { b with soft := waiting })
              ∧ (∀ c, { (N 0).coreOf c with cycles := (u.coreOf c).cycles } = u.coreOf c) ∧ numberSoft u = N gone.length
              ∧ ∀ i, i < gone.length →
                let p := gone.getD i (0, 0)
                let d := p.1 / 48
                let n := fgetD (N i).hub.seqs d 0 + 1
                N (i + 1) = (N i).modHub fun b =>
                  { b with seqs := fset b.seqs d n, notices := fset b.notices d (fgetD b.notices d [] ++ [.mail n p.2]) })

/-- R95, R337, R348: REFILL gives identifiers of the die's lane block to the eligible vacant lanes, in ascending order while one remains, if
the gang has an executing lane. A filled lane has the launch's arguments in v0 and v1 and its other words as before, a wgen one higher, and
only pd set; it starts at the next instruction in its slice. Each executing lane that is not filled clears pd; no other lane changes. That
the slots which a handler has set aside count when a lane's eligibility is judged is the model's choice (log entry 51). R336: a die's lane
block gives its identifiers one by one; an empty one takes the next block of the die's chunk, up to a multiple of 32, and a used-up chunk
the next of the launch's identifiers, up to a multiple of 4,096. -/
def Obligations.RefillAndLaneBlocks : Prop :=
  (
    ∀ (h : Hdr) (x : Ext) (s : State) (q : Gang) (L : Launch),
    gangOf s h x.words = some q → s.launch? (s.wgOf q.w).launch = some L →
    let slice (i : Nat) : Slice := q.w.slices.getD (i / 4) {}
    let may (i : Nat) : Prop := (q.lane i).vacant = true ∧ (sub4 q.mask (i / 4) ≠ 0 ∨ ((slice i).slots = [] ∧ (slice i).aside = []))
    ∃ (Ls : Nat → Launch) (id : Nat → Option Nat) (w' : Warp),
      Ls 0 = L
      ∧ (∀ i, i < 32 → ¬(q.exec ≠ 0 ∧ may i) → id i = none ∧ Ls (i + 1) = Ls i)
      ∧ (∀ i, i < 32 → q.exec ≠ 0 → may i →
          match (Ls i).takeLane (q.wk / 3072) with
          | none => id i = none ∧ Ls (i + 1) = Ls i
          | some (y, L') => id i = some y ∧ Ls (i + 1) = L')
      ∧ exec (.refill h x) s = .next ((s.modLaunch (s.wgOf q.w).launch fun _ => Ls 32).setWarp q.wk w').done
      ∧ { w' with lanes := q.w.lanes, slices := q.w.slices } = q.w
      ∧ w'.lanes.length = q.w.lanes.length
      ∧ (∀ i, i < q.w.lanes.length → (32 ≤ i ∨ id i = none) → (q.lane i).Becomes true (w'.lane i)
          (if bitAt q.exec i then { p := [(x.d.toNat, false)], region := some q.next } else {}))
      ∧ ∀ i y, i < q.w.lanes.length → i < 32 → id i = some y →
          let l := w'.lane i
          l.vacant = false ∧ l.wid = BitVec.ofNat 64 y ∧ l.wgen = (q.lane i).wgen + 1 ∧ l.fst = 0 ∧ l.slv = 0x28
          ∧ l.v 0 = lo32 L.hdr.args ∧ l.v 1 = hi32 L.hdr.args ∧ (∀ n, 2 ≤ n → l.v n = (q.lane i).v n)
          ∧ (∀ n, n < 7 → l.p n = decide (n = x.d.toNat)) ∧ (∀ n, l.h n = 0 ∧ l.rm n = 1) ∧ l.region = q.next ∧ l.pend = []
          ∧ l.wait = none ∧ l.park = none
          ∧ (i / 4 < q.w.slices.length → ∃ a ∈ (w'.slices.getD (i / 4) {}).slots, a.pc = q.next ∧ bitAt a.mask (i % 4) = true))
  ∧ (
    ∀ (L : Launch) (die : Nat),
    let d := L.die die
    let gives (L' : Launch) (x lo hi clo chi : Nat) (pool : List (Nat × Nat)) : Prop :=
      L'.die die = { chunkLo := clo, chunkHi := chi, laneLo := lo, laneHi := hi } ∧ x + 1 = lo ∧ L'.pool = pool
      ∧ (∀ e, e ≠ die → L'.die e = L.die e) ∧ L' = { L with pool := L'.pool, dies := L'.dies }
    (d.laneLo < d.laneHi → ∃ L', L.takeLane die = some (d.laneLo, L')
      ∧ gives L' d.laneLo (d.laneLo + 1) d.laneHi d.chunkLo d.chunkHi L.pool)
    ∧ (d.laneHi ≤ d.laneLo → d.chunkLo < d.chunkHi → ∃ L', L.takeLane die = some (d.chunkLo, L')
        ∧ let e := min d.chunkHi ((d.chunkLo / 32 + 1) * 32)
          gives L' d.chunkLo (d.chunkLo + 1) e e d.chunkHi L.pool)
    ∧ (d.laneHi ≤ d.laneLo → d.chunkHi ≤ d.chunkLo → L.pool = [] → L.takeLane die = none)
    ∧ (d.laneHi ≤ d.laneLo → d.chunkHi ≤ d.chunkLo → ∀ lo hi t, L.pool = (lo, hi) :: t → ∃ L', L.takeLane die = some (lo, L')
        ∧ let c := min hi ((lo / 4096 + 1) * 4096)
          let e := min c ((lo / 32 + 1) * 32)
          gives L' lo (lo + 1) e e c (if c < hi then (c, hi) :: t else t)))

/-- R349: at a REGRP every lane of the gang parks, with its guard, and its chain ends. R350: placing groups of lanes on available positions
loses no lane, keeps their order, and gives no position twice. R101, R103, R349, R350: when the REGRP at which a warp's lanes are parked
issues, and what it does. It issues when in the workgroup's warps, none of which is stopped, has a cause or runs a handler, no lane parked
there has a result outstanding, no barrier of the workgroup holds an arrival, and every lane that is not vacant is parked there, or,
partially, every other one is parked at a join, a warp-wide instruction or a REGRP and no join releases (that a REGRP counts there is log
entry 94; the stopped warps are log entry 52); else nothing happens. The lanes parked there, sorted by key and stably by their old places,
are placed in their groups on the positions that no absent lane holds. Each position that gets an item takes from it the registers of the
run, the predicates, the shape registers with their row masks, the identifiers, %fst and %slv, with WPART at a partial issue, and opens a
region at the next instruction; its other registers stay; one that no item gets becomes vacant; absent lanes stay as they are. Of each
position whose occupant changed, the bits in every join go. The placed lanes of a slice enter one slot at the next instruction, or, where it
has no room, wait for their DIVERGE_OVF. -/
def Obligations.RegroupInstruction : Prop :=
  (
    (∀ (h : Hdr) (x : Ext) (s : State) (q : Gang), gangOf s h x.words = some q →
      CompletesAs (exec (.regrp h x) s) s q q.w (q.w.takeOut q.mask).slices true fun k _ =>
        if bitAt q.mask k then { park := some { pc := q.pc, why := .regrp (.regrp h x) (bitAt q.exec k) } } else {})
    ∧ (∀ (h : Hdr) (x : Ext) (s : State) (q : Gang), gangOf s h x.words = some q → ∃ w', exec (.regrp h x) s = .next (s.setWarp q.wk w').done
        ∧ ∀ k, k < q.w.lanes.length → (w'.lane k).chain =
            if bitAt q.mask k then (q.lane k).chain.map fun c => { c with ended := true } else (q.lane k).chain)
    ∧ ∀ (align : Nat) (avail : List Nat) (gs : List (List Item)) (padding : Bool), avail.Pairwise (fun a b => a < b) → (∀ g ∈ gs, g ≠ []) →
        (gs.map List.length).sum ≤ avail.length →
        let r := placeItems align avail gs 0 padding
        r.map (fun p => p.2) = gs.flatten ∧ (r.map fun p => p.1).Pairwise (fun a b => a < b) ∧ ∀ p ∈ r, p.1 ∈ avail)
  ∧ (
    ∀ (s : State) (wk : Nat) (pc : PC) (w : Warp) (g : Workgroup),
    s.event = some (.warpWideIssue wk pc) → s.warp? wk = some w → s.wg? w.wg = some g → (∃ n, (n, wk) ∈ g.warps) → w.wideReady pc = none →
    let ws : List (Nat × Warp) := g.warps.filterMap fun p => (s.warp? p.2).map fun v => (p.2, v)
    let regrpAt (p : Park) : Bool := decide (p.pc = pc) && match p.why with
      | .regrp .. => true
      | _ => false
    let here (v : Warp) (i : Nat) : Bool := ((v.lane i).park.map regrpAt).getD false
    let absent (v : Warp) (i : Nat) : Bool := bitAt v.live i && !here v i
    let quiet : Prop := (∀ p ∈ ws, p.2.stop = .running ∧ p.2.causes = [] ∧ p.2.trap = none
        ∧ ∀ i, i < 32 → here p.2 i = true → (p.2.lane i).busy = false)
      ∧ ∀ b ∈ g.bars, ∀ a ∈ b.arrived, a.2 = 0
    let all : Prop := ∀ p ∈ ws, ∀ i, i < 32 → absent p.2 i = false
    let stuck : Prop := ∀ p ∈ ws, p.2.joinReleases = false ∧ ∀ i, i < 32 → absent p.2 i = true → ∃ y, (p.2.lane i).park = some y
      ∧ ((∃ j, y.why = .join j) ∨ (∃ c b, y.why = .warpWide c b) ∨ ∃ c b, y.why = .regrp c b)
    ((∀ i, i < 32 → here w i = false) ∨ ¬quiet ∨ (¬all ∧ ¬stuck) → Happens .warpWideIssue s s)
    ∧ ((∃ i, i < 32 ∧ here w i = true) → quiet → all ∨ stuck → ∀ (h : Hdr) (x : Ext),
        (∀ p ∈ ws, p.2.lanes.length = 32 ∧ (∀ i, (p.2.lane i).wait = none)
          ∧ ∀ i y, (p.2.lane i).park = some y → regrpAt y = true → ∃ b, y.why = .regrp (.regrp h x) b) →
        (ws.Pairwise fun a b => a.1 ≠ b.1 ∧ a.2.widx < b.2.widx) →
        let guard (v : Warp) (i : Nat) : Bool := decide ((v.lane i).park.map (fun y => y.why) = some (.regrp (.regrp h x) true))
        let key (v : Warp) (i : Nat) : Nat := if guard v i then ((v.lane i).v x.a.toNat).toNat % 65536 else 65536
        let next := pc + BitVec.ofNat 64 (4 * x.words)
        ∃ (t : State) (part : Bool) (gs : List (List Item)), Happens .warpWideIssue s t ∧ t.mem = s.mem ∧ (part = false ↔ all)
          ∧ gs.flatten.Perm (ws.flatMap fun p => ((List.range 32).filter (here p.2)).map fun i => { key := key p.2 i, warp := p.2.widx, lane := i })
          ∧ (∀ l ∈ gs, l ≠ [] ∧ l.Pairwise fun a b => a.key = b.key ∧ (a.warp < b.warp ∨ a.warp = b.warp ∧ a.lane < b.lane))
          ∧ gs.Pairwise (fun k l => ∀ a ∈ k, ∀ b ∈ l, a.key < b.key)
          ∧ let avail := ws.flatMap fun p => ((List.range 32).filter fun i => !absent p.2 i).map fun i => 32 * p.2.widx + i
            let got := placeItems (if x.bit 18 then 32 else 4) avail gs 0 true
            ∀ p ∈ ws, ∃ v', t.warp? p.1 = some v' ∧ v'.lanes.length = 32
              ∧ (let filled (i : Nat) : Bool := got.any fun y => y.1 = 32 * p.2.widx + i
                 let stays (i : Nat) : Bool := got.any fun y => y.1 = 32 * p.2.widx + i ∧ y.2.warp = p.2.widx ∧ y.2.lane = i
                 let changed : Mask := maskOf fun i => (filled i || here p.2 i) && !stays i
                 let placed : Mask := maskOf filled
                 v'.joins = p.2.joins.map (fun j => { expect := j.expect &&& ~~~changed, arrived := j.arrived &&& ~~~changed })
                 ∧ v'.slices = mapFrom (fun k sl => if sub4 placed k = 0 then sl
                     else (sl.place [{ pc := next, mask := sub4 placed k }]).getD sl) 0 p.2.slices)
              ∧ ∀ i, i < 32 →
                let old := p.2.lane i
                let new := v'.lane i
                (∀ a, (32 * p.2.widx + i, a) ∈ got → ∀ o ∈ ws, o.2.widx = a.warp →
                  let src := o.2.lane a.lane
                  (∀ n, new.v n = if x.b.toNat ≤ n ∧ n < x.b.toNat + x.field 11 7 then src.v n else old.v n)
                  ∧ new.preds = src.preds ∧ new.shapes = src.shapes ∧ new.rowMasks = src.rowMasks ∧ new.wid = src.wid ∧ new.wgen = src.wgen
                  ∧ new.slv = src.slv ∧ new.fst = (if part then src.fst ||| 0x800 else src.fst) ∧ new.region = next
                  ∧ ((a.warp, a.lane) ≠ (p.2.widx, i) → new.vacant = false)
                  ∧ ∀ y, new.park = some y → y = { pc := next, why := .overflow })
                ∧ (here p.2 i = true → (∀ a, (32 * p.2.widx + i, a) ∉ got) → new.vacant = true ∧ new.park = none ∧ new.arrivals = [])
                ∧ (absent p.2 i = true → new.regs = old.regs ∧ new.preds = old.preds ∧ new.shapes = old.shapes ∧ new.rowMasks = old.rowMasks
                    ∧ new.wid = old.wid ∧ new.wgen = old.wgen ∧ new.fst = old.fst ∧ new.slv = old.slv ∧ new.region = old.region ∧ new.park = old.park
                    ∧ new.vacant = old.vacant ∧ new.wait = old.wait)))

/-- R148, R171, R172, R173: HSET writes an allowed shape value with the mask of all its rows, and traps with the lanes whose value is not
allowed; HGET reads the value, the row mask, or the footprint; HMOV copies a shape with its row mask, or sets the row mask of one. That
HSET's SHAPE has subcode 2 is the model's choice (log entry 38). -/
def Obligations.ShapeRegisters : Prop :=
  ∀ (h : Hdr) (x : Ext) (s : State) (q : Gang),
  let val (k : Nat) : Word := if x.bit 11 then BitVec.ofNat 32 (x.field 12 18) else opB (q.lane k) (q.env k) 0 x
  let allowed (v : Word) : Prop := v.toNat / 1024 % 16 ≤ 6 ∧ v.toNat / 2 ^ 14 % 4 ≤ 1 ∧ v.toNat / 2 ^ 16 % 4 ≤ 1 ∧ v.toNat / 2 ^ 18 = 0
  let rows (v : Word) : Word := maskOf fun i => decide (i ≤ v.toNat % 32)
  let bits (v : Word) : Nat := [64, 32, 16, 8, 8, 4, 32].getD (v.toNat / 1024 % 16) 0
  let bad : Mask := maskOf fun k => bitAt q.exec k && !Sh.ok (val k)
  (gangOf s h x.words = some q →
    ((∀ k, k < 32 → bitAt q.exec k = true → allowed (val k)) →
      Completes (exec (.hset h x) s) s q q.w h.sw fun k _ => { h := [(x.d.toNat, val k, rows (val k))] })
    ∧ ((∃ k, k < 32 ∧ bitAt q.exec k = true ∧ ¬allowed (val k)) → Traps (exec (.hset h x) s) s q
        { code := 0x0A, sub := 2, mask := bad, path := q.mask, pc := q.pc, resume := .region, cont := q.next })
    ∧ ∀ v, Sh.ok v = true ↔ allowed v)
  ∧ LaneRule (.hget h x) h x.words (fun e l => .word x.d.toNat (match x.field 11 2 with
      | 0 => l.h x.a.toNat
      | 1 => l.rdRm e 0 x.a.toNat &&& rows (l.h x.a.toNat)
      | _ =>
        let v := l.h x.a.toNat
        if v.toNat / 1024 % 16 ≤ 6 then BitVec.ofNat 32 (((v.toNat % 32 + 1) * (v.toNat / 32 % 32 + 1) * bits v + 31) / 32)
        else BitVec.ofNat 32 (Sh.dense v)))
  ∧ LaneRule (.hmov h x) h x.words (fun e l =>
      let v := l.h x.d.toNat
      if x.bit 11 then { h := [(x.d.toNat, v, l.rd e 0 x.a.toNat &&& rows v)] }
      else { h := [(x.d.toNat, l.h x.a.toNat, l.rdRm e 0 x.a.toNat)] })

/-- R150: the words of a dense view are as many as its footprint, hold each element row by row, and keep 0 in every bit above the last one.
R155, R156, R157, R158: the words made of kept elements with ascending positions in each group are a valid packed tile, and hold those
elements. -/
def Obligations.TileLayouts : Prop :=
  (
    ∀ (sh : Word) (f : Elems), Sh.ok sh = true →
    let r := Sh.rows sh
    let c := Sh.cols sh
    let b := Sh.bits sh
    let ws := denseWords sh f
    ws.length = (r * c * b + 31) / 32
    ∧ (∀ i j, i < r → j < c → f i j < 2 ^ b → elemsOf sh ws i j = f i j)
    ∧ ∀ n, r * c * b ≤ n → bitAt (ws.getD (n / 32) 0) (n % 32) = false)
  ∧ (
    ∀ (sh : Word) (n lg : Nat) (axis : Bool) (ks : List (Nat × Nat)),
    Sh.ety sh ≤ 6 → 1 ≤ lg → lg ≤ 4 → 1 ≤ n → n < 2 ^ lg → (if axis then Sh.rows sh else Sh.cols sh) % 2 ^ lg = 0 →
    ks.length = Sh.rows sh * Sh.cols sh / 2 ^ lg * n → (∀ p ∈ ks, p.1 < 2 ^ lg ∧ p.2 < 2 ^ Sh.bits sh) →
    (∀ k, k < ks.length → k % n ≠ 0 → (ks.getD (k - 1) (0, 0)).1 < (ks.getD k (0, 0)).1) →
      let ws := Tile.make sh n lg axis false ks
      Tile.ok sh ws = true ∧ ws.length = Tile.words sh (ws.getD 0 0)
      ∧ Tile.kept sh ws = (List.range ks.length).map fun k =>
          let p := ks.getD k (0, 0)
          let g := k / n
          if axis then (g / Sh.cols sh * 2 ^ lg + p.1, g % Sh.cols sh, p.2)
          else (g / (Sh.cols sh / 2 ^ lg), g % (Sh.cols sh / 2 ^ lg) * 2 ^ lg + p.1, p.2))

/-- R151, R152, R161, R174, R175, R179, R193: what MZERO, MFILL, the dense and packed MMOV, MEXT, MINS, and the dense MTRN leave in each
executing lane, element by element; rows that the row source does not admit keep theirs. That MMOV with d = a keeps every bit (log entry
43), and that MMOV, MEXT and MINS copy an s4 element 0b1000 without setting Q4Z (log entry 93), are the model's choices. -/
def Obligations.MatrixMoves : Prop :=
  ∀ (h : Hdr) (x : Ext),
  let d := x.d.toNat
  let a := x.a.toNat
  let hd := x.field 11 4
  let ha := x.field 15 4
  let D (l : Lane) : View := View.dense d (l.h hd)
  let A (l : Lane) : View := View.dense a (l.h ha)
  let ety (l : Lane) (r : Nat) : Nat := Sh.ety (l.h r)
  let same (l : Lane) : Prop := Sh.rows (l.h hd) = Sh.rows (l.h ha) ∧ Sh.cols (l.h hd) = Sh.cols (l.h ha) ∧ ety l hd = ety l ha
  let row0 (l : Lane) (e : Env) : Nat := (l.rd e 0 x.b.toNat).toNat % 32
  let col0 (l : Lane) (e : Env) : Nat := (l.rd e 0 x.b.toNat).toNat / 256 % 32
  let raw (l : Lane) (e : Env) : Nat := if ety l hd = 0 then (opBW l e 0 x).toNat else (opB l e 0 x).toNat % 2 ^ Sh.bits (l.h hd)
  let q4 (l : Lane) (e : Env) : Prop := ety l hd = 5 ∧ raw l e = 8
  let T (l : Lane) (e : Env) (r : Nat) : View := { reg := r, sh := l.h ha, words := Tile.words (l.h ha) (l.rdM e 1000 r) }
  MatPendRule (.mzero h x) h x.words (fun q l _ => l.fits q.g d hd) (fun l _ => [D l])
    (fun _ l => { regs := regRun d (denseWords (l.h hd) fun _ _ => 0), matrix := true })
  ∧ MatPendRule (.mfill h x) h x.words
    (fun q l _ => l.fits q.g d hd ∧ (ety l hd = 0 → x.litB = false → x.b.toNat % 2 = 0 ∧ x.b.toNat + 1 < q.g)) (fun l _ => [D l])
    (fun e l => { regs := regRun d (denseWords (l.h hd) fun i j => if (x.bit 27 = true ∧ i ≠ j) ∨ q4 l e then 0 else raw l e)
                  fst := if q4 l e then Flag.q4z else 0, matrix := true })
  ∧ MatPendRule (.mmov h x) h x.words (fun q l _ => l.fits q.g d hd ∧ l.fits q.g a ha ∧ same l ∧ (d = a ∨ l.apart d hd a ha))
    (fun l _ => [D l, A l])
    (fun e l => if d = a then { regs := regRun d (l.words e 1 (A l)), matrix := true }
      else denseOut (D l) (l.mat e 0 (D l)) (fun i => bitAt (l.rmM ha) i) (l.mat e 1 (A l)) 0)
  ∧ MatPendRule (.mmov h x) h x.words
    (fun q l e => Sh.packed (l.h hd) = true ∧ Sh.packed (l.h ha) = true ∧ same l ∧ (T l e a).words ≤ 256
      ∧ (ety l ha = 0 → d % 2 = 0 ∧ a % 2 = 0) ∧ d + (T l e a).words ≤ q.g ∧ a + (T l e a).words ≤ q.g
      ∧ (d = a ∨ d + (T l e a).words ≤ a ∨ a + (T l e a).words ≤ d) ∧ Tile.ok (l.h ha) (l.words e 1 (T l e a)) = true)
    (fun l e => [{ reg := d, sh := l.h hd, words := (T l e a).words }, T l e a])
    (fun e l => { regs := regRun d (l.words e 1 (T l e a)), matrix := true })
  ∧ MatPendRule (.mext h x) h x.words (fun q l e => l.fits q.g d hd ∧ l.fits q.g a ha ∧ ety l hd = ety l ha ∧ l.apart d hd a ha
      ∧ row0 l e + Sh.rows (l.h hd) ≤ Sh.rows (l.h ha) ∧ col0 l e + Sh.cols (l.h hd) ≤ Sh.cols (l.h ha)) (fun l _ => [D l, A l])
    (fun e l => denseOut (D l) (l.mat e 1 (D l)) (fun i => bitAt (l.rmM ha) (row0 l e + i))
      (fun i j => l.mat e 2 (A l) (row0 l e + i) (col0 l e + j)) 0)
  ∧ MatPendRule (.mins h x) h x.words (fun q l e => l.fits q.g d hd ∧ l.fits q.g a ha ∧ ety l hd = ety l ha ∧ l.apart d hd a ha
      ∧ row0 l e + Sh.rows (l.h ha) ≤ Sh.rows (l.h hd) ∧ col0 l e + Sh.cols (l.h ha) ≤ Sh.cols (l.h hd)) (fun l _ => [D l, A l])
    (fun e l => denseOut (D l) (l.mat e 1 (D l)) (fun _ => true) (fun i j =>
      if row0 l e ≤ i ∧ i < row0 l e + Sh.rows (l.h ha) ∧ col0 l e ≤ j ∧ j < col0 l e + Sh.cols (l.h ha) ∧ bitAt (l.rmM ha) (i - row0 l e) = true
      then l.mat e 2 (A l) (i - row0 l e) (j - col0 l e) else l.mat e 1 (D l) i j) 0)
  ∧ MatPendRule (.mtrn h x) h x.words (fun q l _ => l.fits q.g d hd ∧ l.fits q.g a ha ∧ ety l hd = ety l ha
      ∧ Sh.rows (l.h hd) = Sh.cols (l.h ha) ∧ Sh.cols (l.h hd) = Sh.rows (l.h ha) ∧ (d = a ∨ l.apart d hd a ha)) (fun l _ => [D l, A l])
    (fun e l => { regs := regRun d (denseWords (l.h hd) fun i j => l.mat e 1 (A l) j i), matrix := true })
  ∧ (let turned (l : Lane) (e : Env) : Prop := Sh.packed (l.h hd) = true ∧ Sh.packed (l.h ha) = true ∧ ety l hd = ety l ha ∧ ety l ha ≤ 6
        ∧ Sh.rows (l.h hd) = Sh.cols (l.h ha) ∧ Sh.cols (l.h hd) = Sh.rows (l.h ha)
        ∧ Tile.ok (l.h ha) (l.words e 1 (T l e a)) = true ∧ Tile.both ((l.words e 1 (T l e a)).getD 0 0) = true
     MatPendRule (.mtrn h x) h x.words
       (fun q l e => turned l e ∧ (T l e a).words ≤ 256 ∧ (ety l ha = 0 → d % 2 = 0 ∧ a % 2 = 0) ∧ d + (T l e a).words ≤ q.g
         ∧ a + (T l e a).words ≤ q.g ∧ (d = a ∨ d + (T l e a).words ≤ a ∨ a + (T l e a).words ≤ d))
       (fun l e => [{ reg := d, sh := l.h hd, words := (T l e a).words }, T l e a]) (laneMtrn x)
     ∧ ∀ l e, turned l e → ∃ ws, laneMtrn x e l = { regs := regRun d ws, matrix := true } ∧ Tile.ok (l.h hd) ws = true
         ∧ ∀ i j y, (i, j, y) ∈ Tile.kept (l.h hd) ws ↔ (j, i, y) ∈ Tile.kept (l.h ha) (l.words e 1 (T l e a)))

/-- R151, R194, R195: what MEW and MRED leave in each executing lane. A MEW element is one rounded operation on the elements, or on an
element and the scalar; a sum of MRED is exact and rounded once, or modulo 2^32; only admitted rows enter, and a reduction over nothing
leaves its element. When a sum with infinities of both signs and a NaN sets INV is the model's choice (log entry 89). -/
def Obligations.MatrixArithmetic : Prop :=
  ∀ (h : Hdr) (x : Ext),
  let d := x.d.toNat
  let a := x.a.toNat
  let b := x.b.toNat
  let hd := x.field 11 4
  let ha := x.field 15 4
  let hb := x.field 19 4
  let D (l : Lane) : View := View.dense d (l.h hd)
  let A (l : Lane) : View := View.dense a (l.h ha)
  let B (l : Lane) : View := View.dense b (l.h hb)
  let same (l : Lane) (r : Nat) : Prop :=
    Sh.rows (l.h hd) = Sh.rows (l.h r) ∧ Sh.cols (l.h hd) = Sh.cols (l.h r) ∧ Sh.ety (l.h hd) = Sh.ety (l.h r)
  let rnd := x.field 27 3
  let sat := x.bit 30
  let flags (l : Lane) (rowOn : Nat → Bool) (f : Nat → Nat → Word) : Word := orFlags (Sh.rows (l.h hd)) (Sh.cols (l.h hd)) rowOn f
  let int (t : Nat) (p : Int → Int → Int) (y z : Nat) : Nat × Word :=
    let r := p (readInt t y).1 (readInt t z).1
    let lo : Int := if t = 4 then -128 else if t = 5 then -7 else -(2 ^ 31)
    let hi : Int := if t = 4 then 127 else if t = 5 then 7 else 2 ^ 31 - 1
    (((max lo (min hi r)) % 2 ^ ([8, 4, 32].getD (t - 4) 0)).toNat,
      (if r < lo ∨ hi < r then Flag.sat else 0) ||| (readInt t y).2 ||| (readInt t z).2)
  let mew (i : Instr) (f : Nat → Nat → Nat → Nat × Word) : Prop :=
    MatPendRule i h x.words (fun q l _ => l.fits q.g d hd ∧ l.fits q.g a ha ∧ l.fits q.g b hb ∧ same l ha ∧ same l hb ∧ Sh.ok (l.h hd) = true
        ∧ (d = a ∨ l.apart d hd a ha) ∧ (d = b ∨ l.apart d hd b hb)) (fun l _ => [D l, A l, B l])
      fun e l =>
        let r (i j : Nat) := f (Sh.ety (l.h hd)) (l.mat e 1 (A l) i j) (l.mat e 2 (B l) i j)
        let rowOn (i : Nat) : Bool := bitAt (l.rmM ha) i
        denseOut (D l) (l.mat e 0 (D l)) rowOn (fun i j => (r i j).1) (flags l rowOn fun i j => (r i j).2)
  let mred (i : Instr) (rows cols : Word → Nat) (src : Lane → Env → Nat → Nat → List Nat) : Prop :=
    MatPendRule i h x.words (fun q l _ => l.fits q.g d hd ∧ l.fits q.g a ha ∧ Sh.ok (l.h ha) = true ∧ l.apart d hd a ha
        ∧ Sh.rows (l.h hd) = rows (l.h ha) ∧ Sh.cols (l.h hd) = cols (l.h ha) ∧ Sh.ety (l.h hd) = [0, 1, 1, 1, 6, 6, 6].getD (Sh.ety (l.h ha)) 6
        ∧ (x.field 27 2 = 3 → Sh.ety (l.h ha) ≤ 3)) (fun l _ => [D l, A l])
      fun e l =>
        let t := Sh.ety (l.h ha)
        let old := l.mat e 0 (D l)
        let r (i j : Nat) : Nat × Word :=
          let xs := src l e i j
          let vs := xs.map fun y => (readInt t y).1
          let sum := vs.foldl (fun u v => u + v) (0 : Int)
          if xs = [] then (old i j, 0)
          else if t ≤ 3 then reduceFloat (x.field 27 2) t xs  -- the last clause says what this is
          else (match x.field 27 2 with
              | 0 => (sum % 2 ^ 32).toNat
              | 1 => ((vs.drop 1).foldl max (vs.headD 0) % 2 ^ 32).toNat
              | _ => ((vs.drop 1).foldl min (vs.headD 0) % 2 ^ 32).toNat,
            xs.foldl (fun w y => w ||| (readInt t y).2) 0 ||| if x.field 27 2 = 0 ∧ (sum < -(2 ^ 31) ∨ 2 ^ 31 ≤ sum) then Flag.iovf else 0)
        denseOut (D l) old (fun _ => true) (fun i j => (r i j).1) (flags l (fun _ => true) fun i j => (r i j).2)
  let on (l : Lane) (i : Nat) : Bool := bitAt (l.rmM ha) i
  mew (.mewAdd h x) (fun t y z => if t ≤ 3 then floatAdd (fmtOf t) rnd sat y z else int t (fun u v => u + v) y z)
  ∧ mew (.mewSub h x) (fun t y z => if t ≤ 3 then floatAdd (fmtOf t) rnd sat y (signMod (fmtOf t) false true z) else int t (fun u v => u - v) y z)
  ∧ mew (.mewMul h x) (fun t y z => if t ≤ 3 then floatMul (fmtOf t) rnd sat y z else int t (fun u v => u * v) y z)
  ∧ mew (.mewMax h x) (fun t y z => if t ≤ 3 then minMax (fmtOf t) true y z else int t max y z)
  ∧ mew (.mewMin h x) (fun t y z => if t ≤ 3 then minMax (fmtOf t) false y z else int t min y z)
  ∧ MatPendRule (.mewScale h x) h x.words (fun q l _ => l.fits q.g d hd ∧ l.fits q.g a ha ∧ same l ha ∧ Sh.ok (l.h hd) = true
        ∧ (d = a ∨ l.apart d hd a ha) ∧ (Sh.ety (l.h hd) = 0 → b % 2 = 0 ∧ b + 1 < q.g)) (fun l _ => [D l, A l])
      (fun e l =>
        let t := Sh.ety (l.h hd)
        let y : Nat := if t = 0 then (l.rdW e 9000 b).toNat else (l.rd e 9000 b).toNat
        let r (i j : Nat) : Nat × Word :=
          let u := l.mat e 1 (A l) i j
          if t ≤ 3 then
            let p := FReal.mul (unpack (fmtOf t) u) (unpack (if t = 0 then .f64 else .f32) y)
            ((roundTo (fmtOf t) rnd sat p.1).1, (roundTo (fmtOf t) rnd sat p.1).2 ||| p.2)
          else int t (fun v _ => v * sextInt 32 y) u 0
        denseOut (D l) (l.mat e 0 (D l)) (on l) (fun i j => (r i j).1) (flags l (on l) fun i j => (r i j).2))
  ∧ mred (.mredRow h x) Sh.rows (fun _ => 1) (fun l e i _ =>
      if on l i then (List.range (Sh.cols (l.h ha))).map fun c => l.mat e 1 (A l) i c else [])
  ∧ mred (.mredCol h x) (fun _ => 1) Sh.cols (fun l e _ j =>
      ((List.range (Sh.rows (l.h ha))).filter (on l)).map fun r => l.mat e 1 (A l) r j)
  ∧ mred (.mredAll h x) (fun _ => 1) (fun _ => 1) (fun l e _ _ =>
      ((List.range (Sh.rows (l.h ha))).filter (on l)).flatMap fun r => (List.range (Sh.cols (l.h ha))).map fun c => l.mat e 1 (A l) r c)
  ∧ ∀ (t : Nat) (xs : List Nat), t ≤ 3 → xs ≠ [] →
      let f := fmtOf t
      let out : Nat := if t = 0 then 0 else 1
      let signals : Prop := ∃ y ∈ xs, unpack f y = .nan true
      let sig : Word := if signals then Flag.inv else 0
      let extreme (top : Bool) : Nat := (xs.drop 1).foldl (fun m y => (minMax f top m y).1) (xs.headD 0)
      (∃ r, SumRounds (fmtOf out) (xs.map (unpack f)) r ∧ reduceFloat 0 t xs = (r.1, r.2 ||| sig))
      ∧ reduceFloat 1 t xs = ((convert out t 0 false (extreme true)).1, sig)
      ∧ reduceFloat 2 t xs = ((convert out t 0 false (extreme false)).1, sig)
      ∧ (reduceFloat 3 t xs).2 = sig
      ∧ ((∃ y ∈ xs, (unpack f y).isNan = true) → (reduceFloat 3 t xs).1 = (fmtOf out).nan)
      ∧ ((∀ y ∈ xs, (unpack f y).isNan = false) → ∃ y ∈ xs, (reduceFloat 3 t xs).1 = (convert out t 0 false (signMod f true false y)).1
          ∧ ∀ z ∈ xs, signMod f true false z ≤ signMod f true false y)

/-- R196, R197, R200, R201, R203: what MPRN, MTOPK and MGNORM leave in each executing lane. MPRN keeps exactly N of each M elements, none of
them below one that it drops, and its tile holds them as they are; with .tr it keeps N diagonals of each block. MTOPK keeps in each admitted
row, in rank order, the candidates that rank highest, empty entries last. MGNORM divides each value of a row by their exact sum, rounded
once, or gives all of them 1/k' with GATE. -/
def Obligations.MatrixSelection : Prop :=
  ∀ (h : Hdr) (x : Ext),
  let d := x.d.toNat
  let a := x.a.toNat
  let hd := x.field 11 4
  let ha := x.field 15 4
  let D (l : Lane) : View := View.dense d (l.h hd)
  let A (l : Lane) : View := View.dense a (l.h ha)
  let topState (l : Lane) : Prop := Sh.ety (l.h hd) = 1 ∧ Sh.cols (l.h hd) % 2 = 0
  let ask (l : Lane) (e : Env) : Word := BitVec.ofNat 32 ((l.rd e 0 x.b.toNat).toNat % 512 + if x.bit 27 then 512 else 0)
  let P (l : Lane) (e : Env) : View := { reg := d, sh := l.h hd, words := Tile.words (l.h hd) (ask l e) }
  let entry (m : Elems) (r k : Nat) : TopEntry := (m r (2 * k), m r (2 * k + 1))
  let empty : TopEntry := (0xFFFFFFFF, 0xFFFFFFFF)
  MatPendRule (.mprn h x) h x.words
    (fun q l e => l.fits q.g a ha ∧ Sh.packed (l.h hd) = true ∧ Sh.same (l.h hd) (l.h ha) = true ∧ Tile.sized (ask l e) = true
      ∧ Tile.fits (l.h hd) (ask l e) = true ∧ (P l e).words ≤ 256 ∧ (Sh.ety (l.h hd) = 0 → d % 2 = 0) ∧ d + (P l e).words ≤ q.g
      ∧ (d + (P l e).words ≤ a ∨ a + Sh.dense (l.h ha) ≤ d)) (fun l e => [P l e, A l]) (laneMprn x)
  ∧ (∀ (t : Nat) (w : Word) (am : Elems) (i j : Nat), Tile.sized w = true → Tile.axis w = false →
      let m := Tile.group w
      let kept (c : Nat) : Bool := prnKeeps t w false am i (j * m + c)
      ((List.range m).filter kept).length = Tile.keep w
      ∧ ∀ c e, c < m → e < m → kept c = true → kept e = false → (magOf t (am i (j * m + e))).above (magOf t (am i (j * m + c))) = false
          ∧ ((magOf t (am i (j * m + c))).above (magOf t (am i (j * m + e))) = true ∨ c < e))
  ∧ (∀ (t : Nat) (w : Word) (am : Elems) (i j : Nat), Tile.sized w = true → Tile.axis w = true →
      let m := Tile.group w
      let kept (c : Nat) : Bool := prnKeeps t w false am (i * m + c) j
      ((List.range m).filter kept).length = Tile.keep w
      ∧ ∀ c e, c < m → e < m → kept c = true → kept e = false → (magOf t (am (i * m + e) j)).above (magOf t (am (i * m + c) j)) = false
          ∧ ((magOf t (am (i * m + c) j)).above (magOf t (am (i * m + e) j)) = true ∨ c < e))
  ∧ (∀ (t : Nat) (w : Word) (am : Elems) (i j : Nat), Tile.sized w = true →
      let m := Tile.group w
      let kept (r c : Nat) : Bool := prnKeeps t w true am (i * m + r) (j * m + c)
      let diag (s : Nat) : Mag := magSum ((List.range m).map fun k => magOf t (am (i * m + k) (j * m + (k + s) % m)))
      (∀ r, r < m → ((List.range m).filter fun c => kept r c).length = Tile.keep w ∧ ((List.range m).filter fun c => kept c r).length = Tile.keep w)
      ∧ (∀ r c, r < m → c < m → kept r c = kept 0 ((c + m - r) % m))
      ∧ ∀ s u, s < m → u < m → kept 0 s = true → kept 0 u = false → (diag u).above (diag s) = false ∧ ((diag s).above (diag u) = true ∨ s < u))
  ∧ (∀ (l : Lane) (e : Env), Sh.packed (l.h hd) = true → Sh.same (l.h hd) (l.h ha) = true → Sh.ety (l.h ha) ≤ 6 → Tile.sized (ask l e) = true →
      Tile.fits (l.h hd) (ask l e) = true →
        let t := Sh.ety (l.h ha)
        let am : Elems := l.mat e 1 (A l)
        ∃ ws, (laneMprn x e l).regs = regRun d ws ∧ Tile.ok (l.h hd) ws = true ∧ (ws.getD 0 0).toNat % 1024 = (ask l e).toNat
          ∧ (∀ i j v, i < Sh.rows (l.h hd) → j < Sh.cols (l.h hd) →
              ((∃ p ∈ Tile.kept (l.h hd) ws, p.1 = i ∧ p.2.1 = j ∧ p.2.2 = v) ↔
                prnKeeps t (ask l e) (x.bit 27) am i j = true ∧ v = if t = 5 ∧ am i j = 8 then 0 else am i j))
          ∧ (let zero : Prop := t = 5 ∧ ∃ i j, i < Sh.rows (l.h ha) ∧ j < Sh.cols (l.h ha) ∧ am i j = 8
             (zero → (laneMprn x e l).fst = Flag.q4z) ∧ (¬zero → (laneMprn x e l).fst = 0)))
  ∧ MatPendRule (.mtopk h x) h x.words
    (fun q l _ => l.fits q.g d hd ∧ l.fits q.g a ha ∧ topState l ∧ (Sh.ety (l.h ha) = 1 ∨ Sh.ety (l.h ha) = 2)
      ∧ Sh.rows (l.h ha) = Sh.rows (l.h hd) ∧ l.apart d hd a ha) (fun l _ => [D l, A l]) (laneMtopk x)
  ∧ (∀ (l : Lane) (e : Env), topState l → ∃ new : Elems,
      laneMtopk x e l = denseOut (D l) (l.mat e 0 (D l)) (fun i => bitAt (l.rmM ha) i) new 0
      ∧ ∀ r, r < Sh.rows (l.h hd) →
          let k := Sh.cols (l.h hd) / 2
          let base := (l.rd e 9000 x.b.toNat).toNat
          let isHeld (p : TopEntry) : Prop := x.bit 27 = false ∧ ∃ i, i < k ∧ p = entry (l.mat e 0 (D l)) r i
          let isNew (p : TopEntry) : Prop := p.2 ≠ 0xFFFFFFFF ∧ ∃ j, j < Sh.cols (l.h ha)
            ∧ p = ((convert 1 (Sh.ety (l.h ha)) 0 false (l.mat e 1 (A l) r j)).1, (base + j) % 2 ^ 32)
          (∀ i, i < k → isHeld (entry new r i) ∨ isNew (entry new r i) ∨ (x.bit 27 = true ∧ entry new r i = empty))
          ∧ (∀ i j, i < j → j < k → TopEntry.above (entry new r j) (entry new r i) = false)
          ∧ ∀ p, isHeld p ∨ isNew p → (∀ i, i < k → entry new r i ≠ p) → ∀ i, i < k → TopEntry.above p (entry new r i) = false)
  ∧ MatPendRule (.mgnorm h x) h x.words (fun q l _ => l.fits q.g d hd ∧ topState l) (fun l _ => [D l]) (laneMgnorm x)
  ∧ ∀ (l : Lane) (e : Env), topState l → ∃ (new : Elems) (fl : Word),
      laneMgnorm x e l = denseOut (D l) (l.mat e 0 (D l)) (fun i => bitAt (l.rmM hd) i) new fl
      ∧ let k := Sh.cols (l.h hd) / 2
        let old (r i : Nat) : TopEntry := entry (l.mat e 0 (D l)) r i
        let full (r : Nat) : List Nat := (List.range k).filter fun i => (old r i).2 ≠ 0xFFFFFFFF
        let num (y : Nat) : ℚ := match unpack .f32 y with
          | .fin _ m ex => (m : ℚ) * (2 : ℚ) ^ ex
          | _ => 0
        let sum (r : Nat) : ℚ := ((full r).map fun i => num (old r i).1).sum
        let uniform (r : Nat) : Prop := (∃ i ∈ full r, ∀ z m ex, unpack .f32 (old r i).1 ≠ .fin z m ex) ∨ sum r < (2 : ℚ) ^ (-126 : Int)
        let gates : Prop := ∃ r, r < Sh.rows (l.h hd) ∧ bitAt (l.rmM hd) r = true ∧ full r ≠ [] ∧ uniform r
        (gates → fl = Flag.gate) ∧ (¬gates → fl = 0)
        ∧ ∀ r i, r < Sh.rows (l.h hd) → i < k → (entry new r i).2 = (old r i).2
          ∧ (i ∉ full r → entry new r i = old r i)
          ∧ (i ∈ full r → uniform r → (entry new r i).1 = (roundRat .f32 0 false false 1 (full r).length 0).1)
          ∧ (i ∈ full r → ¬uniform r → ∀ z m ex, unpack .f32 (old r i).1 = .fin z m ex →
              (m = 0 → (entry new r i).1 = Fmt.f32.signed z 0)
              ∧ (m ≠ 0 → ∃ (n d : Nat) (e' : Int), 0 < n ∧ 0 < d ∧ (entry new r i).1 = (roundRat .f32 0 false (decide (m < 0)) n d e').1
                  ∧ (n : ℚ) / d * (2 : ℚ) ^ e' = |num (old r i).1 / sum r|))

/-- R150, R151, R152, R176, R177, R178, R226, R248: MLD writes the elements that it finds in the scratchpad, row by row at its stride, and
the row mask that the validity area gives; MST stores its lanes in ascending order and changes no byte outside their tiles, and no register:
each lane stores the bits of its admitted rows, 0 in the bits of a row's last byte that no element has, and with .v the row mask in the
validity area, and no other bit. A double-bit error in a word that is read makes the instruction raise SCRATCH_UE and leave no result, and
MST stores nothing then; it reads the words that it merges with alone: those of the validity area that it updates, those at stride 0 that
hold bits both of a stored row and of one that is not, and the word of a row's last bytes. Such an error in a header or index word of a
packed MLD stands before every check that needs the word, which is the model's choice (log entry 102). That a dense MLD writes the bits
beyond the last element as 0, at stride 0 too, and that row0 offsets the rows without .v as well, are the model's choices (log entry 40). -/
def Obligations.MatrixLoadStore : Prop :=
  ∀ (h : Hdr) (x : Ext),
  let hd := x.field 11 4
  let T (s : State) (q : Gang) (k : Nat) : Tiling := mldTiling x s q.w (q.env k) (q.lane k)
  let uses (s : State) (q : Gang) (k : Nat) : List ScratchUse := mldReads s q.w (T s q k)
  let U (q : Gang) (k : Nat) : Tiling := mstTiling x (q.env k) (q.lane k)
  let keeps (q : Gang) (k : Nat) : List ScratchUse := mstReads x q.w.wg (q.lane k) (U q k)
  MatRule (.mld h x) h x.words (fun s q k => (T s q k).check (x.bit 27) q.g (allocOfWarp s q.w) (mldTile s q.w (T s q k)) = 0)
    (fun s q k => (q.lane k).chainMeets [(T s q k).view])
    (fun o s q =>
      (ueLanes s q.exec (uses s q) = 0 → Completes o (fixReads s q.exec (uses s q)) q q.w h.sw fun k _ =>
        let t := T s q k
        let sh := t.view.sh
        let g := s.wgOf q.w
        let b := Sh.bits sh
        let area := ofBytes (scratchRead q.w.wg g t.base t.area)
        let words : List Word := scratchWords q.w.wg g t.data t.view.words
        { pend := [{ regs := regRun x.d.toNat (if Sh.packed sh then words else denseWords sh fun i j =>
                       if t.stride = 0 then elemsOf sh words i j
                       else ofBytes (scratchRead q.w.wg g (t.data + (t.row0 + i) * t.stride) t.rowLen) / 2 ^ (j * b) % 2 ^ b)
                     rows := [(hd, maskOf fun i => decide (i < Sh.rows sh) && (!x.bit 27 || area.testBit (t.row0 + i)))], matrix := true }] })
      ∧ (ueLanes s q.exec (uses s q) ≠ 0 → Completes o (fixReads s q.exec (uses s q)) q q.w h.sw fun k _ =>
        { pend := if bitAt (ueLanes s q.exec (uses s q)) k then [raisePend 0x31 (q.env k) true] else [] }))
  ∧ MatRule (.mst h x) h x.words (fun s q k =>
      (U q k).check (x.bit 27) q.g (allocOfWarp s q.w) (some ((q.lane k).words (q.env k) 2 (U q k).view)) = 0)
    (fun _ q k => (q.lane k).chainMeets [(U q k).view])
    (fun o s q =>
      (ueLanes s q.exec (keeps q) ≠ 0 → Completes o (fixReads s q.exec (keeps q)) q q.w h.sw fun k _ =>
        { pend := if bitAt (ueLanes s q.exec (keeps q)) k then [raisePend 0x31 (q.env k) true] else [] })
      ∧ (ueLanes s q.exec (keeps q) = 0 → ∃ S : State,
      Completes o S q q.w h.sw (fun _ _ => {})
      ∧ S = (lanesOf q.exec).foldl (fun t k => laneMst x q.w.wg (q.env k) (q.lane k) t) (fixReads s q.exec (keeps q))
      ∧ { S with wgs := s.wgs, hub := s.hub } = s ∧ { S.hub with launches := s.hub.launches } = s.hub
      ∧ ∀ j g, s.wg? j = some g → ∃ c e, S.wg? j = some { g with scratch := c, scratchErr := e }
          ∧ ∀ b, (j = q.w.wg → ∀ k, k < 32 → bitAt q.exec k = true → b < (U q k).base ∨ (U q k).top ≤ b) →
              scratchGet j { g with scratch := c, scratchErr := e } b = scratchGet j g b))
  ∧ (∀ (s : State) (w : Warp) (sh : Word) (data : Nat),
      let g := s.wgOf w
      let alloc := allocOfWarp s w
      let hdr := (scratchWords w.wg g data 1).getD 0 0
      let n := if Tile.headOk sh hdr then 1 + Tile.idxWords sh hdr else 1
      mldLost s w sh data = if Sh.packed sh = false ∨ alloc < data + 4 then 0 else if scratchUe g data 4 = true then 1
        else if data + 4 * n ≤ alloc ∧ scratchUe g data (4 * n) = true then n else 0)
  ∧ ∀ (wg g alloc : Nat) (tile : Option (List Word)) (e : Env) (l : Lane) (u : State) (w : Workgroup),
      let t := mstTiling x e l
      let sh := t.view.sh
      let b := Sh.bits sh
      let rows := Sh.rows sh
      let rowBits := Sh.cols sh * b
      let ws := l.words e 2 t.view
      let on (i : Nat) : Prop := bitAt (l.rmM (x.field 15 4)) i = true
      t.check (x.bit 27) g alloc tile = 0 → u.wg? wg = some w → ∃ w', (laneMst x wg e l u).wg? wg = some w' ∧
        let bit (w : Workgroup) (off n : Nat) : Bool := (scratchGet wg w (off + n / 8)).toNat.testBit (n % 8)
        let free (n : Nat) : Prop := Sh.packed sh = true ∨ rows * rowBits ≤ n ∨ on (n / rowBits)
        let at_ (i : Nat) : Nat := t.data + (t.row0 + i) * t.stride
        (∀ r : ScratchUse, r ∈ mstReads x wg l t ↔ r.wg = wg ∧
          ((∃ k, 4 * k < t.area ∧ 32 * k < t.row0 + rows ∧ t.row0 < 32 * k + 32 ∧ r.off = t.base + 4 * k ∧ r.len = 4)
          ∨ (t.stride = 0 ∧ ∃ k, k < t.view.words ∧ (∃ n, n < 32 ∧ free (32 * k + n)) ∧ (∃ n, n < 32 ∧ ¬free (32 * k + n))
              ∧ r.off = t.data + 4 * k ∧ r.len = 4)
          ∨ (t.stride ≠ 0 ∧ ∃ i, i < rows ∧ on i ∧ (rowBits + 7) / 8 % 4 ≠ 0 ∧ r.off = at_ i + (rowBits + 7) / 8 / 4 * 4
              ∧ r.len = (rowBits + 7) / 8 % 4))) ∧
        (∀ n, n < 8 * t.area → bit w' t.base n =
          if t.row0 ≤ n ∧ n < t.row0 + rows then bitAt (l.rmM (x.field 15 4)) (n - t.row0) else bit w t.base n)
        ∧ (t.stride ≠ 0 → ∀ i n, i < rows → n < 8 * ((rowBits + 7) / 8) →
            (on i → bit w' (at_ i) n = (decide (n < rowBits) && (elemsOf sh ws i (n / b)).testBit (n % b)))
            ∧ (¬on i → bit w' (at_ i) n = bit w (at_ i) n))
        ∧ (t.stride = 0 → ∀ n, n < 32 * t.view.words →
            (free n → bit w' t.data n = bitAt (ws.getD (n / 32) 0) (n % 32)) ∧ (¬free n → bit w' t.data n = bit w t.data n))
        ∧ ∀ a, (a < t.base ∨ t.data ≤ a) → (t.stride = 0 → a < t.data ∨ t.data + 4 * t.view.words ≤ a) →
            (t.stride ≠ 0 → ∀ i, i < rows → on i →
              a < at_ i ∨ at_ i + (rowBits + 7) / 8 ≤ a) →
            scratchGet wg w' a = scratchGet wg w a

/-- R151, R159, R163, R164, R165, R185, R187, R189, R190, R191, R192: a multiply whose lanes pass its checks leaves in each executing lane
its result, and its chain. Of MMA, MMT and MTM, D(i, j) is the summation of A_t(i, κ) × B_t(κ, j) in ascending κ from C(i, j), or from 0
with .z, in the rows that the row source admits; MMS forms only the products of kept positions. In MMG, row scatter(e) of D is that of row
gather(e) of A and, with .p, the B of entry e's row block, for the entries that A's row mask admits; a lane whose index block R191 does not
accept fails its check, but of a block with a double-bit error nothing is judged, and MMG reads no more than it, which is the model's choice
(log entry 102). That a .p block with bs = 0 has no bptr word is the model's choice (log entry 97). -/
def Obligations.MultiplyInstructions : Prop :=
  ∀ (h : Hdr) (x : Ext),
  let multiply (i : Instr) (plan : State → Gang → Nat → MulPlan) : Prop :=
    MatRule i h x.words (fun s q k => (plan s q k).check = 0) (fun s q k => !(plan s q k).continues (q.lane k)) fun o s q =>
      let uses (k : Nat) : List ScratchUse := (plan s q k).uses
      ueLanes s q.exec uses = 0 →
        Completes o (fixReads s q.exec uses) q q.w true (fun k _ => { pend := [(plan s q k).result] })
        ∧ (h.sw = false → ∃ t w', o = .next t ∧ t.warp? q.wk = some w' ∧ ∀ k, k < q.w.lanes.length → bitAt q.exec k = true →
            (w'.lane k).chain = some ((plan s q k).chain (q.lane k) q.next))
  let hd := x.field 11 4
  let sums (kind : MulKind) (rowSrc : Nat) : Prop := ∀ (s : State) (q : Gang) (k : Nat),
    let l := q.lane k
    let e := q.env k
    let hA := l.h (x.field 15 4)
    let hB := l.h (x.field 19 4)
    let D := View.dense x.d.toNat (l.h hd)
    let plan := planOf kind x s q k
    let b : Elems := if x.bit 27 then
        padMat s q.w (l.rd e 2 x.b.toNat + BitVec.ofNat 32 (4 * x.c.toNat)).toNat hB
      else l.mat e 3 (View.dense x.b.toNat hB)
    let a : Elems := l.mat e 1 (View.dense x.a.toNat hA)
    let kept := Tile.kept hA (l.words e 1 (l.viewOf e 1 x.a.toNat hA))
    let dim : Nat := match kind with
      | .mtm => Sh.rows hA
      | _ => Sh.cols hA
    let c : Elems := if x.bit 29 then fun _ _ => 0 else if x.bit 27 then l.mat e 0 D else l.mat e 4 (View.dense x.c.toNat (l.h (x.field 23 4)))
    let at_ (i κ : Nat) : Option Nat := match kind with
      | .mms => (kept.find? fun p => p.1 = i && p.2.1 = κ).map fun p => p.2.2
      | .mtm => some (a κ i)
      | _ => some (a i κ)
    let bt (κ j : Nat) : Nat := match kind with
      | .mmt => b j κ
      | _ => b κ j
    let r (i j : Nat) : Nat × Word := mulElem (Sh.ety hA) (Sh.ety D.sh) dim (c i j)
      ((List.range dim).filterMap fun κ => (at_ i κ).map fun y => { k := κ, a := y, b := bt κ j })
    let rowOn (i : Nat) : Bool := bitAt (l.rmM rowSrc) i
    plan.check = 0 →
      plan.result = denseOut D (l.mat e 0 D) rowOn (fun i j => (r i j).1) (orFlags (Sh.rows D.sh) (Sh.cols D.sh) rowOn fun i j => (r i j).2)
  multiply (.mma h x) (planOf .mma x) ∧ multiply (.mmt h x) (planOf .mmt x) ∧ multiply (.mtm h x) (planOf .mtm x)
  ∧ multiply (.mms h x) (planOf .mms x) ∧ multiply (.mmg h x) (planMmg x)
  ∧ sums .mma (x.field 15 4) ∧ sums .mmt (x.field 15 4) ∧ sums .mtm hd ∧ sums .mms hd
  ∧ ∀ (s : State) (q : Gang) (k : Nat),
      let l := q.lane k
      let e := q.env k
      let w := s.wgOf q.w
      let hA := l.h (x.field 15 4)
      let hB := l.h (x.field 19 4)
      let D := View.dense x.d.toNat (l.h hd)
      let plan := planMmg x s q k
      let p := x.bit 30
      let off := (l.rd e 6 x.c.toNat).toNat
      let byte (n : Nat) : Nat := (scratchGet q.w.wg w (off + n)).toNat
      let n := byte 0
      let bs := byte 1
      let gather (y : Nat) : Nat := byte (4 + y)
      let scatter (y : Nat) : Nat := byte (4 + n + y)
      let ptr (y : Nat) : Nat := ofBytes (scratchRead q.w.wg w (off + 4 + 4 * ((n + 1) / 2) + 4 * y) 4)
      let len : Nat := if p = true then 4 + 4 * ((n + 1) / 2) + (if bs = 0 then 0 else 4 * ((n + bs - 1) / bs)) else 4 + 2 * n
      let outside : Prop := allocOfWarp s q.w < off + 4 ∨ allocOfWarp s q.w < off + len
      let bad : Prop := n = 0 ∨ 32 < n ∨ (p = true ∧ (bs = 0 ∨ 32 < bs)) ∨ (p = false ∧ bs ≠ 0) ∨ byte 2 ≠ 0 ∨ byte 3 ≠ 0
        ∨ (∃ y, y < n ∧ (Sh.rows hA ≤ gather y ∨ Sh.rows D.sh ≤ scatter y)) ∨ ∃ y z, y < z ∧ z < n ∧ scatter y = scatter z
      let b (y : Nat) : Elems := if p = true then padMat s q.w (ptr (y / bs)) hB
        else if x.bit 27 = true then padMat s q.w (l.rd e 2 x.b.toNat).toNat hB else l.mat e 3 (View.dense x.b.toNat hB)
      let dim := Sh.cols hA
      let old : Elems := l.mat e 0 D
      let r (y j : Nat) : Nat × Word := mulElem (Sh.ety hA) (Sh.ety D.sh) dim (if x.bit 29 = true then 0 else old (scatter y) j)
        ((List.range dim).map fun κ => { k := κ, a := l.mat e 1 (View.dense x.a.toNat hA) (gather y) κ, b := b y κ j })
      let broken : Prop := off % 4 = 0 ∧ ((off + 4 ≤ allocOfWarp s q.w ∧ scratchUe w off 4 = true)
        ∨ (off + len ≤ allocOfWarp s q.w ∧ scratchUe w off len = true))
      (¬broken → off % 4 ≠ 0 ∨ outside → plan.check ≠ 0)
      ∧ (¬broken → off % 4 = 0 → ¬outside → bad → plan.check = 1 ∨ plan.check = 2)
      ∧ (broken → plan.uses = [{ wg := q.w.wg, off := off, len := if scratchUe w off 4 = true then 4 else len }])
      ∧ (¬broken → plan.check = 0 → ∃ (rowOn : Nat → Bool) (new : Nat → Nat → Nat × Word),
          plan.result = denseOut D old rowOn (fun i j => (new i j).1) (orFlags (Sh.rows D.sh) (Sh.cols D.sh) rowOn fun i j => (new i j).2)
          ∧ (∀ i, i < Sh.rows D.sh → (rowOn i = true ↔ ∃ y, y < n ∧ scatter y = i ∧ bitAt (l.rmM (x.field 15 4)) (gather y) = true))
          ∧ ∀ y j, y < n → j < Sh.cols D.sh → bitAt (l.rmM (x.field 15 4)) (gather y) = true → new (scatter y) j = r y j)

/-- R140, R163, R164, R165, R166, R167, R185: an FP32 element of a multiply adds its products, which are exact, in blocks of 8 in ascending
k, each block exactly to the accumulator and rounded once, and a narrower result rounds the last accumulator once more (INV of a block with
a NaN and infinities of both signs is log entry 89); an integer element is exact modulo 2^32, with IOVF when the sum lies outside the range,
and an FP64 one is a chain of fused steps; and the checks that an integer chain of one multiply ends with agree with what it has written, so
that its drain finds nothing. R161, R167, R168: a lane whose open chain drains loses it; with checks that agree nothing else changes, one
wrong element that a row and a column find is replaced, and otherwise the destination is undefined. Draining the chains of a mask of lanes
leaves every other lane alone, counts the corrections in the launch, and raises MATRIX_UE with the lanes that have an error left. -/
def Obligations.MultiplySumsAndDrains : Prop :=
  (
    (∀ (t d n c : Nat) (ts : List Term), 4 ≤ t → t ≤ 6 →
      let sum : Int := ts.foldl (fun u p => u + (readInt t p.a).1 * (readInt t p.b).1) (sextInt 32 c)
      (mulElem t d n c ts).1 = (sum % 2 ^ 32).toNat
      ∧ ((mulElem t d n c ts).2 &&& Flag.iovf ≠ 0 ↔ sum < -(2 ^ 31) ∨ 2 ^ 31 ≤ sum))
    ∧ (∀ (n c : Nat) (ts : List Term),
      let r := ts.foldl (fun y p => (floatFma .f64 0 false p.a p.b y).1) c
      (mulElem 0 0 n c ts).1 = if (unpack .f64 r).isNan then Fmt.f64.nan else r)
    ∧ (∀ (t d n c : Nat) (ts : List Term), 1 ≤ t → t ≤ 3 → d = 1 ∨ d = 2 →
      let prod (p : Term) : FReal × Word := FReal.mul (unpack (fmtOf t) p.a) (unpack (fmtOf t) p.b)
      ∃ acc : Nat → FReal × Word,
        acc 0 = (unpack (fmtOf d) c, if unpack (fmtOf d) c = .nan true then Flag.inv else 0)
        ∧ (∀ b, let ps := (ts.filter fun p => p.k / 8 = b).map prod
            (ps = [] → acc (b + 1) = acc b)
            ∧ (ps ≠ [] → ∃ r, SumRounds .f32 ((acc b).1 :: ps.map fun p => p.1) r
                ∧ acc (b + 1) = (unpack .f32 r.1, ps.foldl (fun u p => u ||| p.2) ((acc b).2 ||| r.2))))
        ∧ let y := acc ((n + 7) / 8)
          mulElem t d n c ts = ((roundTo (fmtOf d) 0 false y.1).1, y.2 ||| (roundTo (fmtOf d) 0 false y.1).2))
    ∧ (∀ (z z' s s' g : Bool) (m e m' e' : Int) (y : FReal),
        let neg (z : Bool) (m : Int) : Bool := if m = 0 then z else decide (m < 0)
        FReal.mul (.fin z m e) (.fin z' m' e') = (.fin (neg z m != neg z' m') (m * m') (e + e'), 0)
        ∧ FReal.mul (.inf s) (.inf s') = (.inf (s != s'), 0)
        ∧ (m ≠ 0 → FReal.mul (.inf s) (.fin z m e) = (.inf (s != neg z m), 0) ∧ FReal.mul (.fin z m e) (.inf s) = (.inf (s != neg z m), 0))
        ∧ FReal.mul (.inf s) (.fin z 0 e) = (.nan false, Flag.inv) ∧ FReal.mul (.fin z 0 e) (.inf s) = (.nan false, Flag.inv)
        ∧ (FReal.mul (.nan g) y).1 = .nan false ∧ (FReal.mul y (.nan g)).1 = .nan false
        ∧ ((FReal.mul (.nan g) y).2 = if g = true ∨ y = .nan true then Flag.inv else 0)
        ∧ ((FReal.mul y (.nan g)).2 = if g = true ∨ y = .nan true then Flag.inv else 0))
    ∧ ∀ (p : MulPlan) (l : Lane) (next : PC), 4 ≤ p.mv.ety → p.mv.ety ≤ 6 → Sh.ety p.d.sh = 6 → p.mv.m = Sh.rows p.d.sh → p.mv.n = Sh.cols p.d.sh →
        p.mv.bs.length = 1 → (∀ b ∈ p.mv.blk, b = 0) → p.continues l = false →
        (p.chain l next).compare (fun i j => if p.mv.admits i then (p.elem i j).1 else rowsAt p.old i j) = .clean)
  ∧ (
    (∀ (l : Lane) (free lane : Nat) (c : Chain), l.chain = some c → l.pend = [] →
      let d := elemsOf c.shape ((List.range (Sh.dense c.shape)).map fun k => l.v (c.dst + k))
      (l.drain free lane).2 = c.compare d ∧ (l.drain free lane).1.chain = none
      ∧ (∀ n, n < c.dst ∨ c.dst + Sh.dense c.shape ≤ n → (l.drain free lane).1.v n = l.v n)
      ∧ { (l.drain free lane).1 with regs := l.regs, chain := l.chain } = l
      ∧ (c.compare d = .clean → (l.drain free lane).1.regs = l.regs)
      ∧ (c.compare d = .bad → ∀ k, k < Sh.dense c.shape → (l.drain free lane).1.v (c.dst + k) = Config.anyWord free lane (c.dst + k))
      ∧ ∀ i j y, c.compare d = .fixed i j y → ∀ k, k < Sh.dense c.shape →
          (l.drain free lane).1.v (c.dst + k) = (denseWords c.shape fun i' j' => if i' = i ∧ j' = j then y else d i' j').getD k 0)
    ∧ ∀ (s : State) (wk : Nat) (m : Mask) (w : Warp), s.warp? wk = some w →
        let found (k : Nat) : Chain.Found := ((w.lane k).drain s.free k).2
        let ue : Mask := maskOf fun k => bitAt m k && decide (found k = .bad)
        let r := drainLanes s wk m
        r.2 = ue
        ∧ ∃ w', r.1.warp? wk = some w' ∧ w'.lanes.length = w.lanes.length ∧ w'.slices = w.slices
          ∧ (∀ L, s.launch? (s.wgOf w).launch = some L → r.1.launch? (s.wgOf w).launch = some { L with
              matCorr := L.matCorr + ((lanesOf m).filter fun k => found k != .clean && found k != .bad).length })
          ∧ (ue = 0 → w'.causes = w.causes)
          ∧ (ue ≠ 0 → ∃ c : Cause, w'.causes = w.causes ++ [c] ∧ c.code = 0x30 ∧ c.mask = ue ∧ c.path = ue ∧ c.resume = .none)
          ∧ ∀ k, k < w.lanes.length → (w'.lane k).regs = (if bitAt m k then ((w.lane k).drain s.free k).1 else w.lane k).regs
              ∧ (w'.lane k).preds = (w.lane k).preds ∧ (w'.lane k).shapes = (w.lane k).shapes
              ∧ (bitAt m k = true → (w'.lane k).chain = none))

/-- R152, R153: a matrix instruction some of whose executing lanes fail a check traps by the lowest step that a lane fails, with exactly the
lanes that fail that step as %tmask, and no lane has an effect. -/
def Obligations.MatrixCheckOrder : Prop :=
  ∀ (h : Hdr) (x : Ext),
  let n := x.words
  let D (q : Gang) (k : Nat) : View := View.dense x.d.toNat ((q.lane k).h (x.field 11 4))
  let past (b : Bool) (j : Nat) : Nat := if b then j else 0
  let first (a b : Nat) : Nat := if a ≠ 0 then a else b
  MatTraps (.mzero h x) h n (fun _ q k => first (past (D q k).badDense 2) (past ((D q k).past q.g) 3))
  ∧ MatTraps (.mfill h x) h n (fun _ q k =>
      let wide := decide (Sh.ety (D q k).sh = 0) && !x.litB
      first (past ((D q k).badDense || (wide && decide (x.b.toNat % 2 = 1))) 2)
        (past ((D q k).past q.g || (wide && decide (q.g ≤ x.b.toNat + 1))) 3))
  ∧ MatTraps (.mmov h x) h n (fun _ q k => movCheck x (q.env k) q.g (q.lane k))
  ∧ MatTraps (.mext h x) h n (fun _ q k => blockCheck false x (q.env k) q.g (q.lane k))
  ∧ MatTraps (.mins h x) h n (fun _ q k => blockCheck true x (q.env k) q.g (q.lane k))
  ∧ MatTraps (.mld h x) h n (fun s q k =>
      let t := mldTiling x s q.w (q.env k) (q.lane k)
      t.check (x.bit 27) q.g (allocOfWarp s q.w) (mldTile s q.w t))
  ∧ MatTraps (.mst h x) h n (fun s q k =>
      let t := mstTiling x (q.env k) (q.lane k)
      t.check (x.bit 27) q.g (allocOfWarp s q.w) (some ((q.lane k).words (q.env k) 2 t.view)))
  ∧ MatTraps (.mtrn h x) h n (fun _ q k => trnCheck x (q.env k) q.g (q.lane k))
  ∧ MatTraps (.mewAdd h x) h n (fun _ q k => ewCheck false x q.g (q.lane k)) ∧ MatTraps (.mewSub h x) h n (fun _ q k => ewCheck false x q.g (q.lane k))
  ∧ MatTraps (.mewMul h x) h n (fun _ q k => ewCheck false x q.g (q.lane k)) ∧ MatTraps (.mewMax h x) h n (fun _ q k => ewCheck false x q.g (q.lane k))
  ∧ MatTraps (.mewMin h x) h n (fun _ q k => ewCheck false x q.g (q.lane k)) ∧ MatTraps (.mewScale h x) h n (fun _ q k => ewCheck true x q.g (q.lane k))
  ∧ MatTraps (.mredRow h x) h n (fun _ q k => redCheck .row x q.g (q.lane k)) ∧ MatTraps (.mredCol h x) h n (fun _ q k => redCheck .col x q.g (q.lane k))
  ∧ MatTraps (.mredAll h x) h n (fun _ q k => redCheck .all x q.g (q.lane k)) ∧ MatTraps (.mprn h x) h n (fun _ q k => prnCheck x (q.env k) q.g (q.lane k))
  ∧ MatTraps (.mtopk h x) h n (fun _ q k => topkCheck x q.g (q.lane k))
  ∧ MatTraps (.mgnorm h x) h n (fun _ q k => first (past (!topkShape (D q k).sh || (D q k).bad) 2) (past ((D q k).past q.g) 3))
  ∧ MatTraps (.mma h x) h n (fun s q k => (planOf .mma x s q k).check) ∧ MatTraps (.mmt h x) h n (fun s q k => (planOf .mmt x s q k).check)
  ∧ MatTraps (.mtm h x) h n (fun s q k => (planOf .mtm x s q k).check) ∧ MatTraps (.mms h x) h n (fun s q k => (planOf .mms x s q k).check)
  ∧ MatTraps (.mmg h x) h n (fun s q k => (planMmg x s q k).check)
  ∧ MatTraps (.mlu h x) h n (fun _ q k => (mluPlan x (q.env k) (q.lane k)).check) ∧ MatTraps (.mchol h x) h n (fun _ q k => (mcholPlan x (q.env k) (q.lane k)).check)
  ∧ MatTraps (.mqr h x) h n (fun _ q k => (mqrPlan x (q.env k) (q.lane k)).check) ∧ MatTraps (.mtrs h x) h n (fun _ q k => (mtrsPlan x (q.env k) (q.lane k)).check)
  ∧ MatTraps (.msolv h x) h n (fun _ q k => (msolvPlan x (q.env k) (q.lane k)).check) ∧ MatTraps (.minv h x) h n (fun _ q k => (minvPlan x (q.env k) (q.lane k)).check)
  ∧ MatTraps (.mexp h x) h n (fun _ q k => (mexpPlan x (q.env k) (q.lane k)).check) ∧ MatTraps (.mpow h x) h n (fun _ q k => (mpowPlan x (q.env k) (q.lane k)).check)

/-- R205, R207, R208, R209, R210, R212: a solve whose lanes pass its checks leaves the result of its algorithm in each executing lane, and
acts as a switch point when one of them has act 2, where a small pivot raises SING_TRAP with the result. A pivot is small when its magnitude
is at most τ; it sets SING, and with act 1 REG, and is replaced by its sign times τ_r. A source that is not finite gives canonical NaNs.
After a parity error in its cells a solve writes undefined words and raises MATRIX_UE as it completes (log entry 79: where an error strikes
is free). R205, R215, R216, R217, R218, R219, R220, R221, R222: the results of the solves when every source element is finite: what the
algorithm of each gives on the sources read in P, each element converted to its destination's type. A sweep solves its unknowns in order,
each from those before it; a product adds its terms in ascending order; the factors of order 2, the reflection of one column, and the powers
are written out. -/
def Obligations.SolveInstructions : Prop :=
  (
    (∀ (h : Hdr) (x : Ext),
      let solves (i : Instr) (plan : Env → Lane → SolvePlan) : Prop :=
        MatRule i h x.words (fun _ q k => (plan (q.env k) (q.lane k)).check = 0)
          (fun _ q k => (q.lane k).chainMeets (plan (q.env k) (q.lane k)).views) fun o s q =>
            let act2 := (lanesOf q.exec).any fun k => decide ((q.lane k).slv.toNat / 64 % 4 = 2)
            Completes o s q q.w (h.sw || act2) (fun k l =>
              let p := (plan (q.env k) l).pend
              { pend := [if l.parity then
                  { regs := p.regs.map fun r => (r.1, Config.anyWord s.free k r.1), matrix := true, raise := some { code := 0x30, sub := 0, pc := q.next, cont := q.next } }
                else p] })
            ∧ ∀ k, (plan (q.env k) (q.lane k)).pend.raise =
                if (q.lane k).slv.toNat / 64 % 4 = 2 ∧ (plan (q.env k) (q.lane k)).small = true
                then some { code := 0x20, sub := 0, pc := q.next, cont := q.next } else none
      solves (.mlu h x) (mluPlan x) ∧ solves (.mchol h x) (mcholPlan x) ∧ solves (.mqr h x) (mqrPlan x) ∧ solves (.mtrs h x) (mtrsPlan x)
      ∧ solves (.msolv h x) (msolvPlan x) ∧ solves (.minv h x) (minvPlan x) ∧ solves (.mexp h x) (mexpPlan x) ∧ solves (.mpow h x) (mpowPlan x))
    ∧ (∀ (c : SolveCfg) (tau p : Nat) (acc : SolveAcc), c.p ≤ 1 →
      let w := if c.p = 0 then 64 else 32
      let mag := p % 2 ^ (w - 1)
      let norm := if c.p = 0 then 2 ^ 52 else 2 ^ 23
      p < 2 ^ w →
        ((c.isNan p = false ∧ mag ≤ tau) →
          (c.pivot tau p).run acc = (if c.act = 1 then (if 2 ^ (w - 1) ≤ p then 2 ^ (w - 1) else 0) + max tau norm else p,
            { fl := acc.fl ||| Flag.sing ||| (if c.act = 1 then Flag.reg else 0), small := true }))
        ∧ (¬(c.isNan p = false ∧ mag ≤ tau) → (c.pivot tau p).run acc = (p, acc)))
    ∧ ∀ (x : Ext) (e : Env) (l : Lane),
        let A := View.dense x.a.toNat (l.h (x.field 15 4))
        let B := View.dense x.b.toNat (l.h (x.field 19 4))
        let D := View.dense x.d.toNat (l.h (x.field 11 4))
        let p := if bitsAt (l.h (x.field 15 4)) 16 2 = 1 then 1 else 0
        let all (_ _ : Nat) : Bool := true
        let lo (i j : Nat) : Bool := decide (j ≤ i)
        let tri (i j : Nat) : Bool := (if x.bit 27 then decide (j ≤ i) else decide (i ≤ j)) && !(x.bit 28 && i == j)
        let spoils (plan : SolvePlan) (dests : List View) (srcs : List (View × (Nat → Nat → Bool))) (more : List (Nat × Word)) : Prop :=
          let reads (k : Nat) (v : View) (i j : Nat) : Prop := ∃ r, srcs[k]? = some (v, r) ∧ i < Sh.rows v.sh ∧ j < Sh.cols v.sh ∧ r i j = true
          let raw (k : Nat) (v : View) (i j : Nat) : Nat := l.mat e (k + 1) v i j
          let signals : Prop := ∃ k v i j, reads k v i j ∧ unpack (fmtOf (Sh.ety v.sh)) (raw k v i j) = .nan true
          plan.check = 0 → (∃ k v i j, reads k v i j ∧ exactOf p (convert p (Sh.ety v.sh) 0 false (raw k v i j)).1 = none) →
            plan.small = false ∧ ∃ fl : Word,
              plan.pend = { regs := (dests.flatMap fun v => regRun v.reg (denseWords v.sh fun _ _ => (fmtOf (Sh.ety v.sh)).nan)) ++ more, fst := fl, matrix := true }
              ∧ (signals → fl = Flag.inv) ∧ (¬signals → fl = 0)
        spoils (mluPlan x e l) [D] [(A, all)] (regRun x.c.toNat (packElems 8 (Sh.rows A.sh) fun i => i))
        ∧ spoils (mcholPlan x e l) [D] [(A, lo)] [] ∧ spoils (mqrPlan x e l) (if x.bit 27 then [D] else [D, B]) [(A, all)] []
        ∧ spoils (mtrsPlan x e l) [D] [(A, tri), (B, all)] [] ∧ spoils (msolvPlan x e l) [D] [(A, all), (B, all)] []
        ∧ spoils (minvPlan x e l) [D] [(A, all)] [] ∧ spoils (mexpPlan x e l) [D] [(A, all)] [] ∧ spoils (mpowPlan x e l) [D] [(A, all)] [])
  ∧ (
    (∀ (x : Ext) (e : Env) (l : Lane),
      let A := View.dense x.a.toNat (l.h (x.field 15 4))
      let B := View.dense x.b.toNat (l.h (x.field 19 4))
      let D := View.dense x.d.toNat (l.h (x.field 11 4))
      let c : SolveCfg := { p := if bitsAt (l.h (x.field 15 4)) 16 2 = 1 then 1 else 0, pexp := l.slv.toNat % 64, act := l.slv.toNat / 64 % 4, free := e.free, lane := e.lane }
      let n := Sh.rows A.sh
      let r := Sh.cols B.sh
      let mat (k : Nat) (v : View) : Mat := (List.range (Sh.rows v.sh)).map fun i => (List.range (Sh.cols v.sh)).map fun j =>
        (convert c.p (Sh.ety v.sh) 0 false (l.mat e k v i j)).1
      let finite (k : Nat) (v : View) (m : Nat → Nat → Bool) : Prop := ∀ i j, i < Sh.rows v.sh → j < Sh.cols v.sh → m i j = true →
        exactOf c.p (rowsAt (mat k v) i j) ≠ none
      let all (_ _ : Nat) : Bool := true
      let out (v : View) (y : Mat) : List (Nat × Word) := regRun v.reg (denseWords v.sh fun i j => (convert (Sh.ety v.sh) c.p 0 false (rowsAt y i j)).1)
      let gives (plan : SolvePlan) (m : Solve (List (Nat × Word))) : Prop := plan.check = 0 → ∀ acc, plan.pend.regs = (m.run acc).1
      (finite 1 A all →
        gives (mluPlan x e l) (do let y ← c.lu n (mat 1 A); pure (out D y.1 ++ regRun x.c.toNat (packElems 8 n fun i => y.2.getD i i)))
        ∧ gives (mqrPlan x e l) (do let y ← c.qr (x.bit 27) n (Sh.cols A.sh) (mat 1 A); pure (out D y.1 ++ if x.bit 27 then [] else out B y.2))
        ∧ gives (minvPlan x e l) (do let y ← c.solve n n (mat 1 A) (c.eye n n); pure (out D y))
        ∧ gives (mexpPlan x e l) (do let y ← c.expm n (mat 1 A); pure (out D y))
        ∧ gives (mpowPlan x e l) (do let y ← c.pow n (l.rd e 9000 x.b.toNat).toInt (mat 1 A); pure (out D y)))
      ∧ (finite 1 A (fun i j => decide (j ≤ i)) → gives (mcholPlan x e l) (do let y ← c.chol n (mat 1 A); pure (out D y)))
      ∧ (finite 1 A (fun i j => (if x.bit 27 then decide (j ≤ i) else decide (i ≤ j)) && !(x.bit 28 && i == j)) → finite 2 B all →
          gives (mtrsPlan x e l) (do let y ← c.trs (x.bit 27) (x.bit 28) (x.bit 29) n r (mat 1 A) (mat 2 B); pure (out D y)))
      ∧ (finite 1 A all → finite 2 B all → gives (msolvPlan x e l) (do
          let y ← if x.bit 27 then c.luSolve n r (mat 1 A) (pivotBytes (l.words e 3 (pivotRun x.c.toNat n)) n) (mat 2 B) else c.solve n r (mat 1 A) (mat 2 B)
          pure (out D y))))
    ∧ ∀ (c : SolveCfg) (acc : SolveAcc), c.p ≤ 1 →
      let f := fmtOf c.p
      let fma (u v w : Nat) : Nat := (floatFma f 0 false u v w).1
      let div (u v : Nat) : Nat := (floatDiv f u v).1
      let sqrt (u : Nat) : Nat := (floatSqrt f u).1
      let neg (u : Nat) : Nat := signMod f false true u
      let sub (u : Nat) (ps : List (Nat × Nat)) : Nat := ps.foldl (fun v p => fma (neg p.1) p.2 v) u
      let piv (tau u : Nat) : Nat := ((c.pivot tau u).run acc).1
      let m2 (u v w z : Nat) : Mat := [[u, v], [w, z]]
      (∀ (unit up : Bool) (tau n r : Nat) (t : Nat → Nat → Nat) (b : Mat), let X := ((c.sweep unit (some tau) (if up then List.range n else (List.range n).reverse) r t b).run acc).1
        b.length = n → (∀ row ∈ b, row.length = r) → ∀ i j, i < n → j < r →
          let before := if up then List.range i else (List.range n).reverse.take (n - 1 - i)
          let y := sub (rowsAt b i j) (before.map fun q => (t i q, rowsAt X q j))
          rowsAt X i j = if unit then y else div y (piv tau (t i i)))
      ∧ (∀ (n : Nat) (u v : Mat) (i j : Nat), i < n → j < n →
          rowsAt ((c.product n u v).run acc).1 i j = (List.range n).foldl (fun w k => fma (rowsAt u i k) (rowsAt v k j) w) 0)
      ∧ (∀ u v w z : Nat, (unpack f u).isNan = false → (unpack f w).isNan = false →
          let tau := c.tau [u, v, w, z]
          let swaps := (floatCmp f 4 (c.mag w) (c.mag u)).1
          let top := if swaps then (w, z) else (u, v)
          let low := if swaps then (u, v) else (w, z)
          let p := piv tau top.1
          let m := div low.1 p
          ((c.lu 2 (m2 u v w z)).run acc).1 = (m2 p top.2 m (piv tau (fma (neg m) top.2 low.2)), [if swaps then 1 else 0, 1]))
      ∧ (∀ u v w z : Nat,
          let tau := c.tau [u, w, z]
          let test (d : Nat) : Nat := if (unpack f d).isNan = false ∧ ((unpack f d).neg? = true ∨ c.mag d ≤ tau) ∧ c.act = 1 then c.tauReg tau else d
          let plus (d : Nat) : Bool := (floatCmp f 4 d 0).1
          let r := sqrt (test u)
          let y := div w r
          let d := test (fma (neg y) y z)
          ((c.chol 2 (m2 u v w z)).run acc).1 = if plus (test u) = false then m2 f.nan 0 f.nan f.nan else m2 r 0 y (if plus d then sqrt d else f.nan))
      ∧ (∀ u w : Nat,
          let nu := sqrt (fma w w (fma u u 0))
          ((c.qr true 2 1 [[u], [w]]).run acc).1.1 = [[piv (c.tau [u, w]) (if c.mag nu = 0 then u else if u = c.mag u then neg nu else nu)]])
      ∧ (∀ norm z m ex, unpack f norm = .fin z m ex → 0 ≤ m → ∃ s, c.scaling norm = some s
          ∧ (m : ℚ) * (2 : ℚ) ^ ex ≤ (1 / 2 : ℚ) * 2 ^ s ∧ ∀ s' < s, (1 / 2 : ℚ) * 2 ^ s' < (m : ℚ) * (2 : ℚ) ^ ex)
      ∧ (∀ (n : Nat) (a : Mat), let times (u v : Mat) : Mat := ((c.product n u v).run acc).1
          let power (k : Int) : Mat := ((c.pow n k a).run acc).1
          power 0 = c.eye n n ∧ power 1 = a ∧ power 2 = times a a ∧ power 3 = times a (times a a) ∧ power 5 = times a (times (times a a) (times a a))
          ∧ power (-1) = ((c.solve n n a (c.eye n n)).run acc).1))

/-- R27, R49, R52, R53, R113, R225, R226, R241, R167, R274, R275, R344, R346: what happens to a lane between issues. A pending result is
written where nothing else has been written since, matrix results in order and not while the chain is open, and one whose access is late
performs that first; an ended chain drains; a WAITV whose condition holds lets its lane leave the loop with the value that it read, and one
whose location is out of reach meanwhile faults, with the subcode of a load; the lanes whose wait has reached the limit raise WATCHDOG; each
microsecond a die's cores get energy; and an arbitration takes one cycle of its quarter, those of a core in ascending order within a cycle,
and picks at most one path of it, or lets time pass to a boundary of a tick generator that has been reached. The model's own readings: that
an arbitration out of its turn does nothing, and that a quarter which fell behind takes the core's next cycle (logs 4, 78), that time passes
to a boundary before anything else happens, and when a core's cycle is over (log 10), the subcode (log 30), how two results with one
destination clash (log 22), how the counts of the watchdog run and start again (log 77), and that accesses stay late (log 80). -/
def Obligations.ResultEvents : Prop :=
  (∀ (s : State) (wk i : Nat) (w : Warp), s.warp? wk = some w → i < 32 → i < w.lanes.length → w.stop ≠ .ended →
    (w.lane i).wait ≠ some .exit →
    let l := w.lane i
    (∀ k p, s.event = some (.pendingResultWrite wk i k) → l.pend[k]? = some p → p.raise = none → p.read = none →
      (p.matrix = true → l.chain = none ∧ ∀ r ∈ l.pend.take k, r.matrix = false) →
      ∃ w', Happens .pendingResultWrite s (s.setWarp wk w') ∧ { w' with lanes := w.lanes } = w ∧ w'.lanes.length = w.lanes.length
        ∧ (∀ j, j < w.lanes.length → j ≠ i → w'.lane j = w.lane j)
        ∧ let l' := w'.lane i
          { l' with regs := l.regs, preds := l.preds, rowMasks := l.rowMasks, fst := l.fst, pend := l.pend } = l
          ∧ l'.pend.map Pend.bare = (l.pend.take k ++ l.pend.drop (k + 1)).map Pend.bare
          ∧ (∀ r ∈ l'.pend, ∀ n, p.matrix = false ∨ r.matrix = false → (lastFor p.regs n).isSome = true → (lastFor r.regs n).isSome = true → n ∈ r.clashV)
          ∧ (∀ n, l'.v n = (lastFor p.regs n).getD (l.v n) ∨ (n ∈ p.clashV ∧ l'.v n = l.v n))
          ∧ (∀ n, n < 7 → l'.p n = (lastFor p.preds n).getD (l.p n) ∨ (n ∈ p.clashP ∧ l'.p n = l.p n))
          ∧ (∀ n, l'.rm n = (lastFor p.rows n).getD (l.rm n) ∨ (n ∈ p.clashH ∧ l'.rm n = l.rm n))
          ∧ (p.clashF = false → l'.fst = l.fst ||| p.fst))
    ∧ (∀ k p, s.event = some (.pendingResultWrite wk i k) → l.pend[k]? = some p →
        p.matrix = true → (l.chain ≠ none ∨ ∃ r ∈ l.pend.take k, r.matrix = true) → Happens .pendingResultWrite s s)
    ∧ (∀ k p r, s.event = some (.pendingResultWrite wk i k) → l.pend[k]? = some p → p.read = some r → p.matrix = false →
        let S := performReads s wk fun j y => j = i && y.id = r.id
        exec .pendingResultWrite s = exec .pendingResultWrite S
        ∧ ∃ w₁ p', S.warp? wk = some w₁ ∧ (w₁.lane i).pend[k]? = some p' ∧ p'.read = none ∧ p'.regs.map (fun y => y.1) = (loadRegs r.d r.n r.sgn []).map fun y => y.1)
    ∧ (∀ c, s.event = some (.chainDrain wk i) → l.chain = some c → c.ended = true → Happens .chainDrain s (drainLanes s wk (laneBit i)).1)
    ∧ (∀ x addr val pc gang t, s.event = some (.waitvRelease wk i) → l.wait = some (.waitv x addr val pc gang t) → (∀ c ∈ w.causes, bitAt c.path i = false) →
        let S := fixReads s (laneBit i) fun _ => waitvReads s w x addr
        let path := maskOf fun j => match (w.lane j).wait with
          | some (.waitv _ _ _ p g _) => decide (p = pc) && decide (g = gang)
          | some (.waitvLeft g) => decide (g = gang)
          | _ => false
        (∀ m, waitvRead s w x addr i = .value m →
          (waitvHolds x m val = false → Happens .waitvRelease s S)
          ∧ (waitvHolds x m val = true → ∃ w', Happens .waitvRelease s (S.setWarp wk w') ∧ { w' with lanes := w.lanes } = w
              ∧ (∀ j, j < w.lanes.length → j ≠ i → w'.lane j = w.lane j)
              ∧ w'.lane i = { l with wait := some (.waitvLeft gang), pend := l.pend ++ [{ regs := loadRegs x.d.toNat (if x.bit 15 then 8 else 4) false (bytesOf 8 m.toNat) }] }))
        ∧ (waitvRead s w x addr i = .bounds → Happens .waitvRelease s
            (addCause S wk { code := 0x0D, mask := laneBit i, path := path, pc := pc, resume := .region, cont := pc }))
        ∧ (∀ code, waitvRead s w x addr i = .lost code → Happens .waitvRelease s
            (addCause S wk { code := code, mask := laneBit i, path := laneBit i, pc := pc, resume := .none, cont := pc }))
        ∧ (∀ code va, waitvRead s w x addr i = .jasper code va → Happens .waitvRelease s
            (toJasper S wk { code := code, sub := 1, mask := laneBit i, path := path, pc := pc, resume := .region, cont := pc, va := va })))
    ∧ (∀ pc m, s.event = some (.watchdog wk) → w.limit ≠ 0 →
        let out (j : Nat) (p : PC) : Prop := j < 32 ∧ ∃ t, (w.lane j).counted = some (p, t) ∧ w.limit ≤ t
        (∃ j, out j pc) → (∀ j p, out j p → pc.toNat ≤ p.toNat) → (∀ j, j < 32 → (bitAt m j = true ↔ out j pc)) →
        ∃ w', Happens .watchdog s (s.setWarp wk w') ∧ w'.slices = w.slices
          ∧ w'.causes = w.causes ++ [{ code := 0x21, mask := m, path := m, pc := pc, resume := .wait, cont := pc }]
          ∧ ∀ j, j < w.lanes.length → (w'.lane j).regs = (w.lane j).regs
              ∧ (w'.lane j).wait = (if bitAt m j then (w.lane j).setCount fun _ => 0 else w.lane j).wait))
  ∧ (∀ (s : State) (die : Nat), s.event = some (.energyRefill die) → die < 4 → 1000 * (fgetD s.hub.refills die 0 + 1) ≤ clockOf s die →
      ∃ T θ, Happens .energyRefill s T ∧ θ ≤ 256 ∧ fgetD T.hub.theta die 256 = θ ∧ fgetD T.hub.refills die 0 = fgetD s.hub.refills die 0 + 1
        ∧ T.warps = s.warps ∧ T.wgs = s.wgs ∧ T.mem = s.mem
        ∧ ∀ c k, fget? s.cores c = some k → fget? T.cores c = some (if c / 48 = die then
            { k with energy := min (bucketCap : Int) (k.energy + (refillMax * θ / 256 : Nat)), overdrawn := 0 } else k))
  ∧ ∀ (s : State) (core quarter : Nat), s.event = some (.issueArbitration core quarter) → s.issue = none → core < 192 → quarter < 4 →
      let had (r : Nat) : Nat := fgetD (s.coreOf core).cycles r 0
      let begun := max (max (had 0) (had 1)) (max (had 2) (had 3))
      let holds (r : Nat) : Prop := r < 4 ∧ ∃ p ∈ s.warps, p.1 / 64 = core ∧ p.1 / 16 % 4 = r
      let behind (r : Nat) : Prop := had r < begun ∧ ∀ p, r < p → holds p → had p < begun
      (holds quarter → (∀ r, r < quarter → holds r → ¬behind r) → behind quarter ∨ ((∀ r, holds r → ¬behind r) ∧ ∀ r, r < quarter → ¬holds r) →
        let passed := passTime s (Config.elapsed s.free)
        (ticksDue passed = true → Happens .issueArbitration s passed)
        ∧ (ticksDue passed = false → ∃ t, exec .issueArbitration s = .next t
          ∧ (s.mem.late = [] → (∀ p ∈ s.warps, p.2.reads = []) → t.mem = s.mem) ∧ t.wgs.map (fun g => g.1) = s.wgs.map (fun g => g.1)
          ∧ s.time ≤ t.time
          ∧ (behind quarter → fgetD (t.coreOf core).cycles quarter 0 = begun)
          ∧ (¬behind quarter → fgetD (t.coreOf core).cycles quarter 0 = begun + 1)
          ∧ (∀ r, r ≠ quarter → fgetD (t.coreOf core).cycles r 0 = had r)
          ∧ ∀ i, t.issue = some i → i.wk / 16 = 4 * core + quarter ∧ i.dict = none ∧ ∃ w, t.warp? i.wk = some w))
      ∧ (holds quarter → (∃ r, r < quarter ∧ holds r ∧ behind r) ∨ (¬behind quarter ∧ ∃ r, holds r ∧ (behind r ∨ r < quarter)) →
          Happens .issueArbitration s s)

/-- R24, R355, R356, R358, R359, R362: taking a trap and returning from it. Of the causes that have arisen in a settled warp a containment
cause is taken, else the one with the lowest code. A trap that goes to the vector is numbered, writes its frame, and leaves the lanes of
%tmask as one gang at the vector, every other path set aside, and the frame records for each of these lanes its region entry, PC value and
wait. Once every non-vacant handler lane is parked at a TRET the handler is left: the lanes that gave a PC value re-enter there, the others
stand at the cause's resumption point with the region entry that the frame records, waiting there for Jasper again where that is Nelrak-1
code that it had not entered (R402, log entry 73), as do the lanes of the faulting path outside %tmask, each other lane that was set aside
stands where it stopped with nothing of it changed, and only a lane for which its slice has no room raises DIVERGE_OVF instead. Which causes
are taken later is the model's reading (log entry 16). -/
def Obligations.TrapEntryAndReturn : Prop :=
  (∀ (s : State) (wk : Nat) (w : Warp) (c : Cause), s.event = some (.trapDelivery wk) → s.warp? wk = some w → w.stop = .running →
    (∀ i, i < 32 → (w.lane i).pend = [] ∧ (w.lane i).chain = none) → firstCause w.due = some c →
      (¬(c.code = 0x22 ∧ s.hub.debugger = true) → Happens .trapDelivery s (takeTrap s wk c))
      ∧ (c.code = 0x22 ∧ s.hub.debugger = true → Happens .trapDelivery s (breakToDebugger s wk c)))
  ∧ (∀ cs : List Cause, cs ≠ [] → ∃ c, firstCause cs = some c ∧ c ∈ cs
      ∧ ∀ d ∈ cs, (0x30 ≤ d.code → 0x30 ≤ c.code) ∧ (0x30 ≤ d.code ∨ c.code < 0x30 → c.code ≤ d.code))
  ∧ (∀ (s : State) (wk : Nat) (w : Warp) (c : Cause), s.warp? wk = some w →
      let ctx := s.ctxOf w
      let die := wk / 3072
      let vec := (s.ctxFields ctx).trapVec
      let t := takeTrap s wk c
      (∀ d, d ∈ laterCauses w c ↔ d ∈ w.causes ∧ d ≠ c ∧ (d.resume = .region → d.path &&& c.path = 0))
      ∧ (c.code < 0x30 → vec ≠ 0 → (∀ k, k < 32 → bitAt c.mask k = true → (w.lane k).handler = false) →
        fgetD t.hub.seqs die 0 = fgetD s.hub.seqs die 0 + 1
        ∧ (∀ u, writeVa (s.number die).2 ctx ((s.ctxFields ctx).trapArea.toNat + 1024 * wk) 4096
            (frameBytes (fgetD s.hub.seqs die 0 + 1) (clockOf s die) c 0 (pathEntries w.switchRelease c)) = .ok u → t.mem = u.mem)
        ∧ t.wgs = s.wgs ∧ (∀ k, k ≠ wk → t.warp? k = s.warp? k)
        ∧ ∃ w', t.warp? wk = some w' ∧ w'.trap = some { cause := c, shown := c, saved := saveLanes w c.mask, later := laterCauses w c } ∧ w'.causes = [] ∧ w'.stop = w.stop ∧ w'.joins = w.joins
          ∧ w'.slices = mapFrom (fun n sl => { sl with
              aside := sl.aside ++ sl.slots, base := sl.stack.length
              slots := if sub4 c.mask n = 0 then [] else [{ pc := vec, mask := sub4 c.mask n }] }) 0 (w.takeOut c.mask).slices
          ∧ w'.lanes.length = w.lanes.length
          ∧ ∀ k, k < w.lanes.length → w'.lane k = if bitAt c.mask k then
              { w.lane k with park := none, wait := none, sw := 0, handler := true, region := vec, readyAt := 0, yieldTo := 0 } else w.lane k))
  ∧ (∀ (w : Warp) (m : Mask) (k : Nat), k < 32 → ((saveLanes w m).find? fun v => v.lane = k) =
      if bitAt m k then some { lane := k, region := (w.lane k).region, pc := w.pcOf k, wait := (w.lane k).wait } else none)
  ∧ ∀ (s : State) (wk : Nat) (w : Warp) (r : TrapRec), s.warp? wk = some w → w.trap = some r → w.pfail = false →
      let c := r.cause
      let runs (k : Nat) : Prop := k < 32 ∧ (w.lane k).handler = true ∧ (w.lane k).vacant = false
      let waits (y : SavedLane) : Option Wait := if c.resume = .region ∧ y.region = y.pc then (match y.wait with
        | some (.translation _) => some (.translation 0)
        | some .midway => some .midway
        | _ => none) else none
      let dest (k : Nat) (pc : PC) : Prop := ∃ at_, (w.lane k).park = some { pc := at_, why := .tretPc pc }
      let back (k : Nat) : Prop := ∃ at_, (w.lane k).park = some { pc := at_, why := .tret }
      let v (k : Nat) : SavedLane := (r.saved.find? fun v => v.lane = k).getD { lane := k, region := (w.lane k).region, pc := c.pc, wait := none }
      let point (k : Nat) : PC := match c.resume with
        | .region => (v k).region
        | .cont => c.cont
        | .own => (v k).pc
        | .none => c.pc
        | .wait => match (v k).wait with
          | some (.waitv ..) => c.pc
          | _ => (v k).pc
      let outside (k : Nat) : Prop := bitAt c.path k = true ∧ bitAt c.mask k = false ∧ (w.lane k).vacant = false ∧ (c.resume = .region ∨ c.resume = .cont)
      let stands (w' : Warp) (k : Nat) (pc : PC) : Prop := pc.toNat % 4 = 0 → pc.toNat / 2 ^ 57 % 8 = 0 → k / 4 < w.slices.length →
        let sl := w'.slices.getD (k / 4) {}
        ((w'.lane k).park = none ∧ ∃ a ∈ sl.slots ++ sl.stack.map slotOf, a.pc = pc ∧ bitAt a.mask (k % 4) = true)
        ∨ ((w'.lane k).park = some { pc := pc, why := .overflow } ∧ ∃ d ∈ w'.causes, d.code = 0x07 ∧ bitAt d.mask k = true ∧ d.resume = .own)
      ((∃ k, runs k ∧ ¬back k ∧ ∀ pc, ¬dest k pc) → returnTrap s wk = s)
      ∧ ((∀ k, runs k → back k ∨ ∃ pc, dest k pc) →
          ∃ w', (returnTrap s wk).warp? wk = some w' ∧ w'.trap = none ∧ w'.lanes.length = w.lanes.length
            ∧ ∀ k, k < w.lanes.length → (w'.lane k).regs = (w.lane k).regs ∧ (w'.lane k).preds = (w.lane k).preds
                ∧ (runs k → (w'.lane k).handler = false)
                ∧ (runs k → ¬outside k → ∀ pc, dest k pc → (w'.lane k).region = pc ∧ stands w' k pc)
                ∧ (runs k → ¬outside k → back k → stands w' k (point k) ∧ (c.resume ≠ .wait → (w'.lane k).region = (v k).region ∧ (w'.lane k).wait = waits (v k)))
                ∧ (¬runs k → k < 32 → outside k → (w'.lane k).region = (w.lane k).region
                    ∧ stands w' k (if c.resume = .region then (w.lane k).region else c.cont))
                ∧ (¬runs k → ¬outside k → (c.resume ≠ .wait → { w'.lane k with chain := (w.lane k).chain } = w.lane k)
                    ∧ let sl := w.slices.getD (k / 4) {}
                      (w.lane k).park = none → ∀ a ∈ sl.aside ++ (sl.stack.drop (sl.stack.length - sl.base)).map slotOf,
                        bitAt a.mask (k % 4) = true → stands w' k a.pc))

/-- R115, R343, R355, R359, R360, R361, R373: where there is no vector, and for a second cause in a handler, the fault policy applies: KILL
ends the context with all its work, and its queues are disabled when what they started is over; HALT halts the warp and reports it. A
containment cause ends the warp's part and leaves its launch to the walker. A halted warp resumes on a host command; a debugger halts,
resumes and steps warps. That the queues of a killed context are disabled only when their records are out (log entry 69), and which causes
are kept to be taken later (log entry 16), are the model's readings. -/
def Obligations.PolicyAndDebugger : Prop :=
  (∀ (s : State) (wk : Nat) (w : Warp) (c : Cause), s.warp? wk = some w →
    let ctx := s.ctxOf w
    let halts := (s.ctxFields ctx).policyHalt
    let double := (lanesOf c.mask).any fun k => (w.lane k).handler
    let t := takeTrap s wk c
    (c.code < 0x30 → double = true ∨ (s.ctxFields ctx).trapVec = 0 → halts = false →
      ∃ u, t = killCtx u ctx ∧ { u with mem := s.mem, hub := s.hub } = s ∧ { u.hub with seqs := s.hub.seqs } = s.hub)
    ∧ (c.code < 0x30 → double = true ∨ (s.ctxFields ctx).trapVec = 0 → halts = true → ∃ w', t.warp? wk = some w' ∧ w'.stop = .halted c
        ∧ w'.lanes = w.lanes ∧ w'.slices = w.slices ∧ w'.causes = laterCauses w c
        ∧ w'.trap = (if double = true then w.trap.map fun r => { r with shown := c } else w.trap)
        ∧ ∀ q idx, reportsTo s (s.launchOfWarp w) = some (q, idx) → ∃ n, (t.queueOf q).records = (s.queueOf q).records ++
            [recordOf n (clockOf s 4) 4 (0x0F + idx.toNat * 2 ^ 16 + (tcause c).toNat * 2 ^ 48 + wk * 2 ^ 80)])
    ∧ (0x30 ≤ c.code → (∃ w', t.warp? wk = some w' ∧ w'.stop = .ended ∧ w'.lanes = w.lanes)
        ∧ ∀ L, s.launch? (s.wgOf w).launch = some L → t.launch? (s.wgOf w).launch = some { L with contain := true }))
  ∧ (∀ (s : State) (ctx : Nat),
      let t := killCtx s ctx
      (∀ k c, s.ctx? k = some c → ∃ c', t.ctx? k = some c' ∧ c'.killed = (c.killed || decide (k = ctx)))
      ∧ (∀ k L, s.launch? k = some L → ∃ L', t.launch? k = some L' ∧ (L.ctx ≠ ctx → L' = L)
          ∧ (L.ctx = ctx → L'.pool = [] ∧ L'.dies = [] ∧ (L.stage = .running → L'.status = 0x08)))
      ∧ (∀ k g, t.wg? k = some g → s.wg? k = some g ∧ ∀ L, s.launch? g.launch = some L → L.ctx ≠ ctx)
      ∧ (∀ q, (s.queueOf q).ctx = some ctx →
          let u := s.queueOf q
          let still (p : Started) : Bool := (s.hub.launches.any fun L => L.2.by_ == .packet q p.idx) || s.hub.graphs.any fun g => g.2.queue = q && g.2.idx = p.idx
          ∃ gone rest, (u.started.map fun p => if still p then p else { p with done := true }) = gone ++ rest ∧ (∀ p ∈ gone, p.done = true)
            ∧ (∀ p, rest.head? = some p → p.done = false)
            ∧ t.queueOf q = { u with
                hold := none, started := rest, readIdx := ((rest.head?).map fun p => p.idx).getD u.nextIdx
                state := if rest = [] ∧ u.records = [] then 2 else u.state })
      ∧ ∀ q, (s.queueOf q).ctx ≠ some ctx → t.queueOf q = s.queueOf q)
  ∧ (∀ (s : State) (wk : Nat) (w : Warp), s.warp? wk = some w →
      (∀ c, s.event = some (.haltedWarpResume wk) → w.stop = .halted c →
        Happens .haltedWarpResume s (resumeHalted s wk c) ∧ ∃ w', (resumeHalted s wk c).warp? wk = some w' ∧ w'.stop = .running)
      ∧ (s.event = some (.debugHalt (.warp wk)) → s.hub.debugger = true → w.stop = .running →
          ∃ T, Happens .debugHalt s T ∧ ∀ w', T.warp? wk = some w' → w'.stop = .debugger none)
      ∧ (∀ p, s.event = some (.debugResume (.warp wk)) → s.hub.debugger = true → w.stop = .debugger p →
          Happens .debugResume s (s.modWarp wk fun w => { w with stop := .running }))
      ∧ ∀ p pc, s.event = some (.debugStep wk pc) → s.hub.debugger = true → w.stop = .debugger p → pc ∈ w.paths →
          Happens .debugStep s (s.modWarp wk fun w => { w with stop := .debugger (some pc) }))
  ∧ ∀ (s : State) (on : Bool), s.event = some (.debuggerAttach on) → Happens .debuggerAttach s (s.modHub fun b => { b with debugger := on })

/-- R24, R240, R241, R242, R243, R263, R264, R265: what Jasper and the host do to pages, and the near-memory units to locations. A fault
that Jasper resolves lets its path re-execute from its region entries, with the page table entry written or the page taken over; one that it
cannot resolve is raised. A page goes to the host on request, its accepted REDs being performed first. A read by the host gives the bytes,
or poisoned data, and changes nothing. An invalidation performs the REDs that were accepted under old entries, and drops the TLB entries
that meet its range, and no others. A RED changes its location once. That die 0's Jasper gets the notice of an access to a page that is not
pinned, under the hub's number, that a read of which a part is poisoned answers poisoned as a whole, and that the REDs of a page go before
the page does, are the model's choices (log entry 75). -/
def Obligations.PageAndMemoryEvents : Prop :=
  (∀ (s : State) (wk : Nat) (w : Warp) (c : Cause), s.warp? wk = some w →
    let ctx := s.ctxOf w
    let va := c.va.toNat
    let hosts := hostOwns s ctx va
    let waits : Mask := maskOf fun k => bitAt c.path k && decide ((w.lane k).wait = some .jasper)
    (jasperCause w (fun c => c.code ≠ 0x10) = some c →
      (∀ pa e, s.event = some (.pageFaultResolution wk (some (pa, e))) → Happens .pageFaultResolution s
          (jasperFixed (forgetPage (s.setMem (physPuts s.mem 0 (pa / 8 * 8) (bytesOf 8 e.toNat))) ctx va) wk w c))
      ∧ (s.event = some (.pageFaultResolution wk none) → Happens .pageFaultResolution s (jasperGivesUp s wk w c)))
    ∧ (jasperCause w (fun c => c.code = 0x10) = some c → ∀ released, s.event = some (.ownershipMigration wk released) →
        (hosts = false → Happens .ownershipMigration s (jasperFixed (forgetPage s ctx va) wk w c))
        ∧ (hosts = true → released = true → pinnedPage s ctx va = false → Happens .ownershipMigration s (jasperFixed (setOwner s ctx va false) wk w c))
        ∧ (hosts = true → released = false ∨ pinnedPage s ctx va = true → Happens .ownershipMigration s (jasperGivesUp s wk w c)))
    ∧ (∃ w', (jasperFixed s wk w c).warp? wk = some w' ∧ w'.jasper = w.jasper.erase c ∧ ∀ k, k < w.lanes.length →
        (w'.lane k).regs = (w.lane k).regs ∧ (w'.lane k).region = (w.lane k).region
        ∧ (w'.lane k).wait = if bitAt waits k then none else (w.lane k).wait)
    ∧ (c.mask &&& waits ≠ 0 → ∃ w', (jasperGivesUp s wk w c).warp? wk = some w' ∧ w'.jasper = w.jasper.erase c
        ∧ w'.causes = w.causes ++ [{ c with mask := c.mask &&& waits, path := waits }] ∧ w'.slices = w.slices))
  ∧ (∀ (s : State) (ctx : Nat) (va : DWord),
      (s.event = some (.hostPageRequest ctx va) → (s.ctx? ctx).isSome = true → pinnedPage s ctx va.toNat = false → hostOwns s ctx va.toNat = false →
        Happens .hostPageRequest s (setOwner (performPage s ctx va.toNat) ctx va.toNat true))
      ∧ (∀ a log, leafAt s.mem va.toNat 5 0 (s.ctxFields ctx).root.toNat = some (a, log) →
          (performPage s ctx va.toNat).mem.reds = s.mem.reds.filter fun r => !decide (r.pa / 2 ^ log = bitsAt (pteAt s.mem a) 16 36 * 65536 / 2 ^ log))
      ∧ (∀ host a log, leafAt s.mem va.toNat 5 0 (s.ctxFields ctx).root.toNat = some (a, log) →
          pteAt (setOwner s ctx va.toNat host).mem a = if host then pteAt s.mem a ||| 0x10 else pteAt s.mem a &&& ~~~0x10)
      ∧ ∀ acc, s.event = some (.hostMemAccess ctx va acc) → (s.ctx? ctx).isSome = true → s.power.phase ≠ .off →
          ((hostPieces s ctx va.toNat (match acc with
            | .read n => n
            | .write bs => bs.length)).all Option.isSome) = true →
          Happens .hostMemAccess s (hostAccess s ctx va acc)
          ∧ (∀ n, acc = .read n → (hostAccess s ctx va acc).mem = s.mem
              ∧ ∀ ps : List (Piece × Bool), hostPieces s ctx va.toNat n = ps.map some → (hostAccess s ctx va acc).hub.hostRead =
                  if ps.all (fun p => p.2 && !poisoned s.mem p.1.pa p.1.len) = true then .data (readPieces s.mem (ps.map fun p => p.1)) else .poisoned)
          ∧ ∀ (ps : List (Piece × Bool)) (n : Nat), hostPieces s ctx va.toNat (match acc with
              | .read n => n
              | .write bs => bs.length) = ps.map some → n = fgetD s.hub.seqs 4 0 + 1 → (∃ p ∈ ps, p.2 = false) →
              fgetD (hostAccess s ctx va acc).hub.seqs 4 0 = n
              ∧ fgetD (hostAccess s ctx va acc).hub.notices 0 [] = fgetD s.hub.notices 0 [] ++ [.unpinned n va])
  ∧ (∀ (s : State) (ctx lo hi : Nat), s.event = some (.tlbInvalidate ctx lo hi) → 
      let old (r : Red) : Prop := r.ctx = ctx ∧ r.va < hi ∧ lo < r.va + r.size
      ∃ T, Happens .tlbInvalidate s T
      ∧ (∀ r, r ∈ T.mem.reds ↔ r ∈ s.mem.reds ∧ ¬old r)
      ∧ ((∀ r ∈ s.mem.reds, ¬old r) → { T with mem := s.mem } = s ∧ { T.mem with tlb := s.mem.tlb } = s.mem)
      ∧ ∀ e, e ∈ T.mem.tlb ↔ e ∈ s.mem.tlb ∧ ¬(e.ctx = ctx ∧ e.page * 2 ^ e.log < hi ∧ lo < (e.page + 1) * 2 ^ e.log))
  ∧ ∀ (s : State) (k : Nat) (r : Red), s.event = some (.redApply k) → s.mem.reds[k]? = some r →
      let m : MemSys := { s.mem with reds := s.mem.reds.take k ++ s.mem.reds.drop (k + 1) }
      let new := ({ op := r.op, n := r.size, sgn := r.signed, flt := r.float } : AtomOp).apply (ofBytes (physRead m r.key r.pa r.size)) r.val.toNat 0
      (poisoned s.mem r.pa r.size = false → Happens .redApply s (s.setMem (match new with
        | some y => physWrite m r.key r.pa (bytesOf r.size y)
        | none => m)))
      ∧ (poisoned s.mem r.pa r.size = true → Happens .redApply s (containLaunch (s.setMem m) r.launch r.arb))

/-- R20, R44, R45, R333, R336, R337, R338, R339, R416: the dispensers and the distributors. A die claims the next chunk, up to a multiple of
4,096; a warp without an item takes a block or leaves; a dispenser that is closed gives nothing more, and keeps for a rerun the identifiers
that it had dispensed, the others being dropped, which is the model's choice (log entries 59, 74); of launches that wait for one core the
higher prio, then the earlier, is placed first; a workgroup goes to the first cluster with a core that fits it, and retires when its warps
have left and its copies are done; a core loads the dictionary of a workgroup that it holds, and not one that was left by workgroups that
are gone; and scratchpad that another context wrote last is 0. -/
def Obligations.DispenseEvents : Prop :=
  ∀ (s : State) (k die : Nat) (L : Launch), s.launch? k = some L →
  (∀ lo hi rest, s.event = some (.chunkClaim k die) → (L.die die).chunkHi ≤ (L.die die).chunkLo → die ∈ L.usedDies → L.hdr.resident = false →
    L.pool = (lo, hi) :: rest →
      let e := min hi ((lo / 4096 + 1) * 4096)
      Happens .chunkClaim s (s.modLaunch k fun _ => { L with
        pool := if e < hi then (e, hi) :: rest else rest, dies := fset L.dies die { L.die die with chunkLo := lo, chunkHi := e } }))
  ∧ (let held (rs : List (Nat × Nat)) (x : Nat) : Prop := ∃ r ∈ rs, r.1 ≤ x ∧ x < r.2
     let left (x : Nat) : Prop := held L.pool x ∨ ∃ d ∈ L.dies, (d.2.laneLo ≤ x ∧ x < d.2.laneHi) ∨ (d.2.chunkLo ≤ x ∧ x < d.2.chunkHi)
     s.event = some (.dispenserClose k) → ∃ rs, (∀ x, held rs x ↔ held L.ranges x ∧ ¬left x)
       ∧ Happens .dispenserClose s (s.modLaunch k fun _ => { L with pool := [], dies := [], closed := L.closed || L.remains, ranges := rs }))
  ∧ (∀ t, s.event = some (.workgroupPlacement k die) → placement s k die = some t → s.power.phase = .running →
      let rival : Prop := ∃ p ∈ s.hub.launches, p.1 ≠ k ∧ (L.hdr.prio < p.2.hdr.prio ∨ (p.2.hdr.prio = L.hdr.prio ∧ p.2.order < L.order))
        ∧ ∃ d u, d < 4 ∧ placement s p.1 d = some u ∧ ∃ c ∈ newCores s u, c ∈ newCores s t
      (¬rival → Happens .workgroupPlacement s t) ∧ (rival → Happens .workgroupPlacement s s))
  ∧ (∀ core ps, pickCore s L die = some (core, ps) → coreFits s L core = some ps ∧ core / 48 = die
      ∧ ∀ c r, c < core % 48 / 4 → r < 4 → coreFits s L (die * 48 + 4 * c + r) = none)
  ∧ (∀ core bs, s.event = some (.dictionaryLoad k core) → L.hdr.dictSize ≠ 0 → (wgsOn s core).any (fun g => g.2.launch = k) = true →
      (s.coreOf core).banks.any (fun b => b.holds (dictId L)) = false → hubRead s L.ctx L.hdr.dict.toNat (4 * L.hdr.dictSize) 0 (core / 48) = .bytes bs →
        ∃ T, Happens .dictionaryLoad s T ∧ T.warps = s.warps ∧ T.wgs = s.wgs ∧ T.mem = s.mem
          ∧ ∃ b ∈ (T.coreOf core).banks, b.holds (dictId L) = true ∧ ∀ i, i < L.hdr.dictSize →
              b.words.getD i 0 = BitVec.ofNat 32 (ofBytes ((bs.drop (4 * i)).take 4)))
  ∧ (∀ core, L.hdr.dictSize ≠ 0 → (∀ g ∈ s.wgs, g.2.core = core → dictId (s.launchOf g.2) ≠ dictId L) →
      ∀ b ∈ ((freshBank s L core).coreOf core).banks, b.holds (dictId L) = false)
  ∧ (∀ (c : Core) (ctx : Nat) (gs : List Nat) (i : Nat), fget? (zeroedPad c ctx gs) i =
      if (gs[i / 1024]?).any (fun n => (fget? c.writers n).any fun w => w != ctx) = true then some 0 else none)
  ∧ (∀ wg g, s.event = some (.workgroupRetire wg) → s.wg? wg = some g → g.warps = [] → (∀ u ∈ g.queues, u.tail = u.done) →
      Happens .workgroupRetire s ((removeWg s wg).modLaunch g.launch fun L => { L with wgRetired := L.wgRetired + 1 }))
  ∧ ∀ (wk : Nat) (w : Warp), s.event = some (.warpRefill wk) → s.warp? wk = some w → w.live = 0 → w.stop = .running → (s.wgOf w).launch = k →
      (L.takeBlock (wk / 3072) = none → Happens .warpRefill s (leaveWarp s wk))
      ∧ ∀ lo hi L', L.takeBlock (wk / 3072) = some ((lo, hi), L') → ∃ w', Happens .warpRefill s ((s.modLaunch k fun _ => L').setWarp wk w')
          ∧ w'.lanes.length = w.lanes.length ∧ w'.trap = none ∧ w'.causes = [] ∧ w'.members = [] ∧ (∀ j ∈ w'.joins, j = {})
          ∧ (∀ n, n < 8 → w'.slices.getD n {} = let m : BitVec 4 := sub4 (maskOf fun i => decide (i < hi - lo)) n
              { slots := if m = 0 then [] else [{ pc := L.hdr.code + L.hdr.refillOff.setWidth 64, mask := m }] })
          ∧ ∀ i, i < w.lanes.length → (hi - lo ≤ i → w'.lane i = w.lane i)
              ∧ (i < hi - lo → (w'.lane i).wid = BitVec.ofNat 64 (lo + i) ∧ (w'.lane i).vacant = false ∧ (w'.lane i).wgen = (w.lane i).wgen + 1
                  ∧ (w'.lane i).v 0 = lo32 L.hdr.args ∧ (w'.lane i).v 1 = hi32 L.hdr.args ∧ ∀ n, 2 ≤ n → (w'.lane i).v n = (w.lane i).v n)

/-- R24, R320, R323, R328, R331, R332, R343, R417: a launch that has nothing left completes with its number, its record (deadline_miss tells
whether a deadline's boundary was over), and then its signal, after which its packet is complete, or its node is, but for one of which a
drain has reported identifiers; a record goes to the event ring while that has room; a launch in which a containment cause arose runs again
from its first identifiers, or kills its context when it may not. The model's choices: the rerun covers the identifiers that were dispensed
here (log entry 59), a killed context's queue is disabled when its records are out (log entry 69), and a node of which a drain has reported
identifiers moves (log entry 74). -/
def Obligations.CompletionEvents : Prop :=
  ∀ (s : State) (k : Nat) (L : Launch), s.launch? k = some L →
  let arb : Nat := match L.usedDies with
    | [d] => d
    | _ => 4
  let n := fgetD s.hub.seqs arb 0 + 1
  let missed : Bool := L.missed || (match L.by_ with
    | .packet q _ => (match L.deadline, fget? s.hub.gens ((s.queueOf q).tickSel - 1) with
      | some (m + 1), some x => decide ((s.queueOf q).tickSel ≠ 0 ∧ x.period ≠ 0 ∧ x.start.toNat + (x.next + m) * x.period.toNat < clockOf s arb)
      | _, _ => false)
    | .node _ _ => false)
  let flags := (if missed then 1 else 0) + (if L.rollback then 2 else 0) + if L.closed then 4 else 0
  let record : List Byte := bytesOf 4 L.status ++ bytesOf 4 flags ++ bytesOf 8 L.itemsDone ++ bytesOf 4 L.lostJoins ++ bytesOf 4 L.matCorr ++ bytesOf 4 L.scrCorr
    ++ bytesOf 4 L.wgRetired ++ bytesOf 8 (L.tStart.getD L.tBegin) ++ bytesOf 8 (clockOf s arb) ++ bytesOf 8 n ++ bytesOf 8 0
  (∀ t, s.event = some (.launchCompletion k) → L.stage = .running → L.contain = false → L.remains = false → (∀ g ∈ s.wgs, g.2.launch ≠ k) →
    (∀ v ∈ s.hub.saved, v.wg.launch ≠ k) → (∀ r ∈ s.mem.reds, r.launch ≠ k) →
    hubWrite (s.number arb).2 L.ctx L.recAt.toNat 0 record = .written t →
      ∃ T, Happens .launchCompletion s T ∧ T.mem = t.mem ∧ fgetD T.hub.seqs arb 0 = n
        ∧ T.launch? k = some { L with stage := .recorded, seq := n, tEnd := clockOf s arb, recLost := false, missed := missed }
        ∧ ∀ q idx, reportsTo s L = some (q, idx) → (T.queueOf q).records = (s.queueOf q).records ++
            [recordOf n (clockOf s arb) 1 (L.status % 256 + flags * 2 ^ 8 + idx.toNat * 2 ^ 16 + L.recAt.toNat * 2 ^ 48)])
  ∧ (s.event = some (.launchSignal k) → L.stage = .recorded → L.recLost = false →
      (L.sig = 0 → Happens .launchSignal s (closeOut s k L))
      ∧ (∀ t, L.sig ≠ 0 → hubWrite s L.ctx L.sig.toNat 0 (bytesOf 8 L.sigVal.toNat) = .written t → Happens .launchSignal s (closeOut t k L))
      ∧ (∀ q idx, L.by_ = .packet q idx → (closeOut s k L).launch? k = none
          ∧ (closeOut s k L).queueOf q = (packetDone s q idx).queueOf q)
      ∧ (∀ j node g, L.by_ = .node j node → s.graph? j = some g → node ∈ g.running →
          let away : Prop := ∃ r ∈ s.hub.drains, r.launch = k ∧ r.ranges ≠ []
          let rest := g.running.filter fun y => y != node
          (closeOut s k L).launch? k = none
          ∧ (away → (closeOut s k L).graph? j = some { g with running := rest, moved := node :: g.moved })
          ∧ (¬away → (closeOut s k L).graph? j = some { g with running := rest, finished := node :: g.finished })))
  ∧ (∀ q r rest ctx t, s.event = some (.eventRecordPost q) → (s.queueOf q).records = r :: rest → (s.queueOf q).ctx = some ctx →
      ((s.queueOf q).evWrite - (s.queueOf q).evRead).toNat < 2 ^ (s.queueOf q).evLog → beforeSignal s r = false →
      hubWrite s ctx ((s.queueOf q).evBase.toNat + 32 * ((s.queueOf q).evWrite.toNat % 2 ^ (s.queueOf q).evLog)) 0 r = .written t →
        ((s.ctxFields ctx).killed = false → Happens .eventRecordPost s (t.modQueue q fun u => { u with records := rest, evWrite := u.evWrite + 1 }))
        ∧ ((s.ctxFields ctx).killed = true → Happens .eventRecordPost s (t.modQueue q fun u => { u with
            records := rest, evWrite := u.evWrite + 1, state := if u.started = [] ∧ rest = [] then 2 else u.state })))
  ∧ (s.event = some (.nodeRollback k) → L.contain = true → L.stage = .running →
      (L.idem = false ∨ L.retry ≤ L.tries → Happens .nodeRollback s (killCtx s L.ctx))
      ∧ (L.idem = true → L.tries < L.retry → ∃ T L', Happens .nodeRollback s T ∧ T.launch? k = some L' ∧ L'.contain = false ∧ L'.rollback = true
          ∧ L'.tries = L.tries + 1 ∧ L'.pool = L.ranges ∧ L'.dies = [] ∧ L'.itemsDone = 0 ∧ L'.nextWg = 0 ∧ L'.stage = .running
          ∧ ∀ j g, T.wg? j = some g → g.launch ≠ k))

/-- R25, R319, R320, R321, R322, R324, R326, R327, R328: what the host writes to a queue's block and to a generator's, and the boundaries of
a generator. A doorbell takes write_idx, and an overrun stops the queue; a state of 0 enables a disabled queue whose fields pass, and
restarts a stopped one; a period from 1 to 999 is refused, and another counts its boundaries from the new start. A boundary is numbered by
the hub; each queue bound to its generator, in ascending order, gets a record of it, one less is left to its TICKWAIT and to its deadlines,
and then its packets with tick that are ready start, in ring order. Boundaries that have been reached are numbered in the order of their
times, and those of one time by ascending generator, before a generator changes and before a TICKWAIT completes, which is the model's choice
(log entry 10). That a failed enable writes err and no record, and that a restart goes on behind the packets which have started, are the
model's readings (log entry 56). -/
def Obligations.HostRegisters : Prop :=
  (∀ (s : State) (q : Nat), s.power.phase ≠ .off → s.power.phase ≠ .held → q < 4096 →
    let u := s.queueOf q
    (∀ val, s.event = some (.doorbell q val) → u.state ≠ 2 →
      ((val - u.readIdx).toNat ≤ 2 ^ u.ringLog → Happens .doorbell s (s.modQueue q fun u => { u with writeIdx := val }))
      ∧ (2 ^ u.ringLog < (val - u.readIdx).toNat → ∃ T, Happens .doorbell s T
          ∧ T.queueOf q = { u with writeIdx := val, state := 1, err := 0x0A, records := u.records ++
              [recordOf (fgetD s.hub.seqs 4 0 + 1) (clockOf s 4) 4 (0x0A + 0xFFFFFFFF * 2 ^ 16)] }))
    ∧ (∀ val, s.event = some (.queueEnable q val) → u.state = 2 → bitsAt val 9 3 = 0 →
        let v : Queue := { u with ringLog := bitsAt val 0 5, tickSel := bitsAt val 5 4 }
        ∃ T, Happens .queueEnable s T ∧ T.mem = s.mem
          ∧ (enableOk (s.modQueue q fun _ => v) v = true → T.queueOf q = { v with
              state := 0, writeIdx := 0, readIdx := 0, evWrite := 0, evRead := 0, wake := 0, err := 0, nextIdx := 0, started := [], hold := none, records := [] })
          ∧ (enableOk (s.modQueue q fun _ => v) v = false → T.queueOf q = { v with err := 0x0B }))
    ∧ (∀ v : Queue, enableOk s v = true → ∃ ctx, v.ctx = some ctx ∧ (s.ctxFields ctx).killed = false ∧ v.ringBase.toNat % 64 = 0 ∧ v.evBase.toNat % 32 = 0 ∧ 1 ≤ v.ringLog ∧ v.ringLog ≤ 16
        ∧ 1 ≤ v.evLog ∧ v.evLog ≤ 16 ∧ v.tickSel ≤ 8)
    ∧ (∀ val, s.event = some (.queueRestart q val) → u.state = 1 → bitsAt val 9 3 = 0 →
        Happens .queueRestart s (s.modQueue q fun u => { u with state := 0, err := 0 }))
    ∧ (s.event = some (.wakeClear q) → Happens .wakeClear s (s.modQueue q fun u => { u with wake := 0 }))
    ∧ (∀ off wide val, s.event = some (.registerWrite q off wide val) →
        (64 ≤ off ∨ off % (if wide then 8 else 4) ≠ 0 → Happens .registerWrite s s)
        ∧ (off = 40 → wide = false → Happens .registerWrite s (s.modQueue q fun u => { u with evRead := lo32 val }))
        ∧ (off = 0 → wide = true → u.state ≠ 2 → Happens .registerWrite s s)
        ∧ (off = 0 → wide = true → u.state = 2 → ∃ T, Happens .registerWrite s T ∧ T.queueOf q = { u with ringBase := val })
        ∧ (off = 24 → wide = true → u.state = 2 → ∃ T, Happens .registerWrite s T ∧ T.queueOf q = { u with evBase := val })
        ∧ (off = 32 → wide = false → u.state = 2 → Happens .registerWrite s (s.modQueue q fun u => { u with evLog := bitsAt (lo32 val) 0 5 }))
        ∧ (off = 8 → wide = false → u.state = 2 → Happens .registerWrite s s)))
  ∧ (∀ (s : State) (g : Nat) (start : DWord) (period : Word), s.event = some (.tickGeneratorCommit g start period) → s.power.phase ≠ .off → s.power.phase ≠ .held → g < 8 →
      ((∃ p ∈ s.hub.gens, p.2.due (clockOf s 4) = true) → Happens .tickGeneratorCommit s s)
      ∧ (0 < period.toNat ∧ period.toNat < 1000 → Happens .tickGeneratorCommit s s)
      ∧ (period.toNat = 0 ∨ 1000 ≤ period.toNat → (∀ p ∈ s.hub.gens, p.2.due (clockOf s 4) = false) → ∃ n,
          Happens .tickGeneratorCommit s (s.modHub fun h => { h with gens := fset h.gens g { start := start, period := period, next := n } })
          ∧ (period.toNat ≠ 0 → clockOf s 4 < start.toNat + n * period.toNat ∧ ∀ m, m < n → start.toNat + m * period.toNat ≤ clockOf s 4)))
  ∧ (∀ (s : State) (g : Nat) (x : Gen), s.event = some (.tick g) → fget? s.hub.gens g = some x → x.period ≠ 0 →
      x.start.toNat + x.next * x.period.toNat ≤ clockOf s 4 →
        let at_ (y : Gen) : Nat := y.start.toNat + y.next * y.period.toNat
        let before (p : Nat × Gen) : Prop := p.2.period ≠ 0 ∧ at_ p.2 ≤ clockOf s 4 ∧ (at_ p.2 < at_ x ∨ (at_ p.2 = at_ x ∧ p.1 < g))
        ((∃ p ∈ s.hub.gens, before p) → Happens .tick s s)
        ∧ ((∀ p ∈ s.hub.gens, ¬before p) → Happens .tick s (tickAt s g x))
        ∧ (let qs := boundQueues s g
           let n := fgetD s.hub.seqs 4 0 + 1
           let r := recordOf n (clockOf s 4) 3 (g + x.next * 2 ^ 16)
           (∀ q, q ∈ qs ↔ ∃ u, (q, u) ∈ s.hub.queues ∧ u.tickSel = g + 1 ∧ u.state ≠ 2)
           ∧ ∃ S : Nat → State, S 0 = s.modHub (fun b => { b with seqs := fset b.seqs 4 n, gens := fset b.gens g { x with next := x.next + 1 } })
              ∧ (∀ i, i < qs.length → let q := qs.getD i 0
                  S (i + 1) = startTicked (passBoundary ((S i).modQueue q fun u => { u with records := u.records ++ [r] }) q) q 16 true)
              ∧ tickAt s g x = S qs.length))
  ∧ (∀ (s : State) (q : Nat) (first : Bool), startTicked s q 0 first = s
      ∧ ∀ n, let t := startPacket s q (fun _ => true) true first
        startTicked s q (n + 1) first = if (t.queueOf q).nextIdx = (s.queueOf q).nextIdx then t else startTicked t q n false)
  ∧ (∀ (s : State) (q ctx : Nat) (bs : List Byte) (first : Bool),
      let u := s.queueOf q
      let idx := u.nextIdx
      let x := ofBytes bs
      let w (lo : Nat) : DWord := BitVec.ofNat 64 (natBits x lo 64)
      let goes : Prop := u.ctx = some ctx ∧ (s.ctxFields ctx).killed = false ∧ u.state = 0 ∧ u.hold = none ∧ idx ≠ u.writeIdx
        ∧ (u.started.filter fun p => !p.done).length < 16 ∧ s.power.phase = .running
      let waits : Prop := (x.testBit 8 = true ∨ natBits x 0 8 = 3) ∧ (u.readIdx ≠ idx ∨ first = false)
      let t := startPacket s q (fun _ => true) true first
      (¬goes → u.ctx = some ctx → t = s)
      ∧ (goes → hubRead s ctx (u.ringBase.toNat + 64 * (idx.toNat % 2 ^ u.ringLog)) 64 0 = .bytes bs → Pkt.bad (u.tickSel ≠ 0) x = false →
          (waits ∨ x.testBit 9 = false → t = s)
          ∧ (¬waits → x.testBit 9 = true →
              (natBits x 0 8 = 4 → t = s.modQueue q fun u => { u with
                started := u.started ++ [{ idx := idx, done := false }], nextIdx := idx + 1, hold := some (.tickwait idx (natBits x 64 32) (x.testBit 11)) })
              ∧ (natBits x 0 8 = 1 → ∀ hb, hubRead s ctx (w 64).toNat 128 1 = .bytes hb → ∃ L, t.mem = s.mem
                  ∧ t.queueOf q = { u with started := u.started ++ [{ idx := idx, done := false }], nextIdx := idx + 1 }
                  ∧ t.launch? s.uid = some L ∧ L.ctx = ctx ∧ L.by_ = .packet q idx ∧ L.hdr = parseHeader hb
                  ∧ L.deadline = if natBits x 16 16 = 0 then none else some (natBits x 16 16)))))
  ∧ (∀ (s : State) (q : Nat), let t := passBoundary s q
      (∀ idx left w, (s.queueOf q).hold = some (.tickwait idx left w) → t.queueOf q = { s.queueOf q with hold := some (.tickwait idx (left - 1) w) })
      ∧ ∀ k L idx, s.launch? k = some L → L.by_ = .packet q idx → L.stage = .running → ∀ d, L.deadline = some d →
          t.launch? k = some { L with deadline := some (d - 1), missed := L.missed || decide (d ≤ 1) })
  ∧ ∀ (s : State) (q : Nat) (idx : Word) (left : Nat) (wake : Bool), s.event = some (.tickwaitComplete q) →
      (s.queueOf q).hold = some (.tickwait idx left wake) →
        let due : Prop := ∃ p ∈ s.hub.gens, p.2.due (clockOf s 4) = true
        (due → Happens .tickwaitComplete s s)
        ∧ (¬due → left = 0 → Happens .tickwaitComplete s (packetDone (s.modQueue q fun u => { u with hold := none }) q idx))
        ∧ (¬due → left ≠ 0 → wake = false ∨ (s.queueOf q).wake = 0 → Happens .tickwaitComplete s s)
        ∧ (¬due → left ≠ 0 → wake = true → (s.queueOf q).wake ≠ 0 →
            Happens .tickwaitComplete s (packetDone (s.modQueue q fun u => { u with hold := none, wake := 0 }) q idx))

/-- R325, R326, R328, R329, R330, R341: the packet that a running queue starts next. One that R328 refuses stops the queue with PKT_BAD. A
LAUNCH starts with its header's checks made and its items to be dispensed, a FENCE and a TICKWAIT hold the queue, a SIGNAL stores or adds,
and a GRAPH starts with those roots that hold dep = 0 (that it leaves the others alone is the model's choice, log entry 58). A packet with
bar, and every SIGNAL, starts when no packet before it is incomplete. A completed packet lets read_idx pass it and every completed one after
it; and the queue of a killed context is disabled when none is left and its records are out, which is the model's reading (log entry 69). No
packet starts so while a boundary that has been reached waits for its TICK, which is the model's choice (log entry 10). -/
def Obligations.PacketEvents : Prop :=
  (∀ (s : State) (q ctx : Nat) (bs : List Byte),
    let u := s.queueOf q
    let idx := u.nextIdx
    let x := ofBytes bs
    let w (lo : Nat) : DWord := BitVec.ofNat 64 (natBits x lo 64)
    let dead : Option Nat := if natBits x 16 16 = 0 then none else some (natBits x 16 16 + 1)
    u.ctx = some ctx → (s.ctxFields ctx).killed = false → u.state = 0 → u.hold = none → idx ≠ u.writeIdx → (u.started.filter fun p => !p.done).length < 16 → s.power.phase = .running →
    (∀ p ∈ s.hub.gens, p.2.due (clockOf s 4) = false) → hubRead s ctx (u.ringBase.toNat + 64 * (idx.toNat % 2 ^ u.ringLog)) 64 0 = .bytes bs →
      (Pkt.bad (u.tickSel ≠ 0) x = true →
        (s.event = some (.launchPacket q) → (natBits x 0 8 ≤ 1 ∨ 5 < natBits x 0 8) → Happens .launchPacket s (stopQueue s q 9 idx))
        ∧ (s.event = some (.fencePacket q) → natBits x 0 8 = 2 → Happens .fencePacket s (stopQueue s q 9 idx))
        ∧ (s.event = some (.signalPacket q) → natBits x 0 8 = 3 → Happens .signalPacket s (stopQueue s q 9 idx))
        ∧ (s.event = some (.tickwaitPacket q) → natBits x 0 8 = 4 → Happens .tickwaitPacket s (stopQueue s q 9 idx))
        ∧ (s.event = some (.graphPacket q) → natBits x 0 8 = 5 → Happens .graphPacket s (stopQueue s q 9 idx)))
      ∧ (Pkt.bad (u.tickSel ≠ 0) x = false → (x.testBit 8 = true ∨ natBits x 0 8 = 3 → u.readIdx = idx) → x.testBit 9 = false →
          (s.event = some (.launchPacket q) → natBits x 0 8 = 1 → ∀ hb, hubRead s ctx (w 64).toNat 128 1 = .bytes hb → ∃ T L, Happens .launchPacket s T
            ∧ T.mem = s.mem ∧ T.queueOf q = { u with started := u.started ++ [{ idx := idx, done := false }], nextIdx := idx + 1 }
            ∧ T.launch? s.uid = some L ∧ L.ctx = ctx ∧ L.by_ = .packet q idx ∧ L.hdr = parseHeader hb ∧ L.recAt = w 128 ∧ L.sig = w 192 ∧ L.sigVal = w 256
            ∧ L.idem = x.testBit 10 ∧ L.retry = 3 ∧ L.tries = 0 ∧ L.deadline = dead ∧ L.stage = .running ∧ L.itemsDone = 0 ∧ L.usedDies = []
            ∧ L.status = headerStatus (s.ctxFields ctx).mmMode L.hdr
            ∧ L.pool = if L.status ≠ 0 ∨ L.hdr.items = 0 then [] else [(0, L.hdr.items.toNat)])
          ∧ (s.event = some (.fencePacket q) → natBits x 0 8 = 2 → ∀ es : List (List Byte), es.length = Pkt.extra x → es.length < (u.writeIdx - idx).toNat →
              (∀ i e, es[i]? = some e → hubRead s ctx (slotAt u (idx + BitVec.ofNat 32 (i + 1))) 64 (2 + i) = .bytes e) →
              let cs := fenceConds x (es.map ofBytes)
              (∀ c ∈ cs.take (natBits x 32 4), c.addr.toNat % 8 = 0) → (∀ c ∈ cs.drop (natBits x 32 4), c.addr = 0 ∧ c.val = 0) →
                Happens .fencePacket s (s.modQueue q fun u => { u with
                  started := u.started ++ [{ idx := idx, done := false }], nextIdx := idx + BitVec.ofNat 32 (1 + es.length)
                  hold := some (.fence idx (cs.take (natBits x 32 4))) }))
          ∧ (s.event = some (.signalPacket q) → natBits x 0 8 = 3 →
              (natBits x 32 2 = 0 → ∀ t, hubWrite s ctx (w 64).toNat 0 (bytesOf 8 (natBits x 128 64)) = .written t →
                Happens .signalPacket s (packetDone (beginPacket t q 1) q idx))
              ∧ (natBits x 32 2 = 1 → ∀ m t, hubRead s ctx (w 64).toNat 8 1 = .bytes m →
                  hubWrite s ctx (w 64).toNat 0 (bytesOf 8 (ofBytes m + natBits x 128 64)) = .written t →
                    Happens .signalPacket s (packetDone (beginPacket t q 1) q idx)))
          ∧ (s.event = some (.tickwaitPacket q) → natBits x 0 8 = 4 → Happens .tickwaitPacket s (s.modQueue q fun u => { u with
              started := u.started ++ [{ idx := idx, done := false }], nextIdx := idx + 1, hold := some (.tickwait idx (natBits x 64 32) (x.testBit 11)) }))
          ∧ (s.event = some (.graphPacket q) → natBits x 0 8 = 5 → ∀ rs,
              (if natBits x 128 32 = 0 then rs = [] else hubRead s ctx (w 64).toNat (8 * natBits x 128 32) 1 = .bytes rs) →
              let G : Graph := { ctx := ctx, queue := q, idx := idx, recAt := w 192, sig := w 256, sigVal := w 320, deadline := dead, tBegin := clockOf s 4
                                 ready := (addressList rs (natBits x 128 32)).filter (rootReady s ctx) }
              ∃ T, Happens .graphPacket s T ∧ T.mem = s.mem ∧ T.graph? s.uid = some G
                ∧ T.queueOf q = { u with started := u.started ++ [{ idx := idx, done := false }], nextIdx := idx + 1 })))
  ∧ (∀ (s : State) (q : Nat), (∃ p ∈ s.hub.gens, p.2.due (clockOf s 4) = true) →
      (s.event = some (.launchPacket q) → Happens .launchPacket s s) ∧ (s.event = some (.fencePacket q) → Happens .fencePacket s s)
      ∧ (s.event = some (.signalPacket q) → Happens .signalPacket s s) ∧ (s.event = some (.tickwaitPacket q) → Happens .tickwaitPacket s s)
      ∧ (s.event = some (.graphPacket q) → Happens .graphPacket s s))
  ∧ (∀ (x : Gen) (now : Nat), x.due now = true ↔ x.period ≠ 0 ∧ x.start.toNat + x.next * x.period.toNat ≤ now)
  ∧ (∀ (s : State) (ctx : Nat) (node : DWord) (bs : List Byte), hubRead s ctx (node.toNat + 4) 4 1 = .bytes bs →
      (rootReady s ctx node = true ↔ ofBytes bs = 0))
  ∧ (∀ x es j, j < 3 → (fenceConds x es)[j]? = some
      { addr := BitVec.ofNat 64 (natBits x (64 + 128 * j) 64), val := BitVec.ofNat 64 (natBits x (128 + 128 * j) 64), ge := x.testBit (36 + j), held := false })
  ∧ (∀ (s : State) (q ctx : Nat) (idx : Word) (cs : List FenceCond) (ms : Nat → List Byte), s.event = some (.fencePacketComplete q) →
      (s.queueOf q).hold = some (.fence idx cs) → (s.queueOf q).ctx = some ctx → (s.queueOf q).state ≠ 2 →
      (∀ i c, cs[i]? = some c → c.held = false → hubRead s ctx c.addr.toNat 8 i = .bytes (ms i)) →
      let now (i : Nat) (c : FenceCond) : Bool := let m : DWord := BitVec.ofNat 64 (ofBytes (ms i))
        c.held || if c.ge then decide (c.val.toNat ≤ m.toNat) else decide (m = c.val)
      ((∀ i c, cs[i]? = some c → now i c = true) →
        Happens .fencePacketComplete s (packetDone (s.modQueue q fun u => { u with hold := none }) q idx))
      ∧ ((∃ i c, cs[i]? = some c ∧ now i c = false) → ∃ ds : List FenceCond, Happens .fencePacketComplete s (s.modQueue q fun u => { u with hold := some (.fence idx ds) })
          ∧ ds.length = cs.length ∧ ∀ (i : Nat) (c : FenceCond), cs[i]? = some c → ds[i]? = some ({ c with held := now i c } : FenceCond)))
  ∧ ∀ (s : State) (q : Nat) (idx : Word), let u := s.queueOf q
      ∃ done rest, (packetDone s q idx).queueOf q = { u with
          started := rest, readIdx := ((rest.head?).map fun p => p.idx).getD u.nextIdx
          state := if queueKilled s u = true ∧ rest = [] ∧ u.records = [] then 2 else u.state }
        ∧ (u.started.map fun p => if p.idx = idx then { p with done := true } else p) = done ++ rest ∧ (∀ p ∈ done, p.done = true)
        ∧ ∀ p, rest.head? = some p → p.done = false

/-- R313, R340, R341, R342, R343, R403: the walker takes up the ready nodes of a running graph. A KERNEL node starts its launch; a COPY node
reads its entry once and performs it, or refuses it with ENT_BAD; one that is delayed has started and goes on, in a drained context too;
Jasper of its engine's die is told of every status but OK, under the next number of that die; and the status goes to the node's record. With
POISON, or where the entry or the node's list of output ranges is poisoned, the node's rerun is counted in it and shown in its record, if it
is idempotent and may run again, and else its context is killed. A SIGNAL node stores; and a completed node takes one from the dep of each
successor, which is ready at 0, and then moves to another device if the context has been drained. The model's readings: rollback stands in
byte 4 of a COPY node's record (log entry 59), a poisoned list leaves a rerun no ranges (log entry 58), and what becomes of the nodes of a
drained context (log entry 74). -/
def Obligations.GraphEvents : Prop :=
  ∀ (s : State) (k : Nat) (node : DWord) (g : Graph) (bs : List Byte), s.graph? k = some g → g.stage = .running →
  hubRead s g.ctx node.toNat 64 0 = .bytes bs →
    let x := ofBytes bs
    let w (lo : Nat) : DWord := BitVec.ofNat 64 (natBits x lo 64)
    let others := g.copying.filter fun p => p.1 != node
    let ends (t : State) : State := t.modGraph k fun g => { g with
      ready := g.ready.erase node, finished := node :: g.finished, copying := g.copying.filter fun p => p.1 != node }
    let again : Prop := x.testBit 8 = true ∧ natBits x 336 8 < natBits x 9 3
    (node ∈ g.ready → s.power.phase = .running →
      ((s.ctxFields g.ctx).drained = false → s.event = some (.kernelNode k node) → natBits x 0 8 = 1 →
        (∀ outs hb, (if natBits x 320 16 = 0 then outs = [] else hubRead s g.ctx (w 256).toNat (16 * natBits x 320 16) 2 = .bytes outs) →
          hubRead s g.ctx (w 128).toNat 128 1 = .bytes hb → ∃ T L, Happens .kernelNode s T ∧ T.mem = s.mem ∧ T.launch? s.uid = some L
            ∧ L.ctx = g.ctx ∧ L.by_ = .node k node ∧ L.hdr = parseHeader hb ∧ L.recAt = w 192 ∧ L.sig = 0 ∧ L.idem = x.testBit 8 ∧ L.retry = natBits x 9 3
            ∧ L.tries = natBits x 336 8 ∧ L.rollback = decide (natBits x 336 8 ≠ 0) ∧ L.stage = .running
            ∧ L.status = headerStatus (s.ctxFields g.ctx).mmMode L.hdr
            ∧ L.pool = (if L.status ≠ 0 ∨ L.hdr.items = 0 then [] else [(0, L.hdr.items.toNat)])
            ∧ T.graph? k = some { g with ready := g.ready.erase node, running := node :: g.running })
        ∧ (natBits x 320 16 ≠ 0 → hubRead s g.ctx (w 256).toNat (16 * natBits x 320 16) 2 = .poison → Happens .kernelNode s (rerunNode s k node g x)))
      ∧ ((s.ctxFields g.ctx).drained = false → s.event = some (.signalNode k node) → natBits x 0 8 = 3 →
          ∀ t, hubWrite s g.ctx (w 128).toNat 1 (bytesOf 8 (natBits x 192 64)) = .written t → Happens .signalNode s (ends t))
      ∧ (s.event = some (.copyNode k node) → natBits x 0 8 = 2 →
        ((s.ctxFields g.ctx).drained = false → others = g.copying → hubRead s g.ctx (w 128).toNat 32 1 = .poison → Happens .copyNode s (rerunNode s k node g x))
        ∧ ∀ (started : Bool) (e : BitVec 256),
          (if started then g.copying.find? (fun p => decide (p.1 = node)) = some (node, e)
            else (s.ctxFields g.ctx).drained = false ∧ others = g.copying
              ∧ ∃ eb, hubRead s g.ctx (w 128).toNat 32 1 = .bytes eb ∧ e = BitVec.ofNat 256 (ofBytes eb)) →
          let d := nodeDie k node
          let r := runNodeEntry { s := s, ctx := g.ctx, wg := s.uid, die := d, begun := if started then some {} else none } e (2 ^ 80 * (k + 1) + node.toNat)
          let n := fgetD r.2.hub.seqs d 0 + 1
          let told (c : Nat) : State := if c = 0 then r.2 else
            r.2.modHub fun b => { b with seqs := fset b.seqs d n, notices := fset b.notices d (fgetD b.notices d [] ++ [.copyError n c]) }
          let reached : Prop := ∀ t, reach s g.ctx (w 192).toNat 1 3 .store ≠ .delayed t
          d < 4
          ∧ (r.1 = none → Happens .copyNode s (r.2.modGraph k fun g => { g with copying := (node, e) :: g.copying.filter fun p => p.1 != node }))
          ∧ (∀ res, r.1 = some res → nodeDelayed s g x res.status = none → Happens .copyNode s (endCopyNode r.2 k node g x res.status))
          ∧ (∀ res t, r.1 = some res → res.status ≠ 0x0B → reached → hubWrite (told res.status) g.ctx (w 192).toNat 3 (bytesOf 1 res.status) = .written t →
              Happens .copyNode s (ends t))
          ∧ (∀ res, r.1 = some res → res.status = 0x0B → nodeDelayed s g x 0x0B = none → Happens .copyNode s (rerunNode (told 0x0B) k node g x))
          ∧ (nodeEntryOk e = false → ∃ res, r.1 = some res ∧ res.status = 2 ∧ r.2 = s)))
    ∧ (∀ t : State, (¬again → rerunNode t k node g x = killCtx t g.ctx)
        ∧ ∀ t₁ fl u, again → natBits x 320 16 = 0 → writeVa t g.ctx (node.toNat + 42) 0 (bytesOf 1 (natBits x 336 8 + 1)) = .ok t₁ →
            readVa t₁ g.ctx ((w 192).toNat + 4) 1 0 = .ok fl → writeVa t₁ g.ctx ((w 192).toNat + 4) 1 (bytesOf 1 (ofBytes fl ||| 2)) = .ok u →
              rerunNode t k node g x = u.modGraph k fun g => { g with copying := g.copying.filter fun p => p.1 != node })
    ∧ (s.event = some (.nodeComplete k node) → node ∈ g.finished → ∀ ls t ready,
        (if natBits x 16 16 = 0 then ls = [] else hubRead s g.ctx (w 64).toNat (8 * natBits x 16 16) 1 = .bytes ls) →
        (∀ a ∈ addressList ls (natBits x 16 16), outOfReach s g.ctx a = none) → releaseAll s g.ctx (addressList ls (natBits x 16 16)) = .ok t ready →
          (let d := (s.ctxFields g.ctx).drained
           Happens .nodeComplete s (t.modGraph k fun g => { g with
            finished := g.finished.erase node, ready := if d = true then g.ready else g.ready ++ ready, moved := if d = true then g.moved ++ ready else g.moved })))
    ∧ releaseAll s g.ctx [] = .ok s []
    ∧ ∀ a l ds t u ready, hubRead s g.ctx (a.toNat + 4) 4 2 = .bytes ds → let d : Word := BitVec.ofNat 32 (ofBytes ds) - 1
        hubWrite s g.ctx (a.toNat + 4) 2 (bytesOf 4 d.toNat) = .written t → releaseAll t g.ctx l = .ok u ready →
          releaseAll s g.ctx (a :: l) = .ok u (if d = 0 then a :: ready else ready)

/-- R298, R299, R300, R302, R303, R305, R307, R310, R311, R312, R313, R376, R377: the copy engine takes the next entry of a queue that is
not stopped and performs it whole. A tile operation checks its descriptor and its tile in order; LCOPY and FILL move or fill all their
bytes; a hint makes no access; a put ends when its tokens are acknowledged, a get when its bytes have come, or, on an aborted handle, with
PEER_LOST where the entry has started (log entry 72 where it is not known) and else with HANDLE_BAD; and a QFENCE when the named queues have
passed its tails. The completion takes last_bytes, the err word of the first failure, the done count and the stop from the result, and a
stopped queue skips its entries. An entry that is delayed has started, but for a QFENCE, and keeps what it read as it started. The order of
the checks is the model's choice (log entry 46), and so are the counts of a queue that the launch does not declare (log entry 103). R74,
R79, R305, R307, R308, R309: what TLOAD, TSTORE, GATHER and SCATTER do with the elements of a dense tile. A load whose storage is within
reach leaves in the scratchpad, at the place of each tile position, the pad where its tensor row or column lies outside and else the
expanded storage element, 0 in the bits beyond the elements, the validity bits of the rows, and every other byte as it was. A store takes
the tile rows in ascending order; each that lies inside, and is not marked invalid, is written, packed, to its tensor row, and a half byte
at an edge keeps its other half; it reports the bytes of the list, of the validity area, and, for each such row, of the scratchpad that
holds what it stores, which are whole bytes (log entry 47). -/
def Obligations.CopyEngineEvents : Prop :=
  (
    (∀ (s : State) (wg q : Nat) (g : Workgroup), s.wg? wg = some g → q < g.queues.length →
      let u := g.queues.getD q {}
      let e := fgetD u.ring (u.done.toNat % 32) 0
      let ctx := (s.launchOf g).ctx
      let k : CopyCtx := { s := s, ctx := ctx, wg := wg, die := g.core / 48, begun := u.begun }
      let n := bitsAt e 224 32
      let gives (i : Instr) (T : State) (status bytes : Nat) : Prop :=
        Happens i s (modCopyQueue T wg q fun u => { u with performed := some { status := status, bytes := bytes }, begun := none })
      let does (i : Instr) (r : Ended) : Prop :=
        (r.1 = none → Happens i s (modCopyQueue r.2 wg q fun u => { u with begun := startOf k e })) ∧ ∀ res, r.1 = some res → gives i r.2 res.status res.bytes
      u.tail ≠ u.done → u.performed = none →
      (u.stopped = false →
        (bitsAt e 0 8 = 1 → s.event = some (.tload wg q) → does .tload (tileEntry k e false false))
        ∧ (bitsAt e 0 8 = 2 → s.event = some (.tstore wg q) → does .tstore (tileEntry k e true false))
        ∧ (bitsAt e 0 8 = 4 → s.event = some (.gather wg q) → does .gather (tileEntry k e false true))
        ∧ (bitsAt e 0 8 = 5 → s.event = some (.scatter wg q) → does .scatter (tileEntry k e true true))
        ∧ (bitsAt e 0 8 = 3 → s.event = some (.lcopy wg q) → does .lcopy (lcopyEntry k e)
            ∧ (Ent.bad e = false → bitsAt e 12 2 = 2 → 0 < n → n ≤ 2 ^ 24 →
                let a : DWord := e.extractLsb' 64 64
                let b : DWord := e.extractLsb' 128 64
                let data := readPieces s.mem (piecesAt s ctx a n 0 .load)
                (a.toNat + n ≤ b.toNat ∨ b.toNat + n ≤ a.toNat) → faultAt s ctx a n 0 .load = none → piecesPoisoned s.mem (piecesAt s ctx a n 0 .load) = false →
                faultAt s ctx b data.length 0 .store = none → ∀ T, writeVa s ctx b.toNat 0 data = .ok T → gives .lcopy T 0 n)
            ∧ (Ent.bad e = false → 0 < n → n ≤ 2 ^ 24 → bitsAt e 32 32 % 4 = 0 → (∀ y ∈ s.wgs, y.2.scratchErr = []) →
                ∀ j off, scratchTarget s wg (bitAt e 11) (e.extractLsb' 32 32) n = some (j, off) → ∀ w, s.wg? j = some w →
                  let a : DWord := e.extractLsb' 64 64
                  (bitsAt e 12 2 = 0 → faultAt s ctx a n 0 .load = none → piecesPoisoned s.mem (piecesAt s ctx a n 0 .load) = false →
                    gives .lcopy (putScratch s j off (readPieces s.mem (piecesAt s ctx a n 0 .load))) 0 n)
                  ∧ (bitsAt e 12 2 = 1 → faultAt s ctx a n 0 .store = none → ∀ T, writeVa s ctx a.toNat 0 (scratchRead j w off n) = .ok T →
                    gives .lcopy T 0 n)
                  ∧ (bitsAt e 12 2 = 3 → ∀ j' off', scratchTarget s wg false (e.extractLsb' 128 32) n = some (j', off') →
                      (j = j' → off + n ≤ off' ∨ off' + n ≤ off) → gives .lcopy (putScratch s j' off' (scratchRead j w off n)) 0 n))
            ∧ (Ent.bad e = false → bitsAt e 12 2 ≠ 2 → bitsAt e 32 32 % 4 ≠ 0 → gives .lcopy s 0x02 0)
            ∧ (Ent.bad e = false → bitsAt e 12 2 = 2 ∨ bitsAt e 32 32 % 4 = 0 → 2 ^ 24 < n → gives .lcopy s 0x07 0))
        ∧ (bitsAt e 0 8 = 6 → s.event = some (.fill wg q) → does .fill (fillEntry k e)
            ∧ (Ent.bad e = false → n % 4 = 0 → 0 < n →
                let data := (List.range (n / 4)).flatMap fun _ => bytesOf 4 (bitsAt e 128 32)
                (∀ j off, bitsAt e 12 2 = 0 → bitsAt e 32 32 % 4 = 0 → scratchTarget s wg (bitAt e 11) (e.extractLsb' 32 32) n = some (j, off) →
                  gives .fill (putScratch s j off data) 0 0)
                ∧ (bitsAt e 12 2 = 1 → bitsAt e 64 64 % 4 = 0 → faultAt s ctx (e.extractLsb' 64 64) n 0 .store = none →
                    ∀ T, writeVa s ctx (bitsAt e 64 64) 0 data = .ok T → gives .fill T 0 0))
            ∧ (Ent.bad e = false → n % 4 ≠ 0 → gives .fill s 0x02 0))
        ∧ (bitsAt e 0 8 = 7 → bitsAt e 12 2 ≠ 1 → s.event = some (.hintL2 wg q) → does .hintL2 (hintL2Entry k e)
            ∧ (Ent.bad e = false → ∃ T, gives .hintL2 T 0 0 ∧ { T with mem := s.mem } = s ∧ { T.mem with tlb := s.mem.tlb } = s.mem))
        ∧ (bitsAt e 0 8 = 7 → bitsAt e 12 2 = 1 → s.event = some (.hintTag wg q) → does .hintTag (hintTagEntry k e)
            ∧ (Ent.bad e = false → u.begun = none → n ≤ 2 ^ (s.launchOf g).hdr.tagLog →
                let t := g.tags.getD (bitsAt e 32 32) {}
                g.tags.length ≤ bitsAt e 32 32 ∨ t.valid = false ∨ t.key ≠ e.extractLsb' 128 64 → gives .hintTag s 0x09 0))
        ∧ (bitsAt e 0 8 = 8 → bitsAt e 12 2 ≠ 1 → s.event = some (.rcopyPut wg q) → does .rcopyPut (rcopyPutEntry k e (4 * wg + q) (4 * wg + q, u.done))
            ∧ (Ent.bad e = false → rcopyOk s e = true → rcopyStalls s e = false → 0 < n → 4 * wg + q ∈ (rcopyHandle s e).sent → ∃ T, gives .rcopyPut T 0 n
                ∧ T.mem = s.mem ∧ ∀ h, fget? T.hub.handles (bitsAt e 128 32) = some h → 4 * wg + q ∉ h.sent))
        ∧ (bitsAt e 0 8 = 8 → bitsAt e 12 2 = 1 → ∀ data, s.event = some (.rcopyGet wg q data) → does .rcopyGet (rcopyGetEntry k e data (4 * wg + q, u.done))
            ∧ (Ent.bad e = false → rcopyOk s e = true → rcopyStalls s e = false → 0 < n → data.length = n →
                faultAt s ctx (e.extractLsb' 64 64) n 0 .store = none → ∀ T, writeVa s ctx (bitsAt e 64 64) 0 data = .ok T → gives .rcopyGet T 0 n))
        ∧ (bitsAt e 0 8 = 9 → s.event = some (.qfence wg q) → Ent.bad e = false →
            let passed (j : Nat) : Prop := bitAt e (32 + j) = true → 0 ≤ ((g.queues.getD j {}).done - e.extractLsb' (128 + 32 * j) 32).toInt
            ((∀ j, j < 4 → passed j) → gives .qfence s 0 0) ∧ ((∃ j, j < 4 ∧ ¬passed j) → Happens .qfence s (modCopyQueue s wg q fun u => { u with begun := none })))
        ∧ (bitsAt e 0 8 = 0 ∨ 9 < bitsAt e 0 8 → s.event = some (.copyEntryComplete wg q) →
            Happens .copyEntryComplete s (completeEntry s wg q { status := 0x01, bytes := 0 })))
      ∧ (u.stopped = true → s.event = some (.copyEntrySkip wg q) → Happens .copyEntrySkip s (completeEntry s wg q { status := 0x0D, bytes := 0 })))
    ∧ (∀ (s : State) (wg q : Nat) (g : Workgroup) (r : CopyResult), s.wg? wg = some g → q < g.queues.length →
        let u := g.queues.getD q {}
        let e := fgetD u.ring (u.done.toNat % 32) 0
        let err : Word := BitVec.ofNat 32 (r.status + u.done.toNat % 2 ^ 24 * 256)
        (s.event = some (.copyEntryComplete wg q) → u.performed = some r → u.tail ≠ u.done → Happens .copyEntryComplete s (completeEntry s wg q r))
        ∧ (u.posted = none → Ent.evt e = false → r.status ≠ 0x0B → ∃ g', (completeEntry s wg q r).wg? wg = some g'
            ∧ g'.queues.length = g.queues.length ∧ (∀ j, j ≠ q → g'.queues.getD j {} = g.queues.getD j {})
            ∧ g'.queues.getD q {} = { u with
                done := u.done + 1, performed := none, last := BitVec.ofNat 32 r.bytes
                err := if r.status ≠ 0 ∧ u.err = 0 then err else u.err, stopped := u.stopped || decide (r.status ≠ 0 ∧ r.status ≠ 0x0D) }
            ∧ ∀ c, c < 16 → g.counters.length = 16 →
                g'.counters.getD c 0 = if bitAt e 8 = true ∧ bitsAt e 16 6 = c then g.counters.getD c 0 - 1 else g.counters.getD c 0)
        ∧ (∀ lq idx, u.posted = none → Ent.evt e = true → reportsTo s (s.launchOf g) = some (lq, idx) →
            let die := g.core / 48
            ((completeEntry s wg q r).queueOf lq).records = (s.queueOf lq).records ++ [recordOf (fgetD s.hub.seqs die 0 + 1) (clockOf s die) 0x0010
              (r.status + q * 2 ^ 8 + bitsAt e 16 6 * 2 ^ 10 + g.num * 2 ^ 16 + u.done.toNat * 2 ^ 48 + r.bytes * 2 ^ 80)]))
    ∧ (∀ (k : CopyCtx) (e : BitVec 256) (data : List Byte) (token : Nat) (queue : Nat × Word) (h : Handle),
        fget? k.s.hub.handles (bitsAt e 128 32) = some h → h.aborted = true → Ent.bad e = false →
        (k.begun ≠ none → ∃ n, n ≤ bitsAt e 224 32 ∧ (rcopyGetEntry k e data queue).1 = some { status := 0x0C, bytes := n }
          ∧ (rcopyPutEntry k e token queue).1 = some { status := 0x0C, bytes := n })
        ∧ (k.begun = none → queue ∉ h.atAbort → token ∉ h.sent → rcopyGetEntry k e data queue = (some { status := 8, bytes := 0 }, k.s)
          ∧ rcopyPutEntry k e token queue = (some { status := 8, bytes := 0 }, k.s)))
    ∧ ∀ (k : CopyCtx) (e : BitVec 256) (store indexed : Bool),
        let a : DWord := e.extractLsb' 64 64
        let bs := readPieces k.s.mem (piecesAt k.s k.ctx a 64 0 .load)
        let fresh : Prop := (k.begun.getD {}).desc = []
        let b : Begun := if fresh then { desc := bs, table := fget? (k.s.ctxFields k.ctx).tables (tdescOf bs).cmp } else k.begun.getD {}
        let t := tdescOf b.desc
        let valid : Bool := (b.table.map tableOk).getD true
        let ends (status : Nat) : Prop := tileEntry k e store indexed = (some { status := status, bytes := 0 }, k.s)
        (let start := startOf k e
         (bitsAt e 0 8 = 9 → start = none) ∧ (bitsAt e 0 8 ∈ [3, 6, 7, 8] → start = some (k.begun.getD {}))
         ∧ (bitsAt e 0 8 ∈ [1, 2, 4, 5] → start = some (if fresh ∧ faultAt k.s k.ctx a 64 0 .load ≠ none then {} else b))) ∧
        (Ent.bad e = true → ends 0x02)
        ∧ (Ent.bad e = false → a.toNat % 64 ≠ 0 → ends 0x03)
        ∧ (Ent.bad e = false → a.toNat % 64 = 0 →
            (fresh → faultAt k.s k.ctx a 64 0 .load = none ∧ piecesPoisoned k.s.mem (piecesAt k.s k.ctx a 64 0 .load) = false) →
            (t.bad = true → ends 0x03)
            ∧ (t.bad = false → t.fmt = 0x0F ∨ 0x14 < t.fmt → ends 0x04)
            ∧ (t.bad = false → t.fmtOk = true → valid = false → ends 0x05)
            ∧ (t.bad = false → t.fmtOk = true → valid = true → t.sparseBad = false →
                bitsAt e 192 16 = 0 ∨ 256 < bitsAt e 192 16 ∨ bitsAt e 208 16 = 0 ∨ 256 < bitsAt e 208 16 → ends 0x02)))
  ∧ (
    (∀ (k : CopyCtx) (e : BitVec 256) (indexed : Bool) (j off : Nat) (G H : Workgroup),
      let a : DWord := e.extractLsb' 64 64
      let bs := readPieces k.s.mem (piecesAt k.s k.ctx a 64 0 .load)
      let fresh : Prop := (k.begun.getD {}).desc = []
      let b : Begun := if fresh then { desc := bs, table := fget? (k.s.ctxFields k.ctx).tables (tdescOf bs).cmp } else k.begun.getD {}
      let t := tdescOf b.desc
      let cv := curveOf b.table
      let w := t.bits
      let tr := bitsAt e 192 16
      let tc := bitsAt e 208 16
      let vlen : Nat := if bitAt e 9 then (if tr ≤ 32 then 4 else 32) else 0
      let rowLen := 4 * ((tc * w + 31) / 32)
      let len : Nat := if bitAt e 10 then 4 * ((tr * tc * w + 31) / 32) else tr * rowLen
      let place (i c : Nat) : Nat := if bitAt e 10 then (i * tc + c) * w else 8 * (i * rowLen) + c * w
      let row (i : Nat) : Int := if indexed then (BitVec.ofNat 32 (ofBytes (scratchRead k.wg G (bitsAt e 224 32 + 4 * i) 4))).toInt
        else (e.extractLsb' 128 32).toInt + i
      let left : Int := (e.extractLsb' 160 32).toInt
      let rowIn (i : Nat) : Prop := 0 ≤ row i ∧ row i < t.rows
      let colIn (c : Nat) : Prop := 0 ≤ left + c ∧ left + c < t.dim0
      let bit (u : Workgroup) (at_ n : Nat) : Bool := (scratchGet j u (at_ + n / 8)).toNat.testBit (n % 8)
      let good : Prop := Ent.bad e = false ∧ a.toNat % 64 = 0
        ∧ (fresh → faultAt k.s k.ctx a 64 0 .load = none ∧ piecesPoisoned k.s.mem (piecesAt k.s k.ctx a 64 0 .load) = false)
        ∧ t.bad = false ∧ t.fmtOk = true ∧ (b.table.map tableOk).getD true = true ∧ t.spar = 0 ∧ 1 ≤ tr ∧ tr ≤ 256 ∧ 1 ≤ tc ∧ tc ≤ 256
        ∧ bitsAt e 32 32 % (if t.canon = 0 then 8 else 4) = 0
        ∧ (indexed = true → bitsAt e 224 32 % 4 = 0 ∧ (scratchTarget k.s k.wg false (e.extractLsb' 224 32) (4 * tr)).isSome = true)
        ∧ scratchTarget k.s k.wg (bitAt e 11) (e.extractLsb' 32 32) (vlen + len) = some (j, off)
        ∧ k.s.wg? k.wg = some G ∧ k.s.wg? j = some H ∧ ∀ y ∈ k.s.wgs, y.2.scratchErr = []
      (let mem (va : DWord) (n : Nat) : Nat := ofBytes (readPieces k.s.mem (piecesAt k.s k.ctx va n 0 .load))
       let after (va : DWord) (n : Nat) : DWord := va + BitVec.ofNat 64 n
       let bw := tyWidth (blockType t.fmt)
       let block (c : Nat) : Nat := c / 32 * (4 * bw + 1)
       let scaleAt (c : Nat) : Nat := block c + (min 32 (t.dim0 - 32 * (c / 32)) * bw + 7) / 8
       let nq (r c : Nat) : Nat := r * ((t.dim0 + 63) / 64) + c / 64
       let reads (r c : Nat) : List (DWord × Nat) :=
         if t.fmt = 0x10 then [(after (t.rowAt r) (c / 2), 1), (after t.scale0 (nq r c), 1), (after t.scale1 (4 * (nq r c / 256)), 4)]
         else if 0x11 ≤ t.fmt then [(after (t.rowAt r) (block c + c % 32 * bw / 8), 1), (after (t.rowAt r) (scaleAt c), 1)]
         else [(after (t.rowAt r) (c * w / 8), (w + 7) / 8)]
       let code (r c : Nat) : Nat := (reads r c).headD (0, 0) |> fun y => mem y.1 y.2
       let second (r c : Nat) : Nat := (reads r c).getD 1 (0, 0) |> fun y => mem y.1 y.2
       let third (r c : Nat) : Nat := (reads r c).getD 2 (0, 0) |> fun y => mem y.1 y.2
       let element (r c : Nat) : Nat :=
         if t.fmt = 0x10 then nqExpand cv (third r c) (second r c) (code r c / 2 ^ (4 * (c % 2)) % 16)
         else if 0x11 ≤ t.fmt then blockExpand cv (blockType t.fmt) (second r c) (code r c / 2 ^ (c % 32 * bw % 8) % 2 ^ bw)
         else plainCode cv curveExpand t.fmt (code r c / 2 ^ (c * w % 8) % 2 ^ w)
       good → (∀ i c, i < tr → c < tc → rowIn i → colIn c → ∀ y ∈ reads (row i).toNat (left + c).toNat,
            faultAt k.s k.ctx y.1 y.2 0 .load = none ∧ piecesPoisoned k.s.mem (piecesAt k.s k.ctx y.1 y.2 0 .load) = false) →
          ∃ n S H', tileEntry k e false indexed = (some { status := 0, bytes := n }, S) ∧ { S with wgs := k.s.wgs } = k.s
            ∧ (∀ i, i ≠ j → S.wg? i = k.s.wg? i) ∧ S.wg? j = some H' ∧ { H' with scratch := H.scratch, scratchErr := H.scratchErr } = H
            ∧ (∀ i c, i < tr → c < tc → ∀ m, m < w →
                (rowIn i → colIn c → bit H' (off + vlen) (place i c + m) = (element (row i).toNat (left + c).toNat).testBit m)
                ∧ (¬rowIn i ∨ ¬colIn c → bit H' (off + vlen) (place i c + m) = t.padCode.testBit m))
            ∧ (bitAt e 10 = false → ∀ i m, i < tr → tc * w ≤ m → m < 8 * rowLen → bit H' (off + vlen + i * rowLen) m = false)
            ∧ (bitAt e 10 = true → ∀ m, tr * tc * w ≤ m → m < 8 * len → bit H' (off + vlen) m = false)
            ∧ (∀ i, i < 8 * vlen → (bit H' off i = true ↔ i < tr ∧ rowIn i))
            ∧ ∀ y, y < off ∨ off + vlen + len ≤ y → scratchGet j H' y = scratchGet j H y)
      ∧ (let lo : Nat := min left.toNat t.dim0
         let hi : Nat := min (left + tc).toNat t.dim0
         let first := lo * w / 8
         let size := (hi * w + 7) / 8 - first
         let dest (i : Nat) : DWord := t.rowAt (row i).toNat + BitVec.ofNat 64 first
         let stored (i : Nat) : Bool := decide (rowIn i) && (!bitAt e 9 || bit H off i)
         let element (i c : Nat) : Nat := ofBytes (scratchRead j H (off + vlen) len) / 2 ^ place i c % 2 ^ w
         good → t.fmt ≤ 0x0E →
          (∀ i, i < tr → stored i = true → lo < hi → faultAt k.s k.ctx (dest i) size 0 .store = none
            ∧ (w = 4 → faultAt k.s k.ctx (dest i) size 0 .load = none ∧ piecesPoisoned k.s.mem (piecesAt k.s k.ctx (dest i) size 0 .load) = false
                ∧ ∀ y, y < size → faultAt k.s k.ctx (dest i + BitVec.ofNat 64 y) 1 0 .load = none
                  ∧ piecesPoisoned k.s.mem (piecesAt k.s k.ctx (dest i + BitVec.ofNat 64 y) 1 0 .load) = false)) →
            ∃ S : Nat → State, S 0 = k.s
              ∧ tileEntry k e true indexed = (some { status := 0, bytes := (if indexed = true then 4 * tr else 0) + vlen
                  + (((List.range tr).filter stored).map fun i => if hi ≤ lo then 0
                      else (place i ((hi : Int) - left).toNat + 7) / 8 - place i ((lo : Int) - left).toNat / 8).sum }, S tr)
              ∧ ∀ i, i < tr → (stored i = false ∨ hi ≤ lo → S (i + 1) = S i)
                ∧ (stored i = true → lo < hi → ∃ new : List Byte, new.length = size
                    ∧ (∀ T, writeVa (S i) k.ctx (dest i).toNat 0 new = .ok T → S (i + 1) = T)
                    ∧ ∀ m, m < 8 * size →
                      let y := 8 * first + m
                      (lo * w ≤ y → y < hi * w → bitAt (new.getD (m / 8) 0) (m % 8) =
                        (plainCode cv curvePack t.fmt (element i (((y / w : Nat) : Int) - left).toNat)).testBit (y % w))
                      ∧ (y < lo * w ∨ hi * w ≤ y → ∀ old, readVa (S i) k.ctx (dest i).toNat size 0 = .ok old →
                          bitAt (new.getD (m / 8) 0) (m % 8) = bitAt (old.getD (m / 8) 0) (m % 8)))))
    ∧ ∀ ty x, ty ≤ 0x0E → x < 2 ^ tyWidth ty → ∀ z m d, valueOf ty x = .fin z m d → (Frac.dyadic m.natAbs d).le (topValue ty) = true → ¬(tyWidth ty = 4 ∧ x = 8) →
        plainCode identityCurve curveExpand ty x = x ∧ plainCode identityCurve curvePack ty x = x)

/-- R318, R364, R365, R366: pre-emption. A request marks the workgroups that it names, with those of their cluster set and of their RESIDENT
launch; after 200 µs every warp that still runs stops; a workgroup whose warps are ready leaves its core for the save area, or goes on if it
cannot be saved; and it comes back on a core that fits it. That on another die the time by which two dies' clocks may differ (R27) passes
first is the model's choice (log entry 11). -/
def Obligations.PreemptionEvents : Prop :=
  (∀ (s : State) (x : PreemptTarget), s.event = some (.preemptRequest x) → s.power.phase = .running → ∃ T, Happens .preemptRequest s T
    ∧ { T with wgs := s.wgs } = s ∧ ∀ k g, s.wg? k = some g → ∃ p, T.wg? k = some { g with preempt := p }
      ∧ (∀ c, x = .context c → (s.launchOf g).ctx = c → p = some (g.preempt.getD 0))
      ∧ ∀ b, x = .workgroup b → ((∃ h, s.wg? b = some h ∧ (k = b ∨ (g.cset ≠ none ∧ h.cset = g.cset)
          ∨ (g.launch = h.launch ∧ (s.launchOf g).hdr.resident = true))) → p = some (g.preempt.getD 0))
        ∧ (¬(∃ h, s.wg? b = some h ∧ (k = b ∨ (g.cset ≠ none ∧ h.cset = g.cset)
          ∨ (g.launch = h.launch ∧ (s.launchOf g).hdr.resident = true))) → p = g.preempt))
  ∧ (∀ (s : State) (k t : Nat) (g : Workgroup), s.wg? k = some g → g.preempt = some t →
      (s.event = some (.preemptTimeout k) → s.power.phase = .running →
        (t < 200000 → Happens .preemptTimeout s s)
        ∧ (200000 ≤ t → ∃ T, Happens .preemptTimeout s T ∧ ∀ p ∈ wgWarps s k, p.2.stop = .running → p.2.pfail = false → warpReady s p.1 p.2 = false →
            ∀ w, T.warp? p.1 = some w → w.stop ≠ .running))
      ∧ (s.event = some (.workgroupSave k) → s.power.phase = .running → (∀ j ∈ setOf s k, wgReady s j = true) →
          (∀ T, saveAll s (s.launchOf g).ctx (setOf s k) = some T → Happens .workgroupSave s T
            ∧ ∀ j ∈ setOf s k, T.wg? j = none ∧ ∃ v ∈ T.hub.saved, v.id = j)
          ∧ (saveAll s (s.launchOf g).ctx (setOf s k) = none →
              Happens .workgroupSave s (let r := ((setOf s k).foldl abandonSave s).number (g.core / 48)
                r.2.notify (g.core / 48) (.saveFault r.1 k)))))
  ∧ (∀ (s : State) (k : Nat) (g : Workgroup) (j : Nat), s.wg? k = some g → wgReady s k = true → ∀ u, g.queues[j]? = some u → u.performed = none ∧ u.begun = none)
  ∧ (∀ (s : State) (k core : Nat) (v : SavedWg), s.event = some (.workgroupRestore k core) → s.power.phase = .running → core < 192 →
      s.hub.saved = [v] → v.id = k → v.wg.cset = none → core / 48 ∈ diesOf (s.launchOf v.wg).hdr →
        (∀ ps, coreFits s (s.launchOf v.wg) core = some ps → Happens .workgroupRestore s (restoreOn (if v.wg.core / 48 = core / 48 then s else passTime s 4) v core ps))
        ∧ (coreFits s (s.launchOf v.wg) core = none → Happens .workgroupRestore s s))
  ∧ ∀ (s : State) (v : SavedWg) (core : Nat) (ps : List Nat),
      (∃ m, (restoreOn s v core ps).wg? v.id = some { v.wg with
        core := core, warps := m, granules := freeGranules s core (allocOf (s.launchOf v.wg).hdr / 1024) })
      ∧ (restoreOn s v core ps).hub.saved = s.hub.saved.filter fun x => x.id != v.id

/-- R24, R295, R296, R367, R368, R369, R371, R372, R378, R384: loss of supply, and the warm reset. A PFAIL opens the window in which the
handlers run; at 20 µs, or once they have finished, it closes; accepted REDs change their locations, and entries and COPY nodes that have
started are done; the keep image goes to the older slot, each range whole, torn or absent; power-up starts as after reset with the keep
store kept, unless an image fails its verification and the device stays in reset. A warm reset kills the implicated contexts, which for a
hub error are all and for a unit of a die at least those with work there, and resets the dies; which others one L2 tag or the TLBs of a die
hold translations of is a free choice of the model (log entry 70). That a range poisoned in its first line is torn, the emptied slices of a
handler, and memory as at reset after power-up are the model's choices (log entries 66, 63, 67). -/
def Obligations.PowerEvents : Prop :=
  (∀ (s : State), s.event = some .pfail → s.power.phase = .running → ∃ T, Happens .pfail s T
      ∧ T.power = { s.power with phase := .window s.time (fgetD s.hub.seqs 4 0 + 1) } ∧ T.time = s.time
      ∧ ∀ wk w, s.warps = [(wk, w)] → w.lanes.length = 32 →
          let c := s.ctxFields (s.ctxOf w)
          (∀ i, i < 32 → (w.lane i).pend = [] ∧ (w.lane i).chain = none ∧ (w.lane i).sw = 0 ∧ (w.lane i).wait ≠ some .exit
            ∧ ∀ m, (w.lane i).wait ≠ some (.waitvLeft m)) →
          (∀ d ∈ w.causes, d.code < 0x30) →
            (w.stop = .ended → T.warp? wk = some w)
            ∧ (w.stop ≠ .ended → c.pfailVec = 0 → T.warp? wk = some { w with stop := .ended, causes := [], jasper := [] })
            ∧ (w.stop ≠ .ended → c.pfailVec ≠ 0 → T.warp? wk = some (pfailWarp w c.pfailVec (c.waitLimit.toNat * 1000))
                ∧ T.mem = ((writeFrame s wk 4 (fgetD s.hub.seqs 4 0 + 1) { code := Code.pfail, mask := w.live, path := 0, pc := 0, resume := .none, cont := 0 } 0)).mem))
  ∧ (∀ (w : Warp) (vec : PC) (limit : Nat), let t := pfailWarp w vec limit
      t.stop = .running ∧ t.pfail = true ∧ t.causes = [] ∧ t.lanes.length = w.lanes.length
      ∧ (∀ k, k < 8 → t.slices.getD k {} = { slots := if sub4 w.live k = 0 then [] else [{ pc := vec, mask := sub4 w.live k }] })
      ∧ ∀ i, i < 32 → i < w.lanes.length → t.lane i = if (w.lane i).vacant then w.lane i else
          { w.lane i with park := none, wait := none, sw := 0, handler := true, region := vec, readyAt := 0, yieldTo := 0 })
  ∧ (∀ (s : State) (began seq : Nat), s.event = some .pfailWindowClose → s.power.phase = .window began seq →
      let done : Prop := ∀ p ∈ s.warps, p.2.pfail = true → p.2.stop = .ended ∨ ∀ i, i < 32 → (p.2.lane i).vacant = true ∨ ∃ pc, (p.2.lane i).park = some { pc := pc, why := .pfdone }
      (began + 20000 ≤ s.time ∨ done → Happens .pfailWindowClose s { s with power := { s.power with phase := .closed seq } })
      ∧ (s.time < began + 20000 → ¬done → Happens .pfailWindowClose s s))
  ∧ (∀ (s : State) (seq : Nat), s.event = some .quiesce → s.power.phase = .closed seq → ∃ T, Happens .quiesce s T
      ∧ T.power = { s.power with phase := .quiesced seq } ∧ T.mem.reds = []
      ∧ (∀ k g q, T.wg? k = some g → q < g.queues.length → (g.queues.getD q {}).performed = none)
      ∧ ((∀ g ∈ s.wgs, ∀ u ∈ g.2.queues, u.performed = none ∧ u.begun = none) → (∀ h ∈ s.hub.handles, h.2.sent = []) → (∀ g ∈ s.hub.graphs, g.2.copying = []) →
          (∀ q ∈ s.hub.queues, q.2.records = []) →
          ∃ R : Nat → State, R 0 = s.setMem { s.mem with reds := [] }
            ∧ T = { R s.mem.reds.length with power := { s.power with phase := .quiesced seq } }
            ∧ ∀ i r, s.mem.reds[i]? = some r →
                let o : AtomOp := { op := r.op, n := r.size, sgn := r.signed, flt := r.float }
                (poisoned (R i).mem r.pa r.size = true → R (i + 1) = containLaunch (R i) r.launch r.arb)
                ∧ (poisoned (R i).mem r.pa r.size = false →
                    R (i + 1) = (R i).setMem (match o.apply (ofBytes (physRead (R i).mem r.key r.pa r.size)) r.val.toNat 0 with
                      | some y => physWrite (R i).mem r.key r.pa (bytesOf r.size y)
                      | none => (R i).mem)))
      ∧ ∀ (j : Nat) (G : Graph) (node : DWord) (e : BitVec 256) (nb : List Byte),
          s.hub.graphs = [(j, G)] → G.copying = [(node, e)] → s.wgs = [] → s.mem.reds = [] → (∀ q ∈ s.hub.queues, q.2.records = []) →
            ∀ res S t, runNodeEntry { s := s, ctx := G.ctx, wg := s.uid, die := nodeDie j node, begun := some {}, last := true } e (nodeToken j node) = (some res, S) →
              readVa s G.ctx node.toNat 64 0 = .ok nb → res.status = 0 → hubWrite S G.ctx (natBits (ofBytes nb) 192 64) 3 (bytesOf 1 0) = .written t →
              t.graph? j = some G → t.wgs = [] → t.mem.reds = [] → (∀ q ∈ t.hub.queues, q.2.records = []) →
                T.mem = t.mem ∧ T.graph? j = some { G with ready := G.ready.erase node, finished := node :: G.finished, copying := [] })
  ∧ (∀ (s : State) (seq : Nat), s.event = some .keepSave → s.power.phase = .quiesced seq →
      (s.power.newest = 0 → Happens .keepSave s { s with power := { s.power with slot1 := some (keepImage s seq), newest := 1, phase := .off } })
      ∧ (s.power.newest = 1 → Happens .keepSave s { s with power := { s.power with slot0 := some (keepImage s seq), newest := 0, phase := .off } }))
  ∧ (∀ (s : State) (ctx i : Nat) (tag : DWord) (r : DWord × Nat),
      let k := saveRange s ctx tag i r
      k.tag = tag ∧ k.addr = r.1 ∧ k.len = r.2 ∧ k.idx = i
      ∧ (∀ c, translateRange s ctx r.1.toNat r.2 i .load = .fault c → k.status = 0)
      ∧ ∀ ps, translateRange s ctx r.1.toNat r.2 i .load = .ok ps →
          (piecesPoisoned s.mem ps = false → k.status = 2 ∧ k.data = readPieces s.mem ps ∧ k.crc = some (Config.crc32 k.data) ∧ k.commit = true)
          ∧ (piecesPoisoned s.mem ps = true → k.status = 1 ∧ k.commit = false ∧ ∃ n, k.data = (readPieces s.mem ps).take n))
  ∧ (∀ (s : State), s.event = some .powerUp → s.power.phase = .off ∨ s.power.phase = .held → ∃ T, Happens .powerUp s T
      ∧ T.power = { s.power with phase := if Config.imageGood s.free then .running else .held } ∧ { T.hub with reply := State.reset.hub.reply } = State.reset.hub
      ∧ T.hub.reply = (if Config.imageGood s.free then State.reset.hub.reply else .imageBad) ∧ T.mem = State.reset.mem ∧ T.warps = [] ∧ T.wgs = [] ∧ T.cores = [] ∧ T.time = State.reset.time)
  ∧ ∀ (s : State) (unit : FailUnit), s.event = some (.warmReset unit) → s.power.phase = .running → ∃ T, Happens .warmReset s T
      ∧ (T.power = s.power ∨ T.power = { s.power with phase := .held }) ∧ T.time = s.time ∧ T.cores = [] ∧ T.mem.tlb = [] ∧ (∀ d, fgetD s.hub.seqs d 0 ≤ fgetD T.hub.seqs d 0)
      ∧ ∀ k c, s.ctx? k = some c →
          let works (d : Nat) : Prop := (∃ g ∈ s.wgs, g.2.core / 48 = d ∧ (s.launchOf g.2).ctx = k) ∨ (∃ r ∈ s.mem.reds, r.die = d ∧ r.ctx = k)
            ∨ (∃ L ∈ s.hub.launches, L.2.ctx = k ∧ ∃ x, fget? L.2.dies d = some x ∧ (x.chunkLo < x.chunkHi ∨ x.laneLo < x.laneHi))
            ∨ ∃ G ∈ s.hub.graphs, G.2.ctx = k ∧ ∃ p ∈ G.2.copying, nodeDie G.1 p.1 = d
          (unit = .hub ∨ ∃ d, (unit = .sequencer d ∨ unit = .l2 d) ∧ works d) → ∃ c', T.ctx? k = some c' ∧ c'.killed = true

/-- R82, R319, R320, R354, R360, R370, R378: what the host asks of Jasper and of the security engine. A context is created from a descriptor
that passes its checks, and the host reads why not; it is destroyed once it is killed and its records are out; new settings, a table that
R80 accepts, and a key are taken. The order of the creation checks and the destruction of a context that still lives, by a kill and a later
return, are the model's choices (log entries 68, 69), and so is that the bits of a key come with the step of KEY_LOAD (log entry 81). -/
def Obligations.ContextEvents : Prop :=
  (∀ (s : State) (desc : List Byte) (qs : List Nat), s.event = some (.contextCreate desc qs) → s.power.phase = .running → desc.length = 256 →
    let x := ofBytes desc
    let c : Ctx := { CtxDesc.fields x with order := s.hub.created }
    let t := s.modHub fun h => { h with ctxs := fset h.ctxs s.hub.created c, created := s.hub.created + 1 }
    let tells (r : Reply) : Prop := Happens .contextCreate s (s.modHub fun h => { h with reply := r })
    Happens .contextCreate s (createContext s desc qs)
    ∧ (CtxDesc.bad x = true → tells .descBad)
    ∧ (CtxDesc.bad x = false → pinnedRange t s.hub.created c.trapArea.toNat (12 * 2 ^ 20) 0 = false
        ∨ pinnedRange t s.hub.created c.saveArea.toNat c.saveLen 0 = false → tells .unpinned)
    ∧ (CtxDesc.bad x = false → pinnedRange t s.hub.created c.trapArea.toNat (12 * 2 ^ 20) 0 = true →
        pinnedRange t s.hub.created c.saveArea.toNat c.saveLen 0 = true → CtxDesc.byte x 54 = 0 →
        s.hub.ctxs.foldl (fun n k => n + keepBytes k.2) 0 ≤ 2 ^ 32 →
          (512 ≤ s.hub.ctxs.length → tells .noContext)
          ∧ (s.hub.ctxs.length < 512 → CtxDesc.byte x 55 = 0 → ∃ T, Happens .contextCreate s T ∧ T.mem = s.mem ∧ T.ctx? s.hub.created = some c
              ∧ T.hub.reply = .created s.hub.created ∧ T.hub.created = s.hub.created + 1
              ∧ ∀ q, q < 4096 → (s.queueOf q).ctx = none → q ∈ qs → (T.queueOf q).ctx = some s.hub.created)))
  ∧ (∀ desc, CtxDesc.bad desc = false → let c := CtxDesc.fields desc
      c.root.toNat % 4096 = 0 ∧ c.trapVec.toNat % 4 = 0 ∧ c.pfailVec.toNat % 4 = 0 ∧ c.trapArea.toNat % 1024 = 0 ∧ 13312 ≤ c.saveLen ∧ c.mmMode ≠ 0 ∧ c.savePrio ≤ 7)
  ∧ (∀ (s : State) (ctx : Nat) (c : Ctx), s.ctx? ctx = some c →
      (s.event = some (.hostKillCommand ctx) → c.killed = false → Happens .hostKillCommand s (killCtx s ctx))
      ∧ (s.event = some (.contextDestroy ctx) →
          (c.killed = false → Happens .contextDestroy s { killCtx s ctx with agenda := (killCtx s ctx).agenda ++ [.contextDestroy ctx] })
          ∧ (c.killed = true → ctxIdle s ctx = false → Happens .contextDestroy s { s with agenda := s.agenda ++ [.contextDestroy ctx] })
          ∧ (c.killed = true → ctxIdle s ctx = true → ∃ T, Happens .contextDestroy s T ∧ T.ctx? ctx = none
              ∧ (∀ q, (s.queueOf q).ctx = some ctx → (T.queueOf q).ctx = none ∧ (T.queueOf q).state = 2 ∧ (T.queueOf q).readIdx = (s.queueOf q).readIdx)
              ∧ ∀ e ∈ T.mem.tlb, e.ctx ≠ ctx))
      ∧ (∀ u, s.event = some (.contextUpdate ctx u) → u.trapVec.toNat % 4 = 0 → u.pfailVec.toNat % 4 = 0 → ∃ T, Happens .contextUpdate s T ∧ T.hub.reply = .done
          ∧ T.mem = s.mem ∧ T.warps = s.warps
          ∧ T.ctx? ctx = some { c with policyHalt := u.policyHalt, trapVec := u.trapVec, pfailVec := u.pfailVec, waitLimit := u.waitLimit })
      ∧ (∀ u, s.event = some (.contextUpdate ctx u) → u.trapVec.toNat % 4 ≠ 0 ∨ u.pfailVec.toNat % 4 ≠ 0 →
          Happens .contextUpdate s (s.modHub fun h => { h with reply := .descBad }))
      ∧ (∀ table addr, s.event = some (.loadTable ctx table addr) → 1 ≤ table → table ≤ 7 → ∀ bs, hubRead s ctx addr.toNat 68 0 = .bytes bs →
          (tableOk bs = true → ∃ T, Happens .loadTable s T ∧ T.hub.reply = .done ∧ T.mem = s.mem ∧ T.ctx? ctx = some { c with tables := fset c.tables table bs })
          ∧ (tableOk bs = false → Happens .loadTable s (s.modHub fun h => { h with reply := .compandBad })))
      ∧ (∀ table addr, s.event = some (.loadTable ctx table addr) → table = 0 ∨ 7 < table → Happens .loadTable s (s.modHub fun h => { h with reply := .compandBad }))
      ∧ ∀ key bits, s.event = some (.keyLoad key ctx bits) → 1 ≤ key → key ≤ 4095 → ∃ T c', Happens .keyLoad s T ∧ key ∈ T.hub.keys ∧ T.ctx? ctx = some c'
          ∧ { c' with keys := c.keys } = c ∧ (∀ j, j ∈ c'.keys ↔ j = key ∨ j ∈ c.keys) ∧ T.warps = s.warps
          ∧ (let gen := fgetD s.mem.keyGens key 0 + 1
             T.mem = { s.mem with keyGens := fset s.mem.keyGens key gen, keyBits := fset s.mem.keyBits (key + 4096 * gen) (bits % 2 ^ 512) }))
  ∧ ∀ (s : State) (key ctx bits : Nat), s.event = some (.keyLoad key ctx bits) → key = 0 ∨ 4095 < key → Happens .keyLoad s s

/-- R294, R312, R375, R376, R377, R402, R403: the fabric, the translation of Nelrak-1 functions, and moving a context. A token is performed
once in the device's window and then only acknowledged; a lost peer aborts the handle. A function's slot is claimed once; its warps wait,
and enter the native code when it is published, or take ILLEGAL_OP, still waiting for Jasper where they stand; a register that sends lanes
to another instruction boundary of a translated function lets them go on at the native PC value for which the address stands, and the two
maps are each other's inverse; a slot that says otherwise than Jasper has published leaves lanes waiting. A drain reports what is not
dispensed and closes the dispensers, and COPY nodes whose entries have started end here; another device, once the source's record is written
and its signal done, starts the launch with the reported ranges. How a token names its place and is dropped or stalled is log entry 72, that
a slot is a multiple of 16, how Jasper finds it and what a translation knows is log entry 73, and that a drain stops the nodes of a graph
and DRAINED_LAUNCH takes the next packet is log entry 74: the model's choices. -/
def Obligations.FabricAndMigration : Prop :=
  (∀ (s : State) (k : Nat),
    (∀ ms, s.event = some (.collectiveHandleCreate k ms) → fget? s.hub.handles k = none →
      Happens .collectiveHandleCreate s (s.modHub fun h => { h with handles := fset h.handles k { members := ms } }))
    ∧ (s.event = some (.peerRecovering k) → k ∉ s.hub.recovering → Happens .peerRecovering s (s.modHub fun h => { h with recovering := k :: h.recovering }))
    ∧ (s.event = some (.peerRecovered k) → Happens .peerRecovered s (s.modHub fun h => { h with recovering := h.recovering.filter fun x => x != k }))
    ∧ ∀ h, fget? s.hub.handles k = some h →
        (∀ tk, s.event = some (.tokenRetransmit k tk) → tk ∈ h.sent → ∃ T, Happens .tokenRetransmit s T ∧ fget? T.hub.handles k = some h
          ∧ T.mem = s.mem ∧ T.wgs = s.wgs ∧ T.warps = s.warps)
        ∧ (s.event = some (.peerLost k) → ∃ T, Happens .peerLost s T ∧ T.mem = s.mem ∧ T.wgs = s.wgs ∧ T.warps = s.warps
            ∧ ∃ h', fget? T.hub.handles k = some h' ∧ h'.aborted = true ∧ h'.members = h.members ∧ h'.sent = h.sent ∧ h'.received = h.received)
        ∧ (∀ tk off data m, s.event = some (.tokenReceived k tk off data) → h.aborted = false → h.stalls s.hub.recovering = false → h.window = some m →
            off.toNat + data.length ≤ m.len →
              (tk ∈ h.received → Happens .tokenReceived s s)
              ∧ (tk ∉ h.received → data ≠ [] → ∀ t, hubWrite s m.ctx (m.base + off.toNat) 0 data = .written t →
                  Happens .tokenReceived s (t.modHandle k fun h => { h with received := tk :: h.received }))))
  ∧ (∀ (s : State) (wk : Nat) (w : Warp) (slot : DWord) (pc : PC) (bs : List Byte), s.event = some (.translationClaim wk slot) → s.warp? wk = some w →
      (s.launchOfWarp w).hdr.isaRev = 1 → w.stop = .running → w.causes = [] →
        let ctx := s.ctxOf w
        let m := enteringLanes w
        let f : Func := { ctx := ctx, entry := pc, slot := slot }
        m ≠ 0 → (∀ i, bitAt m i = true → w.pcOf i = pc) →
        let entry : Prop := (∃ i, i < 32 ∧ bitAt m i = true ∧ (w.lane i).wait = some (.translation 0)) ∨ (∃ g ∈ s.hub.funcs, g.ctx = ctx ∧ g.entry = pc)
          ∨ Config.isEntry ctx pc = true
        let free : Prop := slot ≠ 0 ∧ slot.toNat % 16 = 0 ∧ ∀ g ∈ s.hub.funcs, g.ctx = ctx → (g.entry = pc ↔ g.slot = slot)
        let native : DWord := BitVec.ofNat 64 (natBits (ofBytes bs) 0 64)
        let waits (t : State) : State :=
          (t.modHub fun h => { h with funcs := if (h.funcs.any fun g => g.ctx = ctx && g.slot = slot) = true then h.funcs else h.funcs ++ [f] }).modWarp wk
            fun w => w.mapIn m fun _ l => { l.endChain with wait := some (.translation slot) }
        (entry → ¬free → Happens .translationClaim s s)
        ∧ (entry → free → readVa s ctx slot.toNat 16 0 = .ok bs → match natBits (ofBytes bs) 64 8, s.hub.funcs.find? (fun g => g.ctx = ctx && g.slot = slot) with
          | 0, _ => ∀ t, writeVa s ctx slot.toNat 1 (bytesOf 8 0 ++ bytesOf 1 1 ++ bytesOf 1 (wk / 3072) ++ bytesOf 6 0) = .ok t →
              Happens .translationClaim s (waits t)
          | 1, some _ => Happens .translationClaim s (waits s)
          | 2, some g => Happens .translationClaim s (if g.native.map (fun r => r.1) = some native then enterNative s wk m fun _ => native else s)
          | 3, some g => Happens .translationClaim s (if g.failed = true then refuseNative s wk m else s)
          | _, _ => Happens .translationClaim s s)
        ∧ (¬entry →
            let p := fromNelrak ctx pc
            let inside : Prop := (p &&& 3) = 0 ∧ p.toNat % 2 ^ 60 < 2 ^ 57
              ∧ ∃ g ∈ s.hub.funcs, g.ctx = ctx ∧ ∃ r, g.native = some r ∧ r.1.toNat ≤ p.toNat % 2 ^ 60 ∧ p.toNat % 2 ^ 60 < r.1.toNat + r.2
                ∧ boundary s ctx (p.toNat % 2 ^ 60) ((p.toNat % 2 ^ 60 - r.1.toNat) / 4 + 1) r.1.toNat = true
            (inside → Happens .translationClaim s (enterNative s wk m fun _ => p)) ∧ (¬inside → Happens .translationClaim s (refuseNative s wk m))))
  ∧ (∀ (s : State) (ctx a n at_ : Nat), boundary s ctx a 0 at_ = false
      ∧ (boundary s ctx a (n + 1) at_ = true ↔ at_ = a ∨ (at_ < a ∧ ∃ ws l, fetchWords s ctx at_ 0 1 = .ok ws l
          ∧ boundary s ctx a n (at_ + 4 * wordCount (ws.getD 0 0)) = true)))
  ∧ (∀ (ctx : Nat) (p : PC), fromNelrak ctx (toNelrak ctx p) = p ∧ toNelrak ctx (fromNelrak ctx p) = p)
  ∧ (∀ (s : State) (wk : Nat) (w : Warp) (m : Mask) (native : Nat → PC), s.warp? wk = some w →
      (∃ w', (refuseNative s wk m).warp? wk = some w' ∧ w'.slices = w.slices ∧ ∀ i, i < 32 → bitAt m i = true → (w'.lane i).wait = (w.lane i).wait
        ∧ ∃ c ∈ w'.causes, c.code = 0x01 ∧ bitAt c.mask i = true ∧ c.pc = w.pcOf i ∧ c.resume = .region)
      ∧ ∃ w', (enterNative s wk m native).warp? wk = some w' ∧ ∀ i, i < w.lanes.length → i < 32 →
          (w'.lane i).region = if bitAt m i = true ∧ (w.lane i).region = w.pcOf i then native i else (w.lane i).region)
  ∧ (∀ (s : State) (die ctx : Nat) (slot : DWord) (native : Option (DWord × Nat)) (bs : List Byte) (t : State),
      s.event = some (.translationPublish die ctx slot native) → readVa s ctx slot.toNat 16 0 = .ok bs →
      writeVa s ctx slot.toNat 1 (bytesOf 8 (match native with
        | some r => r.1
        | none => 0).toNat ++ bytesOf 1 (if native.isSome then 2 else 3) ++ bytesOf 1 die ++ bytesOf 6 0) = .ok t →
        let claimed : Prop := natBits (ofBytes bs) 64 8 = 1 ∧ natBits (ofBytes bs) 72 8 = die ∧ ∃ f ∈ s.hub.funcs, f.ctx = ctx ∧ f.slot = slot
        let fits (r : DWord × Nat) : Prop := r.1.toNat % 4 = 0 ∧ 0 < r.2 ∧ r.1.toNat + r.2 ≤ 2 ^ 57 ∧ pinnedRange s ctx r.1.toNat r.2 2 = true
          ∧ ∃ ps, translateRange s ctx r.1.toNat r.2 2 .fetch = .ok ps
        let known : State := t.modHub fun h => { h with funcs := h.funcs.map fun f => if f.ctx = ctx ∧ f.slot = slot then { f with native := native, failed := native.isNone } else f }
        (¬claimed ∨ (∃ r, native = some r ∧ ¬fits r) → Happens .translationPublish s s)
        ∧ (∀ r, native = some r → claimed → fits r →
            Happens .translationPublish s ((slotWaiters t ctx slot).foldl (fun s p => enterNative s p.1 p.2 fun _ => r.1) known))
        ∧ (native = none → claimed → Happens .translationPublish s ((slotWaiters t ctx slot).foldl (fun s p => refuseNative s p.1 p.2) known)))
  ∧ (∀ (s : State) (ctx : Nat) (c : Ctx), s.event = some (.drain ctx) → s.ctx? ctx = some c → c.killed = false → ∃ T, Happens .drain s T ∧ T.mem = s.mem ∧ T.warps = s.warps
      ∧ T.wgs = s.wgs ∧ T.ctx? ctx = some { c with drained := true }
      ∧ (∀ k g, s.graph? k = some g → T.graph? k = some (
          let started (n : DWord) : Bool := g.copying.any fun p => decide (p.1 = n)
          if g.ctx = ctx ∧ g.stage = .running then { g with ready := g.ready.filter started, moved := g.moved ++ g.ready.filter fun n => !started n } else g))
      ∧ ∀ k L, s.launch? k = some L → ∃ L', T.launch? k = some L'
          ∧ (L.ctx = ctx → L.stage = .running → L.hdr.resident = false → L'.pool = [] ∧ L'.dies = [] ∧ L'.status = L.status
              ∧ L'.closed = (L.closed || L.remains)
              ∧ (∀ x, (∃ r ∈ L'.ranges, r.1 ≤ x ∧ x < r.2) ↔ (∃ r ∈ L.ranges, r.1 ≤ x ∧ x < r.2) ∧ ¬∃ r ∈ L.undispensed, r.1 ≤ x ∧ x < r.2)
              ∧ ({ ctx := ctx, launch := k, hdr := L.hdr, ranges := L.undispensed } : DrainReport) ∈ T.hub.drains)
          ∧ (L.ctx ≠ ctx ∨ L.stage ≠ .running ∨ L.hdr.resident = true → L' = L))
  ∧ (∀ (s : State) (q ctx : Nat) (rs : List (Nat × Nat)) (recorded signalled : Bool) (bs hb : List Byte),
      let u := s.queueOf q
      let idx := u.nextIdx
      let x := ofBytes bs
      s.event = some (.drainedLaunch (.packet q idx) rs recorded signalled) → u.ctx = some ctx → parses s u = true → ticksDue s = false →
      hubRead s ctx (slotAt u idx) 64 0 = .bytes bs → natBits x 0 8 = 1 →
      Pkt.bad (u.tickSel ≠ 0) x = false → (x.testBit 8 = true → u.readIdx = idx) → hubRead s ctx (natBits x 64 64) 128 1 = .bytes hb →
        let freed : Prop := recorded = true ∧ (signalled = true ∨ natBits x 192 64 = 0)
        (¬freed → Happens .drainedLaunch s s)
        ∧ (freed → ∃ T L, Happens .drainedLaunch s T ∧ T.mem = s.mem ∧ T.launch? s.uid = some L ∧ L.hdr = parseHeader hb ∧ L.by_ = .packet q idx
          ∧ L.recAt.toNat = natBits x 128 64 ∧ L.status = headerStatus (s.ctxFields ctx).mmMode L.hdr
          ∧ (L.status = 0 → L.pool = (rs.map fun r => (r.1, min r.2 L.hdr.items.toNat)).filter fun r => decide (r.1 < r.2))
          ∧ T.queueOf q = { u with started := u.started ++ [{ idx := idx, done := false }], nextIdx := idx + 1 }))
  ∧ (∀ (s : State) (k : Nat) (node : DWord) (rs : List (Nat × Nat)) (recorded signalled : Bool) (g : Graph) (nb hb : List Byte),
      let x := ofBytes nb
      s.event = some (.drainedLaunch (.node k node) rs recorded signalled) → s.graph? k = some g →
        (recorded = false ∨ node ∉ g.moved → Happens .drainedLaunch s s)
        ∧ (recorded = true → node ∈ g.moved → g.stage = .running → s.power.phase = .running → (s.ctxFields g.ctx).drained = false →
            hubRead s g.ctx node.toNat 64 0 = .bytes nb → natBits x 0 8 = 1 → Node.outs x = 0 → hubRead s g.ctx (Node.payload x).toNat 128 1 = .bytes hb →
              ∃ T L, Happens .drainedLaunch s T ∧ T.mem = s.mem ∧ T.launch? s.uid = some L ∧ L.hdr = parseHeader hb ∧ L.by_ = .node k node ∧ L.recAt = Node.rec_ x
                ∧ L.status = headerStatus (s.ctxFields g.ctx).mmMode L.hdr
                ∧ (L.status = 0 → L.pool = (rs.map fun r => (r.1, min r.2 L.hdr.items.toNat)).filter fun r => decide (r.1 < r.2))
                ∧ T.graph? k = some { g with moved := g.moved.erase node, running := node :: g.running }))
  ∧ ∀ (s : State) (q ctx : Nat) (ready rest : List DWord) (rs : List (Nat × Nat)) (recorded signalled : Bool) (bs : List Byte),
      let u := s.queueOf q
      let idx := u.nextIdx
      let x := ofBytes bs
      s.event = some (.drainedLaunch (.graph q idx ready rest) rs recorded signalled) → u.ctx = some ctx → parses s u = true → ticksDue s = false →
      hubRead s ctx (slotAt u idx) 64 0 = .bytes bs → natBits x 0 8 = 5 → Pkt.bad (u.tickSel ≠ 0) x = false → (x.testBit 8 = true → u.readIdx = idx) →
        ∃ T G, Happens .drainedLaunch s T ∧ T.mem = s.mem ∧ T.graph? s.uid = some G ∧ G.ready = ready ∧ G.moved = rest ∧ G.ctx = ctx ∧ G.queue = q ∧ G.idx = idx
          ∧ T.queueOf q = { u with started := u.started ++ [{ idx := idx, done := false }], nextIdx := idx + 1 }
end

