-- ==== Sys2Proof/Laws/Events.lean ====
section
/-! SUPPORT. How a device step whose conditions hold, or do not hold, ends. -/

namespace Sys2Proof.Machine

variable {i : Instr} {s t : State} {c : Bool}

/-- A device step that is enabled happens. -/
theorem happens_of (e : exec i s = onlyIf c s t) (hc : c = true) : Happens i s t := by
  subst hc; exact e

/-- One that is not enabled has no effect. -/
theorem stays_of (e : exec i s = onlyIf c s t) (hc : c = false) : Happens i s s := by
  subst hc; exact e

/-- Of two states that a device step could leave it leaves the one that its condition picks. -/
theorem happens_if {p : Prop} [Decidable p] {u : State} (e : exec i s = if p then onlyIf true s t else onlyIf true s u) :
    Happens i s (if p then t else u) := by
  split <;> simp_all [Happens, onlyIf]

end Sys2Proof.Machine
end

