-- ==== Sys2Proof/Laws/Map.lean ====
section
/-! SUPPORT. What reading a sparse bank, a list of places and a lane mask gives after each update. -/

namespace Sys2Proof.Machine

theorem bitsNat_lt (p : Nat → Bool) (n : Nat) : bitsNat p n < 2 ^ n := by
  induction n with
  | zero => simp [bitsNat]
  | succ n ih => simp only [bitsNat, Nat.pow_succ]; split <;> omega

theorem testBit_bitsNat (p : Nat → Bool) (n i : Nat) : (bitsNat p n).testBit i = (decide (i < n) && p i) := by
  induction n with
  | zero => simp [bitsNat]
  | succ n ih =>
    have hlt := bitsNat_lt p n
    simp only [bitsNat]
    by_cases hp : p n
    · simp only [hp, if_true]
      rw [Nat.add_comm]
      by_cases hi : i = n
      · subst hi; rw [Nat.testBit_two_pow_add_eq, Nat.testBit_lt_two_pow hlt]; simp [hp]
      · by_cases h2 : i < n
        · rw [Nat.testBit_two_pow_add_gt h2, ih]; simp [h2]; omega
        · rw [Nat.testBit_lt_two_pow (Nat.lt_of_lt_of_le (show 2 ^ n + bitsNat p n < 2 ^ (n + 1) by rw [Nat.pow_succ]; omega)
            (Nat.pow_le_pow_right (by decide) (by omega)))]
          simp; omega
    · simp only [hp, Bool.false_eq_true, if_false, Nat.add_zero, ih]
      by_cases hi : i = n
      · subst hi; simp [hp]
      · by_cases h2 : i < n
        · simp [h2, show i < n + 1 by omega]
        · simp [h2, show ¬ i < n + 1 by omega]

/-- A lane is in the mask of the lanes that satisfy `p` exactly when it satisfies `p`. -/
theorem bitAt_maskOf (p : Nat → Bool) (i : Nat) (h : i < 32) : bitAt (maskOf p) i = p i := by
  have e : bitAt (maskOf p) i = (bitsNat p 32).testBit i := by
    simp only [bitAt, maskOf, BitVec.getLsbD_ofNat]; simp [h]
  rw [e, testBit_bitsNat]; simp [h]

/-- Lanes of the warp only. -/
theorem bitAt_ge (m : Mask) (i : Nat) (h : 32 ≤ i) : bitAt m i = false := BitVec.getLsbD_of_ge m i h

variable {α : Type}

@[simp] theorem fget?_fset_same (m : FMap α) (k : Nat) (a : α) : fget? (fset m k a) k = some a := by
  induction m with
  | nil => simp [fset, fget?]
  | cons p t ih =>
    obtain ⟨i, b⟩ := p
    simp only [fset]
    split
    · simp [fget?]
    · split
      · simp [fget?]
      · simp only [fget?]; rw [if_neg (by omega)]; exact ih

@[simp] theorem fget?_fset_other (m : FMap α) (k j : Nat) (a : α) (h : j ≠ k) : fget? (fset m k a) j = fget? m j := by
  induction m with
  | nil => simp [fset, fget?, Ne.symm h]
  | cons p t ih =>
    obtain ⟨i, b⟩ := p
    simp only [fset]
    split
    · simp [fget?, Ne.symm h]
    · split
      · rename_i h1 h2; subst h2; simp [fget?, Ne.symm h]
      · simp only [fget?]; split <;> simp_all

theorem fget?_below (m : FMap α) (lo k : Nat) (hs : fsorted lo m = true) (h : k < lo) : fget? m k = none := by
  induction m generalizing lo with
  | nil => rfl
  | cons p t ih =>
    obtain ⟨i, b⟩ := p
    simp only [fsorted, Bool.and_eq_true, decide_eq_true_eq] at hs
    simp only [fget?]; rw [if_neg (by omega)]; exact ih (i + 1) hs.2 (by omega)

@[simp] theorem fget?_ferase_same (m : FMap α) (k : Nat) : fget? (ferase m k) k = none := by
  induction m with
  | nil => rfl
  | cons p t ih =>
    obtain ⟨i, b⟩ := p
    simp only [ferase]; split
    · exact ih
    · simp only [fget?]; rw [if_neg (by omega)]; exact ih

@[simp] theorem fget?_ferase_other (m : FMap α) (k j : Nat) (h : j ≠ k) : fget? (ferase m k) j = fget? m j := by
  induction m with
  | nil => rfl
  | cons p t ih =>
    obtain ⟨i, b⟩ := p
    simp only [ferase]; split
    · rename_i h1; subst h1; simp [fget?, Ne.symm h, ih]
    · simp only [fget?]; split <;> simp_all

theorem fsorted_mono (m : FMap α) (lo lo' : Nat) (hs : fsorted lo m = true) (h : lo' ≤ lo) : fsorted lo' m = true := by
  cases m with
  | nil => rfl
  | cons p t =>
    simp only [fsorted, Bool.and_eq_true, decide_eq_true_eq] at hs ⊢
    exact ⟨by omega, hs.2⟩

theorem fsorted_fset (m : FMap α) (lo k : Nat) (a : α) (hs : fsorted lo m = true) (h : lo ≤ k) :
    fsorted lo (fset m k a) = true := by
  induction m generalizing lo with
  | nil => simp [fset, fsorted, h]
  | cons p t ih =>
    obtain ⟨i, b⟩ := p
    simp only [fsorted, Bool.and_eq_true, decide_eq_true_eq] at hs
    simp only [fset]
    split
    · simp only [fsorted, Bool.and_eq_true, decide_eq_true_eq]
      exact ⟨h, by omega, hs.2⟩
    · split
      · rename_i h1 h2; subst h2; simp [fsorted, h, hs.2]
      · simp only [fsorted, Bool.and_eq_true, decide_eq_true_eq]
        exact ⟨hs.1, ih (i + 1) hs.2 (by omega)⟩

theorem fsorted_ferase (m : FMap α) (lo k : Nat) (hs : fsorted lo m = true) : fsorted lo (ferase m k) = true := by
  induction m generalizing lo with
  | nil => rfl
  | cons p t ih =>
    obtain ⟨i, b⟩ := p
    simp only [fsorted, Bool.and_eq_true, decide_eq_true_eq] at hs
    simp only [ferase]; split
    · exact fsorted_mono _ (i + 1) lo (ih (i + 1) hs.2) (by omega)
    · simp only [fsorted, Bool.and_eq_true, decide_eq_true_eq]
      exact ⟨hs.1, ih (i + 1) hs.2⟩

@[simp] theorem fget?_fmod_other (m : FMap α) (k j : Nat) (f : α → α) (h : j ≠ k) :
    fget? (fmod m k f) j = fget? m j := by
  induction m with
  | nil => rfl
  | cons p t ih =>
    obtain ⟨i, b⟩ := p
    simp only [fmod]; split
    · rename_i h1; subst h1; simp [fget?, Ne.symm h]
    · simp only [fget?]; split <;> simp_all

@[simp] theorem fget?_fmod_same (m : FMap α) (k : Nat) (f : α → α) :
    fget? (fmod m k f) k = (fget? m k).map f := by
  induction m with
  | nil => rfl
  | cons p t ih =>
    obtain ⟨i, b⟩ := p
    simp only [fmod]; split
    · rename_i h1; simp [fget?, h1]
    · rename_i h1; simp only [fget?, if_neg h1]; exact ih

variable [DecidableEq α]

@[simp] theorem fgetD_fput_same (d : α) (m : FMap α) (k : Nat) (a : α) : fgetD (fput d m k a) k d = a := by
  unfold fput fgetD; split
  · rename_i h; subst h; simp
  · simp

@[simp] theorem fgetD_fput_other (d e : α) (m : FMap α) (k j : Nat) (a : α) (h : j ≠ k) :
    fgetD (fput d m k a) j e = fgetD m j e := by
  unfold fput fgetD; split <;> simp [h]

theorem fsorted_fput (d : α) (m : FMap α) (k : Nat) (a : α) (hs : fsorted 0 m = true) :
    fsorted 0 (fput d m k a) = true := by
  unfold fput; split
  · exact fsorted_ferase m 0 k hs
  · exact fsorted_fset m 0 k a hs (by omega)

omit [DecidableEq α] in
theorem mapFrom_getElem? {β : Type} (f : Nat → α → β) (k : Nat) (l : List α) (i : Nat) :
    (mapFrom f k l)[i]? = (l[i]?).map (f (k + i)) := by
  induction l generalizing k i with
  | nil => simp [mapFrom]
  | cons a t ih =>
    cases i with
    | zero => simp [mapFrom]
    | succ i => simp only [mapFrom, List.getElem?_cons_succ, ih]; congr 2; omega

omit [DecidableEq α] in
@[simp] theorem mapFrom_length {β : Type} (f : Nat → α → β) (k : Nat) (l : List α) :
    (mapFrom f k l).length = l.length := by
  induction l generalizing k with
  | nil => rfl
  | cons a t ih => simp [mapFrom, ih]

end Sys2Proof.Machine
end

