-- ==== Sys2Proof/Laws/State.lean ====
section
/-! SUPPORT. What each field holds after each update of the state, of a warp, of a slice and of a lane. -/

namespace Sys2Proof.Machine

namespace State

@[simp] theorem setWarp_warps (s : State) (k : Nat) (w : Warp) : (s.setWarp k w).warps = fset s.warps k w := rfl
@[simp] theorem setWarp_wgs (s : State) (k : Nat) (w : Warp) : (s.setWarp k w).wgs = s.wgs := rfl
@[simp] theorem setWarp_cores (s : State) (k : Nat) (w : Warp) : (s.setWarp k w).cores = s.cores := rfl
@[simp] theorem setWarp_mem (s : State) (k : Nat) (w : Warp) : (s.setWarp k w).mem = s.mem := rfl
@[simp] theorem setWarp_hub (s : State) (k : Nat) (w : Warp) : (s.setWarp k w).hub = s.hub := rfl
@[simp] theorem setWarp_power (s : State) (k : Nat) (w : Warp) : (s.setWarp k w).power = s.power := rfl
@[simp] theorem setWarp_time (s : State) (k : Nat) (w : Warp) : (s.setWarp k w).time = s.time := rfl
@[simp] theorem setWarp_uid (s : State) (k : Nat) (w : Warp) : (s.setWarp k w).uid = s.uid := rfl
@[simp] theorem setWarp_issue (s : State) (k : Nat) (w : Warp) : (s.setWarp k w).issue = s.issue := rfl
@[simp] theorem setWarp_event (s : State) (k : Nat) (w : Warp) : (s.setWarp k w).event = s.event := rfl
@[simp] theorem setWarp_agenda (s : State) (k : Nat) (w : Warp) : (s.setWarp k w).agenda = s.agenda := rfl
@[simp] theorem setWarp_free (s : State) (k : Nat) (w : Warp) : (s.setWarp k w).free = s.free := rfl

@[simp] theorem modWarp_warps (s : State) (k : Nat) (f : Warp → Warp) : (s.modWarp k f).warps = fmod s.warps k f := rfl
@[simp] theorem modWarp_wgs (s : State) (k : Nat) (f : Warp → Warp) : (s.modWarp k f).wgs = s.wgs := rfl
@[simp] theorem modWarp_cores (s : State) (k : Nat) (f : Warp → Warp) : (s.modWarp k f).cores = s.cores := rfl
@[simp] theorem modWarp_mem (s : State) (k : Nat) (f : Warp → Warp) : (s.modWarp k f).mem = s.mem := rfl
@[simp] theorem modWarp_hub (s : State) (k : Nat) (f : Warp → Warp) : (s.modWarp k f).hub = s.hub := rfl
@[simp] theorem modWarp_power (s : State) (k : Nat) (f : Warp → Warp) : (s.modWarp k f).power = s.power := rfl
@[simp] theorem modWarp_time (s : State) (k : Nat) (f : Warp → Warp) : (s.modWarp k f).time = s.time := rfl
@[simp] theorem modWarp_uid (s : State) (k : Nat) (f : Warp → Warp) : (s.modWarp k f).uid = s.uid := rfl
@[simp] theorem modWarp_issue (s : State) (k : Nat) (f : Warp → Warp) : (s.modWarp k f).issue = s.issue := rfl
@[simp] theorem modWarp_event (s : State) (k : Nat) (f : Warp → Warp) : (s.modWarp k f).event = s.event := rfl
@[simp] theorem modWarp_agenda (s : State) (k : Nat) (f : Warp → Warp) : (s.modWarp k f).agenda = s.agenda := rfl
@[simp] theorem modWarp_free (s : State) (k : Nat) (f : Warp → Warp) : (s.modWarp k f).free = s.free := rfl

@[simp] theorem dropWarp_warps (s : State) (k : Nat) : (s.dropWarp k).warps = ferase s.warps k := rfl
@[simp] theorem dropWarp_wgs (s : State) (k : Nat) : (s.dropWarp k).wgs = s.wgs := rfl
@[simp] theorem dropWarp_cores (s : State) (k : Nat) : (s.dropWarp k).cores = s.cores := rfl
@[simp] theorem dropWarp_mem (s : State) (k : Nat) : (s.dropWarp k).mem = s.mem := rfl
@[simp] theorem dropWarp_hub (s : State) (k : Nat) : (s.dropWarp k).hub = s.hub := rfl
@[simp] theorem dropWarp_power (s : State) (k : Nat) : (s.dropWarp k).power = s.power := rfl
@[simp] theorem dropWarp_time (s : State) (k : Nat) : (s.dropWarp k).time = s.time := rfl
@[simp] theorem dropWarp_uid (s : State) (k : Nat) : (s.dropWarp k).uid = s.uid := rfl
@[simp] theorem dropWarp_issue (s : State) (k : Nat) : (s.dropWarp k).issue = s.issue := rfl
@[simp] theorem dropWarp_event (s : State) (k : Nat) : (s.dropWarp k).event = s.event := rfl
@[simp] theorem dropWarp_agenda (s : State) (k : Nat) : (s.dropWarp k).agenda = s.agenda := rfl
@[simp] theorem dropWarp_free (s : State) (k : Nat) : (s.dropWarp k).free = s.free := rfl

@[simp] theorem modWg_warps (s : State) (k : Nat) (f : Workgroup → Workgroup) : (s.modWg k f).warps = s.warps := rfl
@[simp] theorem modWg_wgs (s : State) (k : Nat) (f : Workgroup → Workgroup) : (s.modWg k f).wgs = fmod s.wgs k f := rfl
@[simp] theorem modWg_cores (s : State) (k : Nat) (f : Workgroup → Workgroup) : (s.modWg k f).cores = s.cores := rfl
@[simp] theorem modWg_mem (s : State) (k : Nat) (f : Workgroup → Workgroup) : (s.modWg k f).mem = s.mem := rfl
@[simp] theorem modWg_hub (s : State) (k : Nat) (f : Workgroup → Workgroup) : (s.modWg k f).hub = s.hub := rfl
@[simp] theorem modWg_power (s : State) (k : Nat) (f : Workgroup → Workgroup) : (s.modWg k f).power = s.power := rfl
@[simp] theorem modWg_time (s : State) (k : Nat) (f : Workgroup → Workgroup) : (s.modWg k f).time = s.time := rfl
@[simp] theorem modWg_uid (s : State) (k : Nat) (f : Workgroup → Workgroup) : (s.modWg k f).uid = s.uid := rfl
@[simp] theorem modWg_issue (s : State) (k : Nat) (f : Workgroup → Workgroup) : (s.modWg k f).issue = s.issue := rfl
@[simp] theorem modWg_event (s : State) (k : Nat) (f : Workgroup → Workgroup) : (s.modWg k f).event = s.event := rfl
@[simp] theorem modWg_agenda (s : State) (k : Nat) (f : Workgroup → Workgroup) : (s.modWg k f).agenda = s.agenda := rfl
@[simp] theorem modWg_free (s : State) (k : Nat) (f : Workgroup → Workgroup) : (s.modWg k f).free = s.free := rfl

@[simp] theorem modCore_warps (s : State) (c : Nat) (f : Core → Core) : (s.modCore c f).warps = s.warps := rfl
@[simp] theorem modCore_wgs (s : State) (c : Nat) (f : Core → Core) : (s.modCore c f).wgs = s.wgs := rfl
@[simp] theorem modCore_cores (s : State) (c : Nat) (f : Core → Core) : (s.modCore c f).cores = fset s.cores c (f (s.coreOf c)) := rfl
@[simp] theorem modCore_mem (s : State) (c : Nat) (f : Core → Core) : (s.modCore c f).mem = s.mem := rfl
@[simp] theorem modCore_hub (s : State) (c : Nat) (f : Core → Core) : (s.modCore c f).hub = s.hub := rfl
@[simp] theorem modCore_power (s : State) (c : Nat) (f : Core → Core) : (s.modCore c f).power = s.power := rfl
@[simp] theorem modCore_time (s : State) (c : Nat) (f : Core → Core) : (s.modCore c f).time = s.time := rfl
@[simp] theorem modCore_uid (s : State) (c : Nat) (f : Core → Core) : (s.modCore c f).uid = s.uid := rfl
@[simp] theorem modCore_issue (s : State) (c : Nat) (f : Core → Core) : (s.modCore c f).issue = s.issue := rfl
@[simp] theorem modCore_event (s : State) (c : Nat) (f : Core → Core) : (s.modCore c f).event = s.event := rfl
@[simp] theorem modCore_agenda (s : State) (c : Nat) (f : Core → Core) : (s.modCore c f).agenda = s.agenda := rfl
@[simp] theorem modCore_free (s : State) (c : Nat) (f : Core → Core) : (s.modCore c f).free = s.free := rfl

@[simp] theorem setMem_warps (s : State) (m : MemSys) : (s.setMem m).warps = s.warps := rfl
@[simp] theorem setMem_wgs (s : State) (m : MemSys) : (s.setMem m).wgs = s.wgs := rfl
@[simp] theorem setMem_cores (s : State) (m : MemSys) : (s.setMem m).cores = s.cores := rfl
@[simp] theorem setMem_mem (s : State) (m : MemSys) : (s.setMem m).mem = m := rfl
@[simp] theorem setMem_hub (s : State) (m : MemSys) : (s.setMem m).hub = s.hub := rfl
@[simp] theorem setMem_power (s : State) (m : MemSys) : (s.setMem m).power = s.power := rfl
@[simp] theorem setMem_time (s : State) (m : MemSys) : (s.setMem m).time = s.time := rfl
@[simp] theorem setMem_uid (s : State) (m : MemSys) : (s.setMem m).uid = s.uid := rfl
@[simp] theorem setMem_issue (s : State) (m : MemSys) : (s.setMem m).issue = s.issue := rfl
@[simp] theorem setMem_event (s : State) (m : MemSys) : (s.setMem m).event = s.event := rfl
@[simp] theorem setMem_agenda (s : State) (m : MemSys) : (s.setMem m).agenda = s.agenda := rfl
@[simp] theorem setMem_free (s : State) (m : MemSys) : (s.setMem m).free = s.free := rfl

@[simp] theorem setHub_warps (s : State) (h : Hub) : (s.setHub h).warps = s.warps := rfl
@[simp] theorem setHub_wgs (s : State) (h : Hub) : (s.setHub h).wgs = s.wgs := rfl
@[simp] theorem setHub_cores (s : State) (h : Hub) : (s.setHub h).cores = s.cores := rfl
@[simp] theorem setHub_mem (s : State) (h : Hub) : (s.setHub h).mem = s.mem := rfl
@[simp] theorem setHub_hub (s : State) (h : Hub) : (s.setHub h).hub = h := rfl
@[simp] theorem setHub_power (s : State) (h : Hub) : (s.setHub h).power = s.power := rfl
@[simp] theorem setHub_time (s : State) (h : Hub) : (s.setHub h).time = s.time := rfl
@[simp] theorem setHub_uid (s : State) (h : Hub) : (s.setHub h).uid = s.uid := rfl
@[simp] theorem setHub_issue (s : State) (h : Hub) : (s.setHub h).issue = s.issue := rfl
@[simp] theorem setHub_event (s : State) (h : Hub) : (s.setHub h).event = s.event := rfl
@[simp] theorem setHub_agenda (s : State) (h : Hub) : (s.setHub h).agenda = s.agenda := rfl
@[simp] theorem setHub_free (s : State) (h : Hub) : (s.setHub h).free = s.free := rfl

@[simp] theorem modHub_warps (s : State) (f : Hub → Hub) : (s.modHub f).warps = s.warps := rfl
@[simp] theorem modHub_wgs (s : State) (f : Hub → Hub) : (s.modHub f).wgs = s.wgs := rfl
@[simp] theorem modHub_cores (s : State) (f : Hub → Hub) : (s.modHub f).cores = s.cores := rfl
@[simp] theorem modHub_mem (s : State) (f : Hub → Hub) : (s.modHub f).mem = s.mem := rfl
@[simp] theorem modHub_hub (s : State) (f : Hub → Hub) : (s.modHub f).hub = f s.hub := rfl
@[simp] theorem modHub_power (s : State) (f : Hub → Hub) : (s.modHub f).power = s.power := rfl
@[simp] theorem modHub_time (s : State) (f : Hub → Hub) : (s.modHub f).time = s.time := rfl
@[simp] theorem modHub_uid (s : State) (f : Hub → Hub) : (s.modHub f).uid = s.uid := rfl
@[simp] theorem modHub_issue (s : State) (f : Hub → Hub) : (s.modHub f).issue = s.issue := rfl
@[simp] theorem modHub_event (s : State) (f : Hub → Hub) : (s.modHub f).event = s.event := rfl
@[simp] theorem modHub_agenda (s : State) (f : Hub → Hub) : (s.modHub f).agenda = s.agenda := rfl
@[simp] theorem modHub_free (s : State) (f : Hub → Hub) : (s.modHub f).free = s.free := rfl

@[simp] theorem modLaunch_warps (s : State) (k : Nat) (f : Launch → Launch) : (s.modLaunch k f).warps = s.warps := rfl
@[simp] theorem modLaunch_wgs (s : State) (k : Nat) (f : Launch → Launch) : (s.modLaunch k f).wgs = s.wgs := rfl
@[simp] theorem modLaunch_cores (s : State) (k : Nat) (f : Launch → Launch) : (s.modLaunch k f).cores = s.cores := rfl
@[simp] theorem modLaunch_mem (s : State) (k : Nat) (f : Launch → Launch) : (s.modLaunch k f).mem = s.mem := rfl
@[simp] theorem modLaunch_hub (s : State) (k : Nat) (f : Launch → Launch) : (s.modLaunch k f).hub = { s.hub with launches := fmod s.hub.launches k f } := rfl
@[simp] theorem modLaunch_power (s : State) (k : Nat) (f : Launch → Launch) : (s.modLaunch k f).power = s.power := rfl
@[simp] theorem modLaunch_time (s : State) (k : Nat) (f : Launch → Launch) : (s.modLaunch k f).time = s.time := rfl
@[simp] theorem modLaunch_uid (s : State) (k : Nat) (f : Launch → Launch) : (s.modLaunch k f).uid = s.uid := rfl
@[simp] theorem modLaunch_issue (s : State) (k : Nat) (f : Launch → Launch) : (s.modLaunch k f).issue = s.issue := rfl
@[simp] theorem modLaunch_event (s : State) (k : Nat) (f : Launch → Launch) : (s.modLaunch k f).event = s.event := rfl
@[simp] theorem modLaunch_agenda (s : State) (k : Nat) (f : Launch → Launch) : (s.modLaunch k f).agenda = s.agenda := rfl
@[simp] theorem modLaunch_free (s : State) (k : Nat) (f : Launch → Launch) : (s.modLaunch k f).free = s.free := rfl

@[simp] theorem modQueue_warps (s : State) (q : Nat) (f : Queue → Queue) : (s.modQueue q f).warps = s.warps := rfl
@[simp] theorem modQueue_wgs (s : State) (q : Nat) (f : Queue → Queue) : (s.modQueue q f).wgs = s.wgs := rfl
@[simp] theorem modQueue_cores (s : State) (q : Nat) (f : Queue → Queue) : (s.modQueue q f).cores = s.cores := rfl
@[simp] theorem modQueue_mem (s : State) (q : Nat) (f : Queue → Queue) : (s.modQueue q f).mem = s.mem := rfl
@[simp] theorem modQueue_hub (s : State) (q : Nat) (f : Queue → Queue) : (s.modQueue q f).hub = { s.hub with queues := fset s.hub.queues q (f (s.queueOf q)) } := rfl
@[simp] theorem modQueue_power (s : State) (q : Nat) (f : Queue → Queue) : (s.modQueue q f).power = s.power := rfl
@[simp] theorem modQueue_time (s : State) (q : Nat) (f : Queue → Queue) : (s.modQueue q f).time = s.time := rfl
@[simp] theorem modQueue_uid (s : State) (q : Nat) (f : Queue → Queue) : (s.modQueue q f).uid = s.uid := rfl
@[simp] theorem modQueue_issue (s : State) (q : Nat) (f : Queue → Queue) : (s.modQueue q f).issue = s.issue := rfl
@[simp] theorem modQueue_event (s : State) (q : Nat) (f : Queue → Queue) : (s.modQueue q f).event = s.event := rfl
@[simp] theorem modQueue_agenda (s : State) (q : Nat) (f : Queue → Queue) : (s.modQueue q f).agenda = s.agenda := rfl
@[simp] theorem modQueue_free (s : State) (q : Nat) (f : Queue → Queue) : (s.modQueue q f).free = s.free := rfl

@[simp] theorem modCtx_warps (s : State) (c : Nat) (f : Ctx → Ctx) : (s.modCtx c f).warps = s.warps := rfl
@[simp] theorem modCtx_wgs (s : State) (c : Nat) (f : Ctx → Ctx) : (s.modCtx c f).wgs = s.wgs := rfl
@[simp] theorem modCtx_cores (s : State) (c : Nat) (f : Ctx → Ctx) : (s.modCtx c f).cores = s.cores := rfl
@[simp] theorem modCtx_mem (s : State) (c : Nat) (f : Ctx → Ctx) : (s.modCtx c f).mem = s.mem := rfl
@[simp] theorem modCtx_hub (s : State) (c : Nat) (f : Ctx → Ctx) : (s.modCtx c f).hub = { s.hub with ctxs := fmod s.hub.ctxs c f } := rfl
@[simp] theorem modCtx_power (s : State) (c : Nat) (f : Ctx → Ctx) : (s.modCtx c f).power = s.power := rfl
@[simp] theorem modCtx_time (s : State) (c : Nat) (f : Ctx → Ctx) : (s.modCtx c f).time = s.time := rfl
@[simp] theorem modCtx_uid (s : State) (c : Nat) (f : Ctx → Ctx) : (s.modCtx c f).uid = s.uid := rfl
@[simp] theorem modCtx_issue (s : State) (c : Nat) (f : Ctx → Ctx) : (s.modCtx c f).issue = s.issue := rfl
@[simp] theorem modCtx_event (s : State) (c : Nat) (f : Ctx → Ctx) : (s.modCtx c f).event = s.event := rfl
@[simp] theorem modCtx_agenda (s : State) (c : Nat) (f : Ctx → Ctx) : (s.modCtx c f).agenda = s.agenda := rfl
@[simp] theorem modCtx_free (s : State) (c : Nat) (f : Ctx → Ctx) : (s.modCtx c f).free = s.free := rfl

@[simp] theorem modGraph_warps (s : State) (k : Nat) (f : Graph → Graph) : (s.modGraph k f).warps = s.warps := rfl
@[simp] theorem modGraph_wgs (s : State) (k : Nat) (f : Graph → Graph) : (s.modGraph k f).wgs = s.wgs := rfl
@[simp] theorem modGraph_cores (s : State) (k : Nat) (f : Graph → Graph) : (s.modGraph k f).cores = s.cores := rfl
@[simp] theorem modGraph_mem (s : State) (k : Nat) (f : Graph → Graph) : (s.modGraph k f).mem = s.mem := rfl
@[simp] theorem modGraph_hub (s : State) (k : Nat) (f : Graph → Graph) : (s.modGraph k f).hub = { s.hub with graphs := fmod s.hub.graphs k f } := rfl
@[simp] theorem modGraph_power (s : State) (k : Nat) (f : Graph → Graph) : (s.modGraph k f).power = s.power := rfl
@[simp] theorem modGraph_time (s : State) (k : Nat) (f : Graph → Graph) : (s.modGraph k f).time = s.time := rfl
@[simp] theorem modGraph_uid (s : State) (k : Nat) (f : Graph → Graph) : (s.modGraph k f).uid = s.uid := rfl
@[simp] theorem modGraph_issue (s : State) (k : Nat) (f : Graph → Graph) : (s.modGraph k f).issue = s.issue := rfl
@[simp] theorem modGraph_event (s : State) (k : Nat) (f : Graph → Graph) : (s.modGraph k f).event = s.event := rfl
@[simp] theorem modGraph_agenda (s : State) (k : Nat) (f : Graph → Graph) : (s.modGraph k f).agenda = s.agenda := rfl
@[simp] theorem modGraph_free (s : State) (k : Nat) (f : Graph → Graph) : (s.modGraph k f).free = s.free := rfl

@[simp] theorem modHandle_warps (s : State) (k : Nat) (f : Handle → Handle) : (s.modHandle k f).warps = s.warps := rfl
@[simp] theorem modHandle_wgs (s : State) (k : Nat) (f : Handle → Handle) : (s.modHandle k f).wgs = s.wgs := rfl
@[simp] theorem modHandle_cores (s : State) (k : Nat) (f : Handle → Handle) : (s.modHandle k f).cores = s.cores := rfl
@[simp] theorem modHandle_mem (s : State) (k : Nat) (f : Handle → Handle) : (s.modHandle k f).mem = s.mem := rfl
@[simp] theorem modHandle_hub (s : State) (k : Nat) (f : Handle → Handle) : (s.modHandle k f).hub = { s.hub with handles := fmod s.hub.handles k f } := rfl
@[simp] theorem modHandle_power (s : State) (k : Nat) (f : Handle → Handle) : (s.modHandle k f).power = s.power := rfl
@[simp] theorem modHandle_time (s : State) (k : Nat) (f : Handle → Handle) : (s.modHandle k f).time = s.time := rfl
@[simp] theorem modHandle_uid (s : State) (k : Nat) (f : Handle → Handle) : (s.modHandle k f).uid = s.uid := rfl
@[simp] theorem modHandle_issue (s : State) (k : Nat) (f : Handle → Handle) : (s.modHandle k f).issue = s.issue := rfl
@[simp] theorem modHandle_event (s : State) (k : Nat) (f : Handle → Handle) : (s.modHandle k f).event = s.event := rfl
@[simp] theorem modHandle_agenda (s : State) (k : Nat) (f : Handle → Handle) : (s.modHandle k f).agenda = s.agenda := rfl
@[simp] theorem modHandle_free (s : State) (k : Nat) (f : Handle → Handle) : (s.modHandle k f).free = s.free := rfl

@[simp] theorem done_warps (s : State) : (s.done).warps = s.warps := rfl
@[simp] theorem done_wgs (s : State) : (s.done).wgs = s.wgs := rfl
@[simp] theorem done_cores (s : State) : (s.done).cores = s.cores := rfl
@[simp] theorem done_mem (s : State) : (s.done).mem = s.mem := rfl
@[simp] theorem done_hub (s : State) : (s.done).hub = s.hub := rfl
@[simp] theorem done_power (s : State) : (s.done).power = s.power := rfl
@[simp] theorem done_time (s : State) : (s.done).time = s.time := rfl
@[simp] theorem done_uid (s : State) : (s.done).uid = s.uid := rfl
@[simp] theorem done_issue (s : State) : (s.done).issue = none := rfl
@[simp] theorem done_event (s : State) : (s.done).event = s.event := rfl
@[simp] theorem done_agenda (s : State) : (s.done).agenda = s.agenda := rfl
@[simp] theorem done_free (s : State) : (s.done).free = s.free + 1 := rfl

@[simp] theorem ended_warps (s : State) : (s.ended).warps = s.warps := rfl
@[simp] theorem ended_wgs (s : State) : (s.ended).wgs = s.wgs := rfl
@[simp] theorem ended_cores (s : State) : (s.ended).cores = s.cores := rfl
@[simp] theorem ended_mem (s : State) : (s.ended).mem = s.mem := rfl
@[simp] theorem ended_hub (s : State) : (s.ended).hub = s.hub := rfl
@[simp] theorem ended_power (s : State) : (s.ended).power = s.power := rfl
@[simp] theorem ended_time (s : State) : (s.ended).time = s.time := rfl
@[simp] theorem ended_uid (s : State) : (s.ended).uid = s.uid := rfl
@[simp] theorem ended_issue (s : State) : (s.ended).issue = s.issue := rfl
@[simp] theorem ended_event (s : State) : (s.ended).event = none := rfl
@[simp] theorem ended_agenda (s : State) : (s.ended).agenda = s.agenda := rfl
@[simp] theorem ended_free (s : State) : (s.ended).free = s.free + 1 := rfl


variable (s : State)

@[simp] theorem warp?_setWarp_same (k : Nat) (w : Warp) : (s.setWarp k w).warp? k = some w := by simp [State.warp?]

@[simp] theorem warp?_setWarp_other (k j : Nat) (w : Warp) (h : j ≠ k) : (s.setWarp k w).warp? j = s.warp? j := by simp [State.warp?, h]

@[simp] theorem warp?_modWarp_same (k : Nat) (f : Warp → Warp) : (s.modWarp k f).warp? k = (s.warp? k).map f := by simp [State.warp?]

@[simp] theorem warp?_modWarp_other (k j : Nat) (f : Warp → Warp) (h : j ≠ k) : (s.modWarp k f).warp? j = s.warp? j := by simp [State.warp?, h]

@[simp] theorem warp?_done (k : Nat) : s.done.warp? k = s.warp? k := rfl

@[simp] theorem warp?_ended (k : Nat) : s.ended.warp? k = s.warp? k := rfl

@[simp] theorem wg?_modWg_same (k : Nat) (f : Workgroup → Workgroup) : (s.modWg k f).wg? k = (s.wg? k).map f := by simp [State.wg?]

@[simp] theorem wg?_modWg_other (k j : Nat) (f : Workgroup → Workgroup) (h : j ≠ k) : (s.modWg k f).wg? j = s.wg? j := by simp [State.wg?, h]

@[simp] theorem coreOf_modCore_same (c : Nat) (f : Core → Core) : (s.modCore c f).coreOf c = f (s.coreOf c) := by simp [State.coreOf, fgetD]

@[simp] theorem coreOf_modCore_other (c d : Nat) (f : Core → Core) (h : d ≠ c) : (s.modCore c f).coreOf d = s.coreOf d := by
  simp [State.coreOf, fgetD, h]

@[simp] theorem launch?_modLaunch_same (k : Nat) (f : Launch → Launch) : (s.modLaunch k f).launch? k = (s.launch? k).map f := by
  simp [State.launch?]

@[simp] theorem launch?_modLaunch_other (k j : Nat) (f : Launch → Launch) (h : j ≠ k) : (s.modLaunch k f).launch? j = s.launch? j := by
  simp [State.launch?, h]

@[simp] theorem queueOf_modQueue_same (q : Nat) (f : Queue → Queue) : (s.modQueue q f).queueOf q = f (s.queueOf q) := by
  simp [State.queueOf, fgetD]

@[simp] theorem queueOf_modQueue_other (q r : Nat) (f : Queue → Queue) (h : r ≠ q) : (s.modQueue q f).queueOf r = s.queueOf r := by
  simp [State.queueOf, fgetD, h]

@[simp] theorem ctx?_modCtx_same (c : Nat) (f : Ctx → Ctx) : (s.modCtx c f).ctx? c = (s.ctx? c).map f := by simp [State.ctx?]

@[simp] theorem ctx?_modCtx_other (c d : Nat) (f : Ctx → Ctx) (h : d ≠ c) : (s.modCtx c f).ctx? d = s.ctx? d := by simp [State.ctx?, h]

@[simp] theorem graph?_modGraph_same (k : Nat) (f : Graph → Graph) : (s.modGraph k f).graph? k = (s.graph? k).map f := by simp [State.graph?]

end State

namespace Warp

@[simp] theorem mapLanes_wg (w : Warp) (f : Nat → Lane → Lane) : (w.mapLanes f).wg = w.wg := rfl
@[simp] theorem mapLanes_uid (w : Warp) (f : Nat → Lane → Lane) : (w.mapLanes f).uid = w.uid := rfl
@[simp] theorem mapLanes_widx (w : Warp) (f : Nat → Lane → Lane) : (w.mapLanes f).widx = w.widx := rfl
@[simp] theorem mapLanes_age (w : Warp) (f : Nat → Lane → Lane) : (w.mapLanes f).age = w.age := rfl
@[simp] theorem mapLanes_lanes (w : Warp) (f : Nat → Lane → Lane) : (w.mapLanes f).lanes = mapFrom f 0 w.lanes := rfl
@[simp] theorem mapLanes_slices (w : Warp) (f : Nat → Lane → Lane) : (w.mapLanes f).slices = w.slices := rfl
@[simp] theorem mapLanes_joins (w : Warp) (f : Nat → Lane → Lane) : (w.mapLanes f).joins = w.joins := rfl
@[simp] theorem mapLanes_members (w : Warp) (f : Nat → Lane → Lane) : (w.mapLanes f).members = w.members := rfl
@[simp] theorem mapLanes_waitCount (w : Warp) (f : Nat → Lane → Lane) : (w.mapLanes f).waitCount = w.waitCount := rfl
@[simp] theorem mapLanes_causes (w : Warp) (f : Nat → Lane → Lane) : (w.mapLanes f).causes = w.causes := rfl
@[simp] theorem mapLanes_jasper (w : Warp) (f : Nat → Lane → Lane) : (w.mapLanes f).jasper = w.jasper := rfl
@[simp] theorem mapLanes_trap (w : Warp) (f : Nat → Lane → Lane) : (w.mapLanes f).trap = w.trap := rfl
@[simp] theorem mapLanes_stop (w : Warp) (f : Nat → Lane → Lane) : (w.mapLanes f).stop = w.stop := rfl
@[simp] theorem mapLanes_pfail (w : Warp) (f : Nat → Lane → Lane) : (w.mapLanes f).pfail = w.pfail := rfl
@[simp] theorem mapLanes_limit (w : Warp) (f : Nat → Lane → Lane) : (w.mapLanes f).limit = w.limit := rfl

@[simp] theorem mapSlices_wg (w : Warp) (f : Nat → Slice → Slice) : (w.mapSlices f).wg = w.wg := rfl
@[simp] theorem mapSlices_uid (w : Warp) (f : Nat → Slice → Slice) : (w.mapSlices f).uid = w.uid := rfl
@[simp] theorem mapSlices_widx (w : Warp) (f : Nat → Slice → Slice) : (w.mapSlices f).widx = w.widx := rfl
@[simp] theorem mapSlices_age (w : Warp) (f : Nat → Slice → Slice) : (w.mapSlices f).age = w.age := rfl
@[simp] theorem mapSlices_lanes (w : Warp) (f : Nat → Slice → Slice) : (w.mapSlices f).lanes = w.lanes := rfl
@[simp] theorem mapSlices_slices (w : Warp) (f : Nat → Slice → Slice) : (w.mapSlices f).slices = mapFrom f 0 w.slices := rfl
@[simp] theorem mapSlices_joins (w : Warp) (f : Nat → Slice → Slice) : (w.mapSlices f).joins = w.joins := rfl
@[simp] theorem mapSlices_members (w : Warp) (f : Nat → Slice → Slice) : (w.mapSlices f).members = w.members := rfl
@[simp] theorem mapSlices_waitCount (w : Warp) (f : Nat → Slice → Slice) : (w.mapSlices f).waitCount = w.waitCount := rfl
@[simp] theorem mapSlices_causes (w : Warp) (f : Nat → Slice → Slice) : (w.mapSlices f).causes = w.causes := rfl
@[simp] theorem mapSlices_jasper (w : Warp) (f : Nat → Slice → Slice) : (w.mapSlices f).jasper = w.jasper := rfl
@[simp] theorem mapSlices_trap (w : Warp) (f : Nat → Slice → Slice) : (w.mapSlices f).trap = w.trap := rfl
@[simp] theorem mapSlices_stop (w : Warp) (f : Nat → Slice → Slice) : (w.mapSlices f).stop = w.stop := rfl
@[simp] theorem mapSlices_pfail (w : Warp) (f : Nat → Slice → Slice) : (w.mapSlices f).pfail = w.pfail := rfl
@[simp] theorem mapSlices_limit (w : Warp) (f : Nat → Slice → Slice) : (w.mapSlices f).limit = w.limit := rfl

@[simp] theorem mapIn_wg (w : Warp) (m : Mask) (f : Nat → Lane → Lane) : (w.mapIn m f).wg = w.wg := rfl
@[simp] theorem mapIn_uid (w : Warp) (m : Mask) (f : Nat → Lane → Lane) : (w.mapIn m f).uid = w.uid := rfl
@[simp] theorem mapIn_widx (w : Warp) (m : Mask) (f : Nat → Lane → Lane) : (w.mapIn m f).widx = w.widx := rfl
@[simp] theorem mapIn_age (w : Warp) (m : Mask) (f : Nat → Lane → Lane) : (w.mapIn m f).age = w.age := rfl
@[simp] theorem mapIn_lanes (w : Warp) (m : Mask) (f : Nat → Lane → Lane) : (w.mapIn m f).lanes = mapFrom (fun i l => if bitAt m i then f i l else l) 0 w.lanes := rfl
@[simp] theorem mapIn_slices (w : Warp) (m : Mask) (f : Nat → Lane → Lane) : (w.mapIn m f).slices = w.slices := rfl
@[simp] theorem mapIn_joins (w : Warp) (m : Mask) (f : Nat → Lane → Lane) : (w.mapIn m f).joins = w.joins := rfl
@[simp] theorem mapIn_members (w : Warp) (m : Mask) (f : Nat → Lane → Lane) : (w.mapIn m f).members = w.members := rfl
@[simp] theorem mapIn_waitCount (w : Warp) (m : Mask) (f : Nat → Lane → Lane) : (w.mapIn m f).waitCount = w.waitCount := rfl
@[simp] theorem mapIn_causes (w : Warp) (m : Mask) (f : Nat → Lane → Lane) : (w.mapIn m f).causes = w.causes := rfl
@[simp] theorem mapIn_jasper (w : Warp) (m : Mask) (f : Nat → Lane → Lane) : (w.mapIn m f).jasper = w.jasper := rfl
@[simp] theorem mapIn_trap (w : Warp) (m : Mask) (f : Nat → Lane → Lane) : (w.mapIn m f).trap = w.trap := rfl
@[simp] theorem mapIn_stop (w : Warp) (m : Mask) (f : Nat → Lane → Lane) : (w.mapIn m f).stop = w.stop := rfl
@[simp] theorem mapIn_pfail (w : Warp) (m : Mask) (f : Nat → Lane → Lane) : (w.mapIn m f).pfail = w.pfail := rfl
@[simp] theorem mapIn_limit (w : Warp) (m : Mask) (f : Nat → Lane → Lane) : (w.mapIn m f).limit = w.limit := rfl

@[simp] theorem advance_wg (w : Warp) (pc next : PC) (m : Mask) : (w.advance pc next m).wg = w.wg := rfl
@[simp] theorem advance_uid (w : Warp) (pc next : PC) (m : Mask) : (w.advance pc next m).uid = w.uid := rfl
@[simp] theorem advance_widx (w : Warp) (pc next : PC) (m : Mask) : (w.advance pc next m).widx = w.widx := rfl
@[simp] theorem advance_age (w : Warp) (pc next : PC) (m : Mask) : (w.advance pc next m).age = w.age := rfl
@[simp] theorem advance_lanes (w : Warp) (pc next : PC) (m : Mask) : (w.advance pc next m).lanes = w.lanes := rfl
@[simp] theorem advance_slices (w : Warp) (pc next : PC) (m : Mask) : (w.advance pc next m).slices = mapFrom (fun s sl => sl.advance pc next (sub4 m s)) 0 w.slices := rfl
@[simp] theorem advance_joins (w : Warp) (pc next : PC) (m : Mask) : (w.advance pc next m).joins = w.joins := rfl
@[simp] theorem advance_members (w : Warp) (pc next : PC) (m : Mask) : (w.advance pc next m).members = w.members := rfl
@[simp] theorem advance_waitCount (w : Warp) (pc next : PC) (m : Mask) : (w.advance pc next m).waitCount = w.waitCount := rfl
@[simp] theorem advance_causes (w : Warp) (pc next : PC) (m : Mask) : (w.advance pc next m).causes = w.causes := rfl
@[simp] theorem advance_jasper (w : Warp) (pc next : PC) (m : Mask) : (w.advance pc next m).jasper = w.jasper := rfl
@[simp] theorem advance_trap (w : Warp) (pc next : PC) (m : Mask) : (w.advance pc next m).trap = w.trap := rfl
@[simp] theorem advance_stop (w : Warp) (pc next : PC) (m : Mask) : (w.advance pc next m).stop = w.stop := rfl
@[simp] theorem advance_pfail (w : Warp) (pc next : PC) (m : Mask) : (w.advance pc next m).pfail = w.pfail := rfl
@[simp] theorem advance_limit (w : Warp) (pc next : PC) (m : Mask) : (w.advance pc next m).limit = w.limit := rfl

@[simp] theorem takeOut_wg (w : Warp) (m : Mask) : (w.takeOut m).wg = w.wg := rfl
@[simp] theorem takeOut_uid (w : Warp) (m : Mask) : (w.takeOut m).uid = w.uid := rfl
@[simp] theorem takeOut_widx (w : Warp) (m : Mask) : (w.takeOut m).widx = w.widx := rfl
@[simp] theorem takeOut_age (w : Warp) (m : Mask) : (w.takeOut m).age = w.age := rfl
@[simp] theorem takeOut_lanes (w : Warp) (m : Mask) : (w.takeOut m).lanes = w.lanes := rfl
@[simp] theorem takeOut_slices (w : Warp) (m : Mask) : (w.takeOut m).slices = mapFrom (fun k sl => (sl.remove (sub4 m k)).settle) 0 w.slices := rfl
@[simp] theorem takeOut_joins (w : Warp) (m : Mask) : (w.takeOut m).joins = w.joins := rfl
@[simp] theorem takeOut_members (w : Warp) (m : Mask) : (w.takeOut m).members = w.members := rfl
@[simp] theorem takeOut_waitCount (w : Warp) (m : Mask) : (w.takeOut m).waitCount = w.waitCount := rfl
@[simp] theorem takeOut_causes (w : Warp) (m : Mask) : (w.takeOut m).causes = w.causes := rfl
@[simp] theorem takeOut_jasper (w : Warp) (m : Mask) : (w.takeOut m).jasper = w.jasper := rfl
@[simp] theorem takeOut_trap (w : Warp) (m : Mask) : (w.takeOut m).trap = w.trap := rfl
@[simp] theorem takeOut_stop (w : Warp) (m : Mask) : (w.takeOut m).stop = w.stop := rfl
@[simp] theorem takeOut_pfail (w : Warp) (m : Mask) : (w.takeOut m).pfail = w.pfail := rfl
@[simp] theorem takeOut_limit (w : Warp) (m : Mask) : (w.takeOut m).limit = w.limit := rfl

@[simp] theorem setJoin_wg (w : Warp) (j : Nat) (x : Join) : (w.setJoin j x).wg = w.wg := rfl
@[simp] theorem setJoin_uid (w : Warp) (j : Nat) (x : Join) : (w.setJoin j x).uid = w.uid := rfl
@[simp] theorem setJoin_widx (w : Warp) (j : Nat) (x : Join) : (w.setJoin j x).widx = w.widx := rfl
@[simp] theorem setJoin_age (w : Warp) (j : Nat) (x : Join) : (w.setJoin j x).age = w.age := rfl
@[simp] theorem setJoin_lanes (w : Warp) (j : Nat) (x : Join) : (w.setJoin j x).lanes = w.lanes := rfl
@[simp] theorem setJoin_slices (w : Warp) (j : Nat) (x : Join) : (w.setJoin j x).slices = w.slices := rfl
@[simp] theorem setJoin_joins (w : Warp) (j : Nat) (x : Join) : (w.setJoin j x).joins = setAt w.joins j x := rfl
@[simp] theorem setJoin_members (w : Warp) (j : Nat) (x : Join) : (w.setJoin j x).members = w.members := rfl
@[simp] theorem setJoin_waitCount (w : Warp) (j : Nat) (x : Join) : (w.setJoin j x).waitCount = w.waitCount := rfl
@[simp] theorem setJoin_causes (w : Warp) (j : Nat) (x : Join) : (w.setJoin j x).causes = w.causes := rfl
@[simp] theorem setJoin_jasper (w : Warp) (j : Nat) (x : Join) : (w.setJoin j x).jasper = w.jasper := rfl
@[simp] theorem setJoin_trap (w : Warp) (j : Nat) (x : Join) : (w.setJoin j x).trap = w.trap := rfl
@[simp] theorem setJoin_stop (w : Warp) (j : Nat) (x : Join) : (w.setJoin j x).stop = w.stop := rfl
@[simp] theorem setJoin_pfail (w : Warp) (j : Nat) (x : Join) : (w.setJoin j x).pfail = w.pfail := rfl
@[simp] theorem setJoin_limit (w : Warp) (j : Nat) (x : Join) : (w.setJoin j x).limit = w.limit := rfl


/-- What a lane holds after `f` has been applied to every lane. -/
theorem lane_mapLanes (w : Warp) (f : Nat → Lane → Lane) (i : Nat) (h : i < w.lanes.length) : (w.mapLanes f).lane i = f i (w.lane i) := by
  have e : (mapFrom f 0 w.lanes)[i]? = (w.lanes[i]?).map (f (0 + i)) := mapFrom_getElem? f 0 w.lanes i
  simp only [Warp.lane, mapLanes_lanes, List.getD_eq_getElem?_getD, e, Nat.zero_add, List.getElem?_eq_getElem h, Option.map_some, Option.getD_some]

/-- A lane outside the mask is as it was. -/
theorem lane_mapIn_out (w : Warp) (m : Mask) (f : Nat → Lane → Lane) (i : Nat) (h : bitAt m i = false) : (w.mapIn m f).lane i = w.lane i := by
  by_cases hi : i < w.lanes.length
  · rw [Warp.mapIn, lane_mapLanes _ _ _ hi]; simp [h]
  · simp [Warp.lane, List.getD_eq_getElem?_getD, hi]

/-- A lane of the mask is changed. -/
theorem lane_mapIn_in (w : Warp) (m : Mask) (f : Nat → Lane → Lane) (i : Nat) (hi : i < w.lanes.length) (h : bitAt m i = true) :
    (w.mapIn m f).lane i = f i (w.lane i) := by
  rw [Warp.mapIn, lane_mapLanes _ _ _ hi]; simp [h]

@[simp] theorem lane_advance (w : Warp) (pc next : PC) (m : Mask) (i : Nat) : (w.advance pc next m).lane i = w.lane i := rfl

@[simp] theorem lane_takeOut (w : Warp) (m : Mask) (i : Nat) : (w.takeOut m).lane i = w.lane i := rfl

end Warp

namespace Lane

@[simp] theorem wr_regs (l : Lane) (n : Nat) (x : Word) : (l.wr n x).regs = fput 0 l.regs n x := rfl
@[simp] theorem wr_preds (l : Lane) (n : Nat) (x : Word) : (l.wr n x).preds = l.preds := rfl
@[simp] theorem wr_shapes (l : Lane) (n : Nat) (x : Word) : (l.wr n x).shapes = l.shapes := rfl
@[simp] theorem wr_rowMasks (l : Lane) (n : Nat) (x : Word) : (l.wr n x).rowMasks = l.rowMasks := rfl
@[simp] theorem wr_wid (l : Lane) (n : Nat) (x : Word) : (l.wr n x).wid = l.wid := rfl
@[simp] theorem wr_wgen (l : Lane) (n : Nat) (x : Word) : (l.wr n x).wgen = l.wgen := rfl
@[simp] theorem wr_fst (l : Lane) (n : Nat) (x : Word) : (l.wr n x).fst = l.fst := rfl
@[simp] theorem wr_slv (l : Lane) (n : Nat) (x : Word) : (l.wr n x).slv = l.slv := rfl
@[simp] theorem wr_region (l : Lane) (n : Nat) (x : Word) : (l.wr n x).region = l.region := rfl
@[simp] theorem wr_vacant (l : Lane) (n : Nat) (x : Word) : (l.wr n x).vacant = l.vacant := rfl
@[simp] theorem wr_pend (l : Lane) (n : Nat) (x : Word) : (l.wr n x).pend = l.clashV n := rfl
@[simp] theorem wr_wait (l : Lane) (n : Nat) (x : Word) : (l.wr n x).wait = l.wait := rfl
@[simp] theorem wr_sw (l : Lane) (n : Nat) (x : Word) : (l.wr n x).sw = l.sw := rfl
@[simp] theorem wr_park (l : Lane) (n : Nat) (x : Word) : (l.wr n x).park = l.park := rfl
@[simp] theorem wr_chain (l : Lane) (n : Nat) (x : Word) : (l.wr n x).chain = l.chain := rfl
@[simp] theorem wr_parity (l : Lane) (n : Nat) (x : Word) : (l.wr n x).parity = l.parity := rfl
@[simp] theorem wr_arrivals (l : Lane) (n : Nat) (x : Word) : (l.wr n x).arrivals = l.arrivals := rfl
@[simp] theorem wr_handler (l : Lane) (n : Nat) (x : Word) : (l.wr n x).handler = l.handler := rfl
@[simp] theorem wr_readyAt (l : Lane) (n : Nat) (x : Word) : (l.wr n x).readyAt = l.readyAt := rfl
@[simp] theorem wr_yieldTo (l : Lane) (n : Nat) (x : Word) : (l.wr n x).yieldTo = l.yieldTo := rfl

@[simp] theorem orFst_regs (l : Lane) (fl : Word) : (l.orFst fl).regs = l.regs := rfl
@[simp] theorem orFst_preds (l : Lane) (fl : Word) : (l.orFst fl).preds = l.preds := rfl
@[simp] theorem orFst_shapes (l : Lane) (fl : Word) : (l.orFst fl).shapes = l.shapes := rfl
@[simp] theorem orFst_rowMasks (l : Lane) (fl : Word) : (l.orFst fl).rowMasks = l.rowMasks := rfl
@[simp] theorem orFst_wid (l : Lane) (fl : Word) : (l.orFst fl).wid = l.wid := rfl
@[simp] theorem orFst_wgen (l : Lane) (fl : Word) : (l.orFst fl).wgen = l.wgen := rfl
@[simp] theorem orFst_fst (l : Lane) (fl : Word) : (l.orFst fl).fst = l.fst ||| fl := rfl
@[simp] theorem orFst_slv (l : Lane) (fl : Word) : (l.orFst fl).slv = l.slv := rfl
@[simp] theorem orFst_region (l : Lane) (fl : Word) : (l.orFst fl).region = l.region := rfl
@[simp] theorem orFst_vacant (l : Lane) (fl : Word) : (l.orFst fl).vacant = l.vacant := rfl
@[simp] theorem orFst_pend (l : Lane) (fl : Word) : (l.orFst fl).pend = l.pend := rfl
@[simp] theorem orFst_wait (l : Lane) (fl : Word) : (l.orFst fl).wait = l.wait := rfl
@[simp] theorem orFst_sw (l : Lane) (fl : Word) : (l.orFst fl).sw = l.sw := rfl
@[simp] theorem orFst_park (l : Lane) (fl : Word) : (l.orFst fl).park = l.park := rfl
@[simp] theorem orFst_chain (l : Lane) (fl : Word) : (l.orFst fl).chain = l.chain := rfl
@[simp] theorem orFst_parity (l : Lane) (fl : Word) : (l.orFst fl).parity = l.parity := rfl
@[simp] theorem orFst_arrivals (l : Lane) (fl : Word) : (l.orFst fl).arrivals = l.arrivals := rfl
@[simp] theorem orFst_handler (l : Lane) (fl : Word) : (l.orFst fl).handler = l.handler := rfl
@[simp] theorem orFst_readyAt (l : Lane) (fl : Word) : (l.orFst fl).readyAt = l.readyAt := rfl
@[simp] theorem orFst_yieldTo (l : Lane) (fl : Word) : (l.orFst fl).yieldTo = l.yieldTo := rfl

@[simp] theorem wrH_regs (l : Lane) (n : Nat) (x rows : Word) : (l.wrH n x rows).regs = l.regs := rfl
@[simp] theorem wrH_preds (l : Lane) (n : Nat) (x rows : Word) : (l.wrH n x rows).preds = l.preds := rfl
@[simp] theorem wrH_shapes (l : Lane) (n : Nat) (x rows : Word) : (l.wrH n x rows).shapes = fput 0 l.shapes n x := rfl
@[simp] theorem wrH_rowMasks (l : Lane) (n : Nat) (x rows : Word) : (l.wrH n x rows).rowMasks = fput 1 l.rowMasks n rows := rfl
@[simp] theorem wrH_wid (l : Lane) (n : Nat) (x rows : Word) : (l.wrH n x rows).wid = l.wid := rfl
@[simp] theorem wrH_wgen (l : Lane) (n : Nat) (x rows : Word) : (l.wrH n x rows).wgen = l.wgen := rfl
@[simp] theorem wrH_fst (l : Lane) (n : Nat) (x rows : Word) : (l.wrH n x rows).fst = l.fst := rfl
@[simp] theorem wrH_slv (l : Lane) (n : Nat) (x rows : Word) : (l.wrH n x rows).slv = l.slv := rfl
@[simp] theorem wrH_region (l : Lane) (n : Nat) (x rows : Word) : (l.wrH n x rows).region = l.region := rfl
@[simp] theorem wrH_vacant (l : Lane) (n : Nat) (x rows : Word) : (l.wrH n x rows).vacant = l.vacant := rfl
@[simp] theorem wrH_pend (l : Lane) (n : Nat) (x rows : Word) : (l.wrH n x rows).pend = l.pend.map fun p => if (lastFor p.rows n).isSome then { p with clashH := n :: p.clashH } else p := rfl
@[simp] theorem wrH_wait (l : Lane) (n : Nat) (x rows : Word) : (l.wrH n x rows).wait = l.wait := rfl
@[simp] theorem wrH_sw (l : Lane) (n : Nat) (x rows : Word) : (l.wrH n x rows).sw = l.sw := rfl
@[simp] theorem wrH_park (l : Lane) (n : Nat) (x rows : Word) : (l.wrH n x rows).park = l.park := rfl
@[simp] theorem wrH_chain (l : Lane) (n : Nat) (x rows : Word) : (l.wrH n x rows).chain = l.chain := rfl
@[simp] theorem wrH_parity (l : Lane) (n : Nat) (x rows : Word) : (l.wrH n x rows).parity = l.parity := rfl
@[simp] theorem wrH_arrivals (l : Lane) (n : Nat) (x rows : Word) : (l.wrH n x rows).arrivals = l.arrivals := rfl
@[simp] theorem wrH_handler (l : Lane) (n : Nat) (x rows : Word) : (l.wrH n x rows).handler = l.handler := rfl
@[simp] theorem wrH_readyAt (l : Lane) (n : Nat) (x rows : Word) : (l.wrH n x rows).readyAt = l.readyAt := rfl
@[simp] theorem wrH_yieldTo (l : Lane) (n : Nat) (x rows : Word) : (l.wrH n x rows).yieldTo = l.yieldTo := rfl

@[simp] theorem addPend_regs (l : Lane) (p : Pend) : (l.addPend p).regs = l.regs := rfl
@[simp] theorem addPend_preds (l : Lane) (p : Pend) : (l.addPend p).preds = l.preds := rfl
@[simp] theorem addPend_shapes (l : Lane) (p : Pend) : (l.addPend p).shapes = l.shapes := rfl
@[simp] theorem addPend_rowMasks (l : Lane) (p : Pend) : (l.addPend p).rowMasks = l.rowMasks := rfl
@[simp] theorem addPend_wid (l : Lane) (p : Pend) : (l.addPend p).wid = l.wid := rfl
@[simp] theorem addPend_wgen (l : Lane) (p : Pend) : (l.addPend p).wgen = l.wgen := rfl
@[simp] theorem addPend_fst (l : Lane) (p : Pend) : (l.addPend p).fst = l.fst := rfl
@[simp] theorem addPend_slv (l : Lane) (p : Pend) : (l.addPend p).slv = l.slv := rfl
@[simp] theorem addPend_region (l : Lane) (p : Pend) : (l.addPend p).region = l.region := rfl
@[simp] theorem addPend_vacant (l : Lane) (p : Pend) : (l.addPend p).vacant = l.vacant := rfl
@[simp] theorem addPend_pend (l : Lane) (p : Pend) : (l.addPend p).pend = l.pend ++ [p] := rfl
@[simp] theorem addPend_wait (l : Lane) (p : Pend) : (l.addPend p).wait = l.wait := rfl
@[simp] theorem addPend_sw (l : Lane) (p : Pend) : (l.addPend p).sw = l.sw := rfl
@[simp] theorem addPend_park (l : Lane) (p : Pend) : (l.addPend p).park = l.park := rfl
@[simp] theorem addPend_chain (l : Lane) (p : Pend) : (l.addPend p).chain = l.chain := rfl
@[simp] theorem addPend_parity (l : Lane) (p : Pend) : (l.addPend p).parity = l.parity := rfl
@[simp] theorem addPend_arrivals (l : Lane) (p : Pend) : (l.addPend p).arrivals = l.arrivals := rfl
@[simp] theorem addPend_handler (l : Lane) (p : Pend) : (l.addPend p).handler = l.handler := rfl
@[simp] theorem addPend_readyAt (l : Lane) (p : Pend) : (l.addPend p).readyAt = l.readyAt := rfl
@[simp] theorem addPend_yieldTo (l : Lane) (p : Pend) : (l.addPend p).yieldTo = l.yieldTo := rfl

@[simp] theorem setRegion_regs (l : Lane) (pc : PC) : (l.setRegion pc).regs = l.regs := rfl
@[simp] theorem setRegion_preds (l : Lane) (pc : PC) : (l.setRegion pc).preds = l.preds := rfl
@[simp] theorem setRegion_shapes (l : Lane) (pc : PC) : (l.setRegion pc).shapes = l.shapes := rfl
@[simp] theorem setRegion_rowMasks (l : Lane) (pc : PC) : (l.setRegion pc).rowMasks = l.rowMasks := rfl
@[simp] theorem setRegion_wid (l : Lane) (pc : PC) : (l.setRegion pc).wid = l.wid := rfl
@[simp] theorem setRegion_wgen (l : Lane) (pc : PC) : (l.setRegion pc).wgen = l.wgen := rfl
@[simp] theorem setRegion_fst (l : Lane) (pc : PC) : (l.setRegion pc).fst = l.fst := rfl
@[simp] theorem setRegion_slv (l : Lane) (pc : PC) : (l.setRegion pc).slv = l.slv := rfl
@[simp] theorem setRegion_region (l : Lane) (pc : PC) : (l.setRegion pc).region = pc := rfl
@[simp] theorem setRegion_vacant (l : Lane) (pc : PC) : (l.setRegion pc).vacant = l.vacant := rfl
@[simp] theorem setRegion_pend (l : Lane) (pc : PC) : (l.setRegion pc).pend = l.pend := rfl
@[simp] theorem setRegion_wait (l : Lane) (pc : PC) : (l.setRegion pc).wait = l.wait := rfl
@[simp] theorem setRegion_sw (l : Lane) (pc : PC) : (l.setRegion pc).sw = l.sw := rfl
@[simp] theorem setRegion_park (l : Lane) (pc : PC) : (l.setRegion pc).park = l.park := rfl
@[simp] theorem setRegion_chain (l : Lane) (pc : PC) : (l.setRegion pc).chain = l.chain := rfl
@[simp] theorem setRegion_parity (l : Lane) (pc : PC) : (l.setRegion pc).parity = l.parity := rfl
@[simp] theorem setRegion_arrivals (l : Lane) (pc : PC) : (l.setRegion pc).arrivals = l.arrivals := rfl
@[simp] theorem setRegion_handler (l : Lane) (pc : PC) : (l.setRegion pc).handler = l.handler := rfl
@[simp] theorem setRegion_readyAt (l : Lane) (pc : PC) : (l.setRegion pc).readyAt = l.readyAt := rfl
@[simp] theorem setRegion_yieldTo (l : Lane) (pc : PC) : (l.setRegion pc).yieldTo = l.yieldTo := rfl

@[simp] theorem endChain_regs (l : Lane) : (l.endChain).regs = l.regs := rfl
@[simp] theorem endChain_preds (l : Lane) : (l.endChain).preds = l.preds := rfl
@[simp] theorem endChain_shapes (l : Lane) : (l.endChain).shapes = l.shapes := rfl
@[simp] theorem endChain_rowMasks (l : Lane) : (l.endChain).rowMasks = l.rowMasks := rfl
@[simp] theorem endChain_wid (l : Lane) : (l.endChain).wid = l.wid := rfl
@[simp] theorem endChain_wgen (l : Lane) : (l.endChain).wgen = l.wgen := rfl
@[simp] theorem endChain_fst (l : Lane) : (l.endChain).fst = l.fst := rfl
@[simp] theorem endChain_slv (l : Lane) : (l.endChain).slv = l.slv := rfl
@[simp] theorem endChain_region (l : Lane) : (l.endChain).region = l.region := rfl
@[simp] theorem endChain_vacant (l : Lane) : (l.endChain).vacant = l.vacant := rfl
@[simp] theorem endChain_pend (l : Lane) : (l.endChain).pend = l.pend := rfl
@[simp] theorem endChain_wait (l : Lane) : (l.endChain).wait = l.wait := rfl
@[simp] theorem endChain_sw (l : Lane) : (l.endChain).sw = l.sw := rfl
@[simp] theorem endChain_park (l : Lane) : (l.endChain).park = l.park := rfl
@[simp] theorem endChain_chain (l : Lane) : (l.endChain).chain = l.chain.map fun c => { c with ended := true } := rfl
@[simp] theorem endChain_parity (l : Lane) : (l.endChain).parity = l.parity := rfl
@[simp] theorem endChain_arrivals (l : Lane) : (l.endChain).arrivals = l.arrivals := rfl
@[simp] theorem endChain_handler (l : Lane) : (l.endChain).handler = l.handler := rfl
@[simp] theorem endChain_readyAt (l : Lane) : (l.endChain).readyAt = l.readyAt := rfl
@[simp] theorem endChain_yieldTo (l : Lane) : (l.endChain).yieldTo = l.yieldTo := rfl


@[simp] theorem v_wr_same (l : Lane) (n : Nat) (x : Word) : (l.wr n x).v n = x := by simp [Lane.v]

@[simp] theorem v_wr_other (l : Lane) (n k : Nat) (x : Word) (h : k ≠ n) : (l.wr n x).v k = l.v k := by simp [Lane.v, h]

@[simp] theorem v_wrP (l : Lane) (n k : Nat) (b : Bool) : (l.wrP n b).v k = l.v k := by unfold Lane.wrP; split <;> rfl

@[simp] theorem w_wrW_same (l : Lane) (n : Nat) (x : DWord) : (l.wrW n x).w n = x := by
  have h : (l.wrW n x).v n = lo32 x := by simp [Lane.wrW]
  have h' : (l.wrW n x).v (n + 1) = hi32 x := by simp [Lane.wrW]
  unfold Lane.w pair; rw [h, h']
  refine BitVec.eq_of_getLsbD_eq fun i hi => ?_
  simp only [BitVec.getLsbD_append, lo32, hi32, BitVec.getLsbD_extractLsb']
  by_cases hl : i < 32
  · simp [hl]
  · have e : 32 + (i - 32) = i := by omega
    simp [hl, e]; omega

@[simp] theorem v_wrW_other (l : Lane) (n k : Nat) (x : DWord) (h : k ≠ n) (h' : k ≠ n + 1) : (l.wrW n x).v k = l.v k := by
  simp [Lane.wrW, h, h']

@[simp] theorem p_wrP_same (l : Lane) (n : Nat) (b : Bool) (h : n < 7) : (l.wrP n b).p n = b := by
  have hn : n ≠ 7 := by omega
  simp only [Lane.wrP, h, if_true, Lane.p, hn, decide_false, Bool.false_or, bitAt, BitVec.getLsbD_ofNat, testBit_bitsNat, decide_true, Bool.true_and]

theorem p_wrP_other (l : Lane) (n k : Nat) (b : Bool) (h : k ≠ n) : (l.wrP n b).p k = l.p k := by
  unfold Lane.wrP; split
  · simp only [Lane.p, bitAt, BitVec.getLsbD_ofNat, testBit_bitsNat, h, if_false]
    by_cases hk : k < 7
    · simp [hk]
    · have : l.preds.getLsbD k = false := BitVec.getLsbD_of_ge _ _ (by omega)
      simp [hk, this]
  · rfl

/-- p7 reads 1 (R107). -/
@[simp] theorem p_seven (l : Lane) : l.p 7 = true := rfl

/-- With nothing pending, a read gives the register (R52). -/
@[simp] theorem rd_idle (l : Lane) (e : Env) (i n : Nat) (h : l.pend = []) : l.rd e i n = l.v n := by simp [Lane.rd, Lane.pendV, h]

@[simp] theorem rdP_idle (l : Lane) (e : Env) (i n : Nat) (h : l.pend = []) : l.rdP e i n = l.p n := by
  unfold Lane.rdP; split
  · rename_i h7; subst h7; rfl
  · simp [Lane.pendP, h]

@[simp] theorem rdW_idle (l : Lane) (e : Env) (i n : Nat) (h : l.pend = []) : l.rdW e i n = l.w n := by simp [Lane.rdW, Lane.w, h]

end Lane

end Sys2Proof.Machine
end

