-- ==== Sys2Proof/Laws/Ops.lean ====
section
/-! SUPPORT. What the shared operations can do: writes to one lane as effects, and how an instruction retires. -/

namespace Sys2Proof.Machine

section lists
variable {α : Type}

theorem lastFor_append (a b : List (Nat × α)) (n : Nat) : lastFor (a ++ b) n = (lastFor b n).or (lastFor a n) := by
  have key : ∀ (l : List (Nat × α)) (r : Option α),
      l.foldl (fun r p => if p.1 = n then some p.2 else r) r = (lastFor l n).or r := by
    intro l
    induction l with
    | nil => intro r; rfl
    | cons p t ih =>
      intro r
      simp only [lastFor, List.foldl_cons]
      rw [ih, ih (if p.1 = n then some p.2 else none)]
      by_cases h : p.1 = n <;> cases lastFor t n <;> simp [h]
  show (a ++ b).foldl _ _ = _
  rw [List.foldl_append]
  exact key b _

@[simp] theorem lastFor_nil (n : Nat) : lastFor ([] : List (Nat × α)) n = none := rfl

@[simp] theorem lastFor_one (k : Nat) (a : α) (n : Nat) : lastFor [(k, a)] n = if k = n then some a else none := rfl

theorem lastFor_two (k j : Nat) (a b : α) (n : Nat) :
    lastFor [(k, a), (j, b)] n = if j = n then some b else if k = n then some a else none := rfl

end lists

/-- One effect after another. -/
def Effect.andThen (f g : Effect) : Effect where
  v := f.v ++ g.v
  p := f.p ++ g.p
  fst := if g.setFst.isSome then g.fst else f.fst ||| g.fst
  pend := f.pend ++ g.pend
  h := f.h ++ g.h
  region := g.region.or f.region
  setFst := g.setFst.or f.setFst
  setSlv := g.setSlv.or f.setSlv
  wait := g.wait.or f.wait
  park := g.park.or f.park
  arrivals := g.arrivals.or f.arrivals
  ready := g.ready.or f.ready
  yield := g.yield.or f.yield

namespace Lane.Becomes

variable {sw : Bool} {l l₁ l₂ : Lane} {f g : Effect}

theorem refl (sw : Bool) (l : Lane) : l.Becomes sw l {} := by
  constructor <;> intros <;> first | rfl | simp

theorem trans (a : l.Becomes sw l₁ f) (b : l₁.Becomes sw l₂ g) : l.Becomes sw l₂ (f.andThen g) where
  words n := by rw [b.words, a.words, Effect.andThen, lastFor_append]; cases lastFor g.v n <;> rfl
  preds n h := by rw [b.preds n h, a.preds n h, Effect.andThen, lastFor_append]; cases lastFor g.p n <;> rfl
  fst := by rw [b.fst, a.fst, Effect.andThen]; cases g.setFst <;> simp [BitVec.or_assoc]
  pend := by rw [b.pend, a.pend, Effect.andThen, List.map_append, List.append_assoc]
  shapes n := by rw [b.shapes, a.shapes, Effect.andThen, lastFor_append]; cases lastFor g.h n <;> rfl
  rows n := by rw [b.rows, a.rows, Effect.andThen, lastFor_append]; cases lastFor g.h n <;> rfl
  region := by rw [b.region, a.region, Effect.andThen]; cases g.region <;> rfl
  wid := by rw [b.wid, a.wid]
  wgen := by rw [b.wgen, a.wgen]
  slv := by rw [b.slv, a.slv, Effect.andThen]; cases g.setSlv <;> rfl
  vacant := by rw [b.vacant, a.vacant]
  wait := by rw [b.wait, a.wait, Effect.andThen]; cases g.wait <;> rfl
  park := by rw [b.park, a.park, Effect.andThen]; cases g.park <;> rfl
  arrivals := by rw [b.arrivals, a.arrivals, Effect.andThen]; cases g.arrivals <;> rfl
  parity := by rw [b.parity, a.parity]
  handler := by rw [b.handler, a.handler]
  readyAt := by rw [b.readyAt, a.readyAt, Effect.andThen]; cases g.ready <;> rfl
  yieldTo := by rw [b.yieldTo, a.yieldTo, Effect.andThen]; cases g.yield <;> rfl
  chain h := by rw [b.chain h, a.chain h]
  waits h := by rw [b.waits h, a.waits h]

theorem weaken (a : l.Becomes false l₁ f) : l.Becomes sw l₁ f :=
  { a with chain := fun _ => a.chain rfl, waits := fun _ => a.waits rfl }

end Lane.Becomes

namespace Lane

variable (sw : Bool) (l : Lane)

theorem clashV_bare (n : Nat) : (l.clashV n).map Pend.bare = l.pend.map Pend.bare := by
  unfold clashV
  rw [List.map_map]
  apply List.map_congr_left
  intro p _
  simp only [Function.comp]
  split <;> rfl

theorem clashP_bare (n : Nat) : (l.clashP n).map Pend.bare = l.pend.map Pend.bare := by
  unfold clashP
  rw [List.map_map]
  apply List.map_congr_left
  intro p _
  simp only [Function.comp]
  split <;> rfl

theorem becomes_wr (n : Nat) (x : Word) : l.Becomes sw (l.wr n x) { v := [(n, x)] } where
  words k := by
    by_cases h : n = k
    · subst h; simp [v, wr]
    · simp [v, wr, h, fgetD_fput_other _ _ _ _ _ _ (Ne.symm h)]
  preds _ _ := rfl
  fst := by simp
  pend := by simp [clashV_bare]
  shapes _ := rfl
  rows _ := rfl
  region := rfl
  wid := rfl
  wgen := rfl
  slv := rfl
  vacant := rfl
  wait := rfl
  park := rfl
  arrivals := rfl
  parity := rfl
  handler := rfl
  readyAt := rfl
  yieldTo := rfl
  chain _ := rfl
  waits _ := rfl

theorem becomes_wrW (n : Nat) (x : DWord) : l.Becomes sw (l.wrW n x) { v := [(n, lo32 x), (n + 1, hi32 x)] } := by
  unfold wrW
  simpa [Effect.andThen] using (becomes_wr sw l n (lo32 x)).trans (becomes_wr sw _ (n + 1) (hi32 x))

theorem becomes_orFst (fl : Word) : l.Becomes sw (l.orFst fl) { fst := fl } := by
  constructor <;> intros <;> first | rfl | simp

theorem becomes_addPend (p : Pend) : l.Becomes sw (l.addPend p) { pend := [p] } := by
  constructor <;> intros <;> first | rfl | simp

theorem becomes_setRegion (pc : PC) : l.Becomes sw (l.setRegion pc) { region := some pc } := by
  constructor <;> intros <;> first | rfl | simp

theorem becomes_wrP (n : Nat) (b : Bool) : l.Becomes sw (l.wrP n b) { p := [(n, b)] } := by
  by_cases hn : n < 7
  · have hp : ∀ k, k < 7 → (l.wrP n b).p k = if n = k then b else l.p k := by
      intro k hk
      by_cases h : n = k
      · subst h; rw [if_pos rfl]; exact p_wrP_same l n b hn
      · rw [if_neg h]; exact p_wrP_other l n k b (Ne.symm h)
    constructor
    case preds => intro k hk; rw [hp k hk]; by_cases h : n = k <;> simp [h]
    all_goals intros; first | rfl | (simp [wrP, hn, clashP_bare]; done) | (simp [wrP, hn]; rfl)
  · have : l.wrP n b = l := by simp [wrP, hn]
    rw [this]
    constructor
    case preds => intro k hk; have : n ≠ k := by omega
                  simp [this]
    all_goals intros; first | rfl | simp

end Lane

theorem switchPoint_cases (w : Warp) (m : Mask) :
    w.switchPoint m = w ∨ w.switchPoint m = w.mapIn (m &&& w.live) fun _ l => { l.endChain with sw := m &&& w.live } := by
  unfold Warp.switchPoint
  dsimp only
  split
  · exact .inr rfl
  · exact .inl rfl

/-- A switch point changes nothing but the chain and the waiting of lanes (R49). -/
theorem becomes_switchPoint (w : Warp) (m : Mask) (k : Nat) (hk : k < w.lanes.length) :
    (w.lane k).Becomes true ((w.switchPoint m).lane k) {} := by
  rcases switchPoint_cases w m with e | e <;> rw [e]
  · exact Lane.Becomes.refl true _
  · by_cases hb : bitAt (m &&& w.live) k = true
    · rw [Warp.lane_mapIn_in _ _ _ _ hk hb]
      constructor <;> intros <;> first | rfl | contradiction | simp
    · rw [Warp.lane_mapIn_out _ _ _ _ (by simpa using hb)]
      exact Lane.Becomes.refl true _

theorem switchPoint_rest (w : Warp) (m : Mask) :
    { w.switchPoint m with lanes := w.lanes, slices := w.slices } = w
      ∧ (w.switchPoint m).slices = w.slices ∧ (w.switchPoint m).lanes.length = w.lanes.length := by
  rcases switchPoint_cases w m with e | e <;> rw [e]
  · exact ⟨rfl, rfl, rfl⟩
  · exact ⟨rfl, rfl, by simp [Warp.mapIn, Warp.mapLanes]⟩

/-- A warp whose lanes have changed by `m`, past a switch point or not: what `CompletesAs` says of it. -/
theorem commit_completes (q : Gang) (sw sw' : Bool) (W w : Warp) (m : Nat → Lane → Lane) (S : State) (f : Nat → Lane → Effect)
    (hs : sw' = true → sw = true) (hw : { w with lanes := W.lanes, slices := W.slices } = W) (hl : w.lanes = mapFrom m 0 q.w.lanes)
    (hf : ∀ k (l : Lane), l.Becomes sw (m k l) (f k l)) :
    CompletesAs (commit S q.wk (if sw' then w.switchPoint q.mask else w)) S q W w.slices sw f := by
  have len : w.lanes.length = q.w.lanes.length := by rw [hl, mapFrom_length]
  have base : ∀ k, k < q.w.lanes.length → (q.lane k).Becomes sw (w.lane k) (f k (q.lane k)) := by
    intro k hk
    have e : w.lane k = m k (q.lane k) := by
      have h1 : q.w.lanes[k]? = some q.w.lanes[k] := List.getElem?_eq_getElem hk
      simp [Warp.lane, Gang.lane, List.getD_eq_getElem?_getD, hl, mapFrom_getElem?, h1]
    rw [e]
    exact hf k _
  cases sw' with
  | false => exact ⟨w, rfl, hw, rfl, len, base⟩
  | true =>
    obtain rfl := hs rfl
    obtain ⟨r₁, r₂, r₃⟩ := switchPoint_rest w q.mask
    refine ⟨w.switchPoint q.mask, rfl, ?_, r₂, r₃.trans len, ?_⟩
    · have := congrArg (fun w : Warp => { w with lanes := W.lanes, slices := W.slices }) r₁
      exact Eq.trans this hw
    · intro k hk
      simpa [Effect.andThen] using (base k hk).trans (becomes_switchPoint w q.mask k (len ▸ hk))

/-- What `mapIn` does to lanes, as one map. -/
theorem mapIn_lanes (w : Warp) (m : Mask) (f : Nat → Lane → Lane) :
    (w.mapIn m f).lanes = mapFrom (fun i l => if bitAt m i then f i l else l) 0 w.lanes := rfl

theorem becomes_ite (sw b : Bool) (l l' : Lane) (f : Effect) (h : l.Becomes sw l' f) :
    l.Becomes sw (if b then l' else l) (if b then f else {}) := by
  cases b
  · exact Lane.Becomes.refl sw l
  · exact h

/-- How an instruction retires whose executing lanes have the effect `f`: `W` is the warp that it leaves but for them. -/
theorem retire_completes (q : Gang) (sw : Bool) (W : Warp) (m : Nat → Lane → Lane) (S : State) (f : Nat → Lane → Effect)
    (hW : W.lanes = q.w.lanes) (hf : ∀ k (l : Lane), l.Becomes sw (m k l) (f k l)) :
    Completes (retire q sw (W.mapIn q.exec m) S) S q W sw f := by
  have := commit_completes q sw sw W ((W.mapIn q.exec m).advance q.pc q.next q.mask) _ S (fun k l => if bitAt q.exec k then f k l else {})
    id rfl (by rw [← hW]; rfl) fun k l => becomes_ite sw (bitAt q.exec k) l (m k l) _ (hf k l)
  exact this

/-- The same when no lane of the warp changes. -/
theorem retire_plain (q : Gang) (sw : Bool) (W : Warp) (S : State) (hW : W.lanes = q.w.lanes) :
    Completes (retire q sw W S) S q W sw fun _ _ => {} := by
  have e : W.mapIn q.exec (fun _ l => l) = W := by
    have h : mapFrom (fun (i : Nat) (l : Lane) => if bitAt q.exec i then l else l) 0 W.lanes = W.lanes := by
      apply List.ext_getElem?
      intro i
      rw [mapFrom_getElem?]
      cases W.lanes[i]? <;> simp
    show { W with lanes := mapFrom _ 0 W.lanes } = W
    rw [h]
  have := retire_completes q sw W (fun _ l => l) S (fun _ _ => {}) hW fun _ l => Lane.Becomes.refl sw l
  rwa [e] at this

/-- Where a branch takes a gang (R91): the slices are those of `split`. -/
theorem branchTo_completes (q : Gang) (sw : Bool) (s : State) (cycle : Nat) (target : Nat → PC) (m : Nat → Lane → Lane) (sl : List Slice)
    (f : Nat → Lane → Effect) (h : (q.w.split q.pc q.mask fun k => if bitAt q.exec k then target k else q.next) = some sl)
    (hf : ∀ k (l : Lane), l.Becomes sw { m k l with readyAt := cycle + 1 } (f k l)) :
    CompletesAs (branchTo q sw s cycle target m) s q q.w sl sw fun k l => if bitAt q.exec k then f k l else {} := by
  unfold branchTo
  rw [h]
  exact commit_completes q sw sw q.w (({ q.w with slices := sl } : Warp).mapIn q.exec fun k l => { m k l with readyAt := cycle + 1 }) _ s _ id
    rfl rfl fun k l => becomes_ite sw (bitAt q.exec k) l _ _ (hf k l)

theorem mapFrom_mapFrom {α β γ : Type} (f : Nat → β → γ) (g : Nat → α → β) (k : Nat) (l : List α) :
    mapFrom f k (mapFrom g k l) = mapFrom (fun i a => f i (g i a)) k l := by
  induction l generalizing k with
  | nil => rfl
  | cons a t ih => simp only [mapFrom, ih]

theorem mapFrom_id {α : Type} (k : Nat) (l : List α) : mapFrom (fun _ a => a) k l = l := by
  induction l generalizing k with
  | nil => rfl
  | cons a t ih => simp only [mapFrom, ih]

/-- How lanes park at a join (R119): `W` is the warp that the arrival leaves, with `m` in its executing lanes. -/
theorem parkJoin_completes (q : Gang) (sw : Bool) (j : Nat) (W : Warp) (m : Nat → Lane → Lane) (S : State) (f : Effect)
    (hW : W.lanes = q.w.lanes) (hf : ∀ k (l : Lane), l.Becomes sw { m k l with park := some { pc := q.next, why := .join j } } f) :
    CompletesAs (parkJoin q sw j (W.mapIn q.exec m) S) S q W ((W.advance q.pc q.next q.mask).takeOut q.exec).slices sw
      fun k _ => if bitAt q.exec k then f else {} := by
  have := commit_completes q sw sw W
    (((W.mapIn q.exec m).advance q.pc q.next q.mask).parkAt q.exec fun _ => { pc := q.next, why := .join j })
    (fun k l => if bitAt q.exec k then { m k l with park := some { pc := q.next, why := .join j } } else l) S
    (fun k _ => if bitAt q.exec k then f else {}) id rfl ?_ fun k l => becomes_ite sw (bitAt q.exec k) l _ _ (hf k l)
  · exact this
  · show mapFrom _ 0 (mapFrom _ 0 W.lanes) = _
    rw [mapFrom_mapFrom, hW]
    congr 1
    funext k l
    cases bitAt q.exec k <;> rfl

/-- A gang issues: the shared operation runs on it. -/
theorem issued_eq {h : Hdr} {n : Nat} {s : State} {q : Gang} (f : Gang → Out) (e : gangOf s h n = some q) : issued h n s f = f q := by
  simp [issued, e]

theorem laneOp_completes {h : Hdr} {n : Nat} {s : State} {q : Gang} (m : Env → Lane → Lane) (f : Env → Lane → Effect)
    (e : gangOf s h n = some q) (hf : ∀ k (l : Lane), l.Becomes h.sw (m k l) (f k l)) :
    Completes (laneOp h n s m) s q q.w h.sw fun k l => f (q.env k) l := by
  unfold laneOp
  rw [issued_eq _ e]
  exact retire_completes q h.sw q.w _ s _ rfl fun k l => hf (q.env k) l

theorem pendOp_completes {h : Hdr} {n : Nat} {s : State} {q : Gang} (p : Env → Lane → Pend) (e : gangOf s h n = some q) :
    Completes (pendOp h n s p) s q q.w h.sw fun k l => { pend := [p (q.env k) l] } := by
  unfold pendOp
  rw [issued_eq _ e]
  exact retire_completes q h.sw q.w _ s _ rfl fun k l => Lane.becomes_addPend h.sw l _

/-! A gang whose path waits for its results (R161): only the chains of its lanes change. -/
@[simp] theorem Gang.ended_mask (q : Gang) : q.ended.mask = q.mask := rfl
@[simp] theorem Gang.ended_exec (q : Gang) : q.ended.exec = q.exec := rfl
@[simp] theorem Gang.ended_next (q : Gang) : q.ended.next = q.next := rfl
@[simp] theorem Gang.ended_pc (q : Gang) : q.ended.pc = q.pc := rfl
@[simp] theorem Gang.ended_wk (q : Gang) : q.ended.wk = q.wk := rfl
@[simp] theorem Gang.ended_wg (q : Gang) : q.ended.w.wg = q.w.wg := rfl
@[simp] theorem Gang.ended_uid (q : Gang) : q.ended.w.uid = q.w.uid := rfl
@[simp] theorem Gang.ended_slices (q : Gang) : q.ended.w.slices = q.w.slices := rfl

end Sys2Proof.Machine
end

