-- ==== Sys2Proof/Laws/Lanes.lean ====
section
/-! SUPPORT. One-word forms as extended ones, and how the meaning of a lane instruction gives the rule of it. -/

namespace Sys2Proof.Machine

/-- The extended form of a one-word instruction names the same registers. -/
theorem bExt (d a b : BitVec 6) : (baseExt d a b).d.toNat = d.toNat ∧ (baseExt d a b).a.toNat = a.toNat ∧ (baseExt d a b).b.toNat = b.toNat := by
  have f (y : BitVec 6) : (y.setWidth 8).toNat = y.toNat := by rw [BitVec.toNat_setWidth]; omega
  exact ⟨f d, f a, f b⟩

@[simp] theorem bExt_d (d a b : BitVec 6) : (baseExt d a b).d.toNat = d.toNat := (bExt d a b).1
@[simp] theorem bExt_a (d a b : BitVec 6) : (baseExt d a b).a.toNat = a.toNat := (bExt d a b).2.1
@[simp] theorem bExt_b (d a b : BitVec 6) : (baseExt d a b).b.toNat = b.toNat := (bExt d a b).2.2
@[simp] theorem bExt_bit (d a b : BitVec 6) (i : Nat) : (baseExt d a b).bit i = false := by simp [baseExt, Ext.bit, bitAt]
@[simp] theorem bExt_field (d a b : BitVec 6) (i n : Nat) : (baseExt d a b).field i n = 0 := by simp [baseExt, Ext.field, bitsAt]
@[simp] theorem bExt_opB (d a b : BitVec 6) (l : Lane) (e : Env) (i : Nat) : opB l e i (baseExt d a b) = l.rd e i b.toNat := by
  have : (baseExt d a b).litB = false := by simp [Ext.litB, baseExt]
  simp [opB, this]
@[simp] theorem bExt_opBW (d a b : BitVec 6) (l : Lane) (e : Env) (i : Nat) : opBW l e i (baseExt d a b) = l.rdW e i b.toNat := by
  have : (baseExt d a b).litB = false := by simp [Ext.litB, baseExt]
  simp [opBW, this]

/-- A meaning that treats each executing lane alone gives the rule of its effect on one lane. -/
theorem word_rule {h : Hdr} {n : Nat} {i : Instr} (m : Env → Lane → Lane) (f : Env → Lane → Effect)
    (e : ∀ s, exec i s = laneOp h n s m) (hf : ∀ k (l : Lane), l.Becomes h.sw (m k l) (f k l)) : LaneRule i h n f := by
  intro s q g
  rw [e]
  exact laneOp_completes m f g hf

theorem wr_eff (sw : Bool) (l : Lane) (n : Nat) (x y : Word) (h : x = y) : l.Becomes sw (l.wr n x) (.word n y) := h ▸ Lane.becomes_wr sw l n x
theorem wrW_eff (sw : Bool) (l : Lane) (n : Nat) (x y : DWord) (h : x = y) : l.Becomes sw (l.wrW n x) (.wide n y) := h ▸ Lane.becomes_wrW sw l n x
theorem flg_eff (sw : Bool) (l l' : Lane) (f : Effect) (a b : Word) (h : l.Becomes sw l' f) (hab : a = b) : l.Becomes sw (l'.orFst a) (f.flags b) := by
  subst hab
  simpa [Effect.andThen, Effect.flags] using h.trans (Lane.becomes_orFst sw l' a)


theorem ofInt_toInt32 (a : Word) : BitVec.ofInt 32 a.toInt = a := BitVec.ofInt_toInt
theorem ofInt_toNat32 (a : Word) : BitVec.ofInt 32 (a.toNat : Int) = a := by simp

end Sys2Proof.Machine
end

