-- ==== Sys2Proof/Laws/Memory.lean ====
section
/-! SUPPORT. Every memory operation keeps the canonical form of memory, and what one byte reads as after a write of one. -/

namespace Sys2Proof.Machine

section banks
variable {α : Type} [DecidableEq α]

omit [DecidableEq α] in
theorem mem_fset {m : FMap α} {k : Nat} {a : α} {p : Nat × α} (h : p ∈ fset m k a) : p = (k, a) ∨ p ∈ m := by
  induction m with
  | nil => simpa [fset] using h
  | cons q t ih =>
    obtain ⟨j, b⟩ := q
    simp only [fset] at h
    split at h
    · simpa using h
    · split at h
      · rcases List.mem_cons.1 h with h | h
        · exact .inl h
        · exact .inr (List.mem_cons_of_mem _ h)
      · rcases List.mem_cons.1 h with h | h
        · exact .inr (by simp [h])
        · exact (ih h).imp id (List.mem_cons_of_mem _)

omit [DecidableEq α] in
theorem mem_ferase {m : FMap α} {k : Nat} {p : Nat × α} (h : p ∈ ferase m k) : p ∈ m := by
  induction m with
  | nil => simpa [ferase] using h
  | cons q t ih =>
    obtain ⟨j, b⟩ := q
    simp only [ferase] at h
    split at h
    · exact List.mem_cons_of_mem _ (ih h)
    · rcases List.mem_cons.1 h with h | h
      · simp [h]
      · exact List.mem_cons_of_mem _ (ih h)

/-- A bank that lists no default still lists none after an entry is held in it. -/
theorem fput_nondefault {d : α} {m : FMap α} {k : Nat} {a : α} (hm : ∀ p ∈ m, p.2 ≠ d) : ∀ p ∈ fput d m k a, p.2 ≠ d := by
  intro p hp
  unfold fput at hp
  split at hp
  · exact hm p (mem_ferase hp)
  · rename_i h
    rcases mem_fset hp with rfl | hp
    · exact h
    · exact hm p hp

end banks

theorem Memory.wf_iff (m : List Host.Cell) : Memory.wf m = true ↔ Sorted m ∧ ∀ c ∈ m, c.2 ≠ unlisted := by
  simp [Memory.wf, Sorted]

/-- Holding one byte keeps the canonical form. -/
theorem Memory.wf_put {m : List Host.Cell} (h : Memory.wf m = true) (a : Nat) (b : Byte) : Memory.wf (cellPut m a b) = true := by
  rw [Memory.wf_iff] at h ⊢
  exact ⟨fsorted_fput _ _ _ _ h.1, fput_nondefault h.2⟩

/-- Holding bytes keeps the canonical form. -/
theorem Memory.wf_puts {m : List Host.Cell} (h : Memory.wf m = true) (a : Nat) (bs : List Byte) : Memory.wf (cellPuts m a bs) = true := by
  induction bs generalizing m a with
  | nil => exact h
  | cons b t ih => exact ih (Memory.wf_put h a b) (a + 1)

namespace MemSys.Ok

variable {m : MemSys}

/-- Only bytes and keys matter to the canonical form. -/
theorem of_eq {n : MemSys} (h : m.Ok) (hc : n.cells = m.cells) (hk : n.keys = m.keys) : n.Ok :=
  ⟨by rw [hc]; exact h.cells, by rw [hk]; exact h.keys, by rw [hk]; exact h.keysNonzero⟩

theorem rekey (h : m.Ok) (key a : Nat) : (rekey m key a).Ok := by
  by_cases e : unitKey m a = keyTag m key
  · rw [Machine.rekey, if_pos e]; exact h
  · rw [Machine.rekey, if_neg e]
    generalize underKey m key a = bs
    exact ⟨Memory.wf_puts h.cells _ _, fsorted_fput _ _ _ _ h.keys, fput_nondefault h.keysNonzero⟩

theorem physPut (h : m.Ok) (key a : Nat) (b : Byte) : (physPut m key a b).Ok :=
  ⟨Memory.wf_put (h.rekey key a).cells a b, (h.rekey key a).keys, (h.rekey key a).keysNonzero⟩

theorem physPuts (h : m.Ok) (key a : Nat) (bs : List Byte) : (physPuts m key a bs).Ok := by
  induction bs generalizing m a with
  | nil => exact h
  | cons b t ih => exact ih (h.physPut key a b) (a + 1)

theorem physWrite (h : m.Ok) (key a : Nat) (bs : List Byte) : (physWrite m key a bs).Ok :=
  (h.physPuts key a bs).of_eq rfl rfl

theorem writePieces (h : m.Ok) (ps : List Piece) (bs : List Byte) : (writePieces m ps bs).Ok := by
  induction ps generalizing m bs with
  | nil => exact h
  | cons p t ih => exact ih (h.physWrite p.key p.pa _) _

theorem writeVa {s t : State} {ctx va i : Nat} {bs : List Byte} (h : s.mem.Ok) (e : Machine.writeVa s ctx va i bs = .ok t) : t.mem.Ok := by
  unfold Machine.writeVa at e
  split at e
  · cases e
  · cases e; exact h.writePieces _ _

theorem tlbOutside (h : m.Ok) (ctx lo hi : Nat) : (tlbOutside m ctx lo hi).Ok := h.of_eq rfl rfl

theorem cacheEntries (h : m.Ok) (ctx : Nat) (ps : List Piece) : (cacheEntries m ctx ps).Ok := h.of_eq rfl rfl

theorem setOwner {s : State} (h : s.mem.Ok) (ctx va : Nat) (host : Bool) : (setOwner s ctx va host).mem.Ok := by
  unfold Machine.setOwner
  split
  · exact h
  · exact (h.physPuts 0 _ _).tlbOutside _ _ _

/-- Memory right after power-up has the canonical form. -/
theorem reset : State.reset.mem.Ok := ⟨by decide, by decide, by intro p hp; cases hp⟩

end MemSys.Ok

/-- A byte reads as what was written there. -/
@[simp] theorem cellGet_put_same (m : List Host.Cell) (a : Nat) (b : Byte) : cellGet (cellPut m a b) a = b := by
  simp [cellGet, cellPut]

/-- Every other byte reads as before. -/
@[simp] theorem cellGet_put_other (m : List Host.Cell) (a k : Nat) (b : Byte) (h : k ≠ a) : cellGet (cellPut m a b) k = cellGet m k := by
  simp [cellGet, cellPut, h]

/-- What a byte holds after bytes are held from an address upward. -/
theorem cellGet_puts (m : List Host.Cell) (a k : Nat) (bs : List Byte) :
    cellGet (cellPuts m a bs) k = if a ≤ k ∧ k < a + bs.length then bs.getD (k - a) 0 else cellGet m k := by
  induction bs generalizing m a with
  | nil => rw [if_neg (by simp)]; rfl
  | cons b t ih =>
    rw [cellPuts, ih]
    by_cases h : k = a
    · subst h
      rw [if_neg (by omega), if_pos (by simp)]; simp
    · rw [cellGet_put_other _ _ _ _ h]
      by_cases h2 : a + 1 ≤ k ∧ k < a + 1 + t.length
      · rw [if_pos h2, if_pos (by simp only [List.length_cons]; omega)]
        obtain ⟨j, rfl⟩ : ∃ j, k = a + 1 + j := ⟨k - (a + 1), by omega⟩
        rw [show a + 1 + j - (a + 1) = j by omega, show a + 1 + j - a = j + 1 by omega]; rfl
      · rw [if_neg h2, if_neg (by simp only [List.length_cons]; omega)]

/-- A write of bytes tags no key anew (R378). -/
@[simp] theorem keyTag_rekey (m : MemSys) (key a key' : Nat) : keyTag (rekey m key a) key' = keyTag m key' := by
  by_cases e : unitKey m a = keyTag m key
  · rw [rekey, if_pos e]
  · rw [rekey, if_neg e, keyTag, keyTag] <;> rfl

@[simp] theorem keyTag_put (m : MemSys) (key a key' : Nat) (b : Byte) : keyTag (physPut m key a b) key' = keyTag m key' :=
  keyTag_rekey m key a key'

/-- A write of bytes changes no key. -/
@[simp] theorem keyBits_put (m : MemSys) (key a tag : Nat) (b : Byte) : keyBits (physPut m key a b) tag = keyBits m tag := by
  by_cases e : unitKey m a = keyTag m key
  · rw [physPut, rekey, if_pos e]; rfl
  · rw [physPut, rekey, if_neg e]; rfl

/-- A unit has 64 bytes under any key. -/
@[simp] theorem underKey_length (m : MemSys) (key a : Nat) : (underKey m key a).length = 64 := by simp [underKey]

/-- After a write under a key the unit has that key. -/
theorem unitKey_rekey (m : MemSys) (key a : Nat) : unitKey (rekey m key a) a = keyTag m key := by
  unfold rekey
  split
  · assumption
  · simp [unitKey]

/-- A byte written under a key reads back under it (R238). -/
theorem physByte_put_same (m : MemSys) (key a : Nat) (b : Byte) : physByte (physPut m key a b) key a = b := by
  have h : unitKey (physPut m key a b) a = keyTag m key := unitKey_rekey m key a
  unfold physByte
  rw [keyTag_put, if_pos h]
  exact cellGet_put_same _ _ _

/-- Another byte of the same unit reads, under the key of the write, as it read before under that key (R238). -/
theorem physByte_put_unit (m : MemSys) (key a k : Nat) (b : Byte) (hu : k / 64 = a / 64) (hk : k ≠ a) :
    physByte (physPut m key a b) key k = physByte m key k := by
  have h : unitKey (physPut m key a b) k = keyTag m key := by
    have := unitKey_rekey m key a
    unfold unitKey at this ⊢
    rw [hu]; exact this
  rw [physByte, keyTag_put, if_pos h]
  show cellGet (cellPut (rekey m key a).cells a b) k = _
  rw [cellGet_put_other _ _ _ _ hk]
  unfold rekey
  split
  · rename_i e
    rw [physByte, if_pos (by unfold unitKey at e ⊢; rw [hu]; exact e)]
  · rename_i e
    rw [cellGet_puts, if_pos (by simp; omega)]
    rw [physByte, if_neg (by unfold unitKey at e ⊢; rw [hu]; exact e), hu]
    have hb : k - a / 64 * 64 < 64 := by omega
    rw [underKey, List.getD_eq_getElem?_getD, List.getElem?_map, List.getElem?_range hb]
    simp only [Option.map_some, Option.getD_some]
    congr 1; omega

/-- A byte of another unit reads as before under every key (R238). -/
theorem physByte_put_other (m : MemSys) (key key' a k : Nat) (b : Byte) (hu : k / 64 ≠ a / 64) :
    physByte (physPut m key a b) key' k = physByte m key' k := by
  have hk : unitKey (physPut m key a b) k = unitKey m k := by
    show fgetD (rekey m key a).keys (k / 64) 0 = fgetD m.keys (k / 64) 0
    unfold rekey; split
    · rfl
    · exact fgetD_fput_other _ _ _ _ _ _ hu
  have hc : ∀ j, j / 64 = k / 64 → cellGet (physPut m key a b).cells j = cellGet m.cells j := by
    intro j hj
    show cellGet (cellPut (rekey m key a).cells a b) j = _
    rw [cellGet_put_other _ _ _ _ (by intro e; subst e; exact hu hj.symm)]
    unfold rekey; split
    · rfl
    · rw [cellGet_puts, if_neg (by simp; omega)]
  have hub : unitBytes (physPut m key a b) (64 * (k / 64)) = unitBytes m (64 * (k / 64)) := by
    unfold unitBytes
    apply List.map_congr_left
    intro i hi
    exact hc _ (by have := List.mem_range.1 hi; omega)
  have hk' : unitKey (physPut m key a b) (64 * (k / 64)) = unitKey m (64 * (k / 64)) := by
    unfold unitKey at hk ⊢
    rw [show 64 * (k / 64) / 64 = k / 64 by omega]; exact hk
  unfold physByte
  rw [keyTag_put, hk, hc k rfl]
  unfold crossUnit
  simp only [hk', hub, keyBits_put]

end Sys2Proof.Machine
end

