-- ==== Sys2Proof/Laws/Late.lean ====
section
/-! SUPPORT. Performing late accesses: where none is meant nothing happens, and memory keeps its canonical form. -/

namespace Sys2Proof.Machine

theorem performStores_none {s : State} {p : Late → Bool} (h : ∀ a ∈ s.mem.late, p a = false) : performStores s p = s := by
  have : s.mem.late.any p = false := by simpa using h
  simp [performStores, this]

theorem performReads_none {s : State} {wk : Nat} {sel : Nat → LateRead → Bool}
    (h : ∀ w, s.warp? wk = some w → ∀ x ∈ w.reads, sel x.1 x.2 = false) : performReads s wk sel = s := by
  unfold performReads
  cases e : s.warp? wk with
  | none => rfl
  | some w =>
    have : w.reads.any (fun x => sel x.1 x.2) = false := by simpa using h w e
    simp [this]

namespace MemSys.Ok
variable {m : MemSys}

theorem performLate (h : m.Ok) (p : Late → Bool) : (performLate m p).Ok := by
  have go (l : List Late) (n : MemSys) (hn : n.Ok) : (l.foldl (fun m a => Machine.writePieces m a.pieces a.bytes) n).Ok := by
    induction l generalizing n with
    | nil => exact hn
    | cons a t ih => exact ih _ (hn.writePieces _ _)
  exact go _ _ (h.of_eq rfl rfl)

theorem performStores {s : State} (h : s.mem.Ok) (p : Late → Bool) : (performStores s p).mem.Ok := by
  unfold Machine.performStores
  split
  · exact h.performLate p
  · exact h

theorem perform (h : m.Ok) (i : Nat) (r : LateRead) (p : Pend) : (r.perform m i p).2.Ok := by
  unfold LateRead.perform LateRead.effect
  split
  · exact h
  · split
    · exact h
    · split
      · exact h.writePieces _ _
      · exact h

theorem performPends (h : m.Ok) (i : Nat) (sel : LateRead → Bool) (l : List Pend) : (performPends m i sel l).2.Ok := by
  induction l generalizing m with
  | nil => exact h
  | cons p t ih =>
    apply ih
    split
    · split
      · exact h.perform i _ p
      · exact h
    · exact h

theorem performReads {s : State} (h : s.mem.Ok) (wk : Nat) (sel : Nat → LateRead → Bool) : (performReads s wk sel).mem.Ok := by
  unfold Machine.performReads
  split
  · exact h
  · dsimp only
    split
    · exact h
    · rename_i w _ _
      have go (l : List Nat) (a : Warp × MemSys) (ha : a.2.Ok) : (l.foldl (fun (a : Warp × MemSys) i =>
          let y := Machine.performPends a.2 i (readGoes w.reads sel i) (w.lane i).pend
          (a.1.modLane i fun l => { l with pend := y.1 }, y.2)) a).2.Ok := by
        induction l generalizing a with
        | nil => exact ha
        | cons i t ih => exact ih _ (ha.performPends _ _ _)
      exact go _ _ h

end MemSys.Ok

namespace MemSys.Ok

/-- The accesses of a gang that come first keep the form (R235, R282). -/
theorem ownFirst {s : State} (h : s.mem.Ok) (q : Gang) (ctx : Nat) (ps : Nat → List Piece) : (ownFirst s q ctx ps).mem.Ok :=
  performReads (performStores h _) _ _

theorem fencedFirst {s : State} (h : s.mem.Ok) (q : Gang) (sc : Nat) (ps : Nat → List Piece) : (fencedFirst s q sc ps).mem.Ok :=
  performReads (performStores h _) _ _

theorem performEarlier {s : State} (h : s.mem.Ok) (wk : Nat) (m : Mask) (stores un : Bool) : (performEarlier s wk m stores un).mem.Ok := by
  unfold Machine.performEarlier
  split
  · exact h
  · dsimp only
    split
    · exact performReads (performStores h _) _ _
    · exact performReads h _ _

/-- A FENCE's mark writes nothing. -/
theorem fenceMarks {s : State} (h : s.mem.Ok) (q : Gang) (sc : Nat) : (fenceMarks s q sc).mem.Ok := by
  unfold Machine.fenceMarks
  split
  · exact h
  · exact h.of_eq rfl rfl

end MemSys.Ok

/-- A lane without late accesses has nothing that comes before its next one. -/
theorem ownFirst_none {s : State} {q : Gang} {ctx : Nat} {ps : Nat → List Piece} (hs : s.mem.late = [])
    (hr : ∀ w, s.warp? q.wk = some w → w.reads = []) : ownFirst s q ctx ps = s := by
  unfold ownFirst
  rw [performStores_none (by simp [hs]), performReads_none]
  intro w hw x hx
  simp [hr w hw] at hx

/-- An exchange of two PC values undoes itself (R402). -/
@[simp] theorem swapPc_swapPc (p : PC × PC) (x : PC) : swapPc p (swapPc p x) = x := by
  unfold swapPc
  split <;> split <;> simp_all

end Sys2Proof.Machine
end

