-- ==== Sys2Proof/Laws/PerInstr.lean ====
section
/-! SUPPORT. For each instruction: decoding its words gives it back (R28-R55). -/

namespace Sys2Proof

theorem bitsAt_extract {n : Nat} (x : BitVec n) (lo len : Nat) : bitsAt x lo len = (x.extractLsb' lo len).toNat := by
  simp [bitsAt, Nat.shiftRight_eq_div_pow]

theorem word0_len (h : Hdr) (opc len : Nat) (top : BitVec 18) (hl : len < 4) : lenOf (word0 h opc len top) = len := by
  unfold lenOf word0
  rw [bitsAt_extract]
  have : (top ++ BitVec.ofNat 7 opc ++ h.grd ++ BitVec.ofBool h.sw ++ BitVec.ofNat 2 len : BitVec 32).extractLsb' 0 2 = BitVec.ofNat 2 len := by
    refine BitVec.eq_of_getLsbD_eq fun i hi => ?_
    simp only [BitVec.getLsbD_extractLsb', BitVec.getLsbD_append]
    simp [hi]
  rw [this, BitVec.toNat_ofNat]; omega

theorem word0_opc (h : Hdr) (opc len : Nat) (top : BitVec 18) (hl : opc < 128) : bitsAt (word0 h opc len top) 7 7 = opc := by
  unfold word0
  rw [bitsAt_extract]
  have : (top ++ BitVec.ofNat 7 opc ++ h.grd ++ BitVec.ofBool h.sw ++ BitVec.ofNat 2 len : BitVec 32).extractLsb' 7 7 = BitVec.ofNat 7 opc := by
    refine BitVec.eq_of_getLsbD_eq fun i hi => ?_
    simp only [BitVec.getLsbD_extractLsb', BitVec.getLsbD_append]
    have e : 7 + i - 2 - 1 - 4 = i := by omega
    simp [hi, e, show ¬ (7 + i < 2) by omega, show ¬ (7 + i - 2 < 1) by omega, show ¬ (7 + i - 2 - 1 < 4) by omega]
  rw [this, BitVec.toNat_ofNat]; omega

theorem word0_grd (h : Hdr) (opc len : Nat) (top : BitVec 18) : (word0 h opc len top).extractLsb' 3 4 = h.grd := by
  unfold word0
  refine BitVec.eq_of_getLsbD_eq fun i hi => ?_
  simp only [BitVec.getLsbD_extractLsb', BitVec.getLsbD_append]
  have e : 3 + i - 2 - 1 = i := by omega
  simp [hi, e, show ¬ (3 + i < 2) by omega, show ¬ (3 + i - 2 < 1) by omega]

theorem word0_sw (h : Hdr) (opc len : Nat) (top : BitVec 18) : bitAt (word0 h opc len top) 2 = h.sw := by
  unfold word0 bitAt
  simp only [BitVec.getLsbD_append]
  simp

theorem word0_top (h : Hdr) (opc len : Nat) (top : BitVec 18) (lo n : Nat) (hn : lo + n ≤ 18) :
    (word0 h opc len top).extractLsb' (14 + lo) n = top.extractLsb' lo n := by
  unfold word0
  refine BitVec.eq_of_getLsbD_eq fun i hi => ?_
  simp only [BitVec.getLsbD_extractLsb', BitVec.getLsbD_append]
  have e : 14 + lo + i - 2 - 1 - 4 - 7 = lo + i := by omega
  simp [hi, e, show ¬ (14 + lo + i < 2) by omega, show ¬ (14 + lo + i - 2 < 1) by omega, show ¬ (14 + lo + i - 2 - 1 < 4) by omega, show ¬ (14 + lo + i - 2 - 1 - 4 < 7) by omega]

theorem word0_bit (h : Hdr) (opc len : Nat) (top : BitVec 18) : bitAt (word0 h opc len top) 31 = bitAt top 17 := by
  unfold word0 bitAt
  simp only [BitVec.getLsbD_append]
  simp

theorem topBits (h : Hdr) (opc len : Nat) (top : BitVec 18) (lo n : Nat) (hn : lo + n ≤ 18) :
    bitsAt (word0 h opc len top) (14 + lo) n = bitsAt top lo n := by
  rw [bitsAt_extract, bitsAt_extract, word0_top _ _ _ _ _ _ hn]

theorem append3 {a b c : Nat} (x : BitVec a) (y : BitVec b) (z : BitVec c) :
    (x ++ y ++ z).extractLsb' 0 c = z ∧ (x ++ y ++ z).extractLsb' c b = y ∧ (x ++ y ++ z).extractLsb' (c + b) a = x := by
  refine ⟨?_, ?_, ?_⟩ <;> refine BitVec.eq_of_getLsbD_eq fun i hi => ?_ <;>
    simp only [BitVec.getLsbD_extractLsb', BitVec.getLsbD_append]
  · simp [hi]
  · have : c + i - c = i := by omega
    simp [hi, this]
  · have : c + b + i - c - b = i := by omega
    simp [hi, this, show ¬ (c + b + i < c) by omega, show ¬ (c + b + i - c < b) by omega]

theorem append4 {a b c d : Nat} (x : BitVec a) (y : BitVec b) (z : BitVec c) (w : BitVec d) :
    (x ++ y ++ z ++ w).extractLsb' 0 d = w ∧ (x ++ y ++ z ++ w).extractLsb' d c = z ∧ (x ++ y ++ z ++ w).extractLsb' (d + c) b = y
      ∧ (x ++ y ++ z ++ w).extractLsb' (d + c + b) a = x := by
  refine ⟨?_, ?_, ?_, ?_⟩ <;> refine BitVec.eq_of_getLsbD_eq fun i hi => ?_ <;>
    simp only [BitVec.getLsbD_extractLsb', BitVec.getLsbD_append]
  · simp [hi]
  · have : d + i - d = i := by omega
    simp [hi, this]
  · have : d + c + i - d - c = i := by omega
    simp [hi, this, show ¬ (d + c + i < d) by omega, show ¬ (d + c + i - d < c) by omega]
  · have : d + c + b + i - d - c - b = i := by omega
    simp [hi, this, show ¬ (d + c + b + i < d) by omega, show ¬ (d + c + b + i - d < c) by omega, show ¬ (d + c + b + i - d - c < b) by omega]

theorem pair_lo_hi (x : DWord) : pair (lo32 x) (hi32 x) = x := by
  unfold pair lo32 hi32
  refine BitVec.eq_of_getLsbD_eq fun i hi => ?_
  simp only [BitVec.getLsbD_append, BitVec.getLsbD_extractLsb']
  by_cases h : i < 32
  · simp [h]
  · have e : 32 + (i - 32) = i := by omega
    simp [h, e]; omega

/-- The length code of a form of more than one word. -/
def ExtLen.code : ExtLen → Nat
  | .x3 => 1
  | .lit3 => 2
  | .x5 => 3

theorem encodeExt_head (h : Hdr) (opc : Nat) (x : Ext) (rest : List Word) :
    ∃ top, (encodeExt h opc x ++ rest).getD 0 0 = word0 h opc x.len.code top ∧ (x.len ≠ .lit3 → top = 0)
      ∧ (x.len = .lit3 → top = (0 : BitVec 6) ++ x.a.setWidth 6 ++ x.d.setWidth 6) := by
  cases hl : x.len <;> simp [encodeExt, hl, ExtLen.code]

theorem extOf_encodeExt (h : Hdr) (opc : Nat) (x : Ext) (rest : List Word)
    (h3 : x.len = .x3 → x.lit = 0)
    (hlit : x.len = .lit3 → x.d.toNat < 64 ∧ x.a.toNat < 64 ∧ x.b = 0 ∧ x.c = 0 ∧ x.sub = 0 ∧ x.scope = 0 ∧ x.mod = 0) :
    extOf (encodeExt h opc x ++ rest) = x := by
  obtain ⟨len, d, a, b, c, sub, scope, mod, lit⟩ := x
  have w1 := append4 c b a d
  have w2 := append3 mod scope sub
  cases len with
  | x3 =>
    simp only [encodeExt, extOf, List.cons_append, List.getD_cons_zero, List.getD_cons_succ, word0_len _ _ 1 _ (by decide)]
    simp at h3
    simp only [Nat.zero_add, Nat.reduceAdd] at w1 w2
    simp [w1.1, w1.2.1, w1.2.2.1, w1.2.2.2, w2.1, w2.2.1, w2.2.2, h3]
  | x5 =>
    simp only [encodeExt, extOf, List.cons_append, List.getD_cons_zero, List.getD_cons_succ, word0_len _ _ 3 _ (by decide)]
    simp only [Nat.zero_add, Nat.reduceAdd] at w1 w2
    simp [w1.1, w1.2.1, w1.2.2.1, w1.2.2.2, w2.1, w2.2.1, w2.2.2, pair_lo_hi]
  | lit3 =>
    simp only [forall_const] at hlit
    obtain ⟨hd, ha, hb, hc, hs, hsc, hm⟩ := hlit
    subst hb hc hs hsc hm
    simp only [encodeExt, extOf, List.cons_append, List.getD_cons_zero, List.getD_cons_succ, word0_len _ _ 2 _ (by decide), if_true]
    have t0 := word0_top h opc 2 ((0 : BitVec 6) ++ a.setWidth 6 ++ d.setWidth 6) 0 6 (by decide)
    have t1 := word0_top h opc 2 ((0 : BitVec 6) ++ a.setWidth 6 ++ d.setWidth 6) 6 6 (by decide)
    have t := append3 (0 : BitVec 6) (a.setWidth 6) (d.setWidth 6)
    simp only [Nat.add_zero, Nat.reduceAdd] at t0 t1 t
    rw [t0, t1, t.1, t.2.1, pair_lo_hi]
    congr 1
    · refine BitVec.eq_of_toNat_eq ?_; simp at hd ⊢; omega
    · refine BitVec.eq_of_toNat_eq ?_; simp at ha ⊢; omega

theorem Entry.ok_lens {e : Entry} {x : Ext} (h : e.ok x = true) : x.len ∈ e.lens := by
  simp [Entry.ok] at h; exact h.1.1.1.1.1.1.1.1.1.1.1

theorem Entry.ok_subs {e : Entry} {x : Ext} (h : e.ok x = true) : x.sub.toNat ∈ e.subs := by
  simp [Entry.ok] at h; exact h.1.1.1.1.1.1.1.1.1.1.2

theorem Entry.ok_lit3 {e : Entry} {x : Ext} (h : e.ok x = true) (hl : x.len = .lit3) :
    x.d.toNat < 64 ∧ x.a.toNat < 64 ∧ x.b = 0 ∧ x.c = 0 ∧ x.sub = 0 ∧ x.scope = 0 ∧ x.mod = 0 := by
  have hb : x.b = 0 := by
    have : (e.kb x).ok x.b.toNat = true := by simp [Entry.ok] at h; exact h.1.1.1.1.1.1.1.2
    simp [Entry.kb, Ext.litB, hl, Kind.ok] at this; exact BitVec.eq_of_toNat_eq (by simpa using this)
  simp [Entry.ok] at h
  have := h.1.1.2
  simp [hl] at this
  simp only [and_assoc] at this
  exact ⟨this.1, this.2.1, hb, this.2.2.1, this.2.2.2.1, this.2.2.2.2.1, this.2.2.2.2.2⟩

theorem Entry.ok_x3 {e : Entry} {x : Ext} (h : e.ok x = true) (hl : x.len = .x3) : x.lit = 0 := by
  simp [Entry.ok] at h
  have := h.1.2
  simpa [hl] using this

theorem Entry.ok_extra {e : Entry} {x : Ext} (h : e.ok x = true) : e.extra = true := by
  simp [Entry.ok] at h; exact h.2

/-- A form of more than one word is decoded to what it encodes. -/
theorem decode_ext {i : Instr} {h : Hdr} {opc : Nat} {e : Entry} {x : Ext} (he : e.ok x = true) (hw : i.wf = true) (hg : h.grd ≠ 15)
    (ho : opc < 128 ∧ opc ≠ 0x7F ∧ litInstr opc h 0 = none) (hl : ∀ k ∈ e.lens, (lensOf opc).contains k.code = true)
    (hx : extInstr opc x.sub.toNat h x = some i) (rest : List Word) : decode (encodeExt h opc x ++ rest) = .ok i := by
  obtain ⟨top, h0, ht, ht'⟩ := encodeExt_head h opc x rest
  have hlen := hl _ (Entry.ok_lens he)
  have hc4 : x.len.code < 4 := by cases x.len <;> decide
  have hne : lensOf opc ≠ [] := by intro c; rw [c] at hlen; simp at hlen
  have hE := extOf_encodeExt h opc x rest (Entry.ok_x3 he) (Entry.ok_lit3 he)
  unfold decode
  simp only [h0, word0_len _ _ _ _ hc4, word0_opc _ _ _ _ ho.1, word0_grd, word0_sw, hE, hx, hw]
  have hc0 : x.len.code ≠ 0 := by cases x.len <;> decide
  have hcond : (if x.len.code = 2 then decide (bitsAt (word0 h opc x.len.code top) 26 6 = 0) else decide (bitsAt (word0 h opc x.len.code top) 14 18 = 0)) = true := by
    cases hl3 : x.len with
    | lit3 =>
      have := topBits h opc 2 top 12 6 (by decide)
      simp only [Nat.reduceAdd] at this
      simp only [ExtLen.code, if_true, this]
      rw [bitsAt_extract, ht' hl3]
      have t := (append3 (0 : BitVec 6) (x.a.setWidth 6) (x.d.setWidth 6)).2.2
      simp only [Nat.reduceAdd] at t; rw [t]; rfl
    | x3 =>
      have := topBits h opc 1 top 0 18 (by decide)
      simp only [Nat.add_zero] at this
      simp only [ExtLen.code, this]
      rw [ht (by simp [hl3])]; rfl
    | x5 =>
      have := topBits h opc 3 top 0 18 (by decide)
      simp only [Nat.add_zero] at this
      simp only [ExtLen.code, this]
      rw [ht (by simp [hl3])]; rfl
  have hmem : x.len.code ∈ lensOf opc := by simpa using hlen
  have hg' : ¬ h.grd = (15 : BitVec 4) := hg
  simp only [hne, if_false, hlen, Bool.not_true, Bool.false_or, decide_eq_true_eq, hg', ho.2.1, hc0, ho.2.2, Option.isSome_none, Bool.and_false, Bool.false_eq_true]
  simp only [Bool.and_true, if_true]
  split at hcond <;> simp_all

theorem decode_base {i : Instr} {h : Hdr} {opc : Nat} {f : BitVec 18} (hw : i.wf = true) (hg : h.grd ≠ 15)
    (ho : opc < 128 ∧ opc ≠ 0x7F) (hl : (lensOf opc).contains 0 = true)
    (hb : baseInstr opc h (word0 h opc 0 f) = some i) (rest : List Word) : decode ([word0 h opc 0 f] ++ rest) = .ok i := by
  have hne : lensOf opc ≠ [] := by intro c; rw [c] at hl; simp at hl
  have hg' : ¬ h.grd = (15 : BitVec 4) := hg
  unfold decode
  simp only [List.cons_append, List.getD_cons_zero, word0_len _ _ 0 _ (by decide), word0_opc _ _ _ _ ho.1, word0_grd, word0_sw, hb, hne, if_false, hl,
    Bool.not_true, Bool.false_or, decide_eq_true_eq, hg', ho.2, if_true, orIllegalEnc, hw]

theorem decode_lit {i : Instr} {h : Hdr} {opc : Nat} {t : DWord} (hw : i.wf = true) (hg : h.grd ≠ 15)
    (ho : opc < 128 ∧ opc ≠ 0x7F) (hl : (lensOf opc).contains 2 = true)
    (hb : ∀ u, litInstr opc h u = some (if u = t then i else (litInstr opc h u).getD i)) (rest : List Word) :
    decode ([word0 h opc 2 0, lo32 t, hi32 t] ++ rest) = .ok i := by
  have hne : lensOf opc ≠ [] := by intro c; rw [c] at hl; simp at hl
  have hg' : ¬ h.grd = (15 : BitVec 4) := hg
  have h18 := topBits h opc 2 0 0 18 (by decide)
  simp only [Nat.add_zero] at h18
  have hz : bitsAt (0 : BitVec 18) 0 18 = 0 := by decide
  have hs : (litInstr opc h 0).isSome = true := by rw [hb 0]; rfl
  have ht : litInstr opc h t = some i := by rw [hb t]; simp
  unfold decode
  simp only [List.cons_append, List.getD_cons_zero, List.getD_cons_succ, word0_len _ _ 2 _ (by decide), word0_opc _ _ _ _ ho.1, word0_grd, word0_sw, hne, if_false, hl,
    Bool.not_true, Bool.false_or, decide_eq_true_eq, hg', ho.2, h18, hz, pair_lo_hi, hs, ht, Bool.and_true]
  simp [orIllegalEnc, hw]

/-- `P` holds of every number of a list. -/
def forSubs (P : Nat → Prop) (l : List Nat) : Prop :=
  match l with
  | [] => True
  | k :: t => P k ∧ forSubs P t

theorem forSubs_mem {P : Nat → Prop} {l : List Nat} (h : forSubs P l) {k : Nat} (hk : k ∈ l) : P k := by
  induction l with
  | nil => simp at hk
  | cons a t ih =>
    rcases List.mem_cons.1 hk with rfl | hk
    · exact h.1
    · exact ih h.2 hk

theorem wf_entry {i : Instr} {e : Entry} {x : Ext} (he : i.entry = some (e, x)) (hw : i.wf = true) : e.ok x = true := by
  simp only [Instr.wf, he, Bool.and_eq_true] at hw; exact hw.1.1

theorem decode_entry {i : Instr} {h : Hdr} {opc : Nat} {e : Entry} {x : Ext} (he : i.entry = some (e, x)) (hw : i.wf = true)
    (hg : h.grd ≠ 15) (ho : opc < 128 ∧ opc ≠ 0x7F ∧ litInstr opc h 0 = none)
    (hl : (e.lens.all fun k => (lensOf opc).contains k.code) = true) (hs : forSubs (fun k => extInstr opc k h x = some i) e.subs)
    (rest : List Word) : decode (encodeExt h opc x ++ rest) = .ok i :=
  have hk := wf_entry he hw
  decode_ext hk hw hg ho (fun k m => List.all_eq_true.1 hl k m) (forSubs_mem (P := fun k => extInstr opc k h x = some i) hs (Entry.ok_subs hk)) rest

-- Fields of word 0 of a one-word form (R33).
section
variable (h : Hdr) (opc : Nat)

theorem base_off (off : BitVec 18) : (word0 h opc 0 off).extractLsb' 14 18 = off := by
  have := word0_top h opc 0 off 0 18 (by decide)
  simp only [Nat.add_zero] at this
  rw [this]; simp

theorem base_d (b a d : BitVec 6) : (word0 h opc 0 (b ++ a ++ d)).extractLsb' 14 6 = d := by
  have := word0_top h opc 0 (b ++ a ++ d) 0 6 (by decide)
  simp only [Nat.add_zero] at this
  rw [this]; exact (append3 b a d).1

theorem base_a (b a d : BitVec 6) : (word0 h opc 0 (b ++ a ++ d)).extractLsb' 20 6 = a := by
  have := word0_top h opc 0 (b ++ a ++ d) 6 6 (by decide)
  simp only [Nat.reduceAdd] at this
  rw [this]; exact (append3 b a d).2.1

theorem base_b (b a d : BitVec 6) : (word0 h opc 0 (b ++ a ++ d)).extractLsb' 26 6 = b := by
  have := word0_top h opc 0 (b ++ a ++ d) 12 6 (by decide)
  simp only [Nat.reduceAdd] at this
  rw [this]; exact (append3 b a d).2.2

theorem shift_fields (n : BitVec 5) (a d : BitVec 6) :
    (word0 h opc 0 ((0 : BitVec 1) ++ n ++ a ++ d)).extractLsb' 14 6 = d ∧ (word0 h opc 0 ((0 : BitVec 1) ++ n ++ a ++ d)).extractLsb' 20 6 = a
      ∧ (word0 h opc 0 ((0 : BitVec 1) ++ n ++ a ++ d)).extractLsb' 26 5 = n ∧ bitAt (word0 h opc 0 ((0 : BitVec 1) ++ n ++ a ++ d)) 31 = false := by
  have t := append4 (0 : BitVec 1) n a d
  have t0 := word0_top h opc 0 ((0 : BitVec 1) ++ n ++ a ++ d) 0 6 (by decide)
  have t1 := word0_top h opc 0 ((0 : BitVec 1) ++ n ++ a ++ d) 6 6 (by decide)
  have t2 := word0_top h opc 0 ((0 : BitVec 1) ++ n ++ a ++ d) 12 5 (by decide)
  simp only [Nat.reduceAdd, Nat.add_zero] at t t0 t1 t2
  refine ⟨t0.trans t.1, t1.trans t.2.1, t2.trans t.2.2.1, ?_⟩
  rw [word0_bit]; unfold bitAt; simp only [BitVec.getLsbD_append]; simp

theorem brk_fields (n : BitVec 5) :
    (word0 h opc 0 ((0 : BitVec 1) ++ n ++ (0 : BitVec 12))).extractLsb' 14 6 = 0 ∧ (word0 h opc 0 ((0 : BitVec 1) ++ n ++ (0 : BitVec 12))).extractLsb' 20 6 = 0
      ∧ (word0 h opc 0 ((0 : BitVec 1) ++ n ++ (0 : BitVec 12))).extractLsb' 26 5 = n ∧ bitAt (word0 h opc 0 ((0 : BitVec 1) ++ n ++ (0 : BitVec 12))) 31 = false := by
  have t := append3 (0 : BitVec 1) n (0 : BitVec 12)
  have t0 := word0_top h opc 0 ((0 : BitVec 1) ++ n ++ (0 : BitVec 12)) 0 6 (by decide)
  have t1 := word0_top h opc 0 ((0 : BitVec 1) ++ n ++ (0 : BitVec 12)) 6 6 (by decide)
  have t2 := word0_top h opc 0 ((0 : BitVec 1) ++ n ++ (0 : BitVec 12)) 12 5 (by decide)
  simp only [Nat.reduceAdd, Nat.add_zero] at t t0 t1 t2
  refine ⟨t0.trans ?_, t1.trans ?_, t2.trans t.2.1, ?_⟩
  · refine BitVec.eq_of_getLsbD_eq fun i hi => ?_
    have e := congrArg (fun v => v.getLsbD i) t.1
    simp only [BitVec.getLsbD_extractLsb', show i < 12 by omega, Nat.zero_add, decide_true, Bool.true_and] at e
    simp only [BitVec.getLsbD_extractLsb', Nat.zero_add, e]; simp
  · refine BitVec.eq_of_getLsbD_eq fun i hi => ?_
    have e := congrArg (fun v => v.getLsbD (6 + i)) t.1
    simp only [BitVec.getLsbD_extractLsb', show 6 + i < 12 by omega, Nat.zero_add, decide_true, Bool.true_and] at e
    simp only [BitVec.getLsbD_extractLsb', e]; simp
  · rw [word0_bit]; unfold bitAt; simp only [BitVec.getLsbD_append]; simp
end

namespace Laws

/-- Decoding the words of a well-formed instruction, whatever words follow them, gives the instruction back; the guard 15 is
no guard (R31), and a device step has no words. -/
def RoundTrip.Statement (i : Instr) : Prop :=
  i.wf = true → i.hdr.grd ≠ 15 → encode i ≠ [] → ∀ rest, decode (encode i ++ rest) = .ok i


theorem RoundTrip.nop (h : Hdr) : Statement (.nop h) := by
  intro hw hg _ rest
  refine decode_base (i := .nop h) (h := h) (opc := 0x00) (f := 0) hw hg ⟨by decide, by decide⟩ rfl ?_ rest
  simp only [baseInstr, base_off, if_true]

theorem RoundTrip.bra (h : Hdr) (off : BitVec 18) : Statement (.bra h off) := by
  intro hw hg _ rest
  refine decode_base (i := .bra h off) (h := h) (opc := 0x01) (f := off) hw hg ⟨by decide, by decide⟩ rfl ?_ rest
  simp only [baseInstr, base_off]

theorem RoundTrip.braLit (h : Hdr) (t : DWord) : Statement (.braLit h t) := fun hw hg _ rest =>
  decode_lit (i := .braLit h t) (h := h) (opc := 0x01) hw hg ⟨by decide, by decide⟩ rfl (fun u => by by_cases e : u = t <;> simp [litInstr, e]) rest

theorem RoundTrip.bru (h : Hdr) (off : BitVec 18) : Statement (.bru h off) := by
  intro hw hg _ rest
  refine decode_base (i := .bru h off) (h := h) (opc := 0x02) (f := off) hw hg ⟨by decide, by decide⟩ rfl ?_ rest
  simp only [baseInstr, base_off]

theorem RoundTrip.bruLit (h : Hdr) (t : DWord) : Statement (.bruLit h t) := fun hw hg _ rest =>
  decode_lit (i := .bruLit h t) (h := h) (opc := 0x02) hw hg ⟨by decide, by decide⟩ rfl (fun u => by by_cases e : u = t <;> simp [litInstr, e]) rest

theorem RoundTrip.call (h : Hdr) (off : BitVec 18) : Statement (.call h off) := by
  intro hw hg _ rest
  refine decode_base (i := .call h off) (h := h) (opc := 0x04) (f := off) hw hg ⟨by decide, by decide⟩ rfl ?_ rest
  simp only [baseInstr, base_off]

theorem RoundTrip.callLit (h : Hdr) (t : DWord) : Statement (.callLit h t) := fun hw hg _ rest =>
  decode_lit (i := .callLit h t) (h := h) (opc := 0x04) hw hg ⟨by decide, by decide⟩ rfl (fun u => by by_cases e : u = t <;> simp [litInstr, e]) rest

theorem RoundTrip.brx (h : Hdr) (a : BitVec 6) : Statement (.brx h a) := by
  intro hw hg _ rest
  refine decode_base (i := .brx h a) (h := h) (opc := 0x03) (f := (0 : BitVec 6) ++ a ++ (0 : BitVec 6)) hw hg ⟨by decide, by decide⟩ rfl ?_ rest
  simp [baseInstr, base_d, base_a, base_b]

theorem RoundTrip.callx (h : Hdr) (a : BitVec 6) : Statement (.callx h a) := by
  intro hw hg _ rest
  refine decode_base (i := .callx h a) (h := h) (opc := 0x05) (f := (0 : BitVec 6) ++ a ++ (0 : BitVec 6)) hw hg ⟨by decide, by decide⟩ rfl ?_ rest
  simp [baseInstr, base_d, base_a, base_b]

theorem RoundTrip.ret (h : Hdr) : Statement (.ret h) := by
  intro hw hg _ rest
  refine decode_base (i := .ret h) (h := h) (opc := 0x06) (f := 0) hw hg ⟨by decide, by decide⟩ rfl ?_ rest
  simp only [baseInstr, base_off, if_true]

theorem RoundTrip.exitItem (h : Hdr) : Statement (.exitItem h) := by
  intro hw hg _ rest
  refine decode_base (i := .exitItem h) (h := h) (opc := 0x07) (f := 0) hw hg ⟨by decide, by decide⟩ rfl ?_ rest
  simp only [baseInstr, base_off, if_true]

theorem RoundTrip.yield (h : Hdr) : Statement (.yield h) := by
  intro hw hg _ rest
  refine decode_base (i := .yield h) (h := h) (opc := 0x08) (f := 0) hw hg ⟨by decide, by decide⟩ rfl ?_ rest
  simp only [baseInstr, base_off, if_true]

theorem RoundTrip.brk (h : Hdr) (n : BitVec 5) : Statement (.brk h n) := by
  intro hw hg _ rest
  refine decode_base (i := .brk h n) (h := h) (opc := 0x09) (f := (0 : BitVec 1) ++ n ++ (0 : BitVec 12)) hw hg ⟨by decide, by decide⟩ rfl ?_ rest
  have f := brk_fields h 0x09 n
  simp only [baseInstr, f.1, f.2.1, f.2.2.1, f.2.2.2, Bool.not_false, and_self, if_true]

theorem RoundTrip.rgn (h : Hdr) : Statement (.rgn h) := by
  intro hw hg _ rest
  refine decode_base (i := .rgn h) (h := h) (opc := 0x0A) (f := 0) hw hg ⟨by decide, by decide⟩ rfl ?_ rest
  simp only [baseInstr, base_off, if_true]

theorem RoundTrip.plop (h : Hdr) (x : Ext) : Statement (.plop h x) := fun hw hg _ rest =>
  decode_entry (i := .plop h x) (h := h) (opc := 0x0B) rfl hw hg ⟨by decide, by decide, rfl⟩ rfl ⟨rfl, trivial⟩ rest

theorem RoundTrip.jset (h : Hdr) (x : Ext) : Statement (.jset h x) := fun hw hg _ rest =>
  decode_entry (i := .jset h x) (h := h) (opc := 0x0C) rfl hw hg ⟨by decide, by decide, rfl⟩ rfl ⟨rfl, trivial⟩ rest

theorem RoundTrip.jarr (h : Hdr) (x : Ext) : Statement (.jarr h x) := fun hw hg _ rest =>
  decode_entry (i := .jarr h x) (h := h) (opc := 0x0C) rfl hw hg ⟨by decide, by decide, rfl⟩ rfl ⟨rfl, trivial⟩ rest

theorem RoundTrip.jwait (h : Hdr) (x : Ext) : Statement (.jwait h x) := fun hw hg _ rest =>
  decode_entry (i := .jwait h x) (h := h) (opc := 0x0C) rfl hw hg ⟨by decide, by decide, rfl⟩ rfl ⟨rfl, trivial⟩ rest

theorem RoundTrip.joinAt (h : Hdr) (x : Ext) : Statement (.joinAt h x) := fun hw hg _ rest =>
  decode_entry (i := .joinAt h x) (h := h) (opc := 0x0C) rfl hw hg ⟨by decide, by decide, rfl⟩ rfl ⟨rfl, trivial⟩ rest

theorem RoundTrip.jget (h : Hdr) (x : Ext) : Statement (.jget h x) := fun hw hg _ rest =>
  decode_entry (i := .jget h x) (h := h) (opc := 0x0C) rfl hw hg ⟨by decide, by decide, rfl⟩ rfl ⟨rfl, trivial⟩ rest

theorem RoundTrip.voteAny (h : Hdr) (x : Ext) : Statement (.voteAny h x) := fun hw hg _ rest =>
  decode_entry (i := .voteAny h x) (h := h) (opc := 0x0D) rfl hw hg ⟨by decide, by decide, rfl⟩ rfl ⟨rfl, trivial⟩ rest

theorem RoundTrip.voteAll (h : Hdr) (x : Ext) : Statement (.voteAll h x) := fun hw hg _ rest =>
  decode_entry (i := .voteAll h x) (h := h) (opc := 0x0D) rfl hw hg ⟨by decide, by decide, rfl⟩ rfl ⟨rfl, trivial⟩ rest

theorem RoundTrip.voteUni (h : Hdr) (x : Ext) : Statement (.voteUni h x) := fun hw hg _ rest =>
  decode_entry (i := .voteUni h x) (h := h) (opc := 0x0D) rfl hw hg ⟨by decide, by decide, rfl⟩ rfl ⟨rfl, trivial⟩ rest

theorem RoundTrip.voteBal (h : Hdr) (x : Ext) : Statement (.voteBal h x) := fun hw hg _ rest =>
  decode_entry (i := .voteBal h x) (h := h) (opc := 0x0D) rfl hw hg ⟨by decide, by decide, rfl⟩ rfl ⟨rfl, trivial⟩ rest

theorem RoundTrip.shflIdx (h : Hdr) (x : Ext) : Statement (.shflIdx h x) := fun hw hg _ rest =>
  decode_entry (i := .shflIdx h x) (h := h) (opc := 0x0D) rfl hw hg ⟨by decide, by decide, rfl⟩ rfl ⟨rfl, trivial⟩ rest

theorem RoundTrip.shflUp (h : Hdr) (x : Ext) : Statement (.shflUp h x) := fun hw hg _ rest =>
  decode_entry (i := .shflUp h x) (h := h) (opc := 0x0D) rfl hw hg ⟨by decide, by decide, rfl⟩ rfl ⟨rfl, trivial⟩ rest

theorem RoundTrip.shflDown (h : Hdr) (x : Ext) : Statement (.shflDown h x) := fun hw hg _ rest =>
  decode_entry (i := .shflDown h x) (h := h) (opc := 0x0D) rfl hw hg ⟨by decide, by decide, rfl⟩ rfl ⟨rfl, trivial⟩ rest

theorem RoundTrip.shflXor (h : Hdr) (x : Ext) : Statement (.shflXor h x) := fun hw hg _ rest =>
  decode_entry (i := .shflXor h x) (h := h) (opc := 0x0D) rfl hw hg ⟨by decide, by decide, rfl⟩ rfl ⟨rfl, trivial⟩ rest

theorem RoundTrip.matchEq (h : Hdr) (x : Ext) : Statement (.matchEq h x) := fun hw hg _ rest =>
  decode_entry (i := .matchEq h x) (h := h) (opc := 0x0D) rfl hw hg ⟨by decide, by decide, rfl⟩ rfl ⟨rfl, trivial⟩ rest

theorem RoundTrip.redux (h : Hdr) (x : Ext) : Statement (.redux h x) := fun hw hg _ rest =>
  decode_entry (i := .redux h x) (h := h) (opc := 0x0D) rfl hw hg ⟨by decide, by decide, rfl⟩ rfl ⟨rfl, trivial⟩ rest

theorem RoundTrip.iadd (h : Hdr) (d a b : BitVec 6) : Statement (.iadd h d a b) := by
  intro hw hg _ rest
  refine decode_base (i := .iadd h d a b) (h := h) (opc := 0x10) (f := b ++ a ++ d) hw hg ⟨by decide, by decide⟩ rfl ?_ rest
  simp [baseInstr, base_d, base_a, base_b]

theorem RoundTrip.iaddExt (h : Hdr) (x : Ext) : Statement (.iaddExt h x) := fun hw hg _ rest =>
  decode_entry (i := .iaddExt h x) (h := h) (opc := 0x10) rfl hw hg ⟨by decide, by decide, rfl⟩ rfl ⟨rfl, trivial⟩ rest

theorem RoundTrip.isub (h : Hdr) (d a b : BitVec 6) : Statement (.isub h d a b) := by
  intro hw hg _ rest
  refine decode_base (i := .isub h d a b) (h := h) (opc := 0x11) (f := b ++ a ++ d) hw hg ⟨by decide, by decide⟩ rfl ?_ rest
  simp [baseInstr, base_d, base_a, base_b]

theorem RoundTrip.isubExt (h : Hdr) (x : Ext) : Statement (.isubExt h x) := fun hw hg _ rest =>
  decode_entry (i := .isubExt h x) (h := h) (opc := 0x11) rfl hw hg ⟨by decide, by decide, rfl⟩ rfl ⟨rfl, trivial⟩ rest

theorem RoundTrip.iaddc (h : Hdr) (x : Ext) : Statement (.iaddc h x) := fun hw hg _ rest =>
  decode_entry (i := .iaddc h x) (h := h) (opc := 0x12) rfl hw hg ⟨by decide, by decide, rfl⟩ rfl ⟨rfl, trivial⟩ rest

theorem RoundTrip.imul (h : Hdr) (d a b : BitVec 6) : Statement (.imul h d a b) := by
  intro hw hg _ rest
  refine decode_base (i := .imul h d a b) (h := h) (opc := 0x13) (f := b ++ a ++ d) hw hg ⟨by decide, by decide⟩ rfl ?_ rest
  simp [baseInstr, base_d, base_a, base_b]

theorem RoundTrip.imulExt (h : Hdr) (x : Ext) : Statement (.imulExt h x) := fun hw hg _ rest =>
  decode_entry (i := .imulExt h x) (h := h) (opc := 0x13) rfl hw hg ⟨by decide, by decide, rfl⟩ rfl ⟨rfl, trivial⟩ rest

theorem RoundTrip.imulh (h : Hdr) (d a b : BitVec 6) : Statement (.imulh h d a b) := by
  intro hw hg _ rest
  refine decode_base (i := .imulh h d a b) (h := h) (opc := 0x14) (f := b ++ a ++ d) hw hg ⟨by decide, by decide⟩ rfl ?_ rest
  simp [baseInstr, base_d, base_a, base_b]

theorem RoundTrip.imulhExt (h : Hdr) (x : Ext) : Statement (.imulhExt h x) := fun hw hg _ rest =>
  decode_entry (i := .imulhExt h x) (h := h) (opc := 0x14) rfl hw hg ⟨by decide, by decide, rfl⟩ rfl ⟨rfl, trivial⟩ rest

theorem RoundTrip.imad (h : Hdr) (x : Ext) : Statement (.imad h x) := fun hw hg _ rest =>
  decode_entry (i := .imad h x) (h := h) (opc := 0x15) rfl hw hg ⟨by decide, by decide, rfl⟩ rfl ⟨rfl, trivial⟩ rest

theorem RoundTrip.imadw (h : Hdr) (x : Ext) : Statement (.imadw h x) := fun hw hg _ rest =>
  decode_entry (i := .imadw h x) (h := h) (opc := 0x16) rfl hw hg ⟨by decide, by decide, rfl⟩ rfl ⟨rfl, trivial⟩ rest

theorem RoundTrip.imin (h : Hdr) (d a b : BitVec 6) : Statement (.imin h d a b) := by
  intro hw hg _ rest
  refine decode_base (i := .imin h d a b) (h := h) (opc := 0x17) (f := b ++ a ++ d) hw hg ⟨by decide, by decide⟩ rfl ?_ rest
  simp [baseInstr, base_d, base_a, base_b]

theorem RoundTrip.iminExt (h : Hdr) (x : Ext) : Statement (.iminExt h x) := fun hw hg _ rest =>
  decode_entry (i := .iminExt h x) (h := h) (opc := 0x17) rfl hw hg ⟨by decide, by decide, rfl⟩ rfl ⟨rfl, trivial⟩ rest

theorem RoundTrip.imax (h : Hdr) (d a b : BitVec 6) : Statement (.imax h d a b) := by
  intro hw hg _ rest
  refine decode_base (i := .imax h d a b) (h := h) (opc := 0x18) (f := b ++ a ++ d) hw hg ⟨by decide, by decide⟩ rfl ?_ rest
  simp [baseInstr, base_d, base_a, base_b]

theorem RoundTrip.imaxExt (h : Hdr) (x : Ext) : Statement (.imaxExt h x) := fun hw hg _ rest =>
  decode_entry (i := .imaxExt h x) (h := h) (opc := 0x18) rfl hw hg ⟨by decide, by decide, rfl⟩ rfl ⟨rfl, trivial⟩ rest

theorem RoundTrip.iabs (h : Hdr) (d a : BitVec 6) : Statement (.iabs h d a) := by
  intro hw hg _ rest
  refine decode_base (i := .iabs h d a) (h := h) (opc := 0x19) (f := (0 : BitVec 6) ++ a ++ d) hw hg ⟨by decide, by decide⟩ rfl ?_ rest
  simp [baseInstr, base_d, base_a, base_b]

theorem RoundTrip.iabsExt (h : Hdr) (x : Ext) : Statement (.iabsExt h x) := fun hw hg _ rest =>
  decode_entry (i := .iabsExt h x) (h := h) (opc := 0x19) rfl hw hg ⟨by decide, by decide, rfl⟩ rfl ⟨rfl, trivial⟩ rest

theorem RoundTrip.ineg (h : Hdr) (d a : BitVec 6) : Statement (.ineg h d a) := by
  intro hw hg _ rest
  refine decode_base (i := .ineg h d a) (h := h) (opc := 0x1A) (f := (0 : BitVec 6) ++ a ++ d) hw hg ⟨by decide, by decide⟩ rfl ?_ rest
  simp [baseInstr, base_d, base_a, base_b]

theorem RoundTrip.inegExt (h : Hdr) (x : Ext) : Statement (.inegExt h x) := fun hw hg _ rest =>
  decode_entry (i := .inegExt h x) (h := h) (opc := 0x1A) rfl hw hg ⟨by decide, by decide, rfl⟩ rfl ⟨rfl, trivial⟩ rest

theorem RoundTrip.andBase (h : Hdr) (d a b : BitVec 6) : Statement (.andBase h d a b) := by
  intro hw hg _ rest
  refine decode_base (i := .andBase h d a b) (h := h) (opc := 0x1B) (f := b ++ a ++ d) hw hg ⟨by decide, by decide⟩ rfl ?_ rest
  simp [baseInstr, base_d, base_a, base_b]

theorem RoundTrip.andExt (h : Hdr) (x : Ext) : Statement (.andExt h x) := fun hw hg _ rest =>
  decode_entry (i := .andExt h x) (h := h) (opc := 0x1B) rfl hw hg ⟨by decide, by decide, rfl⟩ rfl ⟨rfl, trivial⟩ rest

theorem RoundTrip.orBase (h : Hdr) (d a b : BitVec 6) : Statement (.orBase h d a b) := by
  intro hw hg _ rest
  refine decode_base (i := .orBase h d a b) (h := h) (opc := 0x1C) (f := b ++ a ++ d) hw hg ⟨by decide, by decide⟩ rfl ?_ rest
  simp [baseInstr, base_d, base_a, base_b]

theorem RoundTrip.orExt (h : Hdr) (x : Ext) : Statement (.orExt h x) := fun hw hg _ rest =>
  decode_entry (i := .orExt h x) (h := h) (opc := 0x1C) rfl hw hg ⟨by decide, by decide, rfl⟩ rfl ⟨rfl, trivial⟩ rest

theorem RoundTrip.xorBase (h : Hdr) (d a b : BitVec 6) : Statement (.xorBase h d a b) := by
  intro hw hg _ rest
  refine decode_base (i := .xorBase h d a b) (h := h) (opc := 0x1D) (f := b ++ a ++ d) hw hg ⟨by decide, by decide⟩ rfl ?_ rest
  simp [baseInstr, base_d, base_a, base_b]

theorem RoundTrip.xorExt (h : Hdr) (x : Ext) : Statement (.xorExt h x) := fun hw hg _ rest =>
  decode_entry (i := .xorExt h x) (h := h) (opc := 0x1D) rfl hw hg ⟨by decide, by decide, rfl⟩ rfl ⟨rfl, trivial⟩ rest

theorem RoundTrip.notBase (h : Hdr) (d a : BitVec 6) : Statement (.notBase h d a) := by
  intro hw hg _ rest
  refine decode_base (i := .notBase h d a) (h := h) (opc := 0x1E) (f := (0 : BitVec 6) ++ a ++ d) hw hg ⟨by decide, by decide⟩ rfl ?_ rest
  simp [baseInstr, base_d, base_a, base_b]

theorem RoundTrip.notExt (h : Hdr) (x : Ext) : Statement (.notExt h x) := fun hw hg _ rest =>
  decode_entry (i := .notExt h x) (h := h) (opc := 0x1E) rfl hw hg ⟨by decide, by decide, rfl⟩ rfl ⟨rfl, trivial⟩ rest

theorem RoundTrip.lop3 (h : Hdr) (x : Ext) : Statement (.lop3 h x) := fun hw hg _ rest =>
  decode_entry (i := .lop3 h x) (h := h) (opc := 0x1F) rfl hw hg ⟨by decide, by decide, rfl⟩ rfl ⟨rfl, trivial⟩ rest

theorem RoundTrip.shl (h : Hdr) (d a : BitVec 6) (n : BitVec 5) : Statement (.shl h d a n) := by
  intro hw hg _ rest
  refine decode_base (i := .shl h d a n) (h := h) (opc := 0x20) (f := (0 : BitVec 1) ++ n ++ a ++ d) hw hg ⟨by decide, by decide⟩ rfl ?_ rest
  have f := shift_fields h 0x20 n a d
  simp only [baseInstr, f.1, f.2.1, f.2.2.1, f.2.2.2, Bool.false_eq_true, if_false]

theorem RoundTrip.shlExt (h : Hdr) (x : Ext) : Statement (.shlExt h x) := fun hw hg _ rest =>
  decode_entry (i := .shlExt h x) (h := h) (opc := 0x20) rfl hw hg ⟨by decide, by decide, rfl⟩ rfl ⟨rfl, rfl, trivial⟩ rest

theorem RoundTrip.shr (h : Hdr) (d a : BitVec 6) (n : BitVec 5) : Statement (.shr h d a n) := by
  intro hw hg _ rest
  refine decode_base (i := .shr h d a n) (h := h) (opc := 0x21) (f := (0 : BitVec 1) ++ n ++ a ++ d) hw hg ⟨by decide, by decide⟩ rfl ?_ rest
  have f := shift_fields h 0x21 n a d
  simp only [baseInstr, f.1, f.2.1, f.2.2.1, f.2.2.2, Bool.false_eq_true, if_false]

theorem RoundTrip.shrExt (h : Hdr) (x : Ext) : Statement (.shrExt h x) := fun hw hg _ rest =>
  decode_entry (i := .shrExt h x) (h := h) (opc := 0x21) rfl hw hg ⟨by decide, by decide, rfl⟩ rfl ⟨rfl, rfl, trivial⟩ rest

theorem RoundTrip.sar (h : Hdr) (d a : BitVec 6) (n : BitVec 5) : Statement (.sar h d a n) := by
  intro hw hg _ rest
  refine decode_base (i := .sar h d a n) (h := h) (opc := 0x22) (f := (0 : BitVec 1) ++ n ++ a ++ d) hw hg ⟨by decide, by decide⟩ rfl ?_ rest
  have f := shift_fields h 0x22 n a d
  simp only [baseInstr, f.1, f.2.1, f.2.2.1, f.2.2.2, Bool.false_eq_true, if_false]

theorem RoundTrip.sarExt (h : Hdr) (x : Ext) : Statement (.sarExt h x) := fun hw hg _ rest =>
  decode_entry (i := .sarExt h x) (h := h) (opc := 0x22) rfl hw hg ⟨by decide, by decide, rfl⟩ rfl ⟨rfl, rfl, trivial⟩ rest

theorem RoundTrip.rot (h : Hdr) (d a : BitVec 6) (n : BitVec 5) : Statement (.rot h d a n) := by
  intro hw hg _ rest
  refine decode_base (i := .rot h d a n) (h := h) (opc := 0x24) (f := (0 : BitVec 1) ++ n ++ a ++ d) hw hg ⟨by decide, by decide⟩ rfl ?_ rest
  have f := shift_fields h 0x24 n a d
  simp only [baseInstr, f.1, f.2.1, f.2.2.1, f.2.2.2, Bool.false_eq_true, if_false]

theorem RoundTrip.rotExt (h : Hdr) (x : Ext) : Statement (.rotExt h x) := fun hw hg _ rest =>
  decode_entry (i := .rotExt h x) (h := h) (opc := 0x24) rfl hw hg ⟨by decide, by decide, rfl⟩ rfl ⟨rfl, rfl, trivial⟩ rest

theorem RoundTrip.shf (h : Hdr) (x : Ext) : Statement (.shf h x) := fun hw hg _ rest =>
  decode_entry (i := .shf h x) (h := h) (opc := 0x23) rfl hw hg ⟨by decide, by decide, rfl⟩ rfl ⟨rfl, trivial⟩ rest

theorem RoundTrip.popc (h : Hdr) (d a : BitVec 6) : Statement (.popc h d a) := by
  intro hw hg _ rest
  refine decode_base (i := .popc h d a) (h := h) (opc := 0x25) (f := (0 : BitVec 6) ++ a ++ d) hw hg ⟨by decide, by decide⟩ rfl ?_ rest
  simp [baseInstr, base_d, base_a, base_b]

theorem RoundTrip.popcExt (h : Hdr) (x : Ext) : Statement (.popcExt h x) := fun hw hg _ rest =>
  decode_entry (i := .popcExt h x) (h := h) (opc := 0x25) rfl hw hg ⟨by decide, by decide, rfl⟩ rfl ⟨rfl, trivial⟩ rest

theorem RoundTrip.clz (h : Hdr) (d a : BitVec 6) : Statement (.clz h d a) := by
  intro hw hg _ rest
  refine decode_base (i := .clz h d a) (h := h) (opc := 0x26) (f := (0 : BitVec 6) ++ a ++ d) hw hg ⟨by decide, by decide⟩ rfl ?_ rest
  simp [baseInstr, base_d, base_a, base_b]

theorem RoundTrip.clzExt (h : Hdr) (x : Ext) : Statement (.clzExt h x) := fun hw hg _ rest =>
  decode_entry (i := .clzExt h x) (h := h) (opc := 0x26) rfl hw hg ⟨by decide, by decide, rfl⟩ rfl ⟨rfl, trivial⟩ rest

theorem RoundTrip.brev (h : Hdr) (d a : BitVec 6) : Statement (.brev h d a) := by
  intro hw hg _ rest
  refine decode_base (i := .brev h d a) (h := h) (opc := 0x27) (f := (0 : BitVec 6) ++ a ++ d) hw hg ⟨by decide, by decide⟩ rfl ?_ rest
  simp [baseInstr, base_d, base_a, base_b]

theorem RoundTrip.brevExt (h : Hdr) (x : Ext) : Statement (.brevExt h x) := fun hw hg _ rest =>
  decode_entry (i := .brevExt h x) (h := h) (opc := 0x27) rfl hw hg ⟨by decide, by decide, rfl⟩ rfl ⟨rfl, trivial⟩ rest

theorem RoundTrip.bfe (h : Hdr) (x : Ext) : Statement (.bfe h x) := fun hw hg _ rest =>
  decode_entry (i := .bfe h x) (h := h) (opc := 0x28) rfl hw hg ⟨by decide, by decide, rfl⟩ rfl ⟨rfl, trivial⟩ rest

theorem RoundTrip.bfi (h : Hdr) (x : Ext) : Statement (.bfi h x) := fun hw hg _ rest =>
  decode_entry (i := .bfi h x) (h := h) (opc := 0x29) rfl hw hg ⟨by decide, by decide, rfl⟩ rfl ⟨rfl, trivial⟩ rest

theorem RoundTrip.icmp (h : Hdr) (x : Ext) : Statement (.icmp h x) := fun hw hg _ rest =>
  decode_entry (i := .icmp h x) (h := h) (opc := 0x2A) rfl hw hg ⟨by decide, by decide, rfl⟩ rfl ⟨rfl, trivial⟩ rest

theorem RoundTrip.isel (h : Hdr) (x : Ext) : Statement (.isel h x) := fun hw hg _ rest =>
  decode_entry (i := .isel h x) (h := h) (opc := 0x2B) rfl hw hg ⟨by decide, by decide, rfl⟩ rfl ⟨rfl, trivial⟩ rest

theorem RoundTrip.mov (h : Hdr) (d a : BitVec 6) : Statement (.mov h d a) := by
  intro hw hg _ rest
  refine decode_base (i := .mov h d a) (h := h) (opc := 0x2C) (f := (0 : BitVec 6) ++ a ++ d) hw hg ⟨by decide, by decide⟩ rfl ?_ rest
  simp [baseInstr, base_d, base_a, base_b]

theorem RoundTrip.movExt (h : Hdr) (x : Ext) : Statement (.movExt h x) := fun hw hg _ rest =>
  decode_entry (i := .movExt h x) (h := h) (opc := 0x2C) rfl hw hg ⟨by decide, by decide, rfl⟩ rfl ⟨rfl, trivial⟩ rest

theorem RoundTrip.movi (h : Hdr) (x : Ext) : Statement (.movi h x) := fun hw hg _ rest =>
  decode_entry (i := .movi h x) (h := h) (opc := 0x2D) rfl hw hg ⟨by decide, by decide, rfl⟩ rfl ⟨rfl, trivial⟩ rest

theorem RoundTrip.lea (h : Hdr) (x : Ext) : Statement (.lea h x) := fun hw hg _ rest =>
  decode_entry (i := .lea h x) (h := h) (opc := 0x2E) rfl hw hg ⟨by decide, by decide, rfl⟩ rfl ⟨rfl, trivial⟩ rest

theorem RoundTrip.iadd64 (h : Hdr) (d a b : BitVec 6) : Statement (.iadd64 h d a b) := by
  intro hw hg _ rest
  refine decode_base (i := .iadd64 h d a b) (h := h) (opc := 0x2F) (f := b ++ a ++ d) hw hg ⟨by decide, by decide⟩ rfl ?_ rest
  simp [baseInstr, base_d, base_a, base_b]

theorem RoundTrip.iadd64Ext (h : Hdr) (x : Ext) : Statement (.iadd64Ext h x) := fun hw hg _ rest =>
  decode_entry (i := .iadd64Ext h x) (h := h) (opc := 0x2F) rfl hw hg ⟨by decide, by decide, rfl⟩ rfl ⟨rfl, trivial⟩ rest

theorem RoundTrip.fadd (h : Hdr) (d a b : BitVec 6) : Statement (.fadd h d a b) := by
  intro hw hg _ rest
  refine decode_base (i := .fadd h d a b) (h := h) (opc := 0x30) (f := b ++ a ++ d) hw hg ⟨by decide, by decide⟩ rfl ?_ rest
  simp [baseInstr, base_d, base_a, base_b]

theorem RoundTrip.faddExt (h : Hdr) (x : Ext) : Statement (.faddExt h x) := fun hw hg _ rest =>
  decode_entry (i := .faddExt h x) (h := h) (opc := 0x30) rfl hw hg ⟨by decide, by decide, rfl⟩ rfl ⟨rfl, trivial⟩ rest

theorem RoundTrip.fmul (h : Hdr) (d a b : BitVec 6) : Statement (.fmul h d a b) := by
  intro hw hg _ rest
  refine decode_base (i := .fmul h d a b) (h := h) (opc := 0x31) (f := b ++ a ++ d) hw hg ⟨by decide, by decide⟩ rfl ?_ rest
  simp [baseInstr, base_d, base_a, base_b]

theorem RoundTrip.fmulExt (h : Hdr) (x : Ext) : Statement (.fmulExt h x) := fun hw hg _ rest =>
  decode_entry (i := .fmulExt h x) (h := h) (opc := 0x31) rfl hw hg ⟨by decide, by decide, rfl⟩ rfl ⟨rfl, trivial⟩ rest

theorem RoundTrip.ffma (h : Hdr) (x : Ext) : Statement (.ffma h x) := fun hw hg _ rest =>
  decode_entry (i := .ffma h x) (h := h) (opc := 0x32) rfl hw hg ⟨by decide, by decide, rfl⟩ rfl ⟨rfl, trivial⟩ rest

theorem RoundTrip.fmin (h : Hdr) (d a b : BitVec 6) : Statement (.fmin h d a b) := by
  intro hw hg _ rest
  refine decode_base (i := .fmin h d a b) (h := h) (opc := 0x33) (f := b ++ a ++ d) hw hg ⟨by decide, by decide⟩ rfl ?_ rest
  simp [baseInstr, base_d, base_a, base_b]

theorem RoundTrip.fminExt (h : Hdr) (x : Ext) : Statement (.fminExt h x) := fun hw hg _ rest =>
  decode_entry (i := .fminExt h x) (h := h) (opc := 0x33) rfl hw hg ⟨by decide, by decide, rfl⟩ rfl ⟨rfl, trivial⟩ rest

theorem RoundTrip.fmax (h : Hdr) (d a b : BitVec 6) : Statement (.fmax h d a b) := by
  intro hw hg _ rest
  refine decode_base (i := .fmax h d a b) (h := h) (opc := 0x34) (f := b ++ a ++ d) hw hg ⟨by decide, by decide⟩ rfl ?_ rest
  simp [baseInstr, base_d, base_a, base_b]

theorem RoundTrip.fmaxExt (h : Hdr) (x : Ext) : Statement (.fmaxExt h x) := fun hw hg _ rest =>
  decode_entry (i := .fmaxExt h x) (h := h) (opc := 0x34) rfl hw hg ⟨by decide, by decide, rfl⟩ rfl ⟨rfl, trivial⟩ rest

theorem RoundTrip.fcmp (h : Hdr) (x : Ext) : Statement (.fcmp h x) := fun hw hg _ rest =>
  decode_entry (i := .fcmp h x) (h := h) (opc := 0x35) rfl hw hg ⟨by decide, by decide, rfl⟩ rfl ⟨rfl, trivial⟩ rest

theorem RoundTrip.frnd (h : Hdr) (d a : BitVec 6) : Statement (.frnd h d a) := by
  intro hw hg _ rest
  refine decode_base (i := .frnd h d a) (h := h) (opc := 0x36) (f := (0 : BitVec 6) ++ a ++ d) hw hg ⟨by decide, by decide⟩ rfl ?_ rest
  simp [baseInstr, base_d, base_a, base_b]

theorem RoundTrip.frndExt (h : Hdr) (x : Ext) : Statement (.frndExt h x) := fun hw hg _ rest =>
  decode_entry (i := .frndExt h x) (h := h) (opc := 0x36) rfl hw hg ⟨by decide, by decide, rfl⟩ rfl ⟨rfl, trivial⟩ rest

theorem RoundTrip.fsfuRcp (h : Hdr) (x : Ext) : Statement (.fsfuRcp h x) := fun hw hg _ rest =>
  decode_entry (i := .fsfuRcp h x) (h := h) (opc := 0x37) rfl hw hg ⟨by decide, by decide, rfl⟩ rfl ⟨rfl, trivial⟩ rest

theorem RoundTrip.fsfuRsq (h : Hdr) (x : Ext) : Statement (.fsfuRsq h x) := fun hw hg _ rest =>
  decode_entry (i := .fsfuRsq h x) (h := h) (opc := 0x37) rfl hw hg ⟨by decide, by decide, rfl⟩ rfl ⟨rfl, trivial⟩ rest

theorem RoundTrip.fsfuSqrt (h : Hdr) (x : Ext) : Statement (.fsfuSqrt h x) := fun hw hg _ rest =>
  decode_entry (i := .fsfuSqrt h x) (h := h) (opc := 0x37) rfl hw hg ⟨by decide, by decide, rfl⟩ rfl ⟨rfl, trivial⟩ rest

theorem RoundTrip.fsfuExp2 (h : Hdr) (x : Ext) : Statement (.fsfuExp2 h x) := fun hw hg _ rest =>
  decode_entry (i := .fsfuExp2 h x) (h := h) (opc := 0x37) rfl hw hg ⟨by decide, by decide, rfl⟩ rfl ⟨rfl, trivial⟩ rest

theorem RoundTrip.fsfuLog2 (h : Hdr) (x : Ext) : Statement (.fsfuLog2 h x) := fun hw hg _ rest =>
  decode_entry (i := .fsfuLog2 h x) (h := h) (opc := 0x37) rfl hw hg ⟨by decide, by decide, rfl⟩ rfl ⟨rfl, trivial⟩ rest

theorem RoundTrip.fsfuSin (h : Hdr) (x : Ext) : Statement (.fsfuSin h x) := fun hw hg _ rest =>
  decode_entry (i := .fsfuSin h x) (h := h) (opc := 0x37) rfl hw hg ⟨by decide, by decide, rfl⟩ rfl ⟨rfl, trivial⟩ rest

theorem RoundTrip.fsfuCos (h : Hdr) (x : Ext) : Statement (.fsfuCos h x) := fun hw hg _ rest =>
  decode_entry (i := .fsfuCos h x) (h := h) (opc := 0x37) rfl hw hg ⟨by decide, by decide, rfl⟩ rfl ⟨rfl, trivial⟩ rest

theorem RoundTrip.dadd (h : Hdr) (d a b : BitVec 6) : Statement (.dadd h d a b) := by
  intro hw hg _ rest
  refine decode_base (i := .dadd h d a b) (h := h) (opc := 0x38) (f := b ++ a ++ d) hw hg ⟨by decide, by decide⟩ rfl ?_ rest
  simp [baseInstr, base_d, base_a, base_b]

theorem RoundTrip.daddExt (h : Hdr) (x : Ext) : Statement (.daddExt h x) := fun hw hg _ rest =>
  decode_entry (i := .daddExt h x) (h := h) (opc := 0x38) rfl hw hg ⟨by decide, by decide, rfl⟩ rfl ⟨rfl, trivial⟩ rest

theorem RoundTrip.dmul (h : Hdr) (d a b : BitVec 6) : Statement (.dmul h d a b) := by
  intro hw hg _ rest
  refine decode_base (i := .dmul h d a b) (h := h) (opc := 0x39) (f := b ++ a ++ d) hw hg ⟨by decide, by decide⟩ rfl ?_ rest
  simp [baseInstr, base_d, base_a, base_b]

theorem RoundTrip.dmulExt (h : Hdr) (x : Ext) : Statement (.dmulExt h x) := fun hw hg _ rest =>
  decode_entry (i := .dmulExt h x) (h := h) (opc := 0x39) rfl hw hg ⟨by decide, by decide, rfl⟩ rfl ⟨rfl, trivial⟩ rest

theorem RoundTrip.dfma (h : Hdr) (x : Ext) : Statement (.dfma h x) := fun hw hg _ rest =>
  decode_entry (i := .dfma h x) (h := h) (opc := 0x3A) rfl hw hg ⟨by decide, by decide, rfl⟩ rfl ⟨rfl, trivial⟩ rest

theorem RoundTrip.dmin (h : Hdr) (d a b : BitVec 6) : Statement (.dmin h d a b) := by
  intro hw hg _ rest
  refine decode_base (i := .dmin h d a b) (h := h) (opc := 0x3B) (f := b ++ a ++ d) hw hg ⟨by decide, by decide⟩ rfl ?_ rest
  simp [baseInstr, base_d, base_a, base_b]

theorem RoundTrip.dminExt (h : Hdr) (x : Ext) : Statement (.dminExt h x) := fun hw hg _ rest =>
  decode_entry (i := .dminExt h x) (h := h) (opc := 0x3B) rfl hw hg ⟨by decide, by decide, rfl⟩ rfl ⟨rfl, trivial⟩ rest

theorem RoundTrip.dmax (h : Hdr) (d a b : BitVec 6) : Statement (.dmax h d a b) := by
  intro hw hg _ rest
  refine decode_base (i := .dmax h d a b) (h := h) (opc := 0x3C) (f := b ++ a ++ d) hw hg ⟨by decide, by decide⟩ rfl ?_ rest
  simp [baseInstr, base_d, base_a, base_b]

theorem RoundTrip.dmaxExt (h : Hdr) (x : Ext) : Statement (.dmaxExt h x) := fun hw hg _ rest =>
  decode_entry (i := .dmaxExt h x) (h := h) (opc := 0x3C) rfl hw hg ⟨by decide, by decide, rfl⟩ rfl ⟨rfl, trivial⟩ rest

theorem RoundTrip.dcmp (h : Hdr) (x : Ext) : Statement (.dcmp h x) := fun hw hg _ rest =>
  decode_entry (i := .dcmp h x) (h := h) (opc := 0x3D) rfl hw hg ⟨by decide, by decide, rfl⟩ rfl ⟨rfl, trivial⟩ rest

theorem RoundTrip.dsfuRcp (h : Hdr) (x : Ext) : Statement (.dsfuRcp h x) := fun hw hg _ rest =>
  decode_entry (i := .dsfuRcp h x) (h := h) (opc := 0x3E) rfl hw hg ⟨by decide, by decide, rfl⟩ rfl ⟨rfl, trivial⟩ rest

theorem RoundTrip.dsfuSqrt (h : Hdr) (x : Ext) : Statement (.dsfuSqrt h x) := fun hw hg _ rest =>
  decode_entry (i := .dsfuSqrt h x) (h := h) (opc := 0x3E) rfl hw hg ⟨by decide, by decide, rfl⟩ rfl ⟨rfl, trivial⟩ rest

theorem RoundTrip.hfma2 (h : Hdr) (x : Ext) : Statement (.hfma2 h x) := fun hw hg _ rest =>
  decode_entry (i := .hfma2 h x) (h := h) (opc := 0x3F) rfl hw hg ⟨by decide, by decide, rfl⟩ rfl ⟨rfl, trivial⟩ rest

theorem RoundTrip.cvt (h : Hdr) (x : Ext) : Statement (.cvt h x) := fun hw hg _ rest =>
  decode_entry (i := .cvt h x) (h := h) (opc := 0x40) rfl hw hg ⟨by decide, by decide, rfl⟩ rfl ⟨rfl, trivial⟩ rest

theorem RoundTrip.pack (h : Hdr) (x : Ext) : Statement (.pack h x) := fun hw hg _ rest =>
  decode_entry (i := .pack h x) (h := h) (opc := 0x41) rfl hw hg ⟨by decide, by decide, rfl⟩ rfl ⟨rfl, trivial⟩ rest

theorem RoundTrip.unpk (h : Hdr) (x : Ext) : Statement (.unpk h x) := fun hw hg _ rest =>
  decode_entry (i := .unpk h x) (h := h) (opc := 0x42) rfl hw hg ⟨by decide, by decide, rfl⟩ rfl ⟨rfl, trivial⟩ rest

theorem RoundTrip.fclass (h : Hdr) (x : Ext) : Statement (.fclass h x) := fun hw hg _ rest =>
  decode_entry (i := .fclass h x) (h := h) (opc := 0x43) rfl hw hg ⟨by decide, by decide, rfl⟩ rfl ⟨rfl, trivial⟩ rest

theorem RoundTrip.hset (h : Hdr) (x : Ext) : Statement (.hset h x) := fun hw hg _ rest =>
  decode_entry (i := .hset h x) (h := h) (opc := 0x48) rfl hw hg ⟨by decide, by decide, rfl⟩ rfl ⟨rfl, trivial⟩ rest

theorem RoundTrip.hget (h : Hdr) (x : Ext) : Statement (.hget h x) := fun hw hg _ rest =>
  decode_entry (i := .hget h x) (h := h) (opc := 0x49) rfl hw hg ⟨by decide, by decide, rfl⟩ rfl ⟨rfl, trivial⟩ rest

theorem RoundTrip.hmov (h : Hdr) (x : Ext) : Statement (.hmov h x) := fun hw hg _ rest =>
  decode_entry (i := .hmov h x) (h := h) (opc := 0x4A) rfl hw hg ⟨by decide, by decide, rfl⟩ rfl ⟨rfl, trivial⟩ rest

theorem RoundTrip.mzero (h : Hdr) (x : Ext) : Statement (.mzero h x) := fun hw hg _ rest =>
  decode_entry (i := .mzero h x) (h := h) (opc := 0x4B) rfl hw hg ⟨by decide, by decide, rfl⟩ rfl ⟨rfl, trivial⟩ rest

theorem RoundTrip.mfill (h : Hdr) (x : Ext) : Statement (.mfill h x) := fun hw hg _ rest =>
  decode_entry (i := .mfill h x) (h := h) (opc := 0x4F) rfl hw hg ⟨by decide, by decide, rfl⟩ rfl ⟨rfl, trivial⟩ rest

theorem RoundTrip.mmov (h : Hdr) (x : Ext) : Statement (.mmov h x) := fun hw hg _ rest =>
  decode_entry (i := .mmov h x) (h := h) (opc := 0x4C) rfl hw hg ⟨by decide, by decide, rfl⟩ rfl ⟨rfl, trivial⟩ rest

theorem RoundTrip.mld (h : Hdr) (x : Ext) : Statement (.mld h x) := fun hw hg _ rest =>
  decode_entry (i := .mld h x) (h := h) (opc := 0x4D) rfl hw hg ⟨by decide, by decide, rfl⟩ rfl ⟨rfl, trivial⟩ rest

theorem RoundTrip.mst (h : Hdr) (x : Ext) : Statement (.mst h x) := fun hw hg _ rest =>
  decode_entry (i := .mst h x) (h := h) (opc := 0x4D) rfl hw hg ⟨by decide, by decide, rfl⟩ rfl ⟨rfl, trivial⟩ rest

theorem RoundTrip.mext (h : Hdr) (x : Ext) : Statement (.mext h x) := fun hw hg _ rest =>
  decode_entry (i := .mext h x) (h := h) (opc := 0x4E) rfl hw hg ⟨by decide, by decide, rfl⟩ rfl ⟨rfl, trivial⟩ rest

theorem RoundTrip.mins (h : Hdr) (x : Ext) : Statement (.mins h x) := fun hw hg _ rest =>
  decode_entry (i := .mins h x) (h := h) (opc := 0x4E) rfl hw hg ⟨by decide, by decide, rfl⟩ rfl ⟨rfl, trivial⟩ rest

theorem RoundTrip.mma (h : Hdr) (x : Ext) : Statement (.mma h x) := fun hw hg _ rest =>
  decode_entry (i := .mma h x) (h := h) (opc := 0x50) rfl hw hg ⟨by decide, by decide, rfl⟩ rfl ⟨rfl, trivial⟩ rest

theorem RoundTrip.mmt (h : Hdr) (x : Ext) : Statement (.mmt h x) := fun hw hg _ rest =>
  decode_entry (i := .mmt h x) (h := h) (opc := 0x51) rfl hw hg ⟨by decide, by decide, rfl⟩ rfl ⟨rfl, trivial⟩ rest

theorem RoundTrip.mtm (h : Hdr) (x : Ext) : Statement (.mtm h x) := fun hw hg _ rest =>
  decode_entry (i := .mtm h x) (h := h) (opc := 0x52) rfl hw hg ⟨by decide, by decide, rfl⟩ rfl ⟨rfl, trivial⟩ rest

theorem RoundTrip.mms (h : Hdr) (x : Ext) : Statement (.mms h x) := fun hw hg _ rest =>
  decode_entry (i := .mms h x) (h := h) (opc := 0x53) rfl hw hg ⟨by decide, by decide, rfl⟩ rfl ⟨rfl, trivial⟩ rest

theorem RoundTrip.mmg (h : Hdr) (x : Ext) : Statement (.mmg h x) := fun hw hg _ rest =>
  decode_entry (i := .mmg h x) (h := h) (opc := 0x54) rfl hw hg ⟨by decide, by decide, rfl⟩ rfl ⟨rfl, trivial⟩ rest

theorem RoundTrip.mtrn (h : Hdr) (x : Ext) : Statement (.mtrn h x) := fun hw hg _ rest =>
  decode_entry (i := .mtrn h x) (h := h) (opc := 0x55) rfl hw hg ⟨by decide, by decide, rfl⟩ rfl ⟨rfl, trivial⟩ rest

theorem RoundTrip.mewAdd (h : Hdr) (x : Ext) : Statement (.mewAdd h x) := fun hw hg _ rest =>
  decode_entry (i := .mewAdd h x) (h := h) (opc := 0x56) rfl hw hg ⟨by decide, by decide, rfl⟩ rfl ⟨rfl, trivial⟩ rest

theorem RoundTrip.mewSub (h : Hdr) (x : Ext) : Statement (.mewSub h x) := fun hw hg _ rest =>
  decode_entry (i := .mewSub h x) (h := h) (opc := 0x56) rfl hw hg ⟨by decide, by decide, rfl⟩ rfl ⟨rfl, trivial⟩ rest

theorem RoundTrip.mewMul (h : Hdr) (x : Ext) : Statement (.mewMul h x) := fun hw hg _ rest =>
  decode_entry (i := .mewMul h x) (h := h) (opc := 0x56) rfl hw hg ⟨by decide, by decide, rfl⟩ rfl ⟨rfl, trivial⟩ rest

theorem RoundTrip.mewMax (h : Hdr) (x : Ext) : Statement (.mewMax h x) := fun hw hg _ rest =>
  decode_entry (i := .mewMax h x) (h := h) (opc := 0x56) rfl hw hg ⟨by decide, by decide, rfl⟩ rfl ⟨rfl, trivial⟩ rest

theorem RoundTrip.mewMin (h : Hdr) (x : Ext) : Statement (.mewMin h x) := fun hw hg _ rest =>
  decode_entry (i := .mewMin h x) (h := h) (opc := 0x56) rfl hw hg ⟨by decide, by decide, rfl⟩ rfl ⟨rfl, trivial⟩ rest

theorem RoundTrip.mewScale (h : Hdr) (x : Ext) : Statement (.mewScale h x) := fun hw hg _ rest =>
  decode_entry (i := .mewScale h x) (h := h) (opc := 0x56) rfl hw hg ⟨by decide, by decide, rfl⟩ rfl ⟨rfl, trivial⟩ rest

theorem RoundTrip.mredRow (h : Hdr) (x : Ext) : Statement (.mredRow h x) := fun hw hg _ rest =>
  decode_entry (i := .mredRow h x) (h := h) (opc := 0x57) rfl hw hg ⟨by decide, by decide, rfl⟩ rfl ⟨rfl, trivial⟩ rest

theorem RoundTrip.mredCol (h : Hdr) (x : Ext) : Statement (.mredCol h x) := fun hw hg _ rest =>
  decode_entry (i := .mredCol h x) (h := h) (opc := 0x57) rfl hw hg ⟨by decide, by decide, rfl⟩ rfl ⟨rfl, trivial⟩ rest

theorem RoundTrip.mredAll (h : Hdr) (x : Ext) : Statement (.mredAll h x) := fun hw hg _ rest =>
  decode_entry (i := .mredAll h x) (h := h) (opc := 0x57) rfl hw hg ⟨by decide, by decide, rfl⟩ rfl ⟨rfl, trivial⟩ rest

theorem RoundTrip.mprn (h : Hdr) (x : Ext) : Statement (.mprn h x) := fun hw hg _ rest =>
  decode_entry (i := .mprn h x) (h := h) (opc := 0x58) rfl hw hg ⟨by decide, by decide, rfl⟩ rfl ⟨rfl, trivial⟩ rest

theorem RoundTrip.mtopk (h : Hdr) (x : Ext) : Statement (.mtopk h x) := fun hw hg _ rest =>
  decode_entry (i := .mtopk h x) (h := h) (opc := 0x59) rfl hw hg ⟨by decide, by decide, rfl⟩ rfl ⟨rfl, trivial⟩ rest

theorem RoundTrip.mgnorm (h : Hdr) (x : Ext) : Statement (.mgnorm h x) := fun hw hg _ rest =>
  decode_entry (i := .mgnorm h x) (h := h) (opc := 0x5A) rfl hw hg ⟨by decide, by decide, rfl⟩ rfl ⟨rfl, trivial⟩ rest

theorem RoundTrip.mlu (h : Hdr) (x : Ext) : Statement (.mlu h x) := fun hw hg _ rest =>
  decode_entry (i := .mlu h x) (h := h) (opc := 0x60) rfl hw hg ⟨by decide, by decide, rfl⟩ rfl ⟨rfl, trivial⟩ rest

theorem RoundTrip.mchol (h : Hdr) (x : Ext) : Statement (.mchol h x) := fun hw hg _ rest =>
  decode_entry (i := .mchol h x) (h := h) (opc := 0x61) rfl hw hg ⟨by decide, by decide, rfl⟩ rfl ⟨rfl, trivial⟩ rest

theorem RoundTrip.mqr (h : Hdr) (x : Ext) : Statement (.mqr h x) := fun hw hg _ rest =>
  decode_entry (i := .mqr h x) (h := h) (opc := 0x62) rfl hw hg ⟨by decide, by decide, rfl⟩ rfl ⟨rfl, trivial⟩ rest

theorem RoundTrip.mtrs (h : Hdr) (x : Ext) : Statement (.mtrs h x) := fun hw hg _ rest =>
  decode_entry (i := .mtrs h x) (h := h) (opc := 0x63) rfl hw hg ⟨by decide, by decide, rfl⟩ rfl ⟨rfl, trivial⟩ rest

theorem RoundTrip.msolv (h : Hdr) (x : Ext) : Statement (.msolv h x) := fun hw hg _ rest =>
  decode_entry (i := .msolv h x) (h := h) (opc := 0x64) rfl hw hg ⟨by decide, by decide, rfl⟩ rfl ⟨rfl, trivial⟩ rest

theorem RoundTrip.minv (h : Hdr) (x : Ext) : Statement (.minv h x) := fun hw hg _ rest =>
  decode_entry (i := .minv h x) (h := h) (opc := 0x65) rfl hw hg ⟨by decide, by decide, rfl⟩ rfl ⟨rfl, trivial⟩ rest

theorem RoundTrip.mexp (h : Hdr) (x : Ext) : Statement (.mexp h x) := fun hw hg _ rest =>
  decode_entry (i := .mexp h x) (h := h) (opc := 0x66) rfl hw hg ⟨by decide, by decide, rfl⟩ rfl ⟨rfl, trivial⟩ rest

theorem RoundTrip.mpow (h : Hdr) (x : Ext) : Statement (.mpow h x) := fun hw hg _ rest =>
  decode_entry (i := .mpow h x) (h := h) (opc := 0x67) rfl hw hg ⟨by decide, by decide, rfl⟩ rfl ⟨rfl, trivial⟩ rest

theorem RoundTrip.ld (h : Hdr) (d a i : BitVec 6) : Statement (.ld h d a i) := by
  intro hw hg _ rest
  refine decode_base (i := .ld h d a i) (h := h) (opc := 0x68) (f := i ++ a ++ d) hw hg ⟨by decide, by decide⟩ rfl ?_ rest
  simp [baseInstr, base_d, base_a, base_b]

theorem RoundTrip.ldExt (h : Hdr) (x : Ext) : Statement (.ldExt h x) := fun hw hg _ rest =>
  decode_entry (i := .ldExt h x) (h := h) (opc := 0x68) rfl hw hg ⟨by decide, by decide, rfl⟩ rfl ⟨rfl, trivial⟩ rest

theorem RoundTrip.st (h : Hdr) (d a i : BitVec 6) : Statement (.st h d a i) := by
  intro hw hg _ rest
  refine decode_base (i := .st h d a i) (h := h) (opc := 0x69) (f := i ++ a ++ d) hw hg ⟨by decide, by decide⟩ rfl ?_ rest
  simp [baseInstr, base_d, base_a, base_b]

theorem RoundTrip.stExt (h : Hdr) (x : Ext) : Statement (.stExt h x) := fun hw hg _ rest =>
  decode_entry (i := .stExt h x) (h := h) (opc := 0x69) rfl hw hg ⟨by decide, by decide, rfl⟩ rfl ⟨rfl, trivial⟩ rest

theorem RoundTrip.lds (h : Hdr) (d a i : BitVec 6) : Statement (.lds h d a i) := by
  intro hw hg _ rest
  refine decode_base (i := .lds h d a i) (h := h) (opc := 0x6A) (f := i ++ a ++ d) hw hg ⟨by decide, by decide⟩ rfl ?_ rest
  simp [baseInstr, base_d, base_a, base_b]

theorem RoundTrip.ldsExt (h : Hdr) (x : Ext) : Statement (.ldsExt h x) := fun hw hg _ rest =>
  decode_entry (i := .ldsExt h x) (h := h) (opc := 0x6A) rfl hw hg ⟨by decide, by decide, rfl⟩ rfl ⟨rfl, trivial⟩ rest

theorem RoundTrip.sts (h : Hdr) (d a i : BitVec 6) : Statement (.sts h d a i) := by
  intro hw hg _ rest
  refine decode_base (i := .sts h d a i) (h := h) (opc := 0x6B) (f := i ++ a ++ d) hw hg ⟨by decide, by decide⟩ rfl ?_ rest
  simp [baseInstr, base_d, base_a, base_b]

theorem RoundTrip.stsExt (h : Hdr) (x : Ext) : Statement (.stsExt h x) := fun hw hg _ rest =>
  decode_entry (i := .stsExt h x) (h := h) (opc := 0x6B) rfl hw hg ⟨by decide, by decide, rfl⟩ rfl ⟨rfl, trivial⟩ rest

theorem RoundTrip.tagl (h : Hdr) (x : Ext) : Statement (.tagl h x) := fun hw hg _ rest =>
  decode_entry (i := .tagl h x) (h := h) (opc := 0x6C) rfl hw hg ⟨by decide, by decide, rfl⟩ rfl ⟨rfl, trivial⟩ rest

theorem RoundTrip.tagi (h : Hdr) (x : Ext) : Statement (.tagi h x) := fun hw hg _ rest =>
  decode_entry (i := .tagi h x) (h := h) (opc := 0x6D) rfl hw hg ⟨by decide, by decide, rfl⟩ rfl ⟨rfl, trivial⟩ rest

theorem RoundTrip.tage (h : Hdr) (x : Ext) : Statement (.tage h x) := fun hw hg _ rest =>
  decode_entry (i := .tage h x) (h := h) (opc := 0x6E) rfl hw hg ⟨by decide, by decide, rfl⟩ rfl ⟨rfl, trivial⟩ rest

theorem RoundTrip.pref (h : Hdr) (x : Ext) : Statement (.pref h x) := fun hw hg _ rest =>
  decode_entry (i := .pref h x) (h := h) (opc := 0x6F) rfl hw hg ⟨by decide, by decide, rfl⟩ rfl ⟨rfl, trivial⟩ rest

theorem RoundTrip.atomAdd (h : Hdr) (x : Ext) : Statement (.atomAdd h x) := fun hw hg _ rest =>
  decode_entry (i := .atomAdd h x) (h := h) (opc := 0x70) rfl hw hg ⟨by decide, by decide, rfl⟩ rfl ⟨rfl, trivial⟩ rest

theorem RoundTrip.atomMin (h : Hdr) (x : Ext) : Statement (.atomMin h x) := fun hw hg _ rest =>
  decode_entry (i := .atomMin h x) (h := h) (opc := 0x70) rfl hw hg ⟨by decide, by decide, rfl⟩ rfl ⟨rfl, trivial⟩ rest

theorem RoundTrip.atomMax (h : Hdr) (x : Ext) : Statement (.atomMax h x) := fun hw hg _ rest =>
  decode_entry (i := .atomMax h x) (h := h) (opc := 0x70) rfl hw hg ⟨by decide, by decide, rfl⟩ rfl ⟨rfl, trivial⟩ rest

theorem RoundTrip.atomAnd (h : Hdr) (x : Ext) : Statement (.atomAnd h x) := fun hw hg _ rest =>
  decode_entry (i := .atomAnd h x) (h := h) (opc := 0x70) rfl hw hg ⟨by decide, by decide, rfl⟩ rfl ⟨rfl, trivial⟩ rest

theorem RoundTrip.atomOr (h : Hdr) (x : Ext) : Statement (.atomOr h x) := fun hw hg _ rest =>
  decode_entry (i := .atomOr h x) (h := h) (opc := 0x70) rfl hw hg ⟨by decide, by decide, rfl⟩ rfl ⟨rfl, trivial⟩ rest

theorem RoundTrip.atomXor (h : Hdr) (x : Ext) : Statement (.atomXor h x) := fun hw hg _ rest =>
  decode_entry (i := .atomXor h x) (h := h) (opc := 0x70) rfl hw hg ⟨by decide, by decide, rfl⟩ rfl ⟨rfl, trivial⟩ rest

theorem RoundTrip.atomExch (h : Hdr) (x : Ext) : Statement (.atomExch h x) := fun hw hg _ rest =>
  decode_entry (i := .atomExch h x) (h := h) (opc := 0x70) rfl hw hg ⟨by decide, by decide, rfl⟩ rfl ⟨rfl, trivial⟩ rest

theorem RoundTrip.atomCas (h : Hdr) (x : Ext) : Statement (.atomCas h x) := fun hw hg _ rest =>
  decode_entry (i := .atomCas h x) (h := h) (opc := 0x70) rfl hw hg ⟨by decide, by decide, rfl⟩ rfl ⟨rfl, trivial⟩ rest

theorem RoundTrip.atomsAdd (h : Hdr) (x : Ext) : Statement (.atomsAdd h x) := fun hw hg _ rest =>
  decode_entry (i := .atomsAdd h x) (h := h) (opc := 0x71) rfl hw hg ⟨by decide, by decide, rfl⟩ rfl ⟨rfl, trivial⟩ rest

theorem RoundTrip.atomsMin (h : Hdr) (x : Ext) : Statement (.atomsMin h x) := fun hw hg _ rest =>
  decode_entry (i := .atomsMin h x) (h := h) (opc := 0x71) rfl hw hg ⟨by decide, by decide, rfl⟩ rfl ⟨rfl, trivial⟩ rest

theorem RoundTrip.atomsMax (h : Hdr) (x : Ext) : Statement (.atomsMax h x) := fun hw hg _ rest =>
  decode_entry (i := .atomsMax h x) (h := h) (opc := 0x71) rfl hw hg ⟨by decide, by decide, rfl⟩ rfl ⟨rfl, trivial⟩ rest

theorem RoundTrip.atomsAnd (h : Hdr) (x : Ext) : Statement (.atomsAnd h x) := fun hw hg _ rest =>
  decode_entry (i := .atomsAnd h x) (h := h) (opc := 0x71) rfl hw hg ⟨by decide, by decide, rfl⟩ rfl ⟨rfl, trivial⟩ rest

theorem RoundTrip.atomsOr (h : Hdr) (x : Ext) : Statement (.atomsOr h x) := fun hw hg _ rest =>
  decode_entry (i := .atomsOr h x) (h := h) (opc := 0x71) rfl hw hg ⟨by decide, by decide, rfl⟩ rfl ⟨rfl, trivial⟩ rest

theorem RoundTrip.atomsXor (h : Hdr) (x : Ext) : Statement (.atomsXor h x) := fun hw hg _ rest =>
  decode_entry (i := .atomsXor h x) (h := h) (opc := 0x71) rfl hw hg ⟨by decide, by decide, rfl⟩ rfl ⟨rfl, trivial⟩ rest

theorem RoundTrip.atomsExch (h : Hdr) (x : Ext) : Statement (.atomsExch h x) := fun hw hg _ rest =>
  decode_entry (i := .atomsExch h x) (h := h) (opc := 0x71) rfl hw hg ⟨by decide, by decide, rfl⟩ rfl ⟨rfl, trivial⟩ rest

theorem RoundTrip.atomsCas (h : Hdr) (x : Ext) : Statement (.atomsCas h x) := fun hw hg _ rest =>
  decode_entry (i := .atomsCas h x) (h := h) (opc := 0x71) rfl hw hg ⟨by decide, by decide, rfl⟩ rfl ⟨rfl, trivial⟩ rest

theorem RoundTrip.redAdd (h : Hdr) (x : Ext) : Statement (.redAdd h x) := fun hw hg _ rest =>
  decode_entry (i := .redAdd h x) (h := h) (opc := 0x72) rfl hw hg ⟨by decide, by decide, rfl⟩ rfl ⟨rfl, trivial⟩ rest

theorem RoundTrip.redMin (h : Hdr) (x : Ext) : Statement (.redMin h x) := fun hw hg _ rest =>
  decode_entry (i := .redMin h x) (h := h) (opc := 0x72) rfl hw hg ⟨by decide, by decide, rfl⟩ rfl ⟨rfl, trivial⟩ rest

theorem RoundTrip.redMax (h : Hdr) (x : Ext) : Statement (.redMax h x) := fun hw hg _ rest =>
  decode_entry (i := .redMax h x) (h := h) (opc := 0x72) rfl hw hg ⟨by decide, by decide, rfl⟩ rfl ⟨rfl, trivial⟩ rest

theorem RoundTrip.redAnd (h : Hdr) (x : Ext) : Statement (.redAnd h x) := fun hw hg _ rest =>
  decode_entry (i := .redAnd h x) (h := h) (opc := 0x72) rfl hw hg ⟨by decide, by decide, rfl⟩ rfl ⟨rfl, trivial⟩ rest

theorem RoundTrip.redOr (h : Hdr) (x : Ext) : Statement (.redOr h x) := fun hw hg _ rest =>
  decode_entry (i := .redOr h x) (h := h) (opc := 0x72) rfl hw hg ⟨by decide, by decide, rfl⟩ rfl ⟨rfl, trivial⟩ rest

theorem RoundTrip.redXor (h : Hdr) (x : Ext) : Statement (.redXor h x) := fun hw hg _ rest =>
  decode_entry (i := .redXor h x) (h := h) (opc := 0x72) rfl hw hg ⟨by decide, by decide, rfl⟩ rfl ⟨rfl, trivial⟩ rest

theorem RoundTrip.fence (h : Hdr) (x : Ext) : Statement (.fence h x) := fun hw hg _ rest =>
  decode_entry (i := .fence h x) (h := h) (opc := 0x73) rfl hw hg ⟨by decide, by decide, rfl⟩ rfl ⟨rfl, trivial⟩ rest

theorem RoundTrip.barArrive (h : Hdr) (x : Ext) : Statement (.barArrive h x) := fun hw hg _ rest =>
  decode_entry (i := .barArrive h x) (h := h) (opc := 0x74) rfl hw hg ⟨by decide, by decide, rfl⟩ rfl ⟨rfl, trivial⟩ rest

theorem RoundTrip.barWait (h : Hdr) (x : Ext) : Statement (.barWait h x) := fun hw hg _ rest =>
  decode_entry (i := .barWait h x) (h := h) (opc := 0x74) rfl hw hg ⟨by decide, by decide, rfl⟩ rfl ⟨rfl, trivial⟩ rest

theorem RoundTrip.barSync (h : Hdr) (x : Ext) : Statement (.barSync h x) := fun hw hg _ rest =>
  decode_entry (i := .barSync h x) (h := h) (opc := 0x74) rfl hw hg ⟨by decide, by decide, rfl⟩ rfl ⟨rfl, trivial⟩ rest

theorem RoundTrip.waitv (h : Hdr) (x : Ext) : Statement (.waitv h x) := fun hw hg _ rest =>
  decode_entry (i := .waitv h x) (h := h) (opc := 0x75) rfl hw hg ⟨by decide, by decide, rfl⟩ rfl ⟨rfl, trivial⟩ rest

theorem RoundTrip.dcadd (h : Hdr) (x : Ext) : Statement (.dcadd h x) := fun hw hg _ rest =>
  decode_entry (i := .dcadd h x) (h := h) (opc := 0x77) rfl hw hg ⟨by decide, by decide, rfl⟩ rfl ⟨rfl, rfl, rfl, trivial⟩ rest

theorem RoundTrip.dcwait (h : Hdr) (x : Ext) : Statement (.dcwait h x) := fun hw hg _ rest =>
  decode_entry (i := .dcwait h x) (h := h) (opc := 0x76) rfl hw hg ⟨by decide, by decide, rfl⟩ rfl ⟨rfl, rfl, trivial⟩ rest

theorem RoundTrip.cpyq (h : Hdr) (x : Ext) : Statement (.cpyq h x) := fun hw hg _ rest =>
  decode_entry (i := .cpyq h x) (h := h) (opc := 0x78) rfl hw hg ⟨by decide, by decide, rfl⟩ rfl ⟨rfl, trivial⟩ rest

theorem RoundTrip.cpyf (h : Hdr) (x : Ext) : Statement (.cpyf h x) := fun hw hg _ rest =>
  decode_entry (i := .cpyf h x) (h := h) (opc := 0x78) rfl hw hg ⟨by decide, by decide, rfl⟩ rfl ⟨rfl, trivial⟩ rest

theorem RoundTrip.cpys (h : Hdr) (x : Ext) : Statement (.cpys h x) := fun hw hg _ rest =>
  decode_entry (i := .cpys h x) (h := h) (opc := 0x78) rfl hw hg ⟨by decide, by decide, rfl⟩ rfl ⟨rfl, trivial⟩ rest

theorem RoundTrip.launch (h : Hdr) (x : Ext) : Statement (.launch h x) := fun hw hg _ rest =>
  decode_entry (i := .launch h x) (h := h) (opc := 0x79) rfl hw hg ⟨by decide, by decide, rfl⟩ rfl ⟨rfl, trivial⟩ rest

theorem RoundTrip.refill (h : Hdr) (x : Ext) : Statement (.refill h x) := fun hw hg _ rest =>
  decode_entry (i := .refill h x) (h := h) (opc := 0x7A) rfl hw hg ⟨by decide, by decide, rfl⟩ rfl ⟨rfl, trivial⟩ rest

theorem RoundTrip.regrp (h : Hdr) (x : Ext) : Statement (.regrp h x) := fun hw hg _ rest =>
  decode_entry (i := .regrp h x) (h := h) (opc := 0x7A) rfl hw hg ⟨by decide, by decide, rfl⟩ rfl ⟨rfl, trivial⟩ rest

theorem RoundTrip.sigwake (h : Hdr) (x : Ext) : Statement (.sigwake h x) := by
  intro hw hg _ rest
  have hk := wf_entry (i := .sigwake h x) rfl hw
  refine decode_ext (h := h) (opc := 0x7B) hk hw hg ⟨by decide, by decide, rfl⟩ (fun k m => ?_) ?_ rest
  · exact List.all_eq_true.1 (show (([.x3] : List ExtLen).all fun k => (lensOf 0x7B).contains k.code) = true from rfl) k m
  · have hs := Entry.ok_subs hk
    have h0 : x.sub.toNat = 0 := by simpa using hs
    have hb : x.bit 11 = false := by
      have hm : (x.mod.toNat &&& (2 ^ 21 - 1)) = 0 := by
        simp only [Entry.ok, Bool.and_eq_true, beq_iff_eq] at hk
        have hl : x.len ≠ .x5 := by
          intro c; have := hk.1.1.1.1.1.1.1.1.1.1.1; simp [c] at this
        have := hk.1.1.1.1.2; simpa [hl, fieldMask] using this
      have : x.mod.toNat = 0 := by
        rw [Nat.and_two_pow_sub_one_eq_mod] at hm; omega
      have : x.mod = 0 := BitVec.eq_of_toNat_eq (by simpa using this)
      simp [Ext.bit, this, bitAt]
    rw [h0]; simp [extInstr, hb]

theorem RoundTrip.sigwakeMb (h : Hdr) (x : Ext) : Statement (.sigwakeMb h x) := by
  intro hw hg _ rest
  have hk := wf_entry (i := .sigwakeMb h x) rfl hw
  refine decode_ext (h := h) (opc := 0x7B) hk hw hg ⟨by decide, by decide, rfl⟩ (fun k m => ?_) ?_ rest
  · exact List.all_eq_true.1 (show (([.x3] : List ExtLen).all fun k => (lensOf 0x7B).contains k.code) = true from rfl) k m
  · have hs := Entry.ok_subs hk
    have h0 : x.sub.toNat = 0 := by simpa using hs
    have hb : x.bit 11 = true := Entry.ok_extra hk
    rw [h0]; simp [extInstr, hb]

theorem RoundTrip.trap (h : Hdr) (x : Ext) : Statement (.trap h x) := fun hw hg _ rest =>
  decode_entry (i := .trap h x) (h := h) (opc := 0x7C) rfl hw hg ⟨by decide, by decide, rfl⟩ rfl ⟨rfl, trivial⟩ rest

theorem RoundTrip.tret (h : Hdr) (x : Ext) : Statement (.tret h x) := fun hw hg _ rest =>
  decode_entry (i := .tret h x) (h := h) (opc := 0x7C) rfl hw hg ⟨by decide, by decide, rfl⟩ rfl ⟨rfl, trivial⟩ rest

theorem RoundTrip.ppoint (h : Hdr) (t : DWord) : Statement (.ppoint h t) := fun hw hg _ rest =>
  decode_lit (i := .ppoint h t) (h := h) (opc := 0x7D) hw hg ⟨by decide, by decide⟩ rfl (fun u => by by_cases e : u = t <;> simp [litInstr, e]) rest

theorem RoundTrip.srd (h : Hdr) (x : Ext) : Statement (.srd h x) := fun hw hg _ rest =>
  decode_entry (i := .srd h x) (h := h) (opc := 0x7E) rfl hw hg ⟨by decide, by decide, rfl⟩ rfl ⟨rfl, trivial⟩ rest

theorem RoundTrip.swr (h : Hdr) (x : Ext) : Statement (.swr h x) := fun hw hg _ rest =>
  decode_entry (i := .swr h x) (h := h) (opc := 0x7E) rfl hw hg ⟨by decide, by decide, rfl⟩ rfl ⟨rfl, trivial⟩ rest

theorem RoundTrip.capq (h : Hdr) (x : Ext) : Statement (.capq h x) := fun hw hg _ rest =>
  decode_entry (i := .capq h x) (h := h) (opc := 0x7E) rfl hw hg ⟨by decide, by decide, rfl⟩ rfl ⟨rfl, trivial⟩ rest

theorem RoundTrip.pfdone (h : Hdr) (x : Ext) : Statement (.pfdone h x) := fun hw hg _ rest =>
  decode_entry (i := .pfdone h x) (h := h) (opc := 0x7E) rfl hw hg ⟨by decide, by decide, rfl⟩ rfl ⟨rfl, trivial⟩ rest

theorem RoundTrip.issueArbitration : Statement .issueArbitration := fun _ _ hn => absurd rfl hn

theorem RoundTrip.warpWideIssue : Statement .warpWideIssue := fun _ _ hn => absurd rfl hn

theorem RoundTrip.pendingResultWrite : Statement .pendingResultWrite := fun _ _ hn => absurd rfl hn

theorem RoundTrip.chainDrain : Statement .chainDrain := fun _ _ hn => absurd rfl hn

theorem RoundTrip.trapDelivery : Statement .trapDelivery := fun _ _ hn => absurd rfl hn

theorem RoundTrip.pageFaultResolution : Statement .pageFaultResolution := fun _ _ hn => absurd rfl hn

theorem RoundTrip.ownershipMigration : Statement .ownershipMigration := fun _ _ hn => absurd rfl hn

theorem RoundTrip.hostPageRequest : Statement .hostPageRequest := fun _ _ hn => absurd rfl hn

theorem RoundTrip.hostMemAccess : Statement .hostMemAccess := fun _ _ hn => absurd rfl hn

theorem RoundTrip.tlbInvalidate : Statement .tlbInvalidate := fun _ _ hn => absurd rfl hn

theorem RoundTrip.waitvRelease : Statement .waitvRelease := fun _ _ hn => absurd rfl hn

theorem RoundTrip.watchdog : Statement .watchdog := fun _ _ hn => absurd rfl hn

theorem RoundTrip.redApply : Statement .redApply := fun _ _ hn => absurd rfl hn

theorem RoundTrip.energyRefill : Statement .energyRefill := fun _ _ hn => absurd rfl hn

theorem RoundTrip.chunkClaim : Statement .chunkClaim := fun _ _ hn => absurd rfl hn

theorem RoundTrip.workgroupPlacement : Statement .workgroupPlacement := fun _ _ hn => absurd rfl hn

theorem RoundTrip.dictionaryLoad : Statement .dictionaryLoad := fun _ _ hn => absurd rfl hn

theorem RoundTrip.warpRefill : Statement .warpRefill := fun _ _ hn => absurd rfl hn

theorem RoundTrip.workgroupRetire : Statement .workgroupRetire := fun _ _ hn => absurd rfl hn

theorem RoundTrip.launchCompletion : Statement .launchCompletion := fun _ _ hn => absurd rfl hn

theorem RoundTrip.launchSignal : Statement .launchSignal := fun _ _ hn => absurd rfl hn

theorem RoundTrip.eventRecordPost : Statement .eventRecordPost := fun _ _ hn => absurd rfl hn

theorem RoundTrip.dispenserClose : Statement .dispenserClose := fun _ _ hn => absurd rfl hn

theorem RoundTrip.doorbell : Statement .doorbell := fun _ _ hn => absurd rfl hn

theorem RoundTrip.queueEnable : Statement .queueEnable := fun _ _ hn => absurd rfl hn

theorem RoundTrip.queueRestart : Statement .queueRestart := fun _ _ hn => absurd rfl hn

theorem RoundTrip.wakeClear : Statement .wakeClear := fun _ _ hn => absurd rfl hn

theorem RoundTrip.registerWrite : Statement .registerWrite := fun _ _ hn => absurd rfl hn

theorem RoundTrip.tickGeneratorCommit : Statement .tickGeneratorCommit := fun _ _ hn => absurd rfl hn

theorem RoundTrip.tick : Statement .tick := fun _ _ hn => absurd rfl hn

theorem RoundTrip.tickwaitComplete : Statement .tickwaitComplete := fun _ _ hn => absurd rfl hn

theorem RoundTrip.launchPacket : Statement .launchPacket := fun _ _ hn => absurd rfl hn

theorem RoundTrip.fencePacket : Statement .fencePacket := fun _ _ hn => absurd rfl hn

theorem RoundTrip.fencePacketComplete : Statement .fencePacketComplete := fun _ _ hn => absurd rfl hn

theorem RoundTrip.signalPacket : Statement .signalPacket := fun _ _ hn => absurd rfl hn

theorem RoundTrip.tickwaitPacket : Statement .tickwaitPacket := fun _ _ hn => absurd rfl hn

theorem RoundTrip.graphPacket : Statement .graphPacket := fun _ _ hn => absurd rfl hn

theorem RoundTrip.kernelNode : Statement .kernelNode := fun _ _ hn => absurd rfl hn

theorem RoundTrip.copyNode : Statement .copyNode := fun _ _ hn => absurd rfl hn

theorem RoundTrip.signalNode : Statement .signalNode := fun _ _ hn => absurd rfl hn

theorem RoundTrip.nodeComplete : Statement .nodeComplete := fun _ _ hn => absurd rfl hn

theorem RoundTrip.nodeRollback : Statement .nodeRollback := fun _ _ hn => absurd rfl hn

theorem RoundTrip.tload : Statement .tload := fun _ _ hn => absurd rfl hn

theorem RoundTrip.tstore : Statement .tstore := fun _ _ hn => absurd rfl hn

theorem RoundTrip.lcopy : Statement .lcopy := fun _ _ hn => absurd rfl hn

theorem RoundTrip.gather : Statement .gather := fun _ _ hn => absurd rfl hn

theorem RoundTrip.scatter : Statement .scatter := fun _ _ hn => absurd rfl hn

theorem RoundTrip.fill : Statement .fill := fun _ _ hn => absurd rfl hn

theorem RoundTrip.hintL2 : Statement .hintL2 := fun _ _ hn => absurd rfl hn

theorem RoundTrip.hintTag : Statement .hintTag := fun _ _ hn => absurd rfl hn

theorem RoundTrip.rcopyPut : Statement .rcopyPut := fun _ _ hn => absurd rfl hn

theorem RoundTrip.rcopyGet : Statement .rcopyGet := fun _ _ hn => absurd rfl hn

theorem RoundTrip.qfence : Statement .qfence := fun _ _ hn => absurd rfl hn

theorem RoundTrip.copyEntryComplete : Statement .copyEntryComplete := fun _ _ hn => absurd rfl hn

theorem RoundTrip.copyEntrySkip : Statement .copyEntrySkip := fun _ _ hn => absurd rfl hn

theorem RoundTrip.preemptRequest : Statement .preemptRequest := fun _ _ hn => absurd rfl hn

theorem RoundTrip.preemptTimeout : Statement .preemptTimeout := fun _ _ hn => absurd rfl hn

theorem RoundTrip.workgroupSave : Statement .workgroupSave := fun _ _ hn => absurd rfl hn

theorem RoundTrip.workgroupRestore : Statement .workgroupRestore := fun _ _ hn => absurd rfl hn

theorem RoundTrip.pfail : Statement .pfail := fun _ _ hn => absurd rfl hn

theorem RoundTrip.pfailWindowClose : Statement .pfailWindowClose := fun _ _ hn => absurd rfl hn

theorem RoundTrip.quiesce : Statement .quiesce := fun _ _ hn => absurd rfl hn

theorem RoundTrip.keepSave : Statement .keepSave := fun _ _ hn => absurd rfl hn

theorem RoundTrip.powerUp : Statement .powerUp := fun _ _ hn => absurd rfl hn

theorem RoundTrip.warmReset : Statement .warmReset := fun _ _ hn => absurd rfl hn

theorem RoundTrip.contextCreate : Statement .contextCreate := fun _ _ hn => absurd rfl hn

theorem RoundTrip.contextDestroy : Statement .contextDestroy := fun _ _ hn => absurd rfl hn

theorem RoundTrip.contextUpdate : Statement .contextUpdate := fun _ _ hn => absurd rfl hn

theorem RoundTrip.loadTable : Statement .loadTable := fun _ _ hn => absurd rfl hn

theorem RoundTrip.keyLoad : Statement .keyLoad := fun _ _ hn => absurd rfl hn

theorem RoundTrip.collectiveHandleCreate : Statement .collectiveHandleCreate := fun _ _ hn => absurd rfl hn

theorem RoundTrip.peerRecovering : Statement .peerRecovering := fun _ _ hn => absurd rfl hn

theorem RoundTrip.tokenRetransmit : Statement .tokenRetransmit := fun _ _ hn => absurd rfl hn

theorem RoundTrip.debugHalt : Statement .debugHalt := fun _ _ hn => absurd rfl hn

theorem RoundTrip.debugResume : Statement .debugResume := fun _ _ hn => absurd rfl hn

theorem RoundTrip.debugStep : Statement .debugStep := fun _ _ hn => absurd rfl hn

theorem RoundTrip.haltedWarpResume : Statement .haltedWarpResume := fun _ _ hn => absurd rfl hn

theorem RoundTrip.drain : Statement .drain := fun _ _ hn => absurd rfl hn

theorem RoundTrip.translationClaim : Statement .translationClaim := fun _ _ hn => absurd rfl hn

theorem RoundTrip.translationPublish : Statement .translationPublish := fun _ _ hn => absurd rfl hn

theorem RoundTrip.peerLost : Statement .peerLost := fun _ _ hn => absurd rfl hn

theorem RoundTrip.peerRecovered : Statement .peerRecovered := fun _ _ hn => absurd rfl hn

theorem RoundTrip.tokenReceived : Statement .tokenReceived := fun _ _ hn => absurd rfl hn

theorem RoundTrip.hostKillCommand : Statement .hostKillCommand := fun _ _ hn => absurd rfl hn

theorem RoundTrip.debuggerAttach : Statement .debuggerAttach := fun _ _ hn => absurd rfl hn

theorem RoundTrip.drainedLaunch : Statement .drainedLaunch := fun _ _ hn => absurd rfl hn

theorem codeWord_lo (codes : List (BitVec 16)) (k : Nat) : (codeWord codes k).extractLsb' 0 16 = codes.getD k 0 := by
  unfold codeWord
  refine BitVec.eq_of_getLsbD_eq fun i hi => ?_
  simp only [BitVec.getLsbD_extractLsb', BitVec.getLsbD_append]; simp [hi]

theorem codeWord_hi (codes : List (BitVec 16)) (k : Nat) : (codeWord codes k).extractLsb' 16 16 = codes.getD (k + 1) 0 := by
  unfold codeWord
  refine BitVec.eq_of_getLsbD_eq fun i hi => ?_
  simp only [BitVec.getLsbD_extractLsb', BitVec.getLsbD_append]; simp [hi]

theorem dict_first (h : Hdr) (len : Nat) (c : BitVec 16) :
    (word0 h 0x7F len (c.setWidth 18)).extractLsb' 14 16 = c ∧ bitsAt (word0 h 0x7F len (c.setWidth 18)) 30 2 = 0 := by
  have t := word0_top h 0x7F len (c.setWidth 18) 0 16 (by decide)
  have u := topBits h 0x7F len (c.setWidth 18) 16 2 (by decide)
  simp only [Nat.add_zero, Nat.reduceAdd] at t u
  refine ⟨t.trans ?_, u.trans ?_⟩
  · refine BitVec.eq_of_getLsbD_eq fun i hi => ?_
    simp [hi, show i < 18 by omega]
  · have := c.isLt
    simp [bitsAt]; omega

theorem RoundTrip.dict (codes : List (BitVec 16)) : Statement (.dict codes) := by
  intro hw _ _ rest
  have hl : codes.length = 5 ∨ codes.length = 9 := by simpa [Instr.wf, Instr.entry, Instr.baseRegs] using hw
  have ho := word0_opc { grd := 7, sw := false } 0x7F
  rcases hl with hl | hl
  · match codes, hl with
    | [a, b, c, d, e], _ =>
      have f := dict_first { grd := 7, sw := false } 1 a
      have l := word0_len { grd := 7, sw := false } 0x7F 1 (a.setWidth 18) (by decide)
      have o := ho 1 (a.setWidth 18) (by decide)
      have g := word0_grd { grd := 7, sw := false } 0x7F 1 (a.setWidth 18)
      have v := word0_sw { grd := 7, sw := false } 0x7F 1 (a.setWidth 18)
      simp only [encode, decode, List.length_cons, List.length_nil, Nat.reduceAdd, Nat.reduceEqDiff, if_false, List.cons_append, List.nil_append,
        List.getD_cons_zero, List.getD_cons_succ, l, o, g, v, dictCodes, codesOf, f, codeWord_lo, codeWord_hi, orIllegalEnc, hw]
      rfl
  · match codes, hl with
    | [a, b, c, d, e, a', b', c', d'], _ =>
      have f := dict_first { grd := 7, sw := false } 3 a
      have l := word0_len { grd := 7, sw := false } 0x7F 3 (a.setWidth 18) (by decide)
      have o := ho 3 (a.setWidth 18) (by decide)
      have g := word0_grd { grd := 7, sw := false } 0x7F 3 (a.setWidth 18)
      have v := word0_sw { grd := 7, sw := false } 0x7F 3 (a.setWidth 18)
      simp only [encode, decode, List.length_cons, List.length_nil, Nat.reduceAdd, if_true, List.cons_append, List.nil_append,
        List.getD_cons_zero, List.getD_cons_succ, l, o, g, v, dictCodes, codesOf, f, codeWord_lo, codeWord_hi, orIllegalEnc, hw]
      rfl


end Laws

end Sys2Proof
end

