-- ==== Sys2Proof/Tests/Slice0.lean ====
section
/-! SUPPORT. Tests: one step of each instruction and of each step of the device, with results worked out from the rules and tables of
spec/; decoding of the words that spec/ writes out; ill-formed terms; and witnesses for the hypotheses of the statements. -/

namespace Sys2Proof.Tests
open Sys2Proof.Machine

-- One test after another: every thread takes a stack of its own.
set_option Elab.async false

/-- The unguarded header. -/
def u : Hdr := { grd := 7, sw := false }

/-- A machine about to issue with a warp whose 32 lanes hold the registers given, under MM1, where no access to a coherent page stays late. -/
def start (vs : List (Nat × Word)) : State :=
  let s := (State.reset.withFetchWord 0 0).modCtx 0 fun c => { c with mmMode := 2 }
  s.modWarp 0 fun w => w.mapLanes fun _ l => { l with regs := vs }

/-- The state after an instruction. -/
def after (i : Instr) (s : State) : State :=
  match exec i s with
  | .next t => t
  | _ => s

/-- Lane `k` of the first warp. -/
def lane (s : State) (k : Nat) : Lane := ((s.warp? 0).map fun w => w.lane k).getD {}

/-- An extended form. -/
def ext (d a b c : BitVec 8) (sub : BitVec 8) (mod : BitVec 21) : Ext :=
  { len := .x3, d := d, a := a, b := b, c := c, sub := sub, scope := 0, mod := mod, lit := 0 }

/-- The value `y` in the field of word 2 that starts at bit `lo`. -/
def m (lo y : Nat) : BitVec 21 := BitVec.ofNat 21 (y * 2 ^ (lo - 11))

/-- Register `n` of lane 5 after an instruction that starts with the registers given. -/
def reg (i : Instr) (vs : List (Nat × Word)) (n : Nat) : Word := (lane (after i (start vs)) 5).v n

/-- The words of the pending results of lane 5. -/
def pends (i : Instr) (vs : List (Nat × Word)) : List (List (Nat × Word)) := (lane (after i (start vs)) 5).pend.map fun p => p.regs

/-- %fst of lane 5, or of its first pending result. -/
def flags (i : Instr) (vs : List (Nat × Word)) : Word := (lane (after i (start vs)) 5).fst
def pendFlags (i : Instr) (vs : List (Nat × Word)) : Word := ((lane (after i (start vs)) 5).pend.headD {}).fst

/-- Predicate `n` of lane 5. -/
def pred (i : Instr) (vs : List (Nat × Word)) (n : Nat) : Bool := (lane (after i (start vs)) 5).p n

/-- The form with a literal. -/
def withLit (x : Ext) (y : DWord) : Ext := { x with len := .x5, lit := y }


/-- The unguarded header of a switch point, and the header guarded by p0. -/
def usw : Hdr := { grd := 7, sw := true }
def g0 : Hdr := { grd := 0, sw := false }

/-- The same with the lanes' registers given, and p0 true in the lanes of `e` only. -/
def startIf (e : Mask) (vs : List (Nat × Word)) : State :=
  (start vs).modWarp 0 fun w => w.mapLanes fun k l => { l with preds := if bitAt e k then 1 else 0 }

/-- The slots of the first warp, slice by slice. -/
def slots (s : State) : List (List (PC × BitVec 4)) :=
  ((s.warp? 0).map fun w => w.slices.map fun sl => sl.slots.map fun a => (a.pc, a.mask)).getD []

/-- The causes that have arisen in the first warp: code, subcode, mask. -/
def causes (s : State) : List (Nat × Nat × Mask) := ((s.warp? 0).map fun w => w.causes.map fun c => (c.code, c.sub, c.mask)).getD []

/-- The PC value at which lane `k` is parked. -/
def parkedAt (s : State) (k : Nat) : Option PC := (lane s k).park.map fun p => p.pc

theorem exists_of_any {α : Type} {o : Option α} {p : α → Bool} (h : o.any p = true) : ∃ a, o = some a ∧ p a = true := by
  cases o with
  | none => simp at h
  | some a => exact ⟨a, rfl, by simpa using h⟩
/-! Integer instructions (R130-R138); the results are worked out from the tables of chapter 5. -/

theorem test_iadd_wraps : reg (.iadd u 3 1 2) [(1, 0xFFFFFFFF), (2, 2)] 3 = 1 := by decide +kernel
theorem test_iadd_sat : reg (.iaddExt u (ext 3 1 2 0 0 (m 11 1))) [(1, 0x7FFFFFFF), (2, 1)] 3 = 0x7FFFFFFF
    ∧ flags (.iaddExt u (ext 3 1 2 0 0 (m 11 1))) [(1, 0x7FFFFFFF), (2, 1)] ≠ 0 := by decide +kernel
theorem test_isub : reg (.isub u 3 1 2) [(1, 1), (2, 2)] 3 = 0xFFFFFFFF := by decide +kernel
theorem test_isub_sat_uns : reg (.isubExt u (ext 3 1 2 0 0 (m 11 3))) [(1, 1), (2, 2)] 3 = 0 := by decide +kernel
theorem test_iaddc_carry : reg (.iaddc u (ext 3 1 2 0 0 (m 11 1))) [(1, 0xFFFFFFFF), (2, 1)] 3 = 0
    ∧ pred (.iaddc u (ext 3 1 2 0 0 (m 11 1))) [(1, 0xFFFFFFFF), (2, 1)] 1 = true := by decide +kernel
theorem test_imul : reg (.imul u 3 1 2) [(1, 0xFFFFFFFF), (2, 0xFFFFFFFF)] 3 = 1 := by decide +kernel
theorem test_imul_ext : reg (.imulExt u (ext 3 1 2 0 0 0)) [(1, 0x10000), (2, 0x10001)] 3 = 0x10000 := by decide +kernel
theorem test_imulh_signed : reg (.imulh u 3 1 2) [(1, 0xFFFFFFFF), (2, 2)] 3 = 0xFFFFFFFF := by decide +kernel
theorem test_imulh_uns : reg (.imulhExt u (ext 3 1 2 0 0 (m 11 1))) [(1, 0xFFFFFFFF), (2, 2)] 3 = 1 := by decide +kernel
theorem test_imad : reg (.imad u (ext 3 1 2 4 0 0)) [(1, 3), (2, 5), (4, 7)] 3 = 22 := by decide +kernel
theorem test_imadw_signed : reg (.imadw u (ext 6 1 2 4 0 0)) [(1, 0xFFFFFFFF), (2, 1)] 7 = 0xFFFFFFFF := by decide +kernel
theorem test_imin_signed : reg (.imin u 3 1 2) [(1, 0xFFFFFFFF), (2, 2)] 3 = 0xFFFFFFFF := by decide +kernel
theorem test_imin_uns : reg (.iminExt u (ext 3 1 2 0 0 (m 11 1))) [(1, 0xFFFFFFFF), (2, 2)] 3 = 2 := by decide +kernel
theorem test_imax_signed : reg (.imax u 3 1 2) [(1, 0xFFFFFFFF), (2, 2)] 3 = 2 := by decide +kernel
theorem test_imax_uns : reg (.imaxExt u (ext 3 1 2 0 0 (m 11 1))) [(1, 0xFFFFFFFF), (2, 2)] 3 = 0xFFFFFFFF := by decide +kernel
theorem test_iabs_corner : reg (.iabs u 3 1) [(1, 0x80000000)] 3 = 0x80000000 := by decide +kernel
theorem test_iabs_sat : reg (.iabsExt u (ext 3 1 0 0 0 (m 11 1))) [(1, 0x80000000)] 3 = 0x7FFFFFFF := by decide +kernel
theorem test_ineg : reg (.ineg u 3 1) [(1, 1)] 3 = 0xFFFFFFFF := by decide +kernel
theorem test_ineg_sat : reg (.inegExt u (ext 3 1 0 0 0 (m 11 1))) [(1, 0x80000000)] 3 = 0x7FFFFFFF := by decide +kernel
theorem test_and : reg (.andBase u 3 1 2) [(1, 0xC), (2, 0xA)] 3 = 8 ∧ reg (.andExt u (ext 3 1 2 0 0 0)) [(1, 0xC), (2, 0xA)] 3 = 8 := by decide +kernel
theorem test_or : reg (.orBase u 3 1 2) [(1, 0xC), (2, 0xA)] 3 = 0xE ∧ reg (.orExt u (ext 3 1 2 0 0 0)) [(1, 0xC), (2, 0xA)] 3 = 0xE := by decide +kernel
theorem test_xor : reg (.xorBase u 3 1 2) [(1, 0xC), (2, 0xA)] 3 = 6 ∧ reg (.xorExt u (ext 3 1 2 0 0 0)) [(1, 0xC), (2, 0xA)] 3 = 6 := by decide +kernel
theorem test_not : reg (.notBase u 3 1) [(1, 1)] 3 = 0xFFFFFFFE ∧ reg (.notExt u (ext 3 1 0 0 0 0)) [] 3 = 0xFFFFFFFF := by decide +kernel
/-- R132: tt 0xD8 is the bitwise select (a AND b) OR (NOT a AND c). -/
theorem test_lop3_select : reg (.lop3 u (ext 3 1 2 4 0 (m 11 0xD8))) [(1, 0xF0), (2, 0xCC), (4, 0xAA)] 3 = 0xCA := by decide +kernel
theorem test_popc : reg (.popc u 3 1) [(1, 0x80000001)] 3 = 2 ∧ reg (.popcExt u (ext 3 1 0 0 0 0)) [(1, 0xFFFFFFFF)] 3 = 32 := by decide +kernel
theorem test_clz : reg (.clz u 3 1) [] 3 = 32 ∧ reg (.clzExt u (ext 3 1 0 0 0 0)) [(1, 1)] 3 = 31 := by decide +kernel
theorem test_brev : reg (.brev u 3 1) [(1, 1)] 3 = 0x80000000 ∧ reg (.brevExt u (ext 3 1 0 0 0 0)) [(1, 6)] 3 = 0x60000000 := by decide +kernel
theorem test_shl : reg (.shl u 3 1 31) [(1, 3)] 3 = 0x80000000 ∧ reg (.shlExt u (ext 3 1 2 0 1 0)) [(1, 3), (2, 32)] 3 = 0 := by decide +kernel
theorem test_shr : reg (.shr u 3 1 31) [(1, 0x80000000)] 3 = 1 ∧ reg (.shrExt u (ext 3 1 2 0 1 0)) [(1, 3), (2, 32)] 3 = 0 := by decide +kernel
theorem test_sar : reg (.sar u 3 1 4) [(1, 0x80000000)] 3 = 0xF8000000 ∧ reg (.sarExt u (ext 3 1 2 0 1 0)) [(1, 0x80000000), (2, 40)] 3 = 0xFFFFFFFF := by
  decide +kernel
theorem test_rot : reg (.rot u 3 1 4) [(1, 0x80000001)] 3 = 0x18 ∧ reg (.rotExt u (ext 3 1 2 0 1 0)) [(1, 0x80000001), (2, 36)] 3 = 0x18 := by decide +kernel
theorem test_shf : reg (.shf u (ext 3 1 2 0 0 (m 12 1 + m 13 8))) [(1, 0x12345678), (2, 0x9ABCDEF0)] 3 = 0xBCDEF012 := by decide +kernel
theorem test_bfe_sign : reg (.bfe u (ext 3 1 2 0 0 0)) [(1, 0xF0), (2, 0x0404)] 3 = 0xFFFFFFFF := by decide +kernel
theorem test_bfi : reg (.bfi u (ext 3 1 2 4 0 0)) [(1, 0xF), (2, 0), (4, 0x0408)] 3 = 0xF00 := by decide +kernel
theorem test_icmp_lt : pred (.icmp u (ext 1 1 2 0 0 (m 11 2))) [(1, 0xFFFFFFFF), (2, 0)] 1 = true
    ∧ pred (.icmp u (ext 1 1 2 0 0 (m 11 2 + m 14 1))) [(1, 0xFFFFFFFF), (2, 0)] 1 = false := by decide +kernel
theorem test_isel : reg (.isel u (ext 3 1 2 0 0 0)) [(1, 5), (2, 9)] 3 = 9 ∧ reg (.isel u (ext 3 1 2 7 0 0)) [(1, 5), (2, 9)] 3 = 5 := by decide +kernel
theorem test_mov : reg (.mov u 3 1) [(1, 5)] 3 = 5 ∧ reg (.movExt u (ext 4 2 0 0 0 (m 11 1))) [(2, 1), (3, 7)] 5 = 7 := by decide +kernel
theorem test_movi_sign : reg (.movi u (ext 3 0 0 0 0 (m 12 0x80000))) [] 3 = 0xFFF80000 := by decide +kernel
theorem test_lea : reg (.lea u (ext 4 2 1 0 0 (m 11 2))) [(1, 0xFFFFFFFF), (2, 8)] 4 = 4 := by decide +kernel
theorem test_iadd64_carry : reg (.iadd64 u 4 2 6) [(2, 0xFFFFFFFF), (6, 1)] 5 = 1 ∧ reg (.iadd64Ext u (ext 4 2 6 0 0 0)) [(2, 0xFFFFFFFF), (6, 1)] 4 = 0 := by
  decide +kernel
/-- R117: tt 0xA8 is p2 AND (p3 OR p4); with p7, which reads 1, in the last place it is p2. -/
theorem test_plop : pred (.plop u (ext 1 7 2 7 0 (m 11 0xA8))) [] 1 = true := by decide +kernel
theorem test_rgn : (lane (after (.rgn u) (start [])) 5).region = 0x20004 := by decide +kernel
theorem test_nop : (lane (after (.nop u) (start [(1, 7)])) 5).regs = [(1, 7)] := by decide +kernel
/-! Float instructions and conversions (R60-R73, R85-R88, R139-R146); the results are those of the tables of chapters 3 and 5. -/

theorem test_fadd : reg (.fadd u 3 1 2) [(1, 0x3F800000), (2, 0x40000000)] 3 = 0x40400000 := by decide +kernel
/-- 2^24 + 1 lies half way between 2^24 and 2^24 + 2. -/
theorem test_fadd_rounds_up : reg (.faddExt u (ext 3 1 2 0 0 (m 11 3))) [(1, 0x4B800000), (2, 0x3F800000)] 3 = 0x4B800001
    ∧ flags (.faddExt u (ext 3 1 2 0 0 (m 11 3))) [(1, 0x4B800000), (2, 0x3F800000)] = Flag.inx := by decide +kernel
theorem test_fmul : reg (.fmul u 3 1 2) [(1, 0x3F000000), (2, 0xC0000000)] 3 = 0xBF800000 := by decide +kernel
/-- Zero times infinity is the canonical NaN and sets INV. -/
theorem test_fmul_invalid : reg (.fmulExt u (ext 3 1 2 0 0 0)) [(2, 0x7F800000)] 3 = 0x7FC00000
    ∧ flags (.fmulExt u (ext 3 1 2 0 0 0)) [(2, 0x7F800000)] = Flag.inv := by decide +kernel
/-- R141: one rounding; (1 + 2^-12)^2 - 1 is 2^-11 + 2^-24. -/
theorem test_ffma_once : reg (.ffma u (ext 3 1 1 4 0 0)) [(1, 0x3F800800), (4, 0xBF800000)] 3 = 0x3A000400 := by decide +kernel
theorem test_fmin_zeros : reg (.fmin u 3 1 2) [(2, 0x80000000)] 3 = 0x80000000 ∧ reg (.fminExt u (ext 3 1 2 0 0 0)) [(1, 0x7FC00000), (2, 0x3F800000)] 3 = 0x3F800000 := by
  decide +kernel
theorem test_fmax_zeros : reg (.fmax u 3 1 2) [(2, 0x80000000)] 3 = 0 ∧ reg (.fmaxExt u (ext 3 1 2 0 0 0)) [(1, 0x3F800000), (2, 0x40000000)] 3 = 0x40000000 := by
  decide +kernel
theorem test_fcmp_unordered : pred (.fcmp u (ext 1 1 2 0 0 (m 11 1))) [(1, 0x7FC00000)] 1 = true ∧ pred (.fcmp u (ext 1 1 2 0 0 0)) [(1, 0x80000000)] 1 = true := by
  decide +kernel
/-- R144: with .rn, 2.5 gives 2.0 and -3.5 gives -4.0. -/
theorem test_frnd : reg (.frnd u 3 1) [(1, 0x40200000)] 3 = 0x40000000 ∧ reg (.frndExt u (ext 3 1 0 0 0 0)) [(1, 0xC0600000)] 3 = 0xC0800000 := by decide +kernel
theorem test_dadd : reg (.dadd u 4 2 6) [(3, 0x3FF00000), (7, 0x3FF00000)] 5 = 0x40000000 ∧ reg (.daddExt u (ext 4 2 6 0 0 0)) [(3, 0x3FF00000), (7, 0xBFF00000)] 5 = 0 := by
  decide +kernel
theorem test_dmul : reg (.dmul u 4 2 6) [(3, 0x40080000), (7, 0x40000000)] 5 = 0x40180000 ∧ reg (.dmulExt u (ext 4 2 6 0 0 0)) [(3, 0x40080000), (7, 0xC0000000)] 5 = 0xC0180000 := by
  decide +kernel
theorem test_dfma : reg (.dfma u (ext 4 2 6 8 0 0)) [(3, 0x40000000), (7, 0x40000000), (9, 0x3FF00000)] 5 = 0x40140000 := by decide +kernel
theorem test_dmin : reg (.dmin u 4 2 6) [(3, 0x3FF00000), (7, 0xBFF00000)] 5 = 0xBFF00000 ∧ reg (.dminExt u (ext 4 2 6 0 0 0)) [(3, 0x3FF00000), (7, 0x40000000)] 5 = 0x3FF00000 := by
  decide +kernel
theorem test_dmax : reg (.dmax u 4 2 6) [(3, 0x3FF00000), (7, 0xBFF00000)] 5 = 0x3FF00000 ∧ reg (.dmaxExt u (ext 4 2 6 0 0 0)) [(3, 0x3FF00000), (7, 0x40000000)] 5 = 0x40000000 := by
  decide +kernel
theorem test_dcmp : pred (.dcmp u (ext 1 2 6 0 0 (m 11 2))) [(3, 0xBFF00000)] 1 = true ∧ pred (.dcmp u (ext 1 2 6 0 0 (m 11 7))) [(3, 0x7FF80000)] 1 = true := by decide +kernel
/-- R145: the special values. -/
theorem test_fsfu_rcp : pends (.fsfuRcp u (ext 3 1 0 0 0 0)) [(1, 0x40000000)] = [[(3, 0x3F000000)]] ∧ pendFlags (.fsfuRcp u (ext 3 1 0 0 0 0)) [] = Flag.dz := by decide +kernel
theorem test_fsfu_sqrt : pends (.fsfuSqrt u (ext 3 1 0 0 0 0)) [(1, 0x40800000)] = [[(3, 0x40000000)]] ∧ pendFlags (.fsfuSqrt u (ext 3 1 0 0 0 0)) [(1, 0xBF800000)] = Flag.inv := by
  decide +kernel
theorem test_fsfu_rsq : pends (.fsfuRsq u (ext 3 1 0 0 0 0)) [(1, 0x41800000)] = [[(3, 0x3E800000)]] := by decide +kernel
theorem test_fsfu_exp2 : pends (.fsfuExp2 u (ext 3 1 0 0 0 0)) [(1, 0x40400000)] = [[(3, 0x41000000)]] ∧ pends (.fsfuExp2 u (ext 3 1 0 0 0 0)) [(1, 0xFF800000)] = [[(3, 0)]] := by
  decide +kernel
theorem test_fsfu_log2 : pends (.fsfuLog2 u (ext 3 1 0 0 0 0)) [(1, 0x41000000)] = [[(3, 0x40400000)]] ∧ pends (.fsfuLog2 u (ext 3 1 0 0 0 0)) [] = [[(3, 0xFF800000)]] := by decide +kernel
theorem test_fsfu_sin : pends (.fsfuSin u (ext 3 1 0 0 0 0)) [(1, 0x80000000)] = [[(3, 0x80000000)]] := by decide +kernel
theorem test_fsfu_cos : pends (.fsfuCos u (ext 3 1 0 0 0 0)) [] = [[(3, 0x3F800000)]] := by decide +kernel
theorem test_dsfu_rcp : pends (.dsfuRcp u (ext 4 2 0 0 0 0)) [(3, 0x40000000)] = [[(4, 0), (5, 0x3FE00000)]] := by decide +kernel
theorem test_dsfu_sqrt : pends (.dsfuSqrt u (ext 4 2 0 0 1 0)) [(3, 0x40100000)] = [[(4, 0), (5, 0x40000000)]] := by decide +kernel
/-- R146: the elements 1.0 × 2.0 + 1.0 and 2.0 × 2.0 + 1.0. -/
theorem test_hfma2 : reg (.hfma2 u (ext 3 1 2 4 0 0)) [(1, 0x40003F80), (2, 0x40004000), (4, 0x3F803F80)] 3 = 0x40A04040 := by decide +kernel
/-- "Worked conversions" of chapter 3: 300.0 and 500.0 to E4M3. -/
theorem test_cvt_e4m3 : reg (.cvt u (ext 3 1 0 0 0 (m 11 3 + m 15 1))) [(1, 0x43960000)] 3 = 0x79
    ∧ flags (.cvt u (ext 3 1 0 0 0 (m 11 3 + m 15 1))) [(1, 0x43FA0000)] = Flag.ovf ||| Flag.inx ||| Flag.sat := by decide +kernel
/-- "Worked conversions": -3.5 to s8. -/
theorem test_cvt_s8 : reg (.cvt u (ext 3 1 0 0 0 (m 11 4 + m 15 1))) [(1, 0xC0600000)] 3 = 0xFFFFFFFC := by decide +kernel
/-- "Worked conversions": 9, -8, 3, -1 pack to s4 with SAT. -/
theorem test_pack_s4 : reg (.pack u (ext 3 20 0 0 0 (m 11 5 + m 15 6))) [(20, 9), (21, 0xFFFFFFF8), (22, 3), (23, 0xFFFFFFFF)] 3 = 0xF397
    ∧ flags (.pack u (ext 3 20 0 0 0 (m 11 5 + m 15 6))) [(20, 9), (21, 0xFFFFFFF8), (22, 3), (23, 0xFFFFFFFF)] = Flag.sat := by decide +kernel
/-- "Worked conversions": 0x8F17 unpacks with Q4Z. -/
theorem test_unpk_s4 : (let i : Instr := .unpk u (ext 8 2 0 0 0 (m 11 6 + m 15 5))
    let vs : List (Nat × Word) := [(2, 0x8F17)]
    (reg i vs 8, reg i vs 9, reg i vs 10, reg i vs 11) = (7, 1, 0xFFFFFFFF, 0) ∧ flags i vs = Flag.q4z) := by decide +kernel
theorem test_fclass_nan : pred (.fclass u (ext 0 4 0 0 0 (m 11 1 + m 15 1 + m 16 0x300))) [(4, 0x7FC00000)] 0 = true
    ∧ pred (.fclass u (ext 0 4 0 0 0 (m 11 1 + m 15 1 + m 16 0x300))) [(4, 0x7F800000)] 0 = false := by decide +kernel

/-! Control flow (R89-R121); the code lies at 0x20000. -/

theorem test_bra : slots (after (.bra u 4) (start [])) = List.replicate 8 [(0x20010, 15)] := by decide +kernel
/-- R91: lanes 0 to 5 branch back; a slice that diverges holds the lower PC first. -/
theorem test_bra_diverges : (slots (after (.bra g0 0x3FFFC) (startIf 0x3F []))).take 3 = [[(0x1FFF0, 15)], [(0x1FFF0, 3), (0x20004, 12)], [(0x20004, 15)]] := by
  decide +kernel
theorem test_bra_literal : slots (after (.braLit u 0x30000) (start [])) = List.replicate 8 [(0x30000, 15)]
    ∧ causes (after (.braLit u 0x30002) (start [])) = [(0x09, 0, 0xFFFFFFFF)] := by decide +kernel
theorem test_bru : slots (after (.bru u 2) (start [])) = List.replicate 8 [(0x20008, 15)]
    ∧ causes (after (.bru g0 2) (startIf 0xF [])) = [(0x05, 0, 0xFFFFFFF0)] := by decide +kernel
theorem test_bru_literal : slots (after (.bruLit u 0x30000) (start [])) = List.replicate 8 [(0x30000, 15)]
    ∧ causes (after (.bruLit g0 0x30000) (startIf 0xF [])) = [(0x05, 0, 0xFFFFFFF0)] := by decide +kernel
/-- R110: the link pair is the last two registers. -/
theorem test_call : (lane (after (.call u 4) (start [])) 5).v 254 = 0x20004 ∧ slots (after (.call u 4) (start [])) = List.replicate 8 [(0x20010, 15)] := by decide +kernel
theorem test_call_literal : (lane (after (.callLit u 0x30000) (start [])) 5).v 254 = 0x2000C
    ∧ slots (after (.callLit u 0x30000) (start [])) = List.replicate 8 [(0x30000, 15)] := by decide +kernel
theorem test_brx : slots (after (.brx u 2) (start [(2, 0x30000)])) = List.replicate 8 [(0x30000, 15)]
    ∧ causes (after (.brx u 2) (start [(2, 0x30001)])) = [(0x09, 0, 0xFFFFFFFF)] := by decide +kernel
theorem test_callx : (lane (after (.callx u 2) (start [(2, 0x30000)])) 5).v 254 = 0x20004
    ∧ slots (after (.callx u 2) (start [(2, 0x30000)])) = List.replicate 8 [(0x30000, 15)] := by decide +kernel
/-- R111: RET takes a code index in bits 60 to 63. -/
theorem test_ret : slots (after (.ret u) (start [(254, 0x30000), (255, 0x20000000)])) = List.replicate 8 [(0x2000000000030000, 15)]
    ∧ causes (after (.ret u) (start [(254, 0x30002)])) = [(0x09, 0, 0xFFFFFFFF)] := by decide +kernel
theorem test_exit : (lane (after (.exitItem g0) (startIf 1 [])) 0).vacant = true ∧ (lane (after (.exitItem g0) (startIf 1 [])) 1).vacant = false := by decide +kernel
theorem test_yield : (lane (after (.yield u) (start [])) 5).yieldTo = 8 := by decide +kernel
theorem test_brk : causes (after (.brk u 9) (start [])) = [(0x22, 9, 0xFFFFFFFF)] ∧ causes (after (.brk g0 9) (start [])) = [] := by decide +kernel
theorem test_trap : causes (after (.trap u (ext 0 0 0 0 0 (m 11 0x5A))) (start [])) = [(0x23, 0x5A, 0xFFFFFFFF)] ∧ causes (after (.trap g0 (ext 0 0 0 0 0 0)) (start [])) = [] := by
  decide +kernel

/-- The warp with join 1 as given. -/
def withJoin (j : Join) (s : State) : State := s.modWarp 0 fun w => { w with joins := setAt w.joins 1 j }

/-- Join 1 after. -/
def join1 (s : State) : Join := ((s.warp? 0).map fun w => w.join 1).getD {}

theorem test_jset : join1 (after (.jset u (ext 1 2 0 0 0 0)) (start [(2, 0xFF)])) = { expect := 0xFF, arrived := 0 }
    ∧ join1 (after (.jset g0 (ext 1 0 0 0 0 (m 11 1))) (startIf 0xF0 [])) = { expect := 0xF0, arrived := 0 } := by decide +kernel
theorem test_jarr : join1 (after (.jarr g0 (ext 1 0 0 0 0 0)) (withJoin { expect := 0xFF } (startIf 0xFF0 []))) = { expect := 0xFF, arrived := 0xF0 }
    ∧ (lane (after (.jarr g0 (ext 1 0 0 0 0 0)) (withJoin { expect := 0xFF } (startIf 0xFF0 []))) 5).region = 0x2000C := by decide +kernel
theorem test_jwait : parkedAt (after (.jwait u (ext 1 0 0 0 0 0)) (start [])) 5 = some 0x2000C ∧ slots (after (.jwait u (ext 1 0 0 0 0 0)) (start [])) = List.replicate 8 [] := by
  decide +kernel
theorem test_join : (let t := after (.joinAt g0 (ext 1 0 0 0 0 0)) (withJoin { expect := 0xF } (startIf 1 []))
    join1 t = { expect := 0xF, arrived := 1 } ∧ parkedAt t 0 = some 0x2000C ∧ parkedAt t 1 = none) := by decide +kernel
theorem test_jget : ((lane (after (.jget u (ext 3 1 0 0 0 (m 11 1))) (withJoin { expect := 0xFF, arrived := 0xF } (start []))) 5).pend.map fun p => p.regs) = [[(3, 0xF)]]
    ∧ ((lane (after (.jget u (ext 3 1 0 0 0 0)) (withJoin { expect := 0xFF, arrived := 0xF } (start []))) 5).pend.map fun p => p.regs) = [[(3, 0xFF)]] := by decide +kernel

/-! Warp-wide instructions (R102-R106, R122-R125): the arrival, the pass, and the results of worked examples. -/

/-- The state after the lanes have arrived at an instruction and it has issued. -/
def wide (i : Instr) (s : State) : State :=
  match exec .warpWideIssue { after i s with event := some (.warpWideIssue 0 0x20000) } with
  | .next t => t
  | _ => s

/-- Lane `k`'s pending words, predicates and %fst bits. -/
def got (s : State) (k : Nat) : List (List (Nat × Word) × List (Nat × Bool) × Word) := (lane s k).pend.map fun p => (p.regs, p.preds, p.fst)

/-- Every lane's v1 is its number, and v9 has every bit set. -/
def numbered : State := (startIf 0xFFFF [(9, 0xFFFFFFFF)]).modWarp 0 fun w => w.mapLanes fun k l => { l with regs := (1, BitVec.ofNat 32 k) :: l.regs }

theorem test_arrival : parkedAt (after (.voteAny u (ext 1 0 0 0 0 (m 11 1))) numbered) 5 = some 0x20000
    ∧ causes (after (.voteAny u (ext 1 0 9 0 0 0)) numbered) = [] ∧ causes (after (.voteAny u (ext 1 0 2 0 0 0)) numbered) = [(0x06, 0, 0xFFFFFFFF)]
    ∧ causes (after (.voteAny u (ext 1 0 1 0 0 0)) numbered) = [(0x05, 0, 0xFFFFFFFE)] := by decide +kernel
theorem test_vote_any : got (wide (.voteAny u (ext 1 0 0 0 0 (m 11 1))) numbered) 20 = [([], [(1, true)], 0)] := by decide +kernel
theorem test_vote_all : got (wide (.voteAll u (ext 1 0 0 0 0 (m 11 1))) numbered) 20 = [([], [(1, false)], 0)] := by decide +kernel
theorem test_vote_uni : got (wide (.voteUni u (ext 1 0 0 0 0 (m 11 1 + m 18 1))) numbered) 20 = [([], [(1, true)], 0)] := by decide +kernel
theorem test_vote_bal : got (wide (.voteBal u (ext 3 0 0 0 0 (m 11 1))) numbered) 20 = [([(3, 0xFFFF)], [], 0)] := by decide +kernel
theorem test_shfl_idx : got (wide (.shflIdx u (ext 3 1 0 0 0 (m 11 1 + m 12 1 + m 13 7))) numbered) 20 = [([(3, 7)], [], 0)] := by decide +kernel
theorem test_shfl_up : got (wide (.shflUp u (ext 3 1 0 0 0 (m 11 1 + m 12 1 + m 13 3))) numbered) 1 = [([(3, 30)], [], 0)] := by decide +kernel
theorem test_shfl_down : got (wide (.shflDown u (ext 3 1 0 0 0 (m 11 1 + m 12 1 + m 13 3 + m 18 2))) numbered) 6 = [([(3, 1)], [], 0)] := by decide +kernel
theorem test_shfl_xor : got (wide (.shflXor u (ext 3 1 0 0 0 (m 11 1 + m 12 1 + m 13 1))) numbered) 6 = [([(3, 7)], [], 0)] := by decide +kernel
theorem test_match : got (wide (.matchEq u (ext 3 9 0 0 0 (m 11 1 + m 18 1))) numbered) 20 = [([(3, 0xFFFF0000)], [], 0)] := by decide +kernel
theorem test_match_differ : got (wide (.matchEq u (ext 3 1 0 0 0 (m 11 1))) numbered) 20 = [([(3, 0x100000)], [], 0)] := by decide +kernel
theorem test_redux_add : got (wide (.redux u (ext 3 1 0 0 0 (m 11 1))) numbered) 20 = [([(3, 496)], [], 0)] := by decide +kernel
theorem test_redux_max : got (wide (.redux u (ext 3 1 0 0 0 (m 11 1 + m 12 2 + m 18 3))) numbered) 5 = [([(3, 7)], [], 0)] := by decide +kernel

/-! Memory (R223-R252): data at 0x40000, with the low register of the address pair in v2. -/

/-- The machine with bytes at 0x40000, and v2 holding that address. -/
def withData (vs : List (Nat × Word)) (bs : List Byte) : State :=
  let s := start vs
  { s with mem := physPuts s.mem 0 0x40000 bs }

/-- The same with p0 true in the first two lanes only. -/
def withDataIf (vs : List (Nat × Word)) (bs : List Byte) : State := { startIf 3 vs with mem := (withData [] bs).mem }

/-- The line at 0x40000 is poisoned: no store to it stays late. -/
def stuck (s : State) : State := s.setMem { s.mem with poison := [(0x1000, ())] }

/-- The bytes of physical memory, read under key 0. -/
def bytesAt (s : State) (a n : Nat) : List Byte := physRead s.mem 0 a n

/-- Lane `k`'s pending words. -/
def pendAt (s : State) (k : Nat) : List (List (Nat × Word)) := (lane s k).pend.map fun p => p.regs

/-- Registers by lane, otherwise those given. -/
def byLane (s : State) (f : Nat → List (Nat × Word)) : State := s.modWarp 0 fun w => w.mapLanes fun k l => { l with regs := f k }

theorem test_ld : pendAt (after (.ld g0 3 2 0x3F) (withDataIf [(2, 0x40004)] [0x78, 0x56, 0x34, 0x12])) 1 = [[(3, 0x12345678)]] := by decide +kernel
theorem test_ld_signed_byte : pendAt (after (.ldExt g0 (ext 3 2 0 0 0 (m 11 1 + m 14 1 + m 20 2))) (withDataIf [(2, 0x40000)] [0, 0, 0x80])) 1 = [[(3, 0xFFFFFF80)]]
    ∧ pendAt (after (.ldExt g0 (ext 4 2 1 0 0 (m 11 3 + m 19 1))) (withDataIf [(1, 0xFFFFFFFC), (2, 0x40004)] [1, 0, 0, 0, 2])) 1 = [[(4, 1), (5, 2)]] := by decide +kernel
/-- R241: an address in the second GiB does not translate. -/
theorem test_ld_unmapped : (let t := after (.ld g0 3 2 0) (startIf 3 [(2, 0x40000000)])
    (lane t 1).wait = some .jasper ∧ ((t.warp? 0).map fun w => w.jasper.map fun c => (c.code, c.sub)) = some [(0x0E, 1)]) := by decide +kernel
theorem test_ld_misaligned : causes (after (.ldExt g0 (ext 3 2 0 0 0 (m 15 1))) (startIf 3 [(2, 0x40002)])) = [(0x09, 0, 3)]
    ∧ pendAt (after (.ldExt g0 (ext 3 2 0 0 0 0)) (withDataIf [(2, 0x40002)] [9, 9, 1, 2, 3, 4])) 1 = [[(3, 0x04030201)]] := by decide +kernel
theorem test_st : bytesAt (after (.st g0 4 2 1) (stuck (startIf 4 [(2, 0x40000), (4, 0x12345678)]))) 0x40004 5 = [0x78, 0x56, 0x34, 0x12, 0] := by decide +kernel
/-- R248: the lanes store in ascending order, and the last one stays. -/
theorem test_st_same_address : bytesAt (after (.stExt g0 (ext 4 2 0 0 0 (m 11 2))) (byLane (stuck (startIf 7 [])) fun k => [(2, 0x40000), (4, BitVec.ofNat 32 (k + 0x100))])) 0x40000 4 = [2, 1, 0, 0] := by
  decide +kernel
theorem test_lds_sts : (let t := after (.sts u 3 2 1) (start [(2, 0x10), (3, 0x12345678)])
    ((t.wg? 0).map fun g => scratchRead 0 g 0x14 4) = some [0x78, 0x56, 0x34, 0x12]) := by decide +kernel

/-- Workgroup 0 with bytes at the start of its scratchpad. -/
def withScratch (bs : List Byte) (s : State) : State := s.modWg 0 fun g => scratchWrite g 0 bs

theorem test_lds : pendAt (after (.lds u 3 2 1) (withScratch [1, 2, 3, 4, 5, 6, 7, 8] (start []))) 5 = [[(3, 0x08070605)]] := by decide +kernel
theorem test_lds_signed_half : pendAt (after (.ldsExt u (ext 3 2 0 0 0 (m 11 2 + m 14 1 + m 20 2))) (withScratch [1, 2, 3, 0xF4] (start []))) 5 = [[(3, 0xFFFFF403)]] := by decide +kernel
theorem test_lds_bounds : causes (after (.ldsExt u (ext 3 2 0 0 0 0)) (start [(2, 0x4000)])) = [(0x0D, 0, 0xFFFFFFFF)]
    ∧ causes (after (.ldsExt u (ext 3 2 0 0 0 0)) (start [(2, 0x4002)])) = [(0x09, 0, 0xFFFFFFFF)] := by decide +kernel
theorem test_sts_wide : ((after (.stsExt u (ext 4 2 0 0 0 (m 11 3))) (start [(4, 0x01020304), (5, 0x05060708)])).wg? 0).map (fun g => scratchRead 0 g 0 8) =
    some [4, 3, 2, 1, 8, 7, 6, 5] := by decide +kernel

/-- R229-R230: a key, and a workgroup whose slot 2 holds it. -/
def withTag (s : State) : State := s.modWg 0 fun g => { g with tags := setAt g.tags 2 { valid := true, key := 7, pin := false, stamp := 1 } }

theorem test_tagl : pendAt (after (.tagl u (ext 4 2 0 0 0 (m 11 1))) (withTag (start [(2, 7)]))) 5 = [[(4, 0x80)]]
    ∧ pendAt (after (.tagl u (ext 4 2 0 0 0 0)) (withTag (start [(2, 8)]))) 5 = [[(4, 0xFFFFFFFF)]] := by decide +kernel
/-- The first lane installs in the lowest invalid slot, the second one hits. -/
theorem test_tagi : pendAt (after (.tagi g0 (ext 4 2 0 6 0 0)) (withTag (startIf 3 [(2, 9)]))) 0 = [[(4, 0), (6, 0xFFFFFFFF), (7, 0xFFFFFFFF)]]
    ∧ pendAt (after (.tagi g0 (ext 4 2 0 6 0 0)) (withTag (startIf 3 [(2, 9)]))) 1 = [[(4, 0x40000000), (6, 0xFFFFFFFF), (7, 0xFFFFFFFF)]] := by decide +kernel
theorem test_tage : (let t := after (.tage g0 (ext 4 2 0 6 0 0)) (withTag (startIf 3 [(2, 7)]))
    pendAt t 0 = [[(4, 2), (6, 7), (7, 0)]] ∧ pendAt t 1 = [[(4, 0xFFFFFFFF), (6, 0xFFFFFFFF), (7, 0xFFFFFFFF)]]) := by decide +kernel
theorem test_pref : slots (after (.pref u (ext 0 2 0 0 0 0)) (start [(2, 0x40000)])) = List.replicate 8 [(0x2000C, 15)] := by decide +kernel

/-! Atomics and REDs (R256-R267), each lane adding its part to the word that the lanes below it left. -/

theorem test_atom_add : (let t := after (.atomAdd g0 (ext 3 2 4 0 0 (m 15 1))) (withDataIf [(2, 0x40000), (4, 2)] [10])
    bytesAt t 0x40000 4 = [14, 0, 0, 0] ∧ pendAt t 1 = [[(3, 12)]]) := by decide +kernel
theorem test_atom_min : bytesAt (after (.atomMin g0 (ext 3 2 4 0 0 (m 14 1 + m 15 1))) (withDataIf [(2, 0x40000), (4, 0xFFFFFFFF)] [10])) 0x40000 4 = [0xFF, 0xFF, 0xFF, 0xFF] := by decide +kernel
theorem test_atom_max : bytesAt (after (.atomMax g0 (ext 3 2 4 0 0 (m 14 1 + m 15 1))) (withDataIf [(2, 0x40000), (4, 0xFFFFFFFF)] [10])) 0x40000 4 = [10, 0, 0, 0] := by decide +kernel
theorem test_atom_and : bytesAt (after (.atomAnd g0 (ext 3 2 4 0 0 (m 15 1))) (withDataIf [(2, 0x40000), (4, 12)] [10])) 0x40000 4 = [8, 0, 0, 0] := by decide +kernel
theorem test_atom_or : bytesAt (after (.atomOr g0 (ext 3 2 4 0 0 (m 15 1))) (withDataIf [(2, 0x40000), (4, 12)] [10])) 0x40000 4 = [14, 0, 0, 0] := by decide +kernel
theorem test_atom_xor : bytesAt (after (.atomXor g0 (ext 3 2 4 0 0 (m 15 1))) (withDataIf [(2, 0x40000), (4, 12)] [10])) 0x40000 4 = [10, 0, 0, 0] := by decide +kernel
theorem test_atom_exch : (let t := after (.atomExch g0 (ext 3 2 4 0 0 (m 15 1))) (withDataIf [(2, 0x40000), (4, 7)] [10])
    bytesAt t 0x40000 4 = [7, 0, 0, 0] ∧ pendAt t 0 = [[(3, 10)]] ∧ pendAt t 1 = [[(3, 7)]]) := by decide +kernel
theorem test_atom_cas : (let t := after (.atomCas g0 (ext 3 2 4 5 0 (m 15 1))) (withDataIf [(2, 0x40000), (4, 7), (5, 10)] [10])
    bytesAt t 0x40000 4 = [7, 0, 0, 0] ∧ pendAt t 0 = [[(3, 10)]] ∧ pendAt t 1 = [[(3, 7)]]) := by decide +kernel

/-- The scratchpad's first word after. -/
def pad (s : State) : Option (List Byte) := (s.wg? 0).map fun g => scratchRead 0 g 0 4

theorem test_atoms_add : pad (after (.atomsAdd g0 (ext 3 2 4 0 0 0)) (withScratch [10, 0, 0, 0] (startIf 3 [(4, 2)]))) = some [14, 0, 0, 0] := by decide +kernel
theorem test_atoms_min : pad (after (.atomsMin g0 (ext 3 2 4 0 0 0)) (withScratch [10, 0, 0, 0] (startIf 3 [(4, 2)]))) = some [2, 0, 0, 0] := by decide +kernel
theorem test_atoms_max : pad (after (.atomsMax g0 (ext 3 2 4 0 0 0)) (withScratch [10, 0, 0, 0] (startIf 3 [(4, 0xFFFFFFFF)]))) = some [0xFF, 0xFF, 0xFF, 0xFF] := by decide +kernel
theorem test_atoms_and : pad (after (.atomsAnd g0 (ext 3 2 4 0 0 0)) (withScratch [10, 0, 0, 0] (startIf 3 [(4, 12)]))) = some [8, 0, 0, 0] := by decide +kernel
theorem test_atoms_or : pad (after (.atomsOr g0 (ext 3 2 4 0 0 0)) (withScratch [10, 0, 0, 0] (startIf 3 [(4, 12)]))) = some [14, 0, 0, 0] := by decide +kernel
theorem test_atoms_xor : pad (after (.atomsXor g0 (ext 3 2 4 0 0 0)) (withScratch [10, 0, 0, 0] (startIf 3 [(4, 12)]))) = some [10, 0, 0, 0] := by decide +kernel
theorem test_atoms_exch : pad (after (.atomsExch g0 (ext 3 2 4 0 0 0)) (withScratch [10, 0, 0, 0] (startIf 3 [(4, 12)]))) = some [12, 0, 0, 0] := by decide +kernel
theorem test_atoms_cas : pad (after (.atomsCas g0 (ext 3 2 4 5 0 0)) (withScratch [10, 0, 0, 0] (startIf 3 [(4, 12), (5, 11)]))) = some [10, 0, 0, 0] := by decide +kernel

/-- The memory after its REDs have been applied. -/
def settled (s : State) : State :=
  s.mem.reds.foldl (fun t _ => match exec .redApply { t with event := some (.redApply 0) } with
    | .next t' => t'
    | _ => t) s

theorem test_red_add : (let t := after (.redAdd g0 (ext 0 2 4 0 0 0)) (withDataIf [(2, 0x40000), (4, 2)] [10])
    bytesAt t 0x40000 4 = [10, 0, 0, 0] ∧ bytesAt (settled t) 0x40000 4 = [14, 0, 0, 0]) := by decide +kernel
theorem test_red_min : bytesAt (settled (after (.redMin g0 (ext 0 2 4 0 0 0)) (withDataIf [(2, 0x40000), (4, 2)] [10]))) 0x40000 4 = [2, 0, 0, 0] := by decide +kernel
theorem test_red_max : bytesAt (settled (after (.redMax g0 (ext 0 2 4 0 0 0)) (withDataIf [(2, 0x40000), (4, 20)] [10]))) 0x40000 4 = [20, 0, 0, 0] := by decide +kernel
theorem test_red_and : bytesAt (settled (after (.redAnd g0 (ext 0 2 4 0 0 0)) (withDataIf [(2, 0x40000), (4, 12)] [10]))) 0x40000 4 = [8, 0, 0, 0] := by decide +kernel
theorem test_red_or : bytesAt (settled (after (.redOr g0 (ext 0 2 4 0 0 0)) (withDataIf [(2, 0x40000), (4, 12)] [10]))) 0x40000 4 = [14, 0, 0, 0] := by decide +kernel
theorem test_red_xor : bytesAt (settled (after (.redXor g0 (ext 0 2 4 0 0 0)) (withDataIf [(2, 0x40000), (4, 12)] [10]))) 0x40000 4 = [10, 0, 0, 0] := by decide +kernel
/-- R267: a release waits for the REDs of its scope. -/
theorem test_fence : slots (after (.fence u { ext 0 0 0 0 0 0 with scope := 4 }) (start [])) = List.replicate 8 [(0x2000C, 15)] := by decide +kernel
theorem test_fence_waits : (let t := after (.redAdd g0 { ext 0 2 4 0 0 0 with scope := 4 }) (withDataIf [(2, 0x40000), (4, 2)] [10])
    slots (after (.fence u { ext 0 0 0 0 0 0 with scope := 4 }) { t with issue := some { wk := 0, pc := 0x2000C } }) = List.replicate 8 [(0x2000C, 15)]) := by decide +kernel

/-! Barriers, WAITV and dependence counters (R268-R278). -/

/-- Barrier 1 of workgroup 0 after. -/
def bar1 (s : State) : Barrier := barOf s 0 false 1

theorem test_bar_arrive : bar1 (after (.barArrive g0 { ext 0 0 0 0 0 (m 11 1) with scope := 2 }) (startIf 0xF [])) = { required := [(0, 0xFFFFFFFF)], arrived := [(0, 0xF)] } := by
  decide +kernel
theorem test_bar_arrive_last : bar1 (after (.barArrive u { ext 0 0 0 0 0 (m 11 1) with scope := 2 }) (start [])) = { phase := 1 } := by decide +kernel
theorem test_bar_sync : (let t := after (.barSync g0 { ext 0 0 0 0 0 (m 11 1) with scope := 2 }) (startIf 0xF [])
    (lane t 0).wait = some (.bar false 1 0 true 0x20000 0x2000C 0) ∧ (lane t 4).wait = none) := by decide +kernel
theorem test_bar_sync_last : (let t := after (.barSync u { ext 0 0 0 0 0 (m 11 1) with scope := 2 }) (start [])
    (lane t 0).wait = none ∧ bar1 t = { phase := 1 }) := by decide +kernel
theorem test_bar_wait : (lane (after (.barWait u { ext 0 0 0 0 0 (m 11 1) with scope := 2 }) (start [])) 0).wait = none := by decide +kernel
theorem test_bar_wait_open : (let t := after (.barArrive g0 { ext 0 0 0 0 0 (m 11 1) with scope := 2 }) (startIf 0xF [])
    let v := after (.barWait u { ext 0 0 0 0 0 (m 11 1) with scope := 2 }) { t with issue := some { wk := 0, pc := 0x2000C } }
    (lane v 0).wait = some (.bar false 1 0 false 0x2000C 0x20018 0) ∧ (lane v 4).wait = none) := by decide +kernel
theorem test_waitv : (lane (after (.waitv u { ext 0 2 4 0 0 0 with scope := 4 }) (withData [(2, 0x40000), (4, 10)] [10])) 5).wait =
    some (.waitv { ext 0 2 4 0 0 0 with scope := 4 } 0x40000 10 0x20000 0xFFFFFFFF 0) := by decide +kernel
/-- R277: a gang adds once. -/
theorem test_dcadd : ((after (.dcadd u (ext 3 0 4 0 0 0)) (start [(4, 5)])).wg? 0).map (fun g => g.counters.getD 3 0) = some 5
    ∧ ((after (.dcadd u (ext 3 0 0 0 1 (m 11 0x1FFFFF))) (start [])).wg? 0).map (fun g => g.counters.getD 3 0) = some 0xFFFFFFFF := by decide +kernel
theorem test_dcwait : (lane (after (.dcwait u (ext 0 3 0 0 0 0)) (start [])) 5).wait = none
    ∧ (lane (after (.dcwait u (ext 0 3 0 0 0 0)) (after (.dcadd u (ext 3 0 4 0 0 0)) (start [(4, 5)]))) 5).wait = none := by decide +kernel

/-! Copy queues, launch queues, dispensing, and the special registers (R298-R317, R346-R353, R379-R384). -/

/-- Copy queue 1 of workgroup 0 after. -/
def cq1 (s : State) : CopyQueue := ((s.wg? 0).map fun g => g.queues.getD 1 {}).getD {}

theorem test_cpyq : (let t := after (.cpyq g0 (ext 0 16 0 0 0 (m 11 1))) (startIf 3 [(16, 0x08), (23, 0x89ABCDEF)])
    (cq1 t).tail = 2 ∧ fget? (cq1 t).ring 1 = some 0x89ABCDEF00000000000000000000000000000000000000000000000000000008 ∧ (lane t 1).region = 0x2000C) := by decide +kernel
/-- R315: with too few free slots it has not issued. -/
theorem test_cpyq_full : (let s := (startIf 3 []).modWg 0 fun g => { g with queues := setAt g.queues 1 { tail := 31 } }
    slots (after (.cpyq g0 (ext 0 16 0 0 0 (m 11 1))) s) = List.replicate 8 [(0x20000, 15)] ∧ (cq1 (after (.cpyq g0 (ext 0 16 0 0 0 (m 11 1))) s)).tail = 31) := by
  decide +kernel
theorem test_cpyf : (let s := (start []).modWg 0 fun g => { g with queues := setAt g.queues 0 { tail := 5 } }
    fget? (cq1 (after (.cpyf u (ext 0 0 0 0 0 (m 11 1 + m 14 1))) s)).ring 0 = some 0x500000000000000000000000100000009) := by decide +kernel
theorem test_cpys : (let s := (start []).modWg 0 fun g => { g with queues := setAt g.queues 1 { tail := 5, err := 7, stopped := true } }
    pendAt (after (.cpys u (ext 3 0 0 0 0 (m 11 1 + m 14 4))) s) 5 = [[(3, 7)]] ∧ (cq1 (after (.cpys u (ext 3 0 0 0 0 (m 11 1 + m 14 4))) s)).stopped = false) := by
  decide +kernel

/-- A machine whose context owns queue 7, with a ring of 8 slots at 0x50000. -/
def withQueue (s : State) : State := s.modQueue 7 fun u => { u with ctx := some 0, ringBase := 0x50000, ringLog := 3, state := 0 }

/-- R352: word 1 of the packet of the lowest executing lane. -/
theorem test_launch : (let t := after (.launch u (ext 0 16 8 0 0 0)) (withQueue (start [(8, 7), (17, 0x01020304)]))
    bytesAt t 0x50004 4 = [4, 3, 2, 1] ∧ (t.queueOf 7).writeIdx = 1) := by decide +kernel
theorem test_launch_queue : causes (after (.launch u (ext 0 16 8 0 0 0)) (withQueue (start [(8, 6)]))) = [(0x11, 0, 0xFFFFFFFF)] := by decide +kernel
theorem test_sigwake : (let t := after (.sigwake g0 (ext 0 2 4 0 0 0)) (withQueue (startIf 3 [(2, 7), (4, 0x50)]))
    (t.queueOf 7).wake = 0x50 ∧ (t.queueOf 7).records.length = 2) := by decide +kernel
theorem test_sigwake_mb : (after (.sigwakeMb g0 (ext 0 0 4 0 0 0)) (startIf 3 [(4, 0x50)])).hub.soft = [(0, 0x50), (0, 0x50)] := by decide +kernel
/-- R348: lanes 4 to 7 are vacant, and two identifiers are left. -/
theorem test_refill : (let s := ((start []).modWarp 0 fun w => w.vacate 0xF0).modLaunch 0 fun L => { L with dies := [(0, { laneLo := 100, laneHi := 102 })] }
    let t := after (.refill usw (ext 1 0 0 0 0 0)) s
    (lane t 4).wid = 100 ∧ (lane t 5).wid = 101 ∧ (lane t 5).p 1 = true ∧ (lane t 5).wgen = 1 ∧ (lane t 6).vacant = true ∧ (slots t).take 3 = [[(0x2000C, 15)], [(0x2000C, 3)], [(0x2000C, 15)]]) := by
  decide +kernel
/-- R350: the items of the lanes with an even number come first; v8 and %wid move with them. -/
theorem test_regrp : (let t := wide (.regrp u (ext 0 1 8 0 0 (m 11 1))) (byLane (start []) fun k => [(1, BitVec.ofNat 32 (k % 2)), (8, BitVec.ofNat 32 k), (9, BitVec.ofNat 32 k)])
    (lane t 1).v 8 = 2 ∧ (lane t 1).v 9 = 1 ∧ (lane t 1).wid = 2 ∧ (lane t 16).v 8 = 1 ∧ (slots t).take 1 = [[(0x2000C, 15)]]) := by decide +kernel
theorem test_srd : reg (.srd u (ext 4 0 0 0 0 0)) [] 4 = 5 ∧ reg (.srd u (ext 4 5 0 0 0 0)) [] 4 = 5 ∧ reg (.srd u (ext 4 0x0D 0 0 0 0)) [] 4 = 0xFFFFFFFF := by decide +kernel
theorem test_swr : flags (.swr u (ext 0x0E 4 0 0 0 0)) [(4, 0xFFFFFFFF)] = 0x1FFF ∧ (lane (after (.swr u (ext 0x0F 4 0 0 0 0)) (start [(4, 0xFFFF)])) 5).slv = 0xFF := by decide +kernel
/-- R7, R8: the first word of the area, and the ISA revision. -/
theorem test_capq : reg (.capq u (ext 4 2 0 0 0 0)) [] 4 = 0x00010001 ∧ reg (.capq u (ext 4 2 0 0 0 (m 11 2))) [] 4 = 3
    ∧ causes (after (.capq u (ext 4 2 0 0 0 0)) (start [(2, 1)])) = [(0x09, 0, 0xFFFFFFFF)] := by decide +kernel
theorem test_pfdone : slots (after (.pfdone u (ext 0 0 0 0 0 0)) (start [])) = List.replicate 8 [(0x2000C, 15)] := by decide +kernel
theorem test_pfdone_handler : (let t := after (.pfdone u (ext 0 0 0 0 0 0)) ((start []).modWarp 0 fun w => { w with pfail := true })
    slots t = List.replicate 8 [] ∧ (lane t 5).park = some { pc := 0x20000, why := .pfdone }) := by decide +kernel
theorem test_tret_outside : causes (after (.tret u (ext 0 0 0 0 0 0)) (start [])) = [(0x12, 0, 0xFFFFFFFF)] := by decide +kernel
theorem test_ppoint : slots (after (.ppoint u 0) (start [])) = List.replicate 8 [(0x2000C, 15)] := by decide +kernel
theorem test_ppoint_asked : (let t := after (.ppoint u 0x1F) ((start []).modWg 0 fun g => { g with preempt := some 0 })
    (lane t 5).park = some { pc := 0x2000C, why := .ppoint 0x1F }) := by decide +kernel

/-- The launch has a dictionary of two entries, NOP and IADD v3, v1, v2, in the core's bank. -/
def withDict (s : State) : State :=
  let s₁ := s.modLaunch 0 fun L => { L with hdr := { L.hdr with dict := 0x60000, dictSize := 2 } }
  s₁.modCore 0 fun c => { c with banks := [{ ctx := 0, addr := 0x60000, size := 2, words := [(encode (.nop u)).getD 0 0, (encode (.iadd u 3 1 2)).getD 0 0] }] }

/-- R46: code 1 with p0 as its guard; the next code is at index 1. -/
theorem test_dict : (after (.dict [0x0001, 0x1C00]) (withDict (start []))).issue.map (fun i => (i.dict.map fun d => (decode [d.word], d.next))) =
    some (some (.ok (.iadd { grd := 0, sw := false } 3 1 2), 0x1000000000020000)) := by decide +kernel
theorem test_dict_beyond : causes (after (.dict [0x0002]) (withDict (start []))) = [(0x03, 0, 0xFFFFFFFF)] ∧ causes (after (.dict [0x8001]) (withDict (start []))) = [(0x02, 0, 0xFFFFFFFF)] := by
  decide +kernel

/-! Matrix instructions (R147-R222), in lane 0 only. -/

/-- A shape value: rows, columns, and type code (R148). -/
def sh (r c t : Nat) : Word := BitVec.ofNat 32 (r - 1 + 32 * (c - 1) + 1024 * t)

/-- Shape fields hd, ha, hb and hc (R154). -/
def hs (d a b c : Nat) : BitVec 21 := m 11 d + m 15 a + m 19 b + m 23 c

/-- Lane 0 executes; its registers and shape registers are those given, and every row of h1 to h4 counts. -/
def mat (vs shapes : List (Nat × Word)) : State :=
  (startIf 1 vs).modWarp 0 fun w => w.mapLanes fun _ l => { l with shapes := shapes, rowMasks := [(1, 0xFFFFFFFF), (2, 0xFFFFFFFF), (3, 0xFFFFFFFF), (4, 0xFFFFFFFF)] }

/-- The words and the flags that lane 0 has pending. -/
def mres (i : Instr) (s : State) : List (Nat × Word) × Word := (((lane (after i s) 0).pend.getLastD {}).regs, ((lane (after i s) 0).pend.getLastD {}).fst)

/-- The words of consecutive registers. -/
def run (r : Nat) (ws : List Word) : List (Nat × Word) := mapFrom (fun k w => (r + k, w)) 0 ws

theorem test_hset : (let l := lane (after (.hset u (ext 2 0 0 0 0 (m 11 1 + m 12 0x442))) (start [])) 5
    l.h 2 = 0x442 ∧ l.rm 2 = 7) := by decide +kernel
/-- Type code 7 is not allowed. -/
theorem test_hset_bad : causes (after (.hset u (ext 2 0 4 0 0 0)) (start [(4, 0x1C00)])) = [(0x0A, 2, 0xFFFFFFFF)] := by decide +kernel
theorem test_hget_footprint : (lane (after (.hget g0 (ext 3 2 0 0 0 (m 11 2))) (mat [] [(2, sh 3 3 1)])) 0).v 3 = 9 := by decide +kernel
theorem test_hmov : (let l := lane (after (.hmov g0 (ext 1 2 0 0 0 0)) (mat [] [(2, sh 3 3 1)])) 0
    l.h 1 = sh 3 3 1 ∧ l.rm 1 = 0xFFFFFFFF) := by decide +kernel
theorem test_mzero : mres (.mzero g0 (ext 8 0 0 0 0 (hs 1 0 0 0))) (mat [(8, 7)] [(1, sh 1 3 2)]) = (run 8 [0, 0], 0) := by decide +kernel
/-- With .diag the other elements are 0. -/
theorem test_mfill_diag : mres (.mfill g0 (ext 8 0 20 0 0 (hs 1 0 0 0 + m 27 1))) (mat [(20, 0x3F800000)] [(1, sh 2 2 1)]) = (run 8 [0x3F800000, 0, 0, 0x3F800000], 0) := by decide +kernel
theorem test_mmov : mres (.mmov g0 (ext 8 16 0 0 0 (hs 1 2 0 0))) (mat [(16, 1), (17, 2)] [(1, sh 1 2 1), (2, sh 1 2 1)]) = (run 8 [1, 2], 0) := by decide +kernel
theorem test_mext : mres (.mext g0 (ext 8 16 20 0 0 (hs 1 2 0 0))) (mat [(16, 1), (17, 2), (18, 3), (19, 4), (20, 1)] [(1, sh 1 1 1), (2, sh 2 2 1)]) = (run 8 [3], 0) := by decide +kernel
theorem test_mins : mres (.mins g0 (ext 8 16 20 0 0 (hs 2 1 0 0))) (mat [(8, 1), (9, 2), (10, 3), (11, 4), (16, 9), (20, 0x100)] [(1, sh 1 1 1), (2, sh 2 2 1)]) = (run 8 [1, 9, 3, 4], 0) := by
  decide +kernel
/-- The stride is 8, and the first row loaded is row 1. -/
theorem test_mld : mres (.mld g0 (ext 8 4 5 0 0 (hs 1 0 0 0))) (withScratch [0, 0, 0, 0, 0, 0, 0, 0, 1, 0, 0, 0, 0, 0, 0, 0, 2, 0, 0, 0] (mat [(5, 0x10008)] [(1, sh 2 1 1)])) = (run 8 [1, 2], 0) := by
  decide +kernel
theorem test_mst : ((after (.mst g0 (ext 8 4 5 0 0 (hs 0 1 0 0))) (mat [(5, 8), (8, 0x01020304), (9, 5)] [(1, sh 2 1 1)])).wg? 0).map (fun g => (scratchRead 0 g 0 4, scratchRead 0 g 8 4)) =
    some ([4, 3, 2, 1], [5, 0, 0, 0]) := by decide +kernel
/-- 3 × 5 + 4 × 6 onto 1. -/
theorem test_mma : mres (.mma g0 (ext 8 16 24 8 0 (hs 1 2 3 1))) (mat [(8, 1), (16, 0x0403), (24, 0x0605)] [(1, sh 1 1 6), (2, sh 1 2 4), (3, sh 2 1 4)]) = (run 8 [40], 0) := by decide +kernel
theorem test_mmt : mres (.mmt g0 (ext 8 16 24 8 0 (hs 1 2 3 1))) (mat [(8, 1), (16, 0x0403), (24, 0x0605)] [(1, sh 1 1 6), (2, sh 1 2 4), (3, sh 1 2 4)]) = (run 8 [40], 0) := by decide +kernel
theorem test_mtm : mres (.mtm g0 (ext 8 16 24 8 0 (hs 1 2 3 1))) (mat [(8, 1), (16, 0x0403), (24, 0x0605)] [(1, sh 1 1 6), (2, sh 2 1 4), (3, sh 2 1 4)]) = (run 8 [40], 0) := by decide +kernel
/-- FP32, with .z: 1.5 × 2.0. -/
theorem test_mma_float : mres (.mma g0 (ext 8 16 24 0 0 (hs 1 2 3 0 + m 29 1))) (mat [(8, 1), (16, 0x3FC00000), (24, 0x40000000)] [(1, sh 1 1 1), (2, sh 1 1 1), (3, sh 1 1 1)]) = (run 8 [0x40400000], 0) := by
  decide +kernel
/-- R155-R157: a 2:4 tile of 1 × 4 with 3 at column 1 and 5 at column 3; 3 × 2 + 5 × 4. -/
theorem test_mms : mres (.mms g0 (ext 8 16 24 8 0 (hs 1 2 3 1))) (mat [(16, 0xBD460022), (17, 0xD), (18, 0x0503), (24, 0x04030201)] [(1, sh 1 1 6), (2, sh 1 4 4 ||| 0x4000), (3, sh 4 1 4)]) =
    (run 8 [26], 0) := by decide +kernel
/-- R190-R192: row 0 of D takes row 1 of A. -/
theorem test_mmg : mres (.mmg g0 (ext 8 16 24 4 0 (hs 1 2 3 0))) (withScratch [1, 0, 0, 0, 1, 0] (mat [(8, 1), (16, 0x0503), (24, 7)] [(1, sh 1 1 6), (2, sh 2 1 4), (3, sh 1 1 4)])) = (run 8 [36], 0) := by
  decide +kernel
theorem test_mtrn : mres (.mtrn g0 (ext 8 16 0 0 0 (hs 1 2 0 0))) (mat [(16, 0x0302)] [(1, sh 2 1 4), (2, sh 1 2 4)]) = (run 8 [0x0302], 0)
    ∧ mres (.mtrn g0 (ext 8 16 0 0 0 (hs 1 2 0 0))) (mat [(16, 1), (17, 2), (18, 3), (19, 4)] [(1, sh 2 2 1), (2, sh 2 2 1)]) = (run 8 [1, 3, 2, 4], 0) := by decide +kernel

/-- 1 × 1 views at v8, v16 and v24. -/
def el (y z : Word) : State := mat [(16, y), (24, z)] [(1, sh 1 1 1)]

theorem test_mew_add : mres (.mewAdd g0 (ext 8 16 24 0 0 (hs 1 1 1 0))) (el 0x3F800000 0x40000000) = (run 8 [0x40400000], 0) := by decide +kernel
theorem test_mew_sub : mres (.mewSub g0 (ext 8 16 24 0 0 (hs 1 1 1 0))) (el 0x3F800000 0x40000000) = (run 8 [0xBF800000], 0) := by decide +kernel
theorem test_mew_mul : mres (.mewMul g0 (ext 8 16 24 0 0 (hs 1 1 1 0))) (el 0x40400000 0x40000000) = (run 8 [0x40C00000], 0) := by decide +kernel
theorem test_mew_max : mres (.mewMax g0 (ext 8 16 24 0 0 (hs 1 1 1 0))) (el 0x3F800000 0x40000000) = (run 8 [0x40000000], 0) := by decide +kernel
theorem test_mew_min : mres (.mewMin g0 (ext 8 16 24 0 0 (hs 1 1 1 0))) (el 0x3F800000 0x40000000) = (run 8 [0x3F800000], 0) := by decide +kernel
theorem test_mew_scale : mres (.mewScale g0 (ext 8 16 24 0 0 (hs 1 1 0 0))) (el 0x40400000 0x40000000) = (run 8 [0x40C00000], 0) := by decide +kernel
/-- Bytes 100 and 100 saturate at 127. -/
theorem test_mew_add_s8 : mres (.mewAdd g0 (ext 8 16 24 0 0 (hs 1 1 1 0))) (mat [(16, 100), (24, 100)] [(1, sh 1 1 4)]) = (run 8 [127], Flag.sat) := by decide +kernel
theorem test_mred_row : mres (.mredRow g0 (ext 8 16 0 0 0 (hs 1 2 0 0))) (mat [(16, 0x04030201)] [(1, sh 2 1 6), (2, sh 2 2 4)]) = (run 8 [3, 7], 0) := by decide +kernel
theorem test_mred_col : mres (.mredCol g0 (ext 8 16 0 0 0 (hs 1 2 0 0))) (mat [(16, 0x04030201)] [(1, sh 1 2 6), (2, sh 2 2 4)]) = (run 8 [4, 6], 0) := by decide +kernel
theorem test_mred_all : mres (.mredAll g0 (ext 8 16 0 0 0 (hs 1 2 0 0))) (mat [(16, 0xFC030201)] [(1, sh 1 1 6), (2, sh 2 2 4)]) = (run 8 [2], 0) := by decide +kernel
/-- The worked block of chapter 7, with vb = 0x22 and .tr. -/
theorem test_mprn : mres (.mprn g0 (ext 8 32 20 0 0 (hs 1 2 0 0 + m 27 1)))
    (mat (run 20 [0x22] ++ run 32 [0x40A00000, 0x3F800000, 0, 0x40400000, 0x40000000, 0x40C00000, 0x3F800000, 0, 0, 0x40000000, 0x40E00000, 0x3F800000, 0x40800000, 0, 0x3F800000, 0x41000000])
      [(1, sh 4 4 1 ||| 0x4000), (2, sh 4 4 1)]) =
    (run 8 [0x9BCE0222, 0xE94C, 0x40A00000, 0x40400000, 0x40000000, 0x40C00000, 0x40000000, 0x40E00000, 0x3F800000, 0x41000000], 0) := by decide +kernel
/-- Scores 1.0, 3.0 and 2.0 at columns 10 to 12. -/
theorem test_mtopk : mres (.mtopk g0 (ext 8 16 20 0 0 (hs 1 2 0 0 + m 27 1))) (mat [(16, 0x3F800000), (17, 0x40400000), (18, 0x40000000), (20, 10)] [(1, sh 1 4 1), (2, sh 1 3 1)]) =
    (run 8 [0x40400000, 11, 0x40000000, 12], 0) := by decide +kernel
theorem test_mgnorm : mres (.mgnorm g0 (ext 8 0 0 0 0 (hs 1 0 0 0))) (mat [(8, 0x40400000), (9, 1), (10, 0x3F800000), (11, 3)] [(1, sh 1 4 1)]) = (run 8 [0x3F400000, 1, 0x3E800000, 3], 0) := by
  decide +kernel

/-- The high words of FP64 numbers, with the low words 0. -/
def doubles (r : Nat) (ws : List Word) : List (Nat × Word) := (mapFrom (fun k w => [(r + 2 * k, (0 : Word)), (r + 2 * k + 1, w)]) 0 ws).flatten

/-- Lane 0 with the %slv of the worked solve of chapter 8. -/
def solving (vs : List (Nat × Word)) : State := (mat vs [(1, 0x42), (2, 2)]).modWarp 0 fun w => w.mapLanes fun _ l => { l with slv := 0x43 }

theorem test_mlu_worked : mres (.mlu g0 (ext 20 20 0 46 0 (hs 1 1 0 0))) (solving (doubles 20 [0x40100000, 0x40000000, 0x3FF00000, 0x40000000, 0x3FF40000, 0x40080000, 0x40000000, 0x3FF00000, 0x40000000])) =
    (doubles 20 [0x40100000, 0x40000000, 0x3FF00000, 0x3FE00000, 0x3FE00000, 0x40040000, 0x3FE00000, 0, 0x3FF80000] ++ [(46, 0x00020100)], Flag.sing ||| Flag.reg) := by decide +kernel
theorem test_msolv_worked : mres (.msolv g0 (ext 40 20 40 46 0 (hs 2 1 2 0 + m 27 1)))
    (solving (doubles 20 [0x40100000, 0x40000000, 0x3FF00000, 0x3FE00000, 0x3FE00000, 0x40040000, 0x3FE00000, 0, 0x3FF80000] ++ doubles 40 [0x401C0000, 0x40190000, 0x40140000] ++ [(46, 0x00020100)])) =
    (doubles 40 [0x3FF40000, 0x3FE00000, 0x3FF00000], 0) := by decide +kernel
/-- The factor of (4, 2; 2, 2) is (2, 0; 1, 1). -/
theorem test_mchol : mres (.mchol g0 (ext 8 16 0 0 0 (hs 1 1 0 0))) (mat (run 16 [0x40800000, 0, 0x40000000, 0x40000000]) [(1, sh 2 2 1)]) = (run 8 [0x40000000, 0, 0x3F800000, 0x3F800000], 0) := by
  decide +kernel
/-- For the 1 × 1 matrix 3, R is −3; β is 1 / 18, which is not exact. -/
theorem test_mqr : mres (.mqr g0 (ext 8 16 0 0 0 (hs 1 1 0 0 + m 27 1))) (mat (run 16 [0x40400000]) [(1, sh 1 1 1)]) = (run 8 [0xC0400000], Flag.inx) := by decide +kernel
/-- (2, 0; 1, 1) x = (4, 3). -/
theorem test_mtrs : mres (.mtrs g0 (ext 8 16 24 0 0 (hs 2 1 2 0 + m 27 1))) (mat (run 16 [0x40000000, 0, 0x3F800000, 0x3F800000] ++ run 24 [0x40800000, 0x40400000]) [(1, sh 2 2 1), (2, sh 2 1 1)]) =
    (run 8 [0x40000000, 0x3F800000], 0) := by decide +kernel
theorem test_minv : mres (.minv g0 (ext 8 16 0 0 0 (hs 1 1 0 0))) (mat (run 16 [0x40000000, 0, 0, 0x40800000]) [(1, sh 2 2 1)]) = (run 8 [0x3F000000, 0, 0, 0x3E800000], 0) := by decide +kernel
/-- The exponential of 0 is 1. -/
theorem test_mexp : (mres (.mexp g0 (ext 8 16 0 0 0 (hs 1 1 0 0))) (mat [] [(1, sh 1 1 1)])).1 = run 8 [0x3F800000] := by decide +kernel
theorem test_mpow : mres (.mpow g0 (ext 8 16 20 0 0 (hs 1 1 0 0))) (mat (run 16 [0x3F800000, 0x3F800000, 0, 0x3F800000] ++ [(20, 3)]) [(1, sh 2 2 1)]) =
    (run 8 [0x3F800000, 0x40400000, 0, 0x3F800000], 0) := by decide +kernel

/-! The device's own steps, and those of Jasper, the host and the fabric (R24-R27, R241-R345, R354-R378, R399-R403). -/

/-- The placed machine with no path about to issue. -/
def idle0 : State := { start [] with issue := none }

/-- The state after a device step. -/
def on (e : Event) (s : State) : State :=
  match exec e.row { s with event := some e } with
  | .next t => t
  | _ => s

/-- A lane of the first warp changed. -/
def withLane (k : Nat) (f : Lane → Lane) (s : State) : State := s.modWarp 0 fun w => w.modLane k f

theorem test_arbitration : (on (.issueArbitration 0 0) idle0).issue = some { wk := 0, pc := 0x20000 } := by decide +kernel
theorem test_pending_write : (let s := withLane 2 (fun l => { l with pend := [{ regs := [(3, 7)], preds := [(1, true)], fst := 1 }] }) idle0
    let l := lane (on (.pendingResultWrite 0 2 0) s) 2
    (l.v 3, l.p 1, l.fst, l.pend) = (7, true, 1, [])) := by decide +kernel
/-- An FP32 1 × 1 chain whose checks agree with its destination, 1.0. -/
theorem test_chain_drain : (let c : Chain := { dst := 8, shape := sh 1 1 6, next := 0, exp := 0, rows := [5], cols := [5], badRows := [false], badCols := [false], admitted := [true], ended := true }
    let s := withLane 2 (fun l => { l with regs := [(8, 5)], chain := some c }) idle0
    (lane (on (.chainDrain 0 2) s) 2).chain = none ∧ (lane (on (.chainDrain 0 2) s) 2).v 8 = 5) := by decide +kernel

/-- Cause SWTRAP of lanes 0 to 3, which resumes past its instruction; the context has a vector at 0x30000 and its frames at 0x80000. -/
def trapping (s : State) : State :=
  let s₁ := s.modWarp 0 fun w => { w with causes := [{ code := 0x23, sub := 7, mask := 0xF, path := 0xFFFFFFFF, pc := 0x20000, resume := .cont, cont := 0x2000C }] }
  s₁.modCtx 0 fun c => { c with trapVec := 0x30000, trapArea := 0x80000 }

theorem test_trap_delivery : (let t := on (.trapDelivery 0) (trapping idle0)
    (slots t).take 2 = [[(0x30000, 15)], []] ∧ (lane t 0).handler = true ∧ (lane t 0).region = 0x30000 ∧ (lane t 4).handler = false ∧ fgetD t.hub.seqs 0 0 = 1) := by decide +kernel
/-- R362, R380: the handler's lanes return to where the cause says, and have their region back. -/
theorem test_tret : (let t := on (.trapDelivery 0) (trapping idle0)
    let v := after (.tret u (ext 0 0 0 0 0 0)) { t with issue := some { wk := 0, pc := 0x30000 } }
    (slots v).take 2 = [[(0x2000C, 15)], [(0x2000C, 15)]] ∧ (lane v 0).handler = false ∧ (lane v 0).region = 0x20000) := by decide +kernel

/-- The first lane's load has faulted at 0x40000000, and waits for Jasper. -/
def faulted : State := { after (.ld g0 3 2 0) (startIf 1 [(2, 0x40000000)]) with issue := none }

theorem test_page_fault_fixed : (lane (on (.pageFaultResolution 0 (some (0x11008, 0x40000C3))) faulted) 0).wait = none
    ∧ bytesAt (on (.pageFaultResolution 0 (some (0x11008, 0x40000C3))) faulted) 0x11008 4 = [0xC3, 0, 0, 4] := by decide +kernel
theorem test_page_fault_raised : causes (on (.pageFaultResolution 0 none) faulted) = [(0x0E, 1, 1)] := by decide +kernel
/-- R243: the host asks for the page, and then the device's load of it migrates it back. -/
theorem test_host_page : hostOwns (on (.hostPageRequest 0 0x40000) idle0) 0 0x40000 = true := by decide +kernel
theorem test_ownership : (let t := on (.hostPageRequest 0 0x40000) { startIf 1 [(2, 0x40000)] with issue := none }
    let v := after (.ld g0 3 2 0) { t with issue := some { wk := 0, pc := 0x20000 } }
    (lane v 0).wait = some .jasper ∧ hostOwns (on (.ownershipMigration 0 true) v) 0 0x40000 = false ∧ (lane (on (.ownershipMigration 0 true) v) 0).wait = none) := by decide +kernel
theorem test_host_write : bytesAt (on (.hostMemAccess 0 0x40000 (.write [1, 2])) { idle0 with mem := physPuts idle0.mem 0 0x10000 [1, 0x10, 1] }) 0x40000 3 = [0, 0, 0] := by decide +kernel
theorem test_tlb_invalidate : (let e : TlbEntry := { ctx := 0, page := 0, log := 30, leaf := 0xC3 }
    (on (.tlbInvalidate 0 0x1000 0x2000) { idle0 with mem := { idle0.mem with tlb := [e] } }).mem.tlb = []
    ∧ (on (.tlbInvalidate 1 0x1000 0x2000) { idle0 with mem := { idle0.mem with tlb := [e] } }).mem.tlb = [e]) := by decide +kernel
theorem test_waitv_release : (let t := after (.waitv g0 { ext 6 2 4 0 0 0 with scope := 4 }) (withDataIf [(2, 0x40000), (4, 10)] [10])
    let v := on (.waitvRelease 0 0) { t with issue := none }
    (lane v 0).wait = some (.waitvLeft 3) ∧ pendAt v 0 = [[(6, 10)]] ∧ ((on (.waitvRelease 0 1) v).warp? 0).map (fun w => (w.switchRelease.lane 0).wait) = some none) := by decide +kernel
theorem test_watchdog : (let s := (withLane 3 (fun l => { l with wait := some (.bar false 1 0 true 0x20000 0x2000C 5000) }) idle0).modWarp 0 fun w => { w with limit := 5000 }
    causes (on (.watchdog 0) s) = [(0x21, 0, 8)]) := by decide +kernel
/-- A microsecond has passed on every die's clock (R27, R344). -/
theorem test_energy_due : 1000 * (fgetD idle0.hub.refills 0 0 + 1) ≤ clockOf { idle0 with time := 2000 } 0 := Nat.le_trans (by decide) (Nat.le_add_right 2000 _)

/-- The launch with identifiers 0 to 9,999 to be dispensed. -/
def dispensing (s : State) : State := s.modLaunch 0 fun L => { L with pool := [(0, 10000)], ranges := [(0, 10000)], hdr := { L.hdr with items := 10000, refillOff := 0x40 } }

/-- R20: a chunk ends at a multiple of 4,096. -/
theorem test_chunk_claim : ((on (.chunkClaim 0 0) (dispensing idle0)).launch? 0).map (fun L => (L.pool, (L.die 0).chunkLo, (L.die 0).chunkHi)) = some ([(4096, 10000)], 0, 4096) := by decide +kernel
theorem test_placement : (let t := on (.workgroupPlacement 0 0) ((dispensing idle0).modLaunch 0 fun L => { L with dies := [(0, { chunkLo := 0, chunkHi := 4096 })] })
    (t.wgs.length, (t.launch? 0).map fun L => L.nextWg) = (2, some 2)) := by decide +kernel
theorem test_dictionary_load : (let s := (withDict idle0).modCore 0 fun c => { c with banks := [] }
    let t := on (.dictionaryLoad 0 0) { s with mem := physPuts s.mem 0 0x60000 [1, 2, 3, 4, 5] }
    (t.coreOf 0).banks.map (fun b => b.words) = [[0x04030201, 5]]) := by decide +kernel
/-- R337: an empty warp takes a block, at the refill entry. -/
theorem test_warp_refill : (let s := (dispensing idle0).modLaunch 0 fun L => { L with dies := [(0, { chunkLo := 64, chunkHi := 4096 })] }
    let t := on (.warpRefill 0) (s.modWarp 0 fun w => w.vacate 0xFFFFFFFF)
    ((lane t 5).wid, (lane t 5).wgen, slots t) = (69, 1, List.replicate 8 [(0x20040, 15)])) := by decide +kernel
theorem test_retire : (let s := { idle0 with warps := [] }.modWg 0 fun g => { g with warps := [] }
    (on (.workgroupRetire 0) s).wgs = [] ∧ ((on (.workgroupRetire 0) s).launch? 0).map (fun L => L.wgRetired) = some 1) := by decide +kernel

/-- The launch has nothing left, and its record goes to 0x70000 and its signal to 0x70100. -/
def ending : State := ({ withQueue idle0 with warps := [], wgs := [] }).modLaunch 0 fun L => { L with by_ := .packet 7 0, recAt := 0x70000, sig := 0x70100, sigVal := 9, itemsDone := 32, wgRetired := 1 }

theorem test_completion : (let t := on (.launchCompletion 0) ending
    fgetD t.hub.seqs 0 0 = 1 ∧ (t.queueOf 7).records.length = 1 ∧ (t.launch? 0).map (fun L => L.stage) = some .recorded) := by decide +kernel
theorem test_signal : (let t := on (.launchSignal 0) (ending.modLaunch 0 fun L => { L with stage := .recorded })
    bytesAt t 0x70100 8 = [9, 0, 0, 0, 0, 0, 0, 0] ∧ t.launch? 0 = none) := by decide +kernel
theorem test_record_post : (let s := (withQueue idle0).modQueue 7 fun u => { u with evBase := 0x58000, evLog := 3, records := [bytesOf 32 0x1234] }
    bytesAt (on (.eventRecordPost 7) s) 0x58000 2 = [0x34, 0x12] ∧ ((on (.eventRecordPost 7) s).queueOf 7).evWrite = 1) := by decide +kernel
theorem test_dispenser_close : ((on (.dispenserClose 0) (dispensing idle0)).launch? 0).map (fun L => (L.pool, L.closed)) = some ([], true) := by decide +kernel

/-- Queue 7 with `n` packets, the first one at 0x50000 given as a number. -/
def withPacket (n : Word) (pkt : Nat) (s : State) : State :=
  let t := (withQueue s).modQueue 7 fun u => { u with writeIdx := n }
  { t with mem := physPuts t.mem 0 0x50000 (bytesOf 64 pkt) }

theorem test_doorbell : ((on (.doorbell 7 2) (withQueue idle0)).queueOf 7).writeIdx = 2 ∧ ((on (.doorbell 7 9) (withQueue idle0)).queueOf 7).state = 1 := by decide +kernel
theorem test_queue_enable : (let s := idle0.modQueue 7 fun u => { u with ctx := some 0, ringBase := 0x50000, evBase := 0x58000, evLog := 3 }
    ((on (.queueEnable 7 3) s).queueOf 7).err = 0x0B ∧ ((on (.queueEnable 7 0) s).queueOf 7).state = 2) := by decide +kernel
theorem test_queue_restart : ((on (.queueRestart 7 3) ((withQueue idle0).modQueue 7 fun u => { u with state := 1, err := 9 })).queueOf 7).state = 0 := by decide +kernel
theorem test_wake_clear : ((on (.wakeClear 7) ((withQueue idle0).modQueue 7 fun u => { u with wake := 5 })).queueOf 7).wake = 0 := by decide +kernel
theorem test_register_write : ((on (.registerWrite 7 40 false 6) (withQueue idle0)).queueOf 7).evRead = 6 := by decide +kernel
/-- R322: a period below 1,000 ns is refused. -/
theorem test_generator : (on (.tickGeneratorCommit 3 0 999) idle0).hub.gens = [] ∧ (on (.tickGeneratorCommit 3 0 1000) idle0).hub.gens.map (fun g => g.2.period) = [1000] := by decide +kernel
theorem test_tick : (on (.tick 3) { idle0 with hub := { idle0.hub with gens := [(3, { start := 0, period := 5000, next := 0 })] } }).hub.gens = [(3, { start := 0, period := 5000, next := 1 })] := by
  decide +kernel
theorem test_tickwait_complete : (let s := (withQueue idle0).modQueue 7 fun u => { u with writeIdx := 1, nextIdx := 1, started := [{ idx := 0, done := false }], hold := some (.tickwait 0 0 false) }
    ((on (.tickwaitComplete 7) s).queueOf 7).readIdx = 1 ∧ ((on (.tickwaitComplete 7) s).queueOf 7).hold = none) := by decide +kernel

/-- A header for 64 items with 8-register warps, its code at 0x20000 and two identifier fields of 32 bits (R329). -/
def header : Nat := 0x20000 + 64 * 2 ^ 192 + 32 * 2 ^ 352 + 32 * 2 ^ 360  + 3 * 2 ^ 448 + 3 * 2 ^ 452

theorem test_launch_packet : (let s := withPacket 1 (1 + 0x60000 * 2 ^ 64) idle0
    let t := on (.launchPacket 7) { s with mem := physPuts s.mem 0 0x60000 (bytesOf 128 header) }
    (t.launch? 1).map (fun L => (L.status, L.hdr.items, L.pool, L.by_)) = some (0, 64, [(0, 64)], .packet 7 0) ∧ (t.queueOf 7).nextIdx = 1) := by decide +kernel
theorem test_bad_packet : ((on (.launchPacket 7) (withPacket 1 6 idle0)).queueOf 7).err = 9 := by decide +kernel
/-- One condition, on the word at 0x40000. -/
theorem test_fence_packet : ((on (.fencePacket 7) (withPacket 1 (2 + 2 ^ 32 + 0x40000 * 2 ^ 64 + 5 * 2 ^ 128) idle0)).queueOf 7).hold =
    some (.fence 0 [{ addr := 0x40000, val := 5, ge := false, held := false }]) := by decide +kernel
theorem test_fence_complete : (let s := on (.fencePacket 7) (withPacket 1 (2 + 2 ^ 32 + 0x40000 * 2 ^ 64 + 5 * 2 ^ 128) idle0)
    ((on (.fencePacketComplete 7) s).queueOf 7).readIdx = 0 ∧ ((on (.fencePacketComplete 7) { s with mem := physPuts s.mem 0 0x40000 [5] }).queueOf 7).readIdx = 1) := by decide +kernel
theorem test_signal_packet : (let t := on (.signalPacket 7) (withPacket 1 (3 + 2 ^ 32 + 0x40000 * 2 ^ 64 + 5 * 2 ^ 128) { idle0 with mem := physPuts idle0.mem 0 0x40000 [2] })
    bytesAt t 0x40000 2 = [7, 0] ∧ (t.queueOf 7).readIdx = 1) := by decide +kernel
theorem test_tickwait_packet : ((on (.tickwaitPacket 7) ((withPacket 1 (4 + 3 * 2 ^ 64) idle0).modQueue 7 fun u => { u with tickSel := 1 })).queueOf 7).hold = some (.tickwait 0 3 false) := by decide +kernel
/-- One root, at 0x61000. -/
def withGraph : State := let s := withPacket 1 (5 + 0x60000 * 2 ^ 64 + 2 ^ 128 + 0x70000 * 2 ^ 192) idle0
  { s with mem := physPuts s.mem 0 0x60000 (bytesOf 8 0x61000) }

/-- The graph running, with a node of 64 bytes at 0x61000. -/
def withNode (node : Nat) : State := let s := on (.graphPacket 7) withGraph
  { s with mem := physPuts s.mem 0 0x61000 (bytesOf 64 node) }

theorem test_graph_packet : ((on (.graphPacket 7) withGraph).graph? 1).map (fun g => (g.ready, g.recAt)) = some ([0x61000], 0x70000) := by decide +kernel
theorem test_kernel_node : (let s := withNode (1 + 0x62000 * 2 ^ 128 + 0x63000 * 2 ^ 192)
    let t := on (.kernelNode 1 0x61000) { s with mem := physPuts s.mem 0 0x62000 (bytesOf 128 (header - 64 * 2 ^ 192)) }
    (t.launch? 2).map (fun L => (L.status, L.by_, L.recAt)) = some (0, .node 1 0x61000, 0x63000) ∧ (t.graph? 1).map (fun g => (g.ready, g.running)) = some ([], [0x61000])) := by decide +kernel
theorem test_signal_node : (let t := on (.signalNode 1 0x61000) (withNode (3 + 0x40000 * 2 ^ 128 + 8 * 2 ^ 192))
    bytesAt t 0x40000 1 = [8] ∧ (t.graph? 1).map (fun g => g.finished) = some [0x61000]) := by decide +kernel
/-- The entry fills 4 bytes at 0x40000 with 7. -/
theorem test_copy_node : (let s := withNode (2 + 0x62000 * 2 ^ 128 + 0x63000 * 2 ^ 192)
    let t := on (.copyNode 1 0x61000) { s with mem := physPuts s.mem 0 0x62000 (bytesOf 32 (6 + 0x1000 + 0x40000 * 2 ^ 64 + 7 * 2 ^ 128 + 4 * 2 ^ 224)) }
    bytesAt t 0x40000 4 = [7, 0, 0, 0] ∧ (t.graph? 1).map (fun g => g.finished) = some [0x61000]) := by decide +kernel
/-- One successor, at 0x61100, whose dep is 1. -/
theorem test_node_complete : (let s := (withNode (3 + 2 ^ 16 + 0x64000 * 2 ^ 64)).modGraph 1 fun g => { g with ready := [], finished := [0x61000] }
    let t := on (.nodeComplete 1 0x61000) { s with mem := physPuts (physPuts s.mem 0 0x64000 (bytesOf 8 0x61100)) 0 0x61104 [1] }
    bytesAt t 0x61104 1 = [0] ∧ (t.graph? 1).map (fun g => (g.finished, g.ready)) = some ([], [0x61100])) := by decide +kernel
theorem test_rollback : (let s := (dispensing idle0).modLaunch 0 fun L => { L with idem := true, retry := 2, contain := true, pool := [], itemsDone := 5 }
    ((on (.nodeRollback 0) s).launch? 0).map (fun L => (L.tries, L.rollback, L.pool, L.itemsDone)) = some (1, true, [(0, 10000)], 0) ∧ (on (.nodeRollback 0) s).wgs = []) := by decide +kernel

/-- A copy entry, by its fields (R301). -/
def entry (op mode soff addr second extra : Nat) : BitVec 256 := BitVec.ofNat 256 (op + mode * 2 ^ 12 + soff * 2 ^ 32 + addr * 2 ^ 64 + second * 2 ^ 128 + extra * 2 ^ 224)

/-- Copy queue 0 of workgroup 0 with one entry, and bytes at 0x40000. -/
def copying (e : BitVec 256) (bs : List Byte) : State :=
  ({ idle0 with mem := physPuts idle0.mem 0 0x40000 bs }).modWg 0 fun g => { g with queues := setAt g.queues 0 { ring := [(0, e)], tail := 1 } }

/-- Copy queue 0 after. -/
def cq0 (s : State) : CopyQueue := ((s.wg? 0).map fun g => g.queues.getD 0 {}).getD {}

/-- A descriptor at 0x50000 of an FP32 tensor with 2 columns and 1 row at 0x40000 (R303). -/
def withDesc (s : State) : State := { s with mem := physPuts s.mem 0 0x50000 (bytesOf 64 (0x40000 + 2 * 2 ^ 64 + 2 ^ 96 + 8 * 2 ^ 160 + 2 ^ 304)) }

/-- A tile of one row: the entry's rows and columns are 1 and 2. -/
def tile (op extra : Nat) : BitVec 256 := BitVec.ofNat 256 (op + 0x100 * 2 ^ 32 + 0x50000 * 2 ^ 64 + 2 ^ 192 + 2 * 2 ^ 208 + extra * 2 ^ 224)

/-- Bytes of the scratchpad at 0x100. -/
def padAt (s : State) (n : Nat) : Option (List Byte) := (s.wg? 0).map fun g => scratchRead 0 g 0x100 n

theorem test_tload : (let t := on (.tload 0 0) (withDesc (copying (tile 1 0) [1, 2, 3, 4, 5, 6, 7, 8]))
    padAt t 8 = some [1, 2, 3, 4, 5, 6, 7, 8] ∧ (cq0 t).performed = some { status := 0, bytes := 8 }) := by decide +kernel
theorem test_tstore : (let s := (withDesc (copying (tile 2 0) [])).modWg 0 fun g => scratchWrite g 0x100 [1, 2, 3, 4, 5, 6, 7, 8]
    bytesAt (on (.tstore 0 0) s) 0x40000 8 = [1, 2, 3, 4, 5, 6, 7, 8]) := by decide +kernel
theorem test_gather : (let s := (withDesc (copying (tile 4 0x200) [1, 2, 3, 4, 5, 6, 7, 8])).modWg 0 fun g => scratchWrite g 0x200 [0, 0, 0, 0]
    padAt (on (.gather 0 0) s) 8 = some [1, 2, 3, 4, 5, 6, 7, 8]) := by decide +kernel
theorem test_scatter : (let s := (withDesc (copying (tile 5 0x200) [])).modWg 0 fun g => scratchWrite (scratchWrite g 0x200 [0, 0, 0, 0]) 0x100 [1, 2, 3, 4, 5, 6, 7, 8]
    bytesAt (on (.scatter 0 0) s) 0x40000 8 = [1, 2, 3, 4, 5, 6, 7, 8]) := by decide +kernel
theorem test_lcopy : (let t := on (.lcopy 0 0) (copying (entry 3 0 0x100 0x40001 0 3) [9, 1, 2, 3])
    padAt t 3 = some [1, 2, 3] ∧ (cq0 t).performed = some { status := 0, bytes := 3 }) := by decide +kernel
theorem test_fill : padAt (on (.fill 0 0) (copying (entry 6 0 0x100 0 0x04030201 8) [])) 8 = some [1, 2, 3, 4, 1, 2, 3, 4]
    ∧ (cq0 (on (.fill 0 0) (copying (entry 6 0 0x100 0 0x04030201 6) []))).performed = some { status := 2, bytes := 0 } := by decide +kernel
theorem test_hint_l2 : (cq0 (on (.hintL2 0 0) (copying (entry 7 0 0 0x40000 0 64) []))).performed = some { status := 0, bytes := 0 } := by decide +kernel
/-- R311: the slot does not hold the key. -/
theorem test_hint_tag : (cq0 (on (.hintTag 0 0) (copying (entry 7 1 2 0x40000 5 64) []))).performed = some { status := 9, bytes := 0 } := by decide +kernel

/-- Handle 3 with peer 5, and copy queue 0 with an RCOPY on it; the put's token is sent. -/
def remote (mode : Nat) (sent : List Nat) : State :=
  let s := copying (entry 8 mode 0 0x40000 (3 + 5 * 2 ^ 64) 4) [1, 2, 3, 4]
  { s with hub := { s.hub with handles := [(3, { members := [{ domain := 5, ctx := 0, base := 0, len := 0x1000 }], sent := sent })] } }

theorem test_rcopy_put : (let t := on (.rcopyPut 0 0) (remote 0 [])
    (t.hub.handles.map (fun h => h.2.sent), (cq0 t).performed) = ([[0]], none)) ∧ (cq0 (on (.rcopyPut 0 0) (remote 0 [0]))).performed = some { status := 0, bytes := 4 } := by decide +kernel
theorem test_rcopy_get : (let t := on (.rcopyGet 0 0 [9, 8, 7, 6]) (remote 1 [])
    bytesAt t 0x40000 4 = [9, 8, 7, 6] ∧ (cq0 t).performed = some { status := 0, bytes := 4 }) := by decide +kernel
theorem test_qfence : (cq0 (on (.qfence 0 0) (copying (entry 9 0 2 0 0 0) []))).performed = some { status := 0, bytes := 0 }
    ∧ (cq0 (on (.qfence 0 0) (copying (entry 9 0 2 0 (2 ^ 32) 0) []))).performed = none := by decide +kernel
/-- R299: the err word holds the status and the entry's number. -/
theorem test_copy_complete : (let s := (copying (entry 3 0 0 0 0 0) []).modWg 0 fun g => { g with queues := setAt g.queues 0 { (g.queues.getD 0 {}) with tail := 9, done := 8, performed := some { status := 2, bytes := 0 } } }
    let q := cq0 (on (.copyEntryComplete 0 0) s)
    (q.done, q.err, q.stopped, q.performed) = (9, 0x802, true, none)) := by decide +kernel
theorem test_copy_skip : (let s := (copying (entry 3 0 0 0 0 0) []).modWg 0 fun g => { g with queues := setAt g.queues 0 { (g.queues.getD 0 {}) with stopped := true, err := 2 } }
    let q := cq0 (on (.copyEntrySkip 0 0) s)
    (q.done, q.err, q.stopped) = (1, 2, true)) := by decide +kernel

/-! Pre-emption, power, contexts, the fabric and the debugger. -/

theorem test_preempt : ((on (.preemptRequest (.context 0)) idle0).wg? 0).map (fun g => g.preempt) = some (some 0) := by decide +kernel
theorem test_preempt_timeout : (let s := idle0.modWg 0 fun g => { g with preempt := some 200000 }
    ((on (.preemptTimeout 0) s).warp? 0).map (fun w => w.stop) = some .preempted) := by decide +kernel

/-- The workgroup's one warp is stopped for a save, and the context's save area is at `at_`. -/
def saving (at_ : DWord) : State :=
  (((idle0.modWg 0 fun g => { g with preempt := some 0 }).modWarp 0 fun w => { w with stop := .preempted }).modCtx 0 fun c => { c with saveArea := at_, saveLen := 0x4000 }).modLaunch 0 fun L => { L with hdr := {} }

/-- A save's room and its writes depend on the record's size and on the translation of the area alone. -/
theorem save_cases (s : State) (a : DWord) (c : Ctx) (h : s.ctxFields 0 = c) (ha : c.saveArea = a) (hl : c.saveLen = 0x4000) (n : Nat) (hs : savedBytes s 0 = 0)
    (hw : ((s.wg? 0).map fun g => recordLen s 0 (s.launchOf g).hdr) = some n) (hn : n ≤ 0x4000) :
    (∀ f, translateRange s 0 a.toNat 0x4000 0 .store = .fault f → saveAll s 0 [0] = none)
    ∧ ∀ ps, translateRange s 0 a.toNat 0x4000 0 .store = .ok ps → ∃ t, saveAll s 0 [0] = some t := by
  have hlen : ((List.range 0x4000).map fun i => Config.anyByte s.free i).length = 0x4000 := by simp
  constructor
  · intro f hf
    simp [saveAll, writeVa, h, ha, hl, hs, hw, hlen, hf]
  · intro ps hp
    have : ¬0x4000 < n := by omega
    simp [saveAll, writeVa, h, ha, hl, hs, hw, hlen, hp, this]

/-- Whether something translates. -/
def maps {α : Type} (x : Xlat α) : Bool :=
  match x with
  | .ok _ => true
  | .fault _ => false

theorem xlat_ok {α : Type} {x : Xlat α} (h : maps x = true) : ∃ a, x = .ok a := by
  cases x with
  | ok a => exact ⟨a, rfl⟩
  | fault c => cases h

theorem xlat_fault {α : Type} {x : Xlat α} (h : maps x = false) : ∃ c, x = .fault c := by
  cases x with
  | ok a => cases h
  | fault c => exact ⟨c, rfl⟩

/-- R365, R366: a save area of 16 KiB holds the record, whatever its size, and the save goes ahead; one that does not translate abandons it. -/
theorem test_witness_save : (∃ t, saveAll (saving 0x100000) 0 [0] = some t) ∧ saveAll (saving 0x7FFFF000) 0 [0] = none := by
  have small (a : DWord) (hb : ((saving a).wg? 0).map (fun g => recordBound ((saving a).launchOf g).hdr) = some 13312) :
      ∃ n, ((saving a).wg? 0).map (fun g => recordLen (saving a) 0 ((saving a).launchOf g).hdr) = some n ∧ n ≤ 0x4000 := by
    cases hg : (saving a).wg? 0 with
    | none => simp [hg] at hb
    | some g =>
      rw [hg] at hb
      simp only [Option.map_some, Option.some.injEq] at hb
      refine ⟨_, rfl, ?_⟩
      have := Nat.mod_lt (Config.recordLen (saving a).free 0) (Nat.succ_pos (recordBound ((saving a).launchOf g).hdr))
      simp only [recordLen, hb] at this ⊢
      omega
  obtain ⟨n, hw, hn⟩ := small 0x100000 (by decide +kernel)
  obtain ⟨n', hw', hn'⟩ := small 0x7FFFF000 (by decide +kernel)
  constructor
  · obtain ⟨ps, hp⟩ := xlat_ok (x := translateRange (saving 0x100000) 0 (0x100000 : DWord).toNat 0x4000 0 .store) (by decide +kernel)
    exact (save_cases (saving 0x100000) 0x100000 _ rfl (by decide +kernel) (by decide +kernel) n (by decide +kernel) hw hn).2 ps hp
  · obtain ⟨f, hf⟩ := xlat_fault (x := translateRange (saving 0x7FFFF000) 0 (0x7FFFF000 : DWord).toNat 0x4000 0 .store) (by decide +kernel)
    exact (save_cases (saving 0x7FFFF000) 0x7FFFF000 _ rfl (by decide +kernel) (by decide +kernel) n' (by decide +kernel) hw' hn').1 f hf

theorem test_restore : (let g : Workgroup := ((idle0.wg? 0).getD { launch := 0, num := 0, core := 0 })
    let s : State := { idle0 with wgs := [], warps := [], hub := { idle0.hub with saved := [{ id := 4, wg := g, warps := [(0, (idle0.warp? 0).getD { wg := 0, uid := 0, widx := 0, lanes := [], slices := [], joins := [] })], len := 0 }] } }
    let t := on (.workgroupRestore 4 9) s
    (t.wg? 4).map (fun g => g.core) = some 9 ∧ t.hub.saved = [] ∧ t.warps.length = 1) := by decide +kernel
theorem test_pfail : (on .pfail { idle0 with time := 77 }).power.phase = .window 77 1 := by decide +kernel
theorem test_window_close : (on .pfailWindowClose { idle0 with time := 20077, power := { phase := .window 77 1 } }).power.phase = .closed 1 := by decide +kernel
theorem test_quiesce : (on .quiesce { idle0 with power := { phase := .closed 1 } }).power.phase = .quiesced 1 := by decide +kernel
/-- R368: the older slot is 0, and the range at 0x40000 is whole. -/
theorem test_keep_save : (let s := ({ copying 0 [1, 2, 3] with power := { phase := .quiesced 1 } }).modCtx 0 fun c => { c with keeps := [(0x40000, 64)], keepTag := 9 }
    ((on .keepSave s).power.newest, (on .keepSave s).power.slot0.map fun k => k.ranges.map fun r => (r.tag, r.commit, r.data.take 3)) = (0, some [(9, true, [1, 2, 3])])) := by decide +kernel
/-- R378: the device runs when the image passes its verification, and otherwise stays in reset and reports it. -/
theorem test_power_up : (let t := on .powerUp { idle0 with power := { phase := .off, newest := 0 } }
    (t.power.newest, t.hub.ctxs, t.warps) = (0, [], []) ∧ (t.power.phase = .running ∨ (t.power.phase = .held ∧ t.hub.reply = .imageBad))) := by
  simp only [on, exec, Event.row, execPowerUp, onlyIf, verifyFirmware]
  cases Config.imageGood idle0.free <;> decide +kernel
theorem test_warm_reset : ((on (.warmReset .hub) idle0).ctx? 0).map (fun c => c.killed) = some true := by
  simp only [on, exec, Event.row, execWarmReset, onlyIf, verifyFirmware]
  generalize Config.imageGood _ = b
  cases b <;> decide +kernel

/-- Page tables with the first GiB pinned, and a descriptor that names them (R354). -/
def pinned : State := { idle0 with mem := physPuts idle0.mem 0 (tableAt + 0x2000) [0xE3] }
def desc (root saveLen : Nat) : List Byte := bytesOf 256 (root + 0x80000 * 2 ^ 192 + 0x4000000 * 2 ^ 256 + saveLen * 2 ^ 320 + 2 ^ 417)

theorem test_context_create : (let t := on (.contextCreate (desc 0x10000 0x10000) [7]) { pinned with hub := { pinned.hub with created := 1 } }
    (t.hub.reply, (t.ctx? 1).map (fun c => c.saveLen), (t.queueOf 7).ctx) = (.created 1, some 0x10000, some 1)) := by decide +kernel
theorem test_context_bad : (on (.contextCreate (desc 0x10008 0x10000) []) pinned).hub.reply = .descBad ∧ (on (.contextCreate (desc 0x10000 0x10000) []) { idle0 with hub := { idle0.hub with created := 1 } }).hub.reply = .unpinned := by
  decide +kernel
theorem test_kill : ((on (.hostKillCommand 0) (withQueue idle0)).ctx? 0).map (fun c => c.killed) = some true ∧ ((on (.hostKillCommand 0) (withQueue idle0)).queueOf 7).state = 2 := by decide +kernel
theorem test_context_destroy : (let s : State := { idle0 with warps := [], wgs := [], hub := { idle0.hub with launches := [], ctxs := [(0, { killed := true })] } }
    (on (.contextDestroy 0) s).hub.ctxs = []) := by decide +kernel
theorem test_context_update : ((on (.contextUpdate 0 { policyHalt := true, trapVec := 0x30000, pfailVec := 0, waitLimit := 5 }) idle0).ctx? 0).map (fun c => (c.policyHalt, c.trapVec, c.waitLimit)) =
    some (true, 0x30000, 5) := by decide +kernel
/-- A table whose breakpoint 0 is not 0. -/
theorem test_load_table : (on (.loadTable 0 2 0x40000) (copying 0 [0, 0, 0x80, 0x3F])).hub.reply = .compandBad := by decide +kernel
theorem test_key_load : (on (.keyLoad 5 0 9) idle0).hub.keys = [5] ∧ ((on (.keyLoad 5 0 9) idle0).ctx? 0).map (fun c => c.keys) = some [5] ∧ (on (.keyLoad 0 0 9) idle0).hub.keys = [] := by decide +kernel
theorem test_handle_create : (on (.collectiveHandleCreate 3 [{ domain := 5, ctx := 0, base := 0, len := 64 }]) idle0).hub.handles.map (fun h => (h.1, h.2.aborted)) = [(3, false)] := by decide +kernel
theorem test_peer_recovering : (on (.peerRecovering 5) idle0).hub.recovering = [5] ∧ (on (.peerRecovered 5) (on (.peerRecovering 5) idle0)).hub.recovering = [] := by decide +kernel
theorem test_retransmit : (on (.tokenRetransmit 3 0) (remote 0 [0])).hub.handles.map (fun h => h.2.sent) = [[0]] := by decide +kernel
theorem test_peer_lost : (on (.peerLost 3) (remote 0 [])).hub.handles.map (fun h => h.2.aborted) = [true] := by decide +kernel
theorem test_debug : (let s := on (.debugHalt (.warp 0)) (on (.debuggerAttach true) idle0)
    let t := on (.debugStep 0 0x20000) s
    (s.warp? 0).map (fun w => w.stop) = some (.debugger none) ∧ (t.warp? 0).map (fun w => w.stop) = some (.debugger (some 0x20000)) ∧ ((on (.debugResume (.warp 0)) t).warp? 0).map (fun w => w.stop) = some .running) := by
  decide +kernel
theorem test_halted_resume : (let s := idle0.modWarp 0 fun w => { w with stop := .halted { code := 0x23, mask := 0xF, path := 0xF, pc := 0x20000, resume := .cont, cont := 0x2000C } }
    ((on (.haltedWarpResume 0) s).warp? 0).map (fun w => w.stop) = some .running) := by decide +kernel
theorem test_drain : (let t := on (.drain 0) (dispensing idle0)
    (t.hub.drains.map (fun r => r.ranges), (t.launch? 0).map (fun L => L.pool)) = ([[(0, 10000)]], some [])) := by decide +kernel
theorem test_drained_launch : (let s := withPacket 1 (1 + 0x60000 * 2 ^ 64) idle0
    let t := on (.drainedLaunch (.packet 7 0) [(10, 20), (60, 100)] true true) { s with mem := physPuts s.mem 0 0x60000 (bytesOf 128 header) }
    (t.launch? 1).map (fun L => L.pool) = some [(10, 20), (60, 64)]) := by decide +kernel

/-- A Nelrak-1 launch whose warp stands at a function's entry (R402). -/
def entering : State := (pinned.modLaunch 0 fun L => { L with hdr := { L.hdr with isaRev := 1 } }).modWarp 0 fun w => w.mapLanes fun k l => { l with wait := if k < 4 then some (.translation 0) else none }

theorem test_claim : bytesAt (on (.translationClaim 0 0x40000) entering) 0x40008 2 = [1, 0] := by decide +kernel
theorem test_publish : (let t := on (.translationPublish 0 0 0x40000 (some (0x30000, 64))) (on (.translationClaim 0 0x40000) entering)
    (slots t).take 2 = [[(0x30000, 15)], [(0x20000, 15)]] ∧ bytesAt t 0x40000 9 = [0, 0, 3, 0, 0, 0, 0, 0, 2] ∧ (lane t 3).wait = none) := by decide +kernel
/-- The device's own member of a handle, whatever its domain index. -/
theorem test_window : (let m : HandleMember := { domain := domainIndex.toNat, ctx := 0, base := 0x40000, len := 64 }
    ({ members := [m] } : Handle).window = some m) := by simp [Handle.window]

/-! Witnesses: states and operands that meet the hypotheses of the statements, so that none of them speaks of nothing. -/

/-- Every executing lane. -/
def each (q : Gang) (p : Nat → Bool) : Bool := (lanesOf q.exec).all p

/-- A gang executes whole, in part, and not at all (LaneRule, MatRule, and every statement about an instruction). -/
theorem test_witness_gang : (∃ q, gangOf (start []) u 1 = some q ∧ decide (q.exec = q.mask ∧ q.exec ≠ 0) = true)
    ∧ (∃ q, gangOf (startIf 3 []) g0 3 = some q ∧ decide (q.exec = 3 ∧ q.exec ≠ q.mask) = true)
    ∧ ∃ q, gangOf (startIf 0 []) g0 3 = some q ∧ decide (q.exec = 0 ∧ q.pending = false) = true :=
  ⟨exists_of_any (by decide +kernel), exists_of_any (by decide +kernel), exists_of_any (by decide +kernel)⟩

/-- StepRunsDecoded: the machine with a NOP to fetch, with a word that decodes to nothing, and at a dictionary's code. -/
def placed : State := State.reset.withFetchWord 32 0x38
theorem test_witness_step : placed.issue = some { wk := 0, pc := 0x20000 } ∧ (∃ w, placed.warp? 0 = some w ∧ (decide (w.gang 0x20000 ≠ 0) && fetch placed { wk := 0, pc := 0x20000 } w != .poison
      && (match fetch placed { wk := 0, pc := 0x20000 } w with
        | .instr (.nop _) _ => true
        | _ => false)) = true) := ⟨by decide +kernel, exists_of_any (by decide +kernel)⟩
theorem test_witness_step_bad : ∃ w, (State.reset.withFetchWord 32 0x3FB8).warp? 0 = some w ∧ decide (fetch (State.reset.withFetchWord 32 0x3FB8) { wk := 0, pc := 0x20000 } w = .bad 2) = true :=
  exists_of_any (by decide +kernel)
/-- Whether a step goes on. -/
def nexts (o : Out) : Bool :=
  match o with
  | .next _ => true
  | _ => false

theorem goes_of_nexts {o : Out} (h : nexts o = true) : Goes o := by
  cases o with
  | next t => exact ⟨t, rfl⟩
  | fault f => cases h
  | refused r => cases h

theorem test_witness_step_goes : Goes (step placed) := goes_of_nexts (by decide +kernel)

/-- DecodeOfEncode, EncodeOfDecode. -/
theorem test_witness_encode : (Instr.iadd u 3 1 2).wf = true ∧ (Instr.iadd u 3 1 2).hdr.grd ≠ 15 ∧ encode (.iadd u 3 1 2) ≠ []
    ∧ decode [(encode (.iadd u 3 1 2)).getD 0 0, 0, 0, 0, 0] = .ok (.iadd u 3 1 2) := by decide +kernel

/-- MemoryStaysCanonical. -/
theorem test_witness_memory : placed.mem.Ok := ⟨by decide +kernel, by decide +kernel, by decide +kernel⟩

/-- BranchInstructions. -/
theorem test_witness_branches : (∃ q, gangOf (startIf 3 [(2, 0x30000), (254, 0x30000), (255, 0x20000000)]) g0 1 = some q ∧ ((q.w.split q.pc q.mask fun k => if bitAt q.exec k then 0x30000 else q.next).isSome
      && (each q fun k => decide (((q.lane k).rdW (q.env k) 0 2).toNat % 4 = 0 ∧ ((q.lane k).rdW (q.env k) 0 254).toNat / 2 ^ 57 % 8 = 0))) = true)
    ∧ ∃ q, gangOf (start []) u 3 = some q ∧ decide (q.exec = q.mask ∧ (q.w.split q.pc q.mask fun _ => 0x30000).isSome) = true :=
  ⟨exists_of_any (by decide +kernel), exists_of_any (by decide +kernel)⟩

/-- ControlTraps: a misaligned register, a partial guard, and a slice whose stack is full. -/
def crowded : State := (startIf 1 []).modWarp 0 fun w => { w with slices := setAt w.slices 0 { slots := [{ pc := 0x20000, mask := 3 }, { pc := 0x30000, mask := 12 }], stack := List.replicate 8 0 } }
theorem test_witness_branch_traps : (∃ q, gangOf (startIf 3 [(2, 0x30001), (254, 0x30002)]) g0 1 = some q ∧ decide (q.exec ≠ 0 ∧ q.exec ≠ q.mask ∧ ((q.lane 0).rdW (q.env 0) 0 2).toNat % 4 ≠ 0) = true)
    ∧ ∃ q, gangOf crowded g0 1 = some q ∧ decide ((q.w.split q.pc q.mask fun k => if bitAt q.exec k then 0x20010 else q.next) = none) = true :=
  ⟨exists_of_any (by decide +kernel), exists_of_any (by decide +kernel)⟩

/-- JoinInstructions, and JSET's traps. -/
theorem test_witness_joins : (∃ q, gangOf (start [(2, 0xFF)]) u 3 = some q ∧ (decide (q.exec ≠ 0 ∧ q.w.parkedJoin 1 = 0 ∧ q.pending = false) && each q fun k => decide ((q.lane k).rd (q.env k) 0 2 = 0xFF)) = true)
    ∧ (∃ q, gangOf (byLane (start []) fun k => [(2, BitVec.ofNat 32 k)]) u 3 = some q ∧ decide ((q.lane 1).rd (q.env 1) 0 2 ≠ (q.lane 0).rd (q.env 0) 0 2) = true)
    ∧ ∃ q, gangOf { after (.jwait g0 (ext 1 0 0 0 0 0)) (startIf 1 []) with issue := some { wk := 0, pc := 0x2000C } } u 3 = some q ∧ decide (q.exec ≠ 0 ∧ q.w.parkedJoin 1 ≠ 0) = true :=
  ⟨exists_of_any (by decide +kernel), exists_of_any (by decide +kernel), exists_of_any (by decide +kernel)⟩

/-- The join releases; it is lost when its expected lanes are parked at a VOTE. -/
theorem test_witness_join_tests : (∃ w, (after (.joinAt g0 (ext 1 0 0 0 0 0)) (withJoin { expect := 1 } (startIf 1 []))).warp? 0 = some w ∧ decide (w.trap = none ∧ w.testJoin 1 = .releases) = true)
    ∧ ∃ w, (after (.voteAny u (ext 1 0 0 0 0 (m 11 1))) { after (.jwait g0 (ext 1 0 0 0 0 0)) (withJoin { expect := 2 } (startIf 1 [])) with issue := some { wk := 0, pc := 0x2000C } }).warp? 0 = some w
      ∧ decide (w.trap = none ∧ w.testJoin 1 = .lost) = true := ⟨exists_of_any (by decide +kernel), exists_of_any (by decide +kernel)⟩

/-- WarpWidePasses: an arrival with one member mask, and one that is fixed already; a pass that may issue, whole and in part. -/
theorem test_witness_arrival : (∃ q, gangOf numbered u 3 = some q ∧ (decide (q.exec ≠ 0 ∧ q.w.members = []) && each q fun k => decide ((q.lane k).rd (q.env k) 40 9 = 0xFFFFFFFF)) = true)
    ∧ (∃ q, gangOf numbered u 3 = some q ∧ decide ((q.lane 1).rd (q.env 1) 40 1 ≠ (q.lane 0).rd (q.env 0) 40 1) = true)
    ∧ ∃ q, gangOf (numbered.modWarp 0 fun w => { w with members := [(0x20000, 3)] }) u 3 = some q ∧ decide ((q.w.members.find? fun p => p.1 == q.pc) = some (0x20000, 3)) = true :=
  ⟨exists_of_any (by decide +kernel), exists_of_any (by decide +kernel), exists_of_any (by decide +kernel)⟩
theorem test_witness_pass : ∃ w, (after (.voteAny u (ext 1 0 0 0 0 (m 11 1))) numbered).warp? 0 = some w ∧ decide (w.wideReady 0x20000 = some false ∧ w.stop = .running ∧ w.due = []) = true :=
  exists_of_any (by decide +kernel)

/-- TretPpointPfdone. -/
def handling (s : State) : State := s.modWarp 0 fun w => w.mapLanes fun _ l => { l with handler := true }
theorem test_witness_tret : (∃ q, gangOf (handling (start [(2, 0x30000)])) u 3 = some q ∧ (each q fun k => (q.lane k).handler && decide (((q.lane k).rdW (q.env k) 0 2).toNat % 4 = 0 ∧ ((q.lane k).rdW (q.env k) 0 2).toNat < 2 ^ 57)) = true)
    ∧ (∃ q, gangOf (start []) u 3 = some q ∧ decide ((q.lane 0).handler = false ∧ q.w.pfail = false ∧ ((start []).wgOf q.w).preempt = none) = true)
    ∧ ∃ q, gangOf ((start []).modWarp 0 fun w => { w with pfail := true }) u 3 = some q ∧ q.w.pfail = true :=
  ⟨exists_of_any (by decide +kernel), exists_of_any (by decide +kernel), exists_of_any (by decide +kernel)⟩
theorem test_witness_ppoint : ∃ q, gangOf ((start []).modWg 0 fun g => { g with preempt := some 0 }) u 3 = some q
    ∧ ((((start []).modWg 0 fun g => { g with preempt := some 0 }).wgOf q.w).preempt.isSome && !(lanesOf q.mask).any fun k => (q.lane k).handler) = true := exists_of_any (by decide +kernel)

/-- DictIssues: a code that passes, one beyond the dictionary, one with bit 15 set, and an entry of two words. -/
theorem test_witness_dict : (∃ q, gangOf (withDict (start [])) u 1 = some q ∧ (decide (((withDict (start [])).launchOfWarp q.w).hdr.dictSize = 2 ∧ q.pc.toNat / 2 ^ 60 % 16 = 0)
      && ((bankOf (withDict (start [])) 0 ((withDict (start [])).launchOfWarp q.w)).bind fun b => b.words[1]?) == (encode (.iadd u 3 1 2))[0]?) = true)
    ∧ ∃ q, gangOf ((withDict (start [])).modCore 0 fun c => { c with banks := [{ ctx := 0, addr := 0x60000, size := 2, words := [1, 1] }] }) u 1 = some q ∧ decide (q.exec = q.mask) = true :=
  ⟨exists_of_any (by decide +kernel), exists_of_any (by decide +kernel)⟩

/-- GlobalLoads, GlobalStores, AtomicInstructions, RedsAndFences: aligned addresses that translate; pages with one key. -/
theorem test_witness_access : ∃ q, gangOf (withDataIf [(2, 0x40000)] [1]) g0 3 = some q ∧ (each q fun k =>
    let ea := (q.lane k).rdW (q.env k) 0 2
    decide (faultAt (withDataIf [(2, 0x40000)] [1]) ((withDataIf [(2, 0x40000)] [1]).ctxOf q.w) ea 4 k .load = none ∧ faultAt (withDataIf [(2, 0x40000)] [1]) ((withDataIf [(2, 0x40000)] [1]).ctxOf q.w) ea 4 k .store = none
      ∧ ea.toNat % 4 = 0 ∧ (piecesAt (withDataIf [(2, 0x40000)] [1]) ((withDataIf [(2, 0x40000)] [1]).ctxOf q.w) ea 4 k .store).all (fun p => p.key = 0))) = true := exists_of_any (by decide +kernel)

/-- AccessFaults: a fault for Jasper, and one at an address that no table maps. -/
theorem test_witness_faults : (∃ q, gangOf (startIf 3 [(2, 0x40000000)]) g0 3 = some q
      ∧ decide (laneFault q (fun k => faultAt (startIf 3 [(2, 0x40000000)]) ((startIf 3 [(2, 0x40000000)]).ctxOf q.w) ((q.lane k).rdW (q.env k) 0 2) 4 k .load) = some (0x0E, 3, 0x40000000)) = true)
    ∧ ∃ q, gangOf (startIf 3 [(3, 0x2000000)]) g0 3 = some q
      ∧ decide ((laneFault q (fun k => faultAt (startIf 3 [(3, 0x2000000)]) ((startIf 3 [(3, 0x2000000)]).ctxOf q.w) ((q.lane k).rdW (q.env k) 0 2) 4 k .load)).map (fun y => (y.1, decide (2 ^ 57 ≤ y.2.2.toNat))) = some (0x0E, true)) = true :=
  ⟨exists_of_any (by decide +kernel), exists_of_any (by decide +kernel)⟩

/-- ScratchAccess, AtomicInstructions. -/
theorem test_witness_scratch : ∃ q, gangOf (startIf 3 [(2, 0x10)]) g0 3 = some q ∧ (each q fun k =>
    decide (scratchTarget (startIf 3 [(2, 0x10)]) q.w.wg false ((q.lane k).rd (q.env k) 0 2) 4 = some (0, 0x10)) && (((startIf 3 [(2, 0x10)]).wg? 0).map fun g => !scratchUe g 0x10 4).getD false) = true :=
  exists_of_any (by decide +kernel)

/-- TagInstructions: a key that is held, an invalid slot below it, and a full table with one slot that is least recently used. -/
def tagged (ts : List TagSlot) : Workgroup := { launch := 0, num := 0, core := 0, tags := ts }
theorem test_witness_tags : (∃ k, k < (tagged [{}, { valid := true, key := 7, stamp := 1 }]).tags.length ∧ ((tagged [{}, { valid := true, key := 7, stamp := 1 }]).tags.getD k {}).key = 7 ∧ k = 1)
    ∧ (∀ k, k < 2 → ((tagged [{ valid := true, key := 7, stamp := 1 }, { valid := true, key := 8, stamp := 2 }]).tags.getD k {}).valid = true)
    ∧ ∀ j, j < 2 → j ≠ 0 → ((tagged [{ valid := true, key := 7, stamp := 1 }, { valid := true, key := 8, stamp := 2 }]).tags.getD 0 {}).stamp < ((tagged [{ valid := true, key := 7, stamp := 1 }, { valid := true, key := 8, stamp := 2 }]).tags.getD j {}).stamp := by
  decide

/-- AtomicOperations. -/
theorem test_witness_atomic : (0 < 4 ∧ 10 < 2 ^ (8 * 4)) ∧ ({ op := 1, n := 4, sgn := true, flt := false } : AtomOp).apply 10 0xFFFFFFFF 0 = some 0xFFFFFFFF := by decide +kernel

/-- RedsAndFences: a RED that the fence waits for. -/
theorem test_witness_fence : ∃ q, gangOf { after (.redAdd g0 { ext 0 2 4 0 0 0 with scope := 4 }) (withDataIf [(2, 0x40000), (4, 2)] [10]) with issue := some { wk := 0, pc := 0x2000C } } u 3 = some q
    ∧ ((after (.redAdd g0 { ext 0 2 4 0 0 0 with scope := 4 }) (withDataIf [(2, 0x40000), (4, 2)] [10])).mem.reds.any fun r => decide (r.warp = q.w.uid ∧ r.lanes &&& q.exec ≠ 0 ∧ r.scope ≤ 4)) = true :=
  exists_of_any (by decide +kernel)

/-- BarrierInstructions: a barrier that is full, and a lane that waits for its end. -/
theorem test_witness_barrier : (∃ g, (start []).wg? 0 = some g ∧ decide (g.bars.length = 8 ∧ g.warps = [(0, 0)]) = true)
    ∧ barFull (after (.barArrive g0 { ext 0 0 0 0 0 (m 11 1) with scope := 2 }) (startIf 0xF [])) 0 false 1 = false
    ∧ barFull ((start []).modWg 0 fun g => { g with bars := setAt g.bars 1 { required := [(0, 3)], arrived := [(0, 3)] } }) 0 false 1 = true :=
  ⟨exists_of_any (by decide +kernel), by decide +kernel, by decide +kernel⟩

/-- WaitsAndCounters, CopyQueueInstructions, LaunchAndSigwake: what the workgroup and the queue hold. -/
theorem test_witness_counters : (∃ g, (start []).wg? 0 = some g ∧ decide (g.counters.length = 16 ∧ g.queues.length = 4) = true) ∧ queueNamed (withQueue (start [])) 0 7 = true ∧ queueNamed (withQueue (start [])) 0 6 = false :=
  ⟨exists_of_any (by decide +kernel), by decide +kernel, by decide +kernel⟩

/-- MatrixMoves and its kin: dense views that fit, lie apart and have one shape; shapes that do not. -/
theorem test_witness_views : ∃ q, gangOf (mat [] [(1, sh 2 2 1), (2, sh 2 2 1)]) g0 3 = some q ∧ (each q fun k => decide ((q.lane k).fits q.g 8 1 ∧ (q.lane k).fits q.g 16 2 ∧ (q.lane k).apart 8 1 16 2 ∧ ¬(q.lane k).fits q.g 254 1)) = true :=
  exists_of_any (by decide +kernel)
/-- No chain is open; then one is. -/
theorem test_witness_chain : (∃ q, gangOf (mat [] []) g0 3 = some q ∧ ((List.range 32).all fun k => (q.lane k).chain.isNone) = true)
    ∧ ((lane (after (.mma g0 (ext 8 16 24 8 0 (hs 1 2 3 1))) (mat [(8, 1), (16, 0x0403), (24, 0x0605)] [(1, sh 1 1 6), (2, sh 1 2 4), (3, sh 2 1 4)])) 0).chain.map fun c => c.dst) = some 8 :=
  ⟨exists_of_any (by decide +kernel), by decide +kernel⟩
/-- MatrixCheckOrder: lane 0 fails step 2 of R152, with view words beyond 256. -/
theorem test_witness_checks : causes (after (.mzero g0 (ext 0 0 0 0 0 (hs 1 0 0 0))) (mat [] [(1, sh 32 32 1)])) = [(0x0A, 2, 1)] ∧ causes (after (.mzero g0 (ext 254 0 0 0 0 (hs 1 0 0 0))) (mat [] [(1, sh 2 2 1)])) = [(0x04, 0, 1)] := by
  decide +kernel
/-- TileLayouts: a dense shape, and a packed one with its kept elements. -/
theorem test_witness_tiles : Sh.ok (sh 2 3 2) = true ∧ (Tile.ok (sh 1 4 4 ||| 0x4000) (Tile.make (sh 1 4 4 ||| 0x4000) 2 2 false false [(1, 3), (3, 5)]) = true) := by decide +kernel

/-! Decoding: words that the spec writes out, or that are put together from its encoding tables, and words that it refuses. -/

/-- A header with a guard and without the marker. -/
def gd (g : Fin 16) : Hdr := { grd := BitVec.ofFin g, sw := false }

/-- "Worked encodings" of chapters 2, 9 and 18: one-word forms. -/
theorem test_decode_base : decode [0x1C614838] = .ok (.iadd u 5 6 7) ∧ decode [0x1440D054] = .ok (.shl { grd := 10, sw := true } 3 4 5)
    ∧ decode [0x78A7C850] = .ok (.iadd (gd 10) 31 10 30) ∧ decode [0x29E7C890] = .ok (.isub (gd 2) 31 30 10)
    ∧ decode [0x31F3C9B8] = .ok (.imul u 15 31 12) ∧ decode [0x50A28888] = .ok (.isub (gd 1) 10 10 20) := by decide +kernel
theorem test_decode_control : decode [0x00000538] = .ok (.rgn u) ∧ decode [0x000003B0] = .ok (.exitItem (gd 6)) ∧ decode [0xFFF20098] = .ok (.bra (gd 3) 0x3FFC8) := by decide +kernel
theorem test_decode_memory_base : decode [0x1121B43C] = .ok (.ld usw 6 18 4) ∧ decode [0x784A34B8] = .ok (.st u 40 4 30) ∧ decode [0x08317538] = .ok (.lds u 5 3 2)
    ∧ decode [0x01A6B5B8] = .ok (.sts u 26 26 0) := by decide +kernel
/-- Chapter 4: JSET, JOIN, the PLOP example. -/
theorem test_decode_join : decode [0x0639, 0x0900, 0] = .ok (.jset u (ext 0 9 0 0 0 0)) ∧ decode [0x0639, 0, 3] = .ok (.joinAt u (ext 0 0 0 0 3 0))
    ∧ decode [0x05B9, 0x04030201, 0x54000] = .ok (.plop u (ext 1 2 3 4 0 (m 11 0xA8))) := by decide +kernel
theorem test_decode_shfl : decode [0x06BD, 0x00180A1E, 0x80B] = .ok (.shflXor usw (ext 30 10 24 0 11 (m 11 1))) := by decide +kernel
theorem test_decode_int_ext : decode [0x0A39, 0x00060507, 0x800] = .ok (.imulhExt u (ext 7 5 6 0 0 (m 11 1))) ∧ decode [0x1539, 0x00060202, 0x5000] = .ok (.icmp u (ext 2 2 6 0 0 (m 11 2 + m 14 1)))
    ∧ decode [0x1539, 0x011B1C05, 0x8000] = .ok (.icmp u (ext 5 28 27 1 0 (m 15 1))) ∧ decode [0x1039, 0x000D1F0E, 1] = .ok (.shlExt u (ext 14 31 13 0 1 0)) := by decide +kernel
theorem test_decode_movi_lea : decode [0x16B9, 0x15, 0x55538000] = .ok (.movi u (ext 21 0 0 0 0 (m 12 0x55538))) ∧ decode [0x1739, 0x00020004, 0x3800] = .ok (.lea u (ext 4 0 2 0 0 (m 11 7))) := by decide +kernel
/-- Chapter 20: IADD64 with a 64-bit literal in place of its second source. -/
theorem test_decode_literal : decode [0x000317BA, 0xFFC8, 0] = .ok (.iadd64Ext u { ext 12 0 0 0 0 0 with len := .lit3, lit := 0xFFC8 }) := by decide +kernel
theorem test_decode_float : decode [0x1939, 0x0D0C0B0A, 0x10000] = .ok (.ffma u (ext 10 11 12 13 0 (m 16 1))) ∧ decode [0x2039, 0x0504, 0x89000] = .ok (.cvt u (ext 4 5 0 0 0 (m 11 2 + m 15 1 + m 19 1)))
    ∧ decode [0x21B9, 0x0401, 0x03008800] = .ok (.fclass u (ext 1 4 0 0 0 (m 11 1 + m 15 1 + m 16 0x300))) := by decide +kernel
theorem test_decode_shape : decode [0x2439, 2, 0x00442800] = .ok (.hset u (ext 2 0 0 0 0 (m 11 1 + m 12 0x442))) ∧ decode [0x2439, 0x00110001, 0] = .ok (.hset u (ext 1 0 17 0 0 0))
    ∧ decode [0x26B9, 0x02050410, 0x08001000] = .ok (.mld u (ext 16 4 5 2 0 (hs 2 0 0 0 + m 27 1))) := by decide +kernel
theorem test_decode_multiply : decode [0x2839, 0x10050828, 0x18109800] = .ok (.mma u (ext 40 8 5 16 0 (hs 3 1 2 0 + m 27 3))) ∧ decode [0x28BD, 0x00140820, 0x20109800] = .ok (.mmt usw (ext 32 8 20 0 0 (hs 3 1 2 0 + m 29 1))) := by
  decide +kernel
theorem test_decode_select : decode [0x2D3D, 0x10, 0x1000] = .ok (.mgnorm usw (ext 16 0 0 0 0 (hs 2 0 0 0))) ∧ decode [0x2CB9, 0x00040810, 0x9000] = .ok (.mtopk u (ext 16 8 4 0 0 (hs 2 1 0 0)))
    ∧ decode [0x2CB9, 0x00040810, 0x08009000] = .ok (.mtopk u (ext 16 8 4 0 0 (hs 2 1 0 0 + m 27 1))) := by decide +kernel
theorem test_decode_solve : decode [0x3039, 0x2E001414, 0x8800] = .ok (.mlu u (ext 20 20 0 46 0 (hs 1 1 0 0))) ∧ decode [0x323D, 0x2E281428, 0x08109000] = .ok (.msolv usw (ext 40 20 40 46 0 (hs 2 1 2 0 + m 27 1))) := by
  decide +kernel
theorem test_decode_memory : decode [0x3439, 0x00030406, 0x02889D00] = .ok (.ldExt u { ext 6 4 3 0 0 (m 11 3 + m 15 1 + m 19 1 + m 20 40) with scope := 5 })
    ∧ decode [0x34A9, 0x1E, 0x00410500] = .ok (.stExt (gd 5) { ext 30 0 0 0 0 (m 15 2 + m 20 4) with scope := 5 }) ∧ decode [0x34B9, 0x0420, 0x05802000] = .ok (.stExt u (ext 32 4 0 0 0 (m 11 4 + m 20 88))) := by decide +kernel
theorem test_decode_atomic : decode [0x383D, 0x000E000F, 0x00800004] = .ok (.atomOr usw (ext 15 0 14 0 4 (m 20 8))) ∧ decode [0x380D, 0x001F001C, 0x00018500] = .ok (.atomAdd { grd := 1, sw := true } { ext 28 0 31 0 0 (m 15 3) with scope := 5 })
    ∧ decode [0x38BD, 0x001A1A11, 6] = .ok (.atomsExch usw (ext 17 26 26 0 6 0)) ∧ decode [0x3919, 0x00110000, 0x500] = .ok (.redAdd (gd 3) { ext 0 0 17 0 0 0 with scope := 5 }) := by decide +kernel
theorem test_decode_sync : decode [0x3A39, 0, 0x0A02] = .ok (.barSync u { ext 0 0 0 0 2 (m 11 1) with scope := 2 }) ∧ decode [0x3A8D, 0x001E0019, 0x00400500] = .ok (.waitv { grd := 1, sw := true } { ext 25 0 30 0 0 (m 20 4) with scope := 5 })
    ∧ decode [0x3BB9, 0x00190002, 0] = .ok (.dcadd u (ext 2 0 25 0 0 0)) ∧ decode [0x3B39, 0x0200, 0] = .ok (.dcwait u (ext 0 2 0 0 0 0)) := by decide +kernel
theorem test_decode_dispense : decode [0x3D39, 1, 0] = .ok (.refill u (ext 1 0 0 0 0 0)) ∧ decode [0x3D39, 0x00082800, 0x00048001] = .ok (.regrp u (ext 0 40 8 0 1 (m 11 16 + m 18 1)))
    ∧ decode [0x3DB9, 0x00060500, 0] = .ok (.sigwake u (ext 0 5 6 0 0 0)) := by decide +kernel
theorem test_decode_copy : decode [0x3C39, 0x1000, 0x800] = .ok (.cpyq u (ext 0 16 0 0 0 (m 11 1))) ∧ decode [0x3C39, 4, 0x9002] = .ok (.cpys u (ext 4 0 0 0 2 (m 11 2 + m 14 2))) := by decide +kernel
theorem test_decode_system : decode [0x3E39, 0, 0x2800] = .ok (.trap u (ext 0 0 0 0 0 (m 11 5))) ∧ decode [0x3E39, 0x0800, 0x801] = .ok (.tret u (ext 0 8 0 0 1 (m 11 1)))
    ∧ decode [0x3F39, 0x0502, 0] = .ok (.srd u (ext 2 5 0 0 0 0)) ∧ decode [0x3F39, 0x040F, 1] = .ok (.swr u (ext 15 4 0 0 1 0)) ∧ decode [0x3F39, 4, 0x802] = .ok (.capq u (ext 4 0 0 0 2 (m 11 1))) := by decide +kernel
/-- R54: an opcode that the map does not hold; then opcode 0x7F in one word; grd 0b1111; an unused field that is not 0; an odd pair; a reserved rounding mode. -/
theorem test_decode_refuses : decode [0x07B9, 0, 0] = .bad .illegalOp ∧ decode [0x3FB8] = .bad .illegalEnc ∧ decode [0x1C614878] = .bad .illegalEnc ∧ decode [0x0639, 0x010900, 0] = .bad .illegalEnc ∧ decode [0x1739, 0x00020005, 0x3800] = .bad .illegalEnc
    ∧ decode [0x1939, 0x0D0C0B0A, 0x3800] = .bad .illegalEnc := by decide +kernel

/-! Well-formedness (R36-R39, R55): one ill-formed term for each check. -/

theorem test_wf_length : (Instr.plop u { ext 1 2 3 4 0 0 with len := .x5 }).wf = false ∧ (Instr.plop u (ext 1 2 3 4 0 0)).wf = true := by decide +kernel
theorem test_wf_sub : (Instr.jset u (ext 0 9 0 0 1 0)).wf = false := by decide +kernel
theorem test_wf_fields : (Instr.plop u (ext 8 2 3 4 0 0)).wf = false ∧ (Instr.lea u (ext 4 1 2 0 0 0)).wf = false ∧ (Instr.hget u (ext 3 16 0 0 0 0)).wf = false ∧ (Instr.isel u (ext 3 1 2 8 0 0)).wf = false := by decide +kernel
theorem test_wf_unused : (Instr.mzero u (ext 8 1 0 0 0 (hs 1 0 0 0))).wf = false ∧ (Instr.dcadd u (ext 16 0 4 0 0 0)).wf = false ∧ (Instr.srd u (ext 2 0x14 0 0 0 0)).wf = false ∧ (Instr.swr u (ext 5 4 0 0 1 0)).wf = false := by decide +kernel
theorem test_wf_scope : (Instr.barSync u { ext 0 0 0 0 2 0 with scope := 4 }).wf = false ∧ (Instr.ldExt u { ext 6 4 0 0 0 0 with scope := 5 }).wf = false := by decide +kernel
theorem test_wf_bits : (Instr.mzero u (ext 8 0 0 0 0 (hs 1 1 0 0))).wf = false ∧ (Instr.iaddExt u { withLit (ext 3 1 0 0 0 (m 31 1)) 5 with len := .x5 }).wf = false := by decide +kernel
theorem test_wf_literal : (Instr.iaddExt u { ext 64 1 0 0 0 0 with len := .lit3 }).wf = false ∧ (Instr.iaddExt u { ext 3 1 2 0 0 0 with lit := 1 }).wf = false := by decide +kernel
theorem test_wf_extra : (Instr.faddExt u (ext 3 1 2 0 0 (m 11 5))).wf = false ∧ (Instr.fence u { ext 0 0 0 0 0 0 with scope := 4 }).wf = false := by decide +kernel
theorem test_wf_base : (Instr.iadd64 u 3 2 4).wf = false ∧ (Instr.ld u 3 5 0).wf = false ∧ (Instr.iadd64 u 2 4 6).wf = true := by decide +kernel
theorem test_wf_dict : (Instr.dict [0, 0, 0]).wf = false ∧ (Instr.dict [0, 0, 0, 0, 0]).wf = true := by decide +kernel
/-- R40: with 64 registers v63 is the last one. -/
theorem test_in_range : (Instr.iadd u 63 1 2).inRange 64 = true ∧ (Instr.iaddExt u (ext 64 1 2 0 0 0)).inRange 64 = false ∧ (Instr.launch u (ext 0 49 4 0 0 0)).inRange 64 = false := by decide +kernel

/-! Witnesses for the device's own steps whose test above does not reach every clause. -/

/-- A cause in the first warp, in a context as given, whose launch reports to queue 7. -/
def struck (code : Nat) (f : Ctx → Ctx) : State :=
  (((withQueue idle0).modLaunch 0 fun L => { L with by_ := .packet 7 3 }).modWarp 0 fun w => { w with causes := [{ code := code, mask := 0xF, path := 0xF, pc := 0x20000, resume := .cont, cont := 0x20004 }] }).modCtx 0 f

theorem test_policy_kill : ((on (.trapDelivery 0) (struck 0x23 id)).ctx? 0).map (fun c => c.killed) = some true := by decide +kernel
theorem test_policy_halt : (let t := on (.trapDelivery 0) (struck 0x23 fun c => { c with policyHalt := true })
    ((t.warp? 0).map fun w => match w.stop with
      | .halted c => c.code
      | _ => 0) = some 0x23 ∧ (t.queueOf 7).records.length = 1) := by decide +kernel
theorem test_containment : (let t := on (.trapDelivery 0) (struck 0x32 id)
    ((t.warp? 0).map fun w => w.stop) = some .ended ∧ (t.launch? 0).map (fun L => L.contain) = some true) := by decide +kernel
theorem test_break : (let s := struck 0x22 id
    ((on (.trapDelivery 0) { s with hub := { s.hub with debugger := true } }).warp? 0).map (fun w => w.stop) = some (.debugger none)) := by decide +kernel
/-- R355: a containment cause comes first, then the lowest code. -/
theorem test_first_cause : (let c (n : Nat) : Cause := { code := n, mask := 1, path := 1, pc := 0, resume := .none, cont := 0 }
    (firstCause [c 0x23, c 0x09, c 0x31, c 0x32] = some (c 0x31)) ∧ firstCause [c 0x23, c 0x09] = some (c 0x09)) := by decide +kernel
theorem test_return : (let s := handling (on (.trapDelivery 0) (trapping idle0))
    (returnTrap s 0).warp? 0 = s.warp? 0) := by decide +kernel
/-- R299: with evt an entry's completion posts a record to the launch's queue. -/
theorem test_copy_record : (let e : BitVec 256 := BitVec.ofNat 256 (3 + 2 ^ 24)
    let s := (((withQueue idle0).modLaunch 0 fun L => { L with by_ := .packet 7 3 }).modWg 0 fun g => { g with queues := setAt g.queues 0 { ring := [(0, e)], tail := 1, performed := some { status := 0, bytes := 0 } } })
    ((on (.copyEntryComplete 0 0) s).queueOf 7).records.length = 1) := by decide +kernel
/-- FabricAndMigration: a token for this device's window, whatever its domain index. -/
theorem test_witness_token : (let m : HandleMember := { domain := domainIndex.toNat, ctx := 0, base := 0x40000, len := 64 }
    let h : Handle := { members := [m] }
    h.aborted = false ∧ h.stalls [] = false ∧ h.window = some m ∧ (8 : DWord).toNat + [(1 : Byte)].length ≤ m.len) := by simp [Handle.window, Handle.stalls]
theorem test_witness_token_write : (match hubWrite idle0 0 0x40008 0 [1] with
    | .written _ => true
    | _ => false) = true := by decide +kernel
/-- ContextEvents: the identity table passes (R80). -/
theorem test_witness_table : tableOk [0, 0, 0, 0, 0, 0, 128, 61, 0, 0, 0, 62, 0, 0, 64, 62, 0, 0, 128, 62, 0, 0, 160, 62, 0, 0, 192, 62, 0, 0, 224, 62, 0, 0, 0, 63, 0, 0, 16, 63, 0, 0, 32, 63, 0, 0, 48, 63, 0, 0, 64, 63, 0, 0, 80, 63, 0, 0, 96, 63, 0, 0, 112, 63, 0, 0, 128, 63] = true := by decide +kernel
/-- DispenseEvents: the first core that fits, and a workgroup that may be placed there. -/
theorem test_witness_place : (let s := (dispensing idle0).modLaunch 0 fun L => { L with dies := [(0, { chunkLo := 0, chunkHi := 4096 })] }
    (s.launch? 0).map (fun L => ((pickCore s L 0).map fun p => p.1, (placement s 0 0).map fun t => placedFirst s 0 L (newCores s t))) = some (some 0, some true)) := by decide +kernel
/-- PageAndMemoryEvents: Jasper has a cause to look at, of either kind; the page is not pinned, and the host reads it. -/
theorem test_witness_jasper : (faulted.warp? 0).map (fun w => ((jasperCause w fun c => c.code ≠ 0x10).map fun c => c.code, (jasperCause w fun c => c.code = 0x10))) = some (some 0x0E, none)
    ∧ pinnedPage idle0 0 0x40000 = false ∧ (leafAt idle0.mem 0x40000 5 0 0x10000).isSome = true := by decide +kernel
theorem test_witness_host : (hostPieces pinned 0 0x40000 4).all Option.isSome = true := by decide +kernel
/-- Preemption: a workgroup whose warp is stopped is ready for its save, and a core fits it. -/
theorem test_witness_ready : wgReady (saving 0x100000) 0 = true ∧ (coreFits { idle0 with wgs := [], warps := [] } programLaunch 9).isSome = true := by decide +kernel

/-! Clauses that the tests above do not reach. -/

/-- R106, R314: CPYQ's queue differs between the lanes; the workgroup has no fourth copy queue. -/
theorem test_copy_queue_traps : causes (after (.cpyq g0 (ext 0 16 4 0 0 (m 13 1))) (byLane (startIf 7 []) fun k => [(4, BitVec.ofNat 32 (k / 2))])) = [(0x05, 0, 4)]
    ∧ causes (after (.cpys g0 (ext 3 0 0 0 0 (m 11 3))) ((startIf 7 []).modWg 0 fun g => { g with queues := g.queues.take 2 })) = [(0x02, 0, 0xFFFFFFFF)] := by decide +kernel
/-- R106, R352, R353: LAUNCH's and SIGWAKE's queue registers differ; bits above 11 do not count; queue 6 is not the context's. -/
theorem test_launch_queue_traps : causes (after (.launch g0 (ext 0 16 8 0 0 0)) (withQueue (byLane (startIf 3 []) fun k => [(8, BitVec.ofNat 32 (7 + k))]))) = [(0x05, 0, 2)]
    ∧ causes (after (.sigwake g0 (ext 0 2 4 0 0 0)) (withQueue (byLane (startIf 3 []) fun k => [(2, BitVec.ofNat 32 (7 + k))]))) = [(0x05, 0, 2)]
    ∧ causes (after (.sigwake g0 (ext 0 2 4 0 0 0)) (withQueue (byLane (startIf 3 []) fun k => [(2, BitVec.ofNat 32 (7 + 0x1000 * k))]))) = []
    ∧ causes (after (.sigwake g0 (ext 0 2 4 0 0 0)) (withQueue (startIf 3 [(2, 6)]))) = [(0x11, 0, 3)] := by decide +kernel
/-- R255: a scope in a register, uniform and allowed: 1 to 6, and for the scratchpad 1 to 3. -/
theorem test_scope_traps : causes (after (.fence g0 (ext 0 4 0 0 0 (m 11 1))) (byLane (startIf 3 []) fun k => [(4, BitVec.ofNat 32 (1 + k))])) = [(0x05, 0, 2)]
    ∧ causes (after (.fence u (ext 0 4 0 0 0 (m 11 1))) (start [(4, 7)])) = [(0x02, 0, 0xFFFFFFFF)] ∧ causes (after (.fence u (ext 0 4 0 0 0 (m 11 1))) (start [(4, 6)])) = []
    ∧ causes (after (.waitv g0 (ext 6 2 4 5 0 (m 16 1 + m 18 1))) (startIf 3 [(5, 4)])) = [(0x02, 0, 0xFFFFFFFF)]
    ∧ causes (after (.waitv g0 (ext 6 2 4 5 0 (m 16 1 + m 18 1))) (startIf 3 [(5, 3)])) = [] := by decide +kernel
/-- R106, R276-R278: a counter in a register, and an amount, that differ; counter 16 does not exist; a workgroup without counters. -/
theorem test_counter_traps : causes (after (.dcadd g0 (ext 0 6 4 0 2 0)) (byLane (startIf 3 []) fun k => [(6, BitVec.ofNat 32 k)])) = [(0x05, 0, 2)]
    ∧ causes (after (.dcadd g0 (ext 3 0 4 0 0 0)) (byLane (startIf 3 []) fun k => [(4, BitVec.ofNat 32 k)])) = [(0x05, 0, 2)]
    ∧ causes (after (.dcadd g0 (ext 0 6 4 0 2 0)) (startIf 3 [(6, 16)])) = [(0x02, 0, 0xFFFFFFFF)]
    ∧ causes (after (.dcwait g0 (ext 0 6 0 0 1 0)) (startIf 3 [(6, 16)])) = [(0x02, 0, 0xFFFFFFFF)] ∧ causes (after (.dcwait g0 (ext 0 6 0 0 1 0)) (startIf 3 [(6, 15)])) = []
    ∧ causes (after (.dcwait g0 (ext 0 3 0 0 0 0)) ((startIf 3 []).modWg 0 fun g => { g with counters := [] })) = [(0x02, 0, 0xFFFFFFFF)] := by decide +kernel
/-- R272: BAR.cl without a cluster set. -/
theorem test_cluster_barrier_trap : causes (after (.barSync g0 { ext 0 0 0 0 2 0 with scope := 3 }) (startIf 3 [])) = [(0x02, 0, 0xFFFFFFFF)] := by decide +kernel
/-- R93: lane 0 leaves lane 1, in a slice whose other slot is taken and whose stack is full; the trap names the gang. R109: targets at the edge of the address space. -/
theorem test_overflow_traps : causes (after (.bra g0 4) crowded) = [(0x07, 0, 0xFFFFFFF3)] ∧ causes (after (.brx g0 2) (crowded.modWarp 0 fun w => w.mapLanes fun _ l => { l with regs := [(2, 0x40000)] })) = [(0x07, 0, 0xFFFFFFF3)]
    ∧ causes (after (.bruLit u 0x200000000000000) (start [])) = [(0x09, 0, 0xFFFFFFFF)] ∧ causes (after (.bruLit u 0x1FFFFFFFFFFFFFC) (start [])) = [] := by decide +kernel
/-- R380: a bad target of TRET.pc in a handler raises ALIGN with its lanes. -/
theorem test_tret_target : causes (after (.tret g0 (ext 0 2 0 0 0 (m 11 1))) (handling (byLane (startIf 3 []) fun k => [(2, BitVec.ofNat 32 (0x30000 + 2 * k))]))) = [(0x09, 0, 2)] := by decide +kernel
/-- R381: a PPOINT in a handler stops too while a request is pending. -/
theorem test_ppoint_handler : (let t := after (.ppoint u 0x1F) (handling ((start []).modWg 0 fun g => { g with preempt := some 0 }))
    (lane t 5).park = some { pc := 0x2000C, why := .ppoint 0x1F }) := by decide +kernel

/-- R260: atomics, REDs and WAITV take ALIGN before any translation. -/
theorem test_atomic_misaligned : causes (after (.atomAdd g0 (ext 3 2 4 0 0 (m 15 1))) (startIf 3 [(2, 0x40000001)])) = [(0x09, 0, 3)] ∧ causes (after (.redAdd g0 (ext 0 2 4 0 0 0)) (startIf 3 [(2, 0x40000001)])) = [(0x09, 0, 3)]
    ∧ causes (after (.waitv g0 { ext 6 2 4 0 0 0 with scope := 4 }) (startIf 3 [(2, 0x40002)])) = [(0x09, 0, 3)] ∧ causes (after (.stExt g0 (ext 4 2 0 0 0 (m 15 1))) (startIf 3 [(2, 0x40002)])) = [(0x09, 0, 3)] := by decide +kernel
/-- R241: a store, an atomic and a RED that do not translate go to Jasper as accesses that write, WAITV as one that reads. -/
theorem test_access_jasper : (let f (i : Instr) := (((after i (startIf 3 [(2, 0x40000000)])).warp? 0).map fun w => w.jasper.map fun c => (c.code, c.sub, c.mask))
    f (.st g0 4 2 0) = some [(0x0E, 2, 3)] ∧ f (.atomAdd g0 (ext 3 2 4 0 0 (m 15 1))) = some [(0x0E, 2, 3)] ∧ f (.redAdd g0 (ext 0 2 4 0 0 0)) = some [(0x0E, 2, 3)]
      ∧ f (.waitv g0 { ext 6 2 4 0 0 0 with scope := 4 }) = some [(0x0E, 1, 3)]) := by decide +kernel

/-- Memory with a poisoned line at 0x40000. -/
def poison (s : State) : State := { s with mem := { s.mem with poison := [(0x40000 / 64, ())] } }

/-- The causes that lane `k`'s pending results raise. -/
def raises (s : State) (k : Nat) : List (Option Nat) := (lane s k).pend.map fun p => p.raise.map fun c => c.code

/-- R249: a poisoned line. Lanes that cover it whole between them clear it; two lanes of a 16-byte store do not. -/
theorem test_poison : raises (after (.ld g0 3 2 0) (poison (startIf 1 [(2, 0x40000)]))) 0 = [some 0x32]
    ∧ raises (after (.atomAdd g0 (ext 3 2 4 0 0 (m 15 1))) (poison (startIf 1 [(2, 0x40000)]))) 0 = [some 0x32]
    ∧ (after (.atomAdd g0 (ext 3 2 4 0 0 (m 15 1))) (poison (startIf 1 [(2, 0x40000), (4, 1)]))).mem.poison = [(0x1000, ())] := by decide +kernel
theorem test_poison_cleared : (let f (e : Mask) := (after (.stExt g0 (ext 4 2 0 0 0 (m 11 4))) (byLane (poison (startIf e [])) fun k => [(2, BitVec.ofNat 32 (0x40000 + 16 * k))])).mem.poison
    f 0xF = [] ∧ f 0x7 = [(0x1000, ())]) := by decide +kernel
/-- R352, R249: LAUNCH covers its slot's line; R352: with a full ring it has not issued. -/
theorem test_launch_poison : (let s := withQueue (start [(8, 7)])
    (after (.launch u (ext 0 16 8 0 0 0)) { s with mem := { s.mem with poison := [(0x1400, ()), (0x1401, ())] } }).mem.poison = [(0x1401, ())]) := by decide +kernel
theorem test_launch_full : (let t := after (.launch u (ext 0 16 8 0 0 0)) ((withQueue (start [(8, 7)])).modQueue 7 fun q => { q with writeIdx := 8 })
    slots t = List.replicate 8 [(0x20000, 15)] ∧ (t.queueOf 7).writeIdx = 8) := by decide +kernel
/-- R226: word 0 of the scratchpad holds two bits in error. -/
theorem test_scratch_ue : (let s := (start []).modWg 0 fun g => { g with scratchErr := [(0, 2)] }
    raises (after (.lds u 3 2 0) s) 5 = [some 0x31] ∧ raises (after (.atomsAdd u (ext 3 2 4 0 0 0)) s) 5 = [some 0x31] ∧ raises (after (.stsExt u (ext 4 2 0 0 0 (m 11 1))) s) 5 = [some 0x31]
      ∧ raises (after (.sts u 3 2 0) s) 5 = []) := by decide +kernel
/-- R265: one reduction for a location, of both lanes' values; two locations. -/
theorem test_red_combines : (after (.redAdd g0 (ext 0 2 4 0 0 0)) (withDataIf [(2, 0x40000), (4, 2)] [10])).mem.reds.map (fun r => (r.va, r.lanes, r.val)) = [(0x40000, 3, 4)]
    ∧ (after (.redMin g0 (ext 0 2 4 0 0 0)) (byLane (startIf 3 []) fun k => [(2, BitVec.ofNat 32 (0x40000 + 4 * k)), (4, BitVec.ofNat 32 k)])).mem.reds.map (fun r => (r.va, r.val)) = [(0x40000, 0), (0x40004, 1)] := by decide +kernel

/-- R61, R64: 1/3, 2^-150, and the largest finite value doubled. -/
theorem test_round : roundRat .f32 0 false false 1 3 0 = (0x3EAAAAAB, Flag.inx) ∧ roundRat .f32 0 false true 1 1 (-150) = (0x80000000, Flag.inx ||| Flag.unf) ∧ roundRat .f32 3 false false 1 1 (-150) = (1, Flag.inx ||| Flag.unf)
    ∧ roundRat .f32 1 false false 0xFFFFFF 1 105 = (0x7F7FFFFF, Flag.inx ||| Flag.ovf) ∧ unpack .f32 0x3F800000 = .fin false 8388608 (-23) := by decide +kernel
theorem test_convert_to_integer : convert 4 1 0 false 0x40200000 = (2, Flag.inx) ∧ convert 4 1 4 false 0x40200000 = (3, Flag.inx) ∧ convert 4 1 0 false 0x43800000 = (0x7F, Flag.inv ||| Flag.sat) ∧ convert 4 1 0 false 0x7FC00000 = (0, Flag.inv) := by
  decide +kernel

/-- R167, R168: a chain with one wrong element, which its row and its column find, and one with two. -/
theorem test_chain_fixed : (let c : Chain := { dst := 8, shape := sh 2 2 6, next := 0, exp := 0, rows := [3, 7], cols := [4, 6], badRows := [false, false], badCols := [false, false], admitted := [true, true], ended := true }
    let s (ws : List Word) := withLane 2 (fun l => { l with regs := run 8 ws, chain := some c }) idle0
    (List.range 4).map (fun k => (lane (on (.chainDrain 0 2) (s [1, 2, 9, 4])) 2).v (8 + k)) = [1, 2, 3, 4]
      ∧ causes (on (.chainDrain 0 2) (s [1, 2, 9, 4])) = [] ∧ causes (on (.chainDrain 0 2) (s [5, 2, 9, 4])) = [(0x30, 0, 4)]
      ∧ ((on (.chainDrain 0 2) (s [1, 2, 9, 4])).launch? 0).map (fun L => L.matCorr) = some 1) := by decide +kernel
/-- Packed MMOV and MTRN of the worked tile of chapter 7, whose blocks hold along both axes. -/
def worked : State := mat (run 32 [0x9BCE0222, 0xE94C, 0x40A00000, 0x40400000, 0x40000000, 0x40C00000, 0x40000000, 0x40E00000, 0x3F800000, 0x41000000]) [(1, sh 4 4 1 ||| 0x4000), (2, sh 4 4 1 ||| 0x4000)]
theorem test_mmov_packed : mres (.mmov g0 (ext 8 32 0 0 0 (hs 1 2 0 0))) worked = (run 8 [0x9BCE0222, 0xE94C, 0x40A00000, 0x40400000, 0x40000000, 0x40C00000, 0x40000000, 0x40E00000, 0x3F800000, 0x41000000], 0) := by decide +kernel
theorem test_mtrn_packed : (let ws := ((mres (.mtrn g0 (ext 8 32 0 0 0 (hs 1 2 0 0))) worked).1.map fun p => p.2)
    Tile.ok (sh 4 4 1 ||| 0x4000) ws = true ∧ (0, 1, 0x40A00000) ∉ Tile.kept (sh 4 4 1 ||| 0x4000) ws ∧ (0, 0, 0x40A00000) ∈ Tile.kept (sh 4 4 1 ||| 0x4000) ws) := by decide +kernel
/-- R203: weights whose sum is too small become 1/k'. -/
theorem test_mgnorm_uniform : mres (.mgnorm g0 (ext 8 0 0 0 0 (hs 1 0 0 0))) (mat [(8, 1), (9, 1), (10, 0), (11, 3)] [(1, sh 1 4 1)]) = (run 8 [0x3F000000, 1, 0x3F000000, 3], Flag.gate) := by decide +kernel
/-- R226: MLD of a word with two bits in error. -/
theorem test_mld_ue : raises (after (.mld g0 (ext 8 4 5 0 0 (hs 1 0 0 0))) ((mat [(5, 0x10008)] [(1, sh 2 1 1)]).modWg 0 fun g => { g with scratchErr := [(8 / 4, 2)] })) 0 = [some 0x31] := by decide +kernel
/-- R165, R185: an integer multiply of one block that continues no chain. -/
theorem test_witness_integer_chain : ∃ q, gangOf (mat [(8, 1), (16, 0x0403), (24, 0x0605)] [(1, sh 1 1 6), (2, sh 1 2 4), (3, sh 2 1 4)]) g0 3 = some q
    ∧ (let p := planOf .mma (ext 8 16 24 8 0 (hs 1 2 3 1)) (mat [(8, 1), (16, 0x0403), (24, 0x0605)] [(1, sh 1 1 6), (2, sh 1 2 4), (3, sh 2 1 4)]) q 0
      decide (p.check = 0 ∧ p.mv.ety = 4 ∧ Sh.ety p.d.sh = 6 ∧ p.mv.m = 1 ∧ p.mv.n = 1 ∧ p.mv.bs.length = 1 ∧ (p.mv.blk.all fun b => b == 0) = true ∧ p.continues (q.lane 0) = false)) = true :=
  exists_of_any (by decide +kernel)
/-- R205, R210: a NaN in the source; R212: a parity error, after which the solve raises MATRIX_UE. -/
theorem test_minv_nan : mres (.minv g0 (ext 8 16 0 0 0 (hs 1 1 0 0))) (mat (run 16 [0x40000000, 0, 0, 0x7F800001]) [(1, sh 2 2 1)]) = (run 8 [0x7FC00000, 0x7FC00000, 0x7FC00000, 0x7FC00000], Flag.inv) := by decide +kernel
theorem test_solve_parity : raises (after (.minv g0 (ext 8 16 0 0 0 (hs 1 1 0 0))) ((mat (run 16 [0x40000000, 0, 0, 0x40800000]) [(1, sh 2 2 1)]).modWarp 0 fun w => w.mapLanes fun _ l => { l with parity := true })) 0 = [some 0x30] := by
  decide +kernel
/-- R210: with act 2 a small pivot raises SING_TRAP. -/
theorem test_sing_trap : raises (after (.minv g0 (ext 8 16 0 0 0 (hs 1 1 0 0))) ((mat [] [(1, sh 2 2 1)]).modWarp 0 fun w => w.mapLanes fun _ l => { l with slv := 0xA8 })) 0 = [some 0x20] := by decide +kernel

/-- R274: a lane that waits for 10 finds 5; its cluster peer has retired; its line is poisoned; its page is gone. -/
def waiting (x : Ext) (addr : DWord) : State := withLane 0 (fun l => { l with wait := some (.waitv x addr 10 0x20000 1 0) }) idle0
theorem test_waitv_holds : (lane (on (.waitvRelease 0 0) (waiting { ext 6 2 4 0 0 0 with scope := 4 } 0x40000)) 0).wait ≠ none := by decide +kernel
theorem test_waitv_bounds : causes (on (.waitvRelease 0 0) (waiting { ext 6 2 4 0 0 (m 16 1 + m 17 1) with scope := 3 } 0x1000000)) = [(0x0D, 0, 1)] := by decide +kernel
theorem test_waitv_lost : causes (on (.waitvRelease 0 0) (poison (waiting { ext 6 2 4 0 0 0 with scope := 4 } 0x40000))) = [(0x32, 0, 1)] := by decide +kernel
theorem test_waitv_unmapped : (lane (on (.waitvRelease 0 0) (waiting { ext 6 2 4 0 0 0 with scope := 4 } 0x40000000)) 0).wait = some .jasper := by decide +kernel
/-- R52: a second result for v3 notes the clash; once it is written, the first one may remain or not. -/
theorem test_clash : (let s := withLane 2 (fun l => { l with pend := [{ regs := [(3, 7)] }, { regs := [(3, 8)] }] }) idle0
    let l := lane (on (.pendingResultWrite 0 2 1) s) 2
    (l.v 3, l.pend.map fun p => p.clashV) = (8, [[3]])) := by decide +kernel
/-- R346: quarters 0 and 1 of core 0 hold warps, and quarter 1 is a cycle behind; then quarter 0 may not go on before it. -/
def quarters : State := { idle0 with warps := idle0.warps ++ (idle0.warps.map fun p => (16, { p.2 with uid := 1 })), cores := fset idle0.cores 0 { idle0.coreOf 0 with cycles := [(0, 5), (1, 4)] } }
theorem test_quarter_turns : (on (.issueArbitration 0 0) quarters).issue = none ∧ (on (.issueArbitration 0 1) quarters).issue.map (fun i => i.wk) = some 16
    ∧ fgetD ((on (.issueArbitration 0 1) quarters).coreOf 0).cycles 1 0 = 5 := by decide +kernel

/-- R355: of two slices' overflows one is taken, and the other is kept. -/
theorem test_later_cause : (let c (m : Mask) : Cause := { code := 0x07, mask := m, path := m, pc := 0x20000, resume := .own, cont := 0x20000 }
    let s := ((idle0.modWarp 0 fun w => { w with causes := [c 0xF, c 0xF0] }).modCtx 0 fun x => { x with trapVec := 0x30000, trapArea := 0x80000 })
    ((on (.trapDelivery 0) s).warp? 0).map (fun w => (w.trap.map fun t => (t.shown.mask, t.later.map fun d => d.mask), w.causes)) = some (some (0xF, [0xF0]), [])) := by decide +kernel
/-- R358: a second cause in the handler, under HALT, is what %tcause then shows. -/
theorem test_double_fault : (let s₀ := on (.trapDelivery 0) (trapping idle0)
    let s := { s₀ with mem := idle0.mem }
    let t := on (.trapDelivery 0) ((s.modWarp 0 fun w => { w with causes := [{ code := 0x09, mask := 1, path := 0xF, pc := 0x30000, resume := .region, cont := 0x30004 }] }).modCtx 0 fun c => { c with policyHalt := true })
    (t.warp? 0).map (fun w => w.trap.map fun r => (r.cause.code, r.shown.code)) = some (some (0x23, 0x09))) := by decide +kernel

/-! Clauses of the device's own steps that the tests above do not reach. -/

/-- A RED of launch 0 that has been accepted for the word at 0x40000. -/
def accepted (s : State) : State :=
  { s with mem := { s.mem with reds := [{ launch := 0, die := 0, wg := 0, warp := 0, lanes := 1, scope := 6, ctx := 0, va := 0x40000, pa := 0x40000, key := 0, arb := 0, op := 0, size := 4, signed := false, float := false, val := 3 }] } }

/-- R240: an invalidation performs the REDs that the old entry translated. R243: so does the release of the page. -/
theorem test_reds_first : (let t := on (.tlbInvalidate 0 0x40000 0x41000) (accepted idle0)
    bytesAt t 0x40000 1 = [3] ∧ t.mem.reds = [] ∧ (on (.tlbInvalidate 0 0x41000 0x42000) (accepted idle0)).mem.reds.length = 1)
    ∧ (let t := on (.hostPageRequest 0 0x40000) (accepted idle0)
       bytesAt t 0x40000 1 = [3] ∧ t.mem.reds = []) := by decide +kernel
/-- R266: a RED that meets a poisoned line is not applied, and its launch is contained. -/
theorem test_red_poisoned : (let t := on (.redApply 0) (poison (accepted idle0))
    bytesAt t 0x40000 1 = [0] ∧ (t.launch? 0).map (fun L => L.contain) = some true) := by decide +kernel
/-- R243: the host reads an unpinned page, and then a pinned one that is poisoned. -/
theorem test_host_read : (let t := on (.hostMemAccess 0 0x40000 (.read 4)) idle0
    t.hub.notices = [(0, [.unpinned 1 0x40000])] ∧ t.hub.hostRead = .poisoned)
    ∧ (on (.hostMemAccess 0 0x40000 (.read 2)) { pinned with mem := physPuts pinned.mem 0 0x40000 [7, 8] }).hub.hostRead = .data [7, 8]
    ∧ (on (.hostMemAccess 0 0x40000 (.read 2)) (poison pinned)).hub.hostRead = .poisoned := by decide +kernel
/-- R44: a bank that no resident workgroup names is gone. R416: granule 2 was written last by context 1. -/
theorem test_unload : (freshBank { withDict idle0 with wgs := [] } ((withDict idle0).launchOf ((idle0.wg? 0).getD { launch := 0, num := 0, core := 0 })) 0).coreOf 0 = { (withDict idle0).coreOf 0 with banks := [] }
    ∧ fget? (zeroedPad { writers := [(2, 1)] } 0 [0, 2]) 1024 = some 0 ∧ fget? (zeroedPad { writers := [(2, 1)] } 0 [0, 2]) 1023 = none ∧ fget? (zeroedPad { writers := [(2, 0)] } 0 [0, 2]) 1024 = none := by decide +kernel
/-- R336: the block of a lane block, of a chunk and of the launch. -/
theorem test_lane_blocks : (let L : Launch := { ctx := 0, by_ := .packet 0 0, hdr := {}, pool := [(8190, 8200)], dies := [(0, { laneLo := 5, laneHi := 6 }), (1, { chunkLo := 40, chunkHi := 90 })] }
    (L.takeLane 0).map (fun p => p.1) = some 5 ∧ (L.takeLane 1).map (fun p => (p.1, (p.2.die 1).laneHi)) = some (40, 64)
      ∧ (L.takeLane 2).map (fun p => (p.1, (p.2.die 2).laneHi, (p.2.die 2).chunkHi, p.2.pool)) = some (8190, 8192, 8192, [(8192, 8200)])) := by decide +kernel
/-- R350: two groups at positions 2, 4, 5 and 6, the second one aligned to 4. -/
theorem test_place_items : (let it (k : Nat) : Item := { key := 0, warp := 0, lane := k }
    (placeItems 4 [2, 4, 5, 6] [[it 0], [it 1, it 2]] 0 true).map (fun p => (p.1, p.2.lane)) = [(2, 0), (4, 1), (5, 2)]) := by decide +kernel
/-- R343: a launch that may not run again ends its context. -/
theorem test_no_rollback : (let s := (dispensing idle0).modLaunch 0 fun L => { L with contain := true }
    ((on (.nodeRollback 0) s).ctx? 0).map (fun c => c.killed)) = some true := by decide +kernel
/-- R327, R417: an overrun on a queue that is stopped already. -/
theorem test_overrun_stopped : (let u := (on (.doorbell 7 9) ((withQueue idle0).modQueue 7 fun u => { u with state := 1, err := 9 })).queueOf 7
    (u.err, u.records.length) = (0x0A, 1)) := by decide +kernel
/-- R25: generators 1 and 0 are due at one time, and 0 is numbered first. -/
theorem test_tick_order : (let g : Gen := { start := 0, period := 5000, next := 0 }
    let s := { idle0 with hub := { idle0.hub with gens := [(0, g), (1, g)] } }
    (on (.tick 1) s).hub.gens = [(0, g), (1, g)] ∧ (on (.tick 0) s).hub.gens = [(0, { g with next := 1 }), (1, g)]) := by decide +kernel
/-- R320, R360: the queue of a killed context is disabled when its record is out. -/
theorem test_killed_queue : (let s := on (.hostKillCommand 0) ((withQueue idle0).modQueue 7 fun u => { u with evBase := 0x58000, evLog := 3, records := [bytesOf 32 0x1234] })
    (s.queueOf 7).state = 0 ∧ ((on (.eventRecordPost 7) s).queueOf 7).state = 2) := by decide +kernel
/-- R340, R343: a COPY node that has read a poisoned line runs again, if it is idempotent, and its record says so. -/
theorem test_copy_node_rerun : (let t := endCopyNode (withNode 2) 1 0x61000 { ctx := 0, queue := 7, idx := 0, recAt := 0, sig := 0, sigVal := 0, ready := [] } (2 + 2 ^ 8 + 3 * 2 ^ 9 + 0x62000 * 2 ^ 128 + 0x63000 * 2 ^ 192) 0x0B
    bytesAt t 0x6102A 1 = [1] ∧ bytesAt t 0x63004 1 = [2]) := by decide +kernel
/-- R306: an LCOPY with a scratchpad offset that is no multiple of 4. -/
theorem test_lcopy_unaligned : (cq0 (on (.lcopy 0 0) (copying (entry 3 0 0x102 0x40000 0 4) []))).performed = some { status := 2, bytes := 0 } := by decide +kernel
/-- R377: a put that had started when its handle was aborted. -/
theorem test_peer_lost_put : (cq0 (on (.rcopyPut 0 0) ((on (.peerLost 3) (remote 0 [])).modWg 0 fun g => { g with queues := setAt g.queues 0 { (g.queues.getD 0 {}) with begun := some {} } }))).performed.map (fun r => r.status) =
    some 0x0C := by decide +kernel
/-- R368: a range with a poisoned second line stops there. -/
theorem test_save_torn : (let s := { idle0 with mem := { physPuts idle0.mem 0 0x40000 [1] with poison := [(0x1001, ())] } }
    let k := saveRange s 0 9 0 (0x40000, 128)
    (k.status, k.commit, k.data.length) = (1, false, 64)) := by decide +kernel
/-- R402: the function's slot says that its translation is done; that it has none. -/
theorem test_claim_done : (match readVa { entering with mem := physPuts entering.mem 0 0x40000 [0, 0, 3, 0, 0, 0, 0, 0, 2] } 0 0x40000 16 0 with
    | .ok bs => (natBits (ofBytes bs) 64 8, natBits (ofBytes bs) 0 64)
    | .fault _ => (0, 0)) = (2, 0x30000)
    ∧ causes (on (.translationClaim 0 0x40000) { entering with mem := physPuts entering.mem 0 0x40000 [0, 0, 0, 0, 0, 0, 0, 0, 3], hub := { entering.hub with funcs := [{ ctx := 0, entry := 0x20000, slot := 0x40000, failed := true }] } }) = [(0x01, 0, 0xF)]
    ∧ causes (on (.translationClaim 0 0x40000) { entering with mem := physPuts entering.mem 0 0x40000 [0, 0, 0, 0, 0, 0, 0, 0, 3] }) = [] := by decide +kernel
/-- R403: a graph's nodes that have not started move with the context. -/
theorem test_drain_graph : ((on (.drain 0) (withNode 3)).graph? 1).map (fun g => (g.ready, g.moved)) = some ([], [0x61000]) := by decide +kernel
/-- SliceMoves: a slice whose one slot is that of the gang, and groups that are not empty. -/
theorem test_witness_slice : (let sl : Slice := { slots := [{ pc := 0x20000, mask := 15 }] }
    sl.advance 0x20000 0x20004 3 = { slots := [{ pc := 0x20000, mask := 12 }, { pc := 0x20004, mask := 3 }] } ∧ (15 : BitVec 4) &&& 3 ≠ 0 ∧ (15 : BitVec 4) &&& ~~~3 ≠ 0) := by decide +kernel
/-- R103: half of the warp is parked at one VOTE of all lanes and half at another, so that either may issue in part. -/
theorem test_witness_partial : ((numbered.modWarp 0 fun w => { w.mapLanes (fun k l => { l with park := some { pc := if k < 16 then 0x20000 else 0x30000, why := .warpWide (.voteAny u (ext 1 0 0 0 0 (m 11 1))) true } }) with
    members := [(0x20000, 0xFFFFFFFF), (0x30000, 0xFFFFFFFF)] }).warp? 0).map (fun w => (w.wideReady 0x20000, w.parkedWide 0x20000)) = some (some true, 0xFFFF) := by decide +kernel

/-- R238: the cipher, with the example of FIPS 197, appendix C.3. -/
theorem test_aes : Aes.encrypt (Aes.roundKeys (List.range 32)) ((List.range 16).map fun i => 0x11 * i) =
    [0x8E, 0xA2, 0xB7, 0xCA, 0x51, 0x67, 0x45, 0xBF, 0xEA, 0xFC, 0x49, 0x90, 0x4B, 0x49, 0x60, 0x89] := by decide +kernel
/-- SliceMoves: four groups with room for the two older ones on the stack; two slots with one PC value, and two entries to pop. -/
theorem test_push : ({ slots := [{ pc := 0x20000, mask := 8 }] } : Slice).place [{ pc := 0x10, mask := 1 }, { pc := 0x20, mask := 2 }, { pc := 0x30, mask := 4 }] =
    some { slots := [{ pc := 0x10, mask := 1 }, { pc := 0x20, mask := 2 }], stack := [entryOf { pc := 0x30, mask := 4 }, entryOf { pc := 0x20000, mask := 8 }] } := by decide +kernel
theorem test_merge_pop : ({ slots := [{ pc := 0x20000, mask := 1 }, { pc := 0x20000, mask := 2 }], stack := [entryOf { pc := 0x20000, mask := 4 }, entryOf { pc := 0x30000, mask := 8 }] } : Slice).settle =
    { slots := [{ pc := 0x20000, mask := 7 }, { pc := 0x30000, mask := 8 }] } := by decide +kernel
/-- JoinInstructions: the join of lane 0, lost to lane 1 at a VOTE, releases. -/
def losing : State := { after (.voteAny u (ext 1 0 0 0 0 (m 11 1))) { after (.jwait g0 (ext 1 0 0 0 0 0)) (withJoin { expect := 2 } (startIf 1 [])) with issue := some { wk := 0, pc := 0x2000C } } with issue := none }
theorem test_join_released : (let t := (releaseJoins losing 0).1
    (lane t 0).park = none ∧ (lane t 0).fst = 0x1000 ∧ (t.launch? 0).map (fun L => L.lostJoins) = some 1 ∧ ((slots t).headD []).map (fun a => a.2) = [1]) := by decide +kernel
theorem test_witness_join_release : (losing.warp? 0).map (fun w => (decide (w.due = [] ∧ w.stop = .running ∧ w.testJoin 1 ≠ .holds))) = some true := by decide +kernel
/-- R103, R358: what a handler has set aside does not issue. -/
theorem test_aside_waits : ((after (.voteAny u (ext 1 0 0 0 0 (m 11 1))) numbered).warp? 0).map (fun w => (w.wideReady 0x20000, ({ w with trap := some (pfailTrap 1) } : Warp).wideReady 0x20000)) =
    some (some false, none) := by decide +kernel
/-- GlobalLoads, GlobalStores: a late store of lane 1, which comes before the lane's load, and which lane 0 sees then. -/
def delayed : State :=
  let s := withDataIf [(2, 0x40000)] [1, 2, 3, 4]
  { s with mem := { s.mem with late := [{ id := 9, warp := ((s.warp? 0).map fun w => w.uid).getD 0, lane := 1, pieces := piecesAt s 0 0x40001 1 1 .store, bytes := [9] }] } }
theorem test_late_store : (let t := after (.ld g0 3 2 0) delayed
    pendAt t 1 = [[(3, 0x04030901)]] ∧ t.mem.late = [] ∧ bytesAt t 0x40000 4 = [1, 9, 3, 4]) := by decide +kernel
/-- PowerEvents: a warp with nothing outstanding enters the handler; a COPY node whose transfer is under way ends with its status. -/
theorem test_pfail_entry : (let t := on .pfail (idle0.modCtx 0 fun c => { c with pfailVec := 0x30000, waitLimit := 2 })
    (t.warp? 0).map (fun w => (w.pfail, w.limit)) = some (true, 2000) ∧ slots t = List.replicate 8 [(0x30000, 15)] ∧ (lane t 5).handler = true) := by decide +kernel
theorem test_witness_pfail : idle0.warps.length = 1 ∧ (idle0.warp? 0).map (fun w => (List.range 32).all fun i =>
    decide ((w.lane i).pend = [] ∧ (w.lane i).chain = none ∧ (w.lane i).sw = 0 ∧ (w.lane i).wait = none)) = some true := by decide +kernel
def inFlight : State :=
  let s := (withNode (2 + 0x62000 * 2 ^ 128 + 0x63000 * 2 ^ 192)).modGraph 1 fun g => { g with copying := [(0x61000, entry 6 1 0 0x40000 7 4)] }
  { s with wgs := [], warps := [], power := { s.power with phase := .closed 5 } }
theorem test_quiesce_node : (let t := on .quiesce inFlight
    bytesAt t 0x40000 4 = [7, 0, 0, 0] ∧ (t.graph? 1).map (fun g => (g.ready, g.finished)) = some ([], [0x61000]) ∧ t.power.phase = .quiesced 5) := by decide +kernel
theorem test_witness_quiesce : inFlight.hub.graphs.map (fun g => (g.1, g.2.ready, g.2.copying.map (·.1))) = [(1, [0x61000], [0x61000])] ∧ inFlight.mem.reds = [] ∧ (∀ q ∈ inFlight.hub.queues, q.2.records = []) := by decide +kernel
/-- R403: a KERNEL node that another device has drained starts with the ranges of the report. -/
theorem test_drained_node : (let s := (withNode (1 + 0x62000 * 2 ^ 128 + 0x63000 * 2 ^ 192)).modGraph 1 fun g => { g with ready := [], moved := [0x61000] }
    let t := on (.drainedLaunch (.node 1 0x61000) [(5, 9)] true true) { s with mem := physPuts s.mem 0 0x62000 (bytesOf 128 (header - 48 * 2 ^ 192)) }
    (t.launch? 2).map (fun L => (L.by_, L.pool)) = some (.node 1 0x61000, [(5, 9)]) ∧ (t.graph? 1).map (fun g => (g.moved, g.running)) = some ([], [0x61000])) := by decide +kernel
/-- R322: a boundary that has been reached comes before the generator changes. -/
theorem test_commit_waits : (let g : Gen := { start := 0, period := 5000, next := 0 }
    (on (.tickGeneratorCommit 3 0 0) { idle0 with hub := { idle0.hub with gens := [(3, g)] } }).hub.gens = [(3, g)]
      ∧ dueTick { idle0 with hub := { idle0.hub with gens := [(3, g)] } } = some (.tick 3)) := by decide +kernel
/-- R279: what a load gets of its lane's own late store, which covers one byte; a wider load is not covered. -/
theorem test_own_bytes : (gangOf delayed g0 1).map (fun q => (ownBytes delayed q 1 (piecesAt delayed 0 0x40001 1 1 .load), ownBytes delayed q 1 (piecesAt delayed 0 0x40000 4 1 .load),
    ownBytes delayed q 0 (piecesAt delayed 0 0x40001 1 0 .load))) = some (some [9], none, none) := by decide +kernel
/-- R282: a RED comes after its lane's late store to the location only where a FENCE of its scope or a wider one stands between. -/
theorem test_fenced_first : (gangOf delayed g0 1).map (fun q =>
    let ps := fun _ => piecesAt delayed 0 0x40000 4 1 .store
    let late (s : State) : Nat := s.mem.late.length
    (late (fencedFirst delayed q 1 ps), late (fencedFirst (fenceMarks delayed q 1) q 1 ps), late (fencedFirst (fenceMarks delayed q 1) q 2 ps))) = some (1, 0, 1) := by decide +kernel
/-- R235: two accesses of one lane to SO pages keep their order; two to RC pages under MM2 only where they meet. -/
theorem test_keeps_order : (let p (mm : Nat) (a : Nat) : List Piece := [{ pa := a, len := 4, key := 0, va := a, log := 12, leaf := BitVec.ofNat 64 (0xC3 + 4 * mm) }]
    (keepsOrder (start []) 0 (p 1 0x100) (p 1 0x200), keepsOrder (start []) 0 (p 0 0x100) (p 0 0x200), keepsOrder (start []) 0 (p 0 0x100) (p 0 0x102))) = (true, false, true) := by decide +kernel
/-- R178, R226: MST at stride 0 reads no word that it stores whole or not at all; of an s4 view of two rows of 4 it reads the one that they share. -/
theorem test_mst_words : (let f (sz : Word) : List ScratchUse :=
      let l := { lane (mat [(5, 0)] [(1, sz)]) 0 with rowMasks := [(1, 1)] }
      let x := ext 8 4 5 0 0 (hs 0 1 0 0)
      (mstReads x 0 l (mstTiling x ({} : Env) l));
    (f (sh 2 2 1), f (sh 2 4 5))) = ([], [{ wg := 0, off := 0, len := 4 }]) := by decide +kernel
/-- R177, R226: a double-bit error in the header of a packed tile stands before the checks that need it. -/
theorem test_mld_header : (let s := (mat [(5, 0)] [(1, sh 4 4 1 + 0x4000)]).modWg 0 fun g => { g with scratchErr := [(0, 2)] }
    let t := after (.mld g0 (ext 8 4 5 0 0 (hs 1 0 0 0))) s
    (raises t 0, causes t)) = ([some 0x31], []) := by decide +kernel
/-- R274, R234: WAITV is checked as an ATOM, so on a page without wr it takes PROT, as a load (R357). -/
theorem test_waitv_prot : (let s := withDataIf [(2, 0x40000), (4, 10)] [10]
    ((after (.waitv g0 { ext 6 2 4 0 0 0 with scope := 4 }) { s with mem := physPuts s.mem 0 (tableAt + 0x2000) [0x83] }).warp? 0).map fun w => w.jasper.map fun c => (c.code, c.sub, c.mask)) =
    some [(0x0F, 1, 3)] := by decide +kernel
/-- R309: the scratch bytes of an s4 row whose two elements lie in two bytes, and of three elements kept in the pattern 1:2 with their fields. -/
theorem test_counts : (let o (spar : Nat) (col : Int) : TileOp := { t := { tdescOf (bytesOf 64 (8 * 2 ^ 64 + 2 ^ 96 + 5 * 2 ^ 304)) with spar := spar }, cv := [], wg := 0, off := 0, vlen := 0, tr := 1, tc := 4, col := col, pk := false, v := false, row := fun i => i }
    ((o 0 (-1)).padBytes 0 0 2, (o 0 0).padBytes 0 0 2, (o 0x11 0).keptBytes 0 3)) = (2, 1, 3) := by decide +kernel
/-- R343: a COPY node whose entry is poisoned runs again. -/
theorem test_copy_node_poison : (let s := withNode (2 + 2 ^ 8 + 3 * 2 ^ 9 + 0x62000 * 2 ^ 128 + 0x63000 * 2 ^ 192)
    let t := on (.copyNode 1 0x61000) { s with mem := { s.mem with poison := [(0x62000 / 64, ())] } }
    bytesAt t 0x6102A 1 = [1] ∧ bytesAt t 0x63004 1 = [2] ∧ (t.ctxFields 0).killed = false) := by decide +kernel
/-- R377: a COPY node whose put had started when its handle was aborted. -/
theorem test_copy_node_lost : (let s := (withNode (2 + 0x62000 * 2 ^ 128 + 0x63000 * 2 ^ 192)).modGraph 1 fun g => { g with copying := [(0x61000, entry 8 0 0 0x40000 (3 + 5 * 2 ^ 64) 4)] }
    bytesAt (on (.copyNode 1 0x61000) (on (.peerLost 3) { s with hub := { s.hub with handles := (remote 0 []).hub.handles } })) 0x63000 1) = [0x0C] := by decide +kernel
/-- R402: a lane that re-executes from its Nelrak-1 entry waits for Jasper again. -/
theorem test_nelrak_again : (let c : Cause := { code := 0x01, mask := 1, path := 1, pc := 0x20000, resume := .region, cont := 0x20000 }
    let v : SavedLane := { lane := 0, pc := 0x20000, region := 0x20000, wait := some (.translation 0x40000) }
    (nelrakAgain c v, nelrakAgain c { v with region := 0x20010 }, nelrakAgain { c with resume := .cont } v)) = (some (.translation 0), none, none) := by decide +kernel
/-- R29, R402: the middle of an instruction of two words is no boundary. -/
theorem test_boundary : (let s : State := { idle0 with mem := physPuts idle0.mem 0 0x40000 (bytesOf 8 0x39) }
    (boundary s 0 0x40004 3 0x40000, boundary s 0 0x40000 3 0x40000)) = (false, true) := by decide +kernel
/-- R25: a soft interrupt is numbered when every quarter of its core has had the cycle. -/
theorem test_open_cycle : (let s : State := { quarters with hub := { quarters.hub with soft := [(0, 3)] } }
    ((numberSoft s).hub.soft.length, (numberSoft (closeCycle s 0)).hub.soft.length)) = (1, 0) := by decide +kernel
/-- R372: a sequencer implicates the contexts with work on its die, a hub error all, the host's reset none. -/
theorem test_implicated : (implicated idle0 (.sequencer 0) 0, implicated idle0 (.sequencer 1) 0, implicated idle0 .hub 0, implicated idle0 .host 0) = (true, false, true, false) := by decide +kernel
/-- R161: a JARR that waits for a result ends the chains of its path, those of lanes whose guard is false too. -/
theorem test_path_chains : (let c : Chain := { dst := 8, shape := sh 1 1 6, next := 0, exp := 0, rows := [5], cols := [5], badRows := [false], badCols := [false], admitted := [true], ended := false }
    let s := withLane 5 (fun l => { l with chain := some c }) (withLane 0 (fun l => { l with pend := [{ regs := [(3, 7)] }] }) (startIf 3 []))
    let t := after (.jarr g0 (ext 1 0 0 0 0 0)) s
    ((lane t 5).chain.map (·.ended), (lane t 0).pend.length, parkedAt t 0)) = (some true, 1, none) := by decide +kernel
/-- RegroupIssue: the lanes of one warp are parked at a REGRP, and nothing holds it; with a result outstanding it does not issue. -/
def regrouping : State :=
  { after (.regrp u (ext 0 1 8 0 0 (m 11 1))) (byLane (start []) fun k => [(1, BitVec.ofNat 32 (k % 2))]) with event := some (.warpWideIssue 0 0x20000) }
theorem test_witness_regroup : (regrouping.warp? 0).map (fun w => (decide (w.wideReady 0x20000 = none ∧ w.stop = .running ∧ w.causes = [] ∧ w.trap = none ∧ w.lanes.length = 32),
      (List.range 32).all fun i => decide ((w.lane i).busy = false ∧ (w.lane i).wait = none ∧ (w.lane i).park.map (fun p => p.pc) = some 0x20000))) = some (true, true)
    ∧ regrouping.wgs.map (fun g => (g.2.warps.length, g.2.bars.all fun b => decide (b.arrived = []))) = [(1, true)]
    ∧ (lane (on (.warpWideIssue 0 0x20000) (withLane 3 (fun l => { l with pend := [{ regs := [(3, 7)] }] }) regrouping)) 3).park.isSome := by decide +kernel

end Sys2Proof.Tests
end

section
/-! PROOF. The lane instructions of compares, selection, moves and address sums, with NOP, RGN and PLOP (R114, R116, R117, R136-R138). -/

namespace Sys2Proof.Machine

/-- The condition of a compare code, on the operands as integers (R136). -/
def condHolds (cc : Nat) (a b : Int) : Bool :=
  match cc with
  | 0 => decide (a = b)
  | 1 => decide (a ≠ b)
  | 2 => decide (a < b)
  | 3 => decide (a ≤ b)
  | 4 => decide (a > b)
  | _ => decide (a ≥ b)

/-- How the model's compare reads: the operands are equal or one is below the other, so that every code is a condition on one number for
each, `v` being the reading of an operand as a number. -/
theorem intCmp_eq_condHolds {n : Nat} (cc : Nat) (uns : Bool) (v : BitVec n → Int) (a b : BitVec n) (hv : v a = v b → a = b)
    (hlt : (if uns then decide (a.toNat < b.toNat) else decide (a.toInt < b.toInt)) = decide (v a < v b)) :
    intCmp cc uns a b = condHolds cc (v a) (v b) := by
  have heq : (a == b) = decide (v a = v b) := by
    rw [Bool.beq_eq_decide_eq, decide_eq_decide]
    exact ⟨congrArg v, hv⟩
  have hle : ((if uns then decide (a.toNat < b.toNat) else decide (a.toInt < b.toInt)) || a == b) = decide (v a ≤ v b) := by
    rw [hlt, heq, ← Bool.decide_or, decide_eq_decide]
    exact le_iff_lt_or_eq.symm
  match cc with
  | 0 => exact heq
  | 1 => exact (congrArg not heq).trans decide_not.symm
  | 2 => exact hlt
  | 3 => exact hle
  | 4 => exact (congrArg not hle).trans (decide_not.symm.trans (decide_eq_decide.2 Int.not_le))
  | _ + 5 => exact (congrArg not hlt).trans (decide_not.symm.trans (decide_eq_decide.2 Int.not_lt))

theorem intCmp_signed {n : Nat} (cc : Nat) (a b : BitVec n) : intCmp cc false a b = condHolds cc a.toInt b.toInt :=
  intCmp_eq_condHolds cc false BitVec.toInt a b BitVec.eq_of_toInt_eq rfl

theorem intCmp_unsigned {n : Nat} (cc : Nat) (a b : BitVec n) : intCmp cc true a b = condHolds cc a.toNat b.toNat :=
  intCmp_eq_condHolds cc true (fun y => y.toNat) a b (fun h => BitVec.eq_of_toNat_eq (Int.ofNat.inj h)) (by simp)

theorem extField_lt (x : Ext) (lo len : Nat) : x.field lo len < 2 ^ len := Nat.mod_lt _ (Nat.two_pow_pos len)

/-- Sign extension of a field that has the right width already. -/
theorem simm_of_lt {n y : Nat} (h : y < 2 ^ n) : simm n y = if y < 2 ^ (n - 1) then (y : Int) else y - 2 ^ n := by
  simp [simm, sextInt, Nat.mod_eq_of_lt h]

/-- A shift to the left is a product with a power of two. -/
theorem shiftLeft_eq_mul_ofNat {n : Nat} (y : BitVec n) (k : Nat) : y <<< k = y * BitVec.ofNat n (2 ^ k) := by
  rw [BitVec.shiftLeft_eq_mul_twoPow]
  congr 1
  exact BitVec.eq_of_toNat_eq (by rw [BitVec.toNat_twoPow, BitVec.toNat_ofNat])

theorem wrP_eff (sw : Bool) (l : Lane) (n : Nat) (b c : Bool) (h : b = c) : l.Becomes sw (l.wrP n b) { p := [(n, c)] } :=
  h ▸ Lane.becomes_wrP sw l n b

/-- A write of a pair, or of one word, as bit w of the instruction has it. -/
theorem wrSized_eff (sw : Bool) (l : Lane) (wide : Bool) (n : Nat) (y : DWord) (z : Word) :
    l.Becomes sw (if wide then l.wrW n y else l.wr n z) (if wide then .wide n y else .word n z) := by
  cases wide
  · exact Lane.becomes_wr sw l n z
  · exact Lane.becomes_wrW sw l n y

variable (h : Hdr) (x : Ext)

/-- R136. -/
theorem icmp_rule : LaneRule (.icmp h x) h x.words fun e l =>
    let t := match x.bit 17, x.bit 14 with
      | false, false => condHolds (x.field 11 3) (l.rd e 0 x.a.toNat).toInt (opB l e 2 x).toInt
      | false, true => condHolds (x.field 11 3) (l.rd e 0 x.a.toNat).toNat (opB l e 2 x).toNat
      | true, false => condHolds (x.field 11 3) (l.rdW e 0 x.a.toNat).toInt (opBW l e 2 x).toInt
      | true, true => condHolds (x.field 11 3) (l.rdW e 0 x.a.toNat).toNat (opBW l e 2 x).toNat
    { p := [(x.d.toNat, combine (x.field 15 2) t (l.rdP e 6 x.c.toNat))] } := by
  refine word_rule (laneIcmp x) _ (fun _ => rfl) fun e l => wrP_eff _ _ _ _ _ ?_
  congr 1
  cases x.bit 17 <;> cases x.bit 14
  · exact intCmp_signed ..
  · exact intCmp_unsigned ..
  · exact intCmp_signed ..
  · exact intCmp_unsigned ..

/-- R137: selection. -/
theorem isel_rule : LaneRule (.isel h x) h x.words fun e l =>
    if x.bit 11 then .wide x.d.toNat (if l.rdP e 6 x.c.toNat then l.rdW e 0 x.a.toNat else opBW l e 2 x)
    else .word x.d.toNat (if l.rdP e 6 x.c.toNat then l.rd e 0 x.a.toNat else opB l e 2 x) :=
  word_rule (laneIsel x) _ (fun _ => rfl) fun _ l => wrSized_eff h.sw l (x.bit 11) _ _ _

/-- R137: moves. -/
theorem mov_rule (d a : BitVec 6) : LaneRule (.mov h d a) h 1 fun e l => .word d.toNat (l.rd e 0 a.toNat) :=
  word_rule (laneMov (baseExt d a 0)) _ (fun _ => rfl) fun e l => by
    simpa [laneMov] using wr_eff h.sw l d.toNat _ _ (rfl : l.rd e 0 a.toNat = _)

theorem movExt_rule : LaneRule (.movExt h x) h x.words fun e l =>
    if x.bit 11 then .wide x.d.toNat (l.rdW e 0 x.a.toNat) else .word x.d.toNat (l.rd e 0 x.a.toNat) :=
  word_rule (laneMov x) _ (fun _ => rfl) fun _ l => wrSized_eff h.sw l (x.bit 11) _ _ _

/-- R137: immediates. -/
theorem movi_rule : LaneRule (.movi h x) h x.words fun _ _ =>
    let imm : Int := if x.field 12 20 < 2 ^ 19 then x.field 12 20 else x.field 12 20 - 2 ^ 20
    let y : DWord := if x.len = .x3 then BitVec.ofInt 64 imm else x.lit
    if x.bit 11 then .wide x.d.toNat y else .word x.d.toNat (lo32 y) := by
  refine word_rule (laneMovi x) _ (fun _ => rfl) fun _ l => ?_
  unfold laneMovi
  rw [simm_of_lt (extField_lt x 12 20)]
  exact wrSized_eff h.sw l (x.bit 11) _ _ _

/-- R138: LEA. -/
theorem lea_rule : LaneRule (.lea h x) h x.words fun e l =>
    let b := l.rd e 2 x.b.toNat
    let y : DWord := if x.litB then x.lit else if x.bit 14 then BitVec.ofNat 64 b.toNat else BitVec.ofInt 64 b.toInt
    .wide x.d.toNat (l.rdW e 0 x.a.toNat + y * BitVec.ofNat 64 (2 ^ x.field 11 3)) := by
  refine word_rule (laneLea x) _ (fun _ => rfl) fun _ l => wrW_eff h.sw l _ _ _ ?_
  rw [shiftLeft_eq_mul_ofNat, BitVec.ofNat_toNat]
  rfl

/-- R138: 64-bit sums. -/
theorem iadd64_rule (d a b : BitVec 6) :
    LaneRule (.iadd64 h d a b) h 1 fun e l => .wide d.toNat (l.rdW e 0 a.toNat + l.rdW e 2 b.toNat) :=
  word_rule (laneAdd64 (baseExt d a b)) _ (fun _ => rfl) fun e l => by
    simpa [laneAdd64] using wrW_eff h.sw l d.toNat _ _ (rfl : l.rdW e 0 a.toNat + l.rdW e 2 b.toNat = _)

theorem iadd64Ext_rule :
    LaneRule (.iadd64Ext h x) h x.words fun e l => .wide x.d.toNat (l.rdW e 0 x.a.toNat + opBW l e 2 x) :=
  word_rule (laneAdd64 x) _ (fun _ => rfl) fun _ l => wrW_eff h.sw l _ _ _ rfl

/-- R114. -/
theorem nop_rule : LaneRule (.nop h) h 1 fun _ _ => {} :=
  word_rule (fun _ l => l) _ (fun _ => rfl) fun _ l => Lane.Becomes.refl h.sw l

/-- R116. -/
theorem rgn_rule : LaneRule (.rgn h) h 1 fun e _ => { region := some e.next } :=
  word_rule (fun e l => l.setRegion e.next) _ (fun _ => rfl) fun e l => Lane.becomes_setRegion h.sw l e.next

/-- R117. -/
theorem plop_rule : LaneRule (.plop h x) h x.words fun e l =>
    { p := [(x.d.toNat, (x.field 11 8).testBit
      ((l.rdP e 0 x.a.toNat).toNat + 2 * (l.rdP e 1 x.b.toNat).toNat + 4 * (l.rdP e 2 x.c.toNat).toNat))] } :=
  word_rule (lanePlop x) _ (fun _ => rfl) fun _ l => wrP_eff h.sw l _ _ _ rfl

end Sys2Proof.Machine

open Sys2Proof.Machine in
/-- Settles O10: the rule of each instruction, put together. -/
theorem comparesSelectionsMoves : Obligations.ComparesSelectionsMoves :=
  ⟨fun h d a b x => ⟨icmp_rule h x, isel_rule h x, mov_rule h d a, movExt_rule h x, movi_rule h x, lea_rule h x, iadd64_rule h d a b,
    iadd64Ext_rule h x⟩, fun h x => ⟨nop_rule h, rgn_rule h, plop_rule h x⟩⟩

end

section
/-! PROOF. What a vote, a shuffle, a match and a reduction give each receiving lane (R104, R121-R125). -/

namespace Sys2Proof.Machine

/-! The segments that the grp field cuts the warp into (R121). -/

theorem seg_eq_getD (x : Ext) : WideGang.seg x = [32, 16, 8, 4].getD (x.field 18 2) 4 := by
  unfold WideGang.seg
  match x.field 18 2 with
  | 0 => rfl
  | 1 => rfl
  | 2 => rfl
  | 3 => rfl
  | _ + 4 => rfl

/-- A segment is a power of two in size. -/
theorem seg_eq_two_pow (x : Ext) : ∃ n, WideGang.seg x = 2 ^ n := by
  unfold WideGang.seg
  split
  · exact ⟨5, rfl⟩
  · exact ⟨4, rfl⟩
  · exact ⟨3, rfl⟩
  · exact ⟨2, rfl⟩

theorem seg_pos (x : Ext) : 0 < WideGang.seg x := by
  obtain ⟨n, e⟩ := seg_eq_two_pow x
  exact e ▸ Nat.two_pow_pos n

theorem base_eq_iff (x : Ext) (j k : Nat) : WideGang.base x j = WideGang.base x k ↔ j / WideGang.seg x = k / WideGang.seg x :=
  Nat.mul_left_inj (seg_pos x).ne'

theorem sub_base (x : Ext) (k : Nat) : k - WideGang.base x k = k % WideGang.seg x := Nat.mod_eq_sub_div_mul.symm

/-- .up: a rotation within the segment, which the model forms without going below 0 (R123). -/
theorem rotate_up (p b : Nat) {g : Nat} (hg : 0 < g) : (p + g - b % g) % g = (((p : Int) - b) % g).toNat := by
  have hb : b % g ≤ g := (Nat.mod_lt b hg).le
  have key : ((p + g - b % g : Nat) : Int) = (p - b : Int) + g * (1 + (b / g : Nat)) := by
    have hdiv : (b : Int) = g * (b / g : Nat) + (b % g : Nat) := by exact_mod_cast (Nat.div_add_mod b g).symm
    rw [Nat.cast_sub (hb.trans (Nat.le_add_left g p)), Nat.cast_add, mul_add]
    omega
  rw [← Int.toNat_natCast ((p + g - b % g) % g), Int.natCast_emod, key, Int.add_mul_emod_self_left]

/-- .xor: the operand modulo the segment size leaves the segment as it is (R123). -/
theorem base_add_xor (x : Ext) (k b : Nat) :
    WideGang.base x k + ((k - WideGang.base x k) ^^^ (b % WideGang.seg x)) % WideGang.seg x = k ^^^ (b % WideGang.seg x) := by
  obtain ⟨n, e⟩ := seg_eq_two_pow x
  have hb : b % 2 ^ n < 2 ^ n := Nat.mod_lt b (Nat.two_pow_pos n)
  have hdiv : (k ^^^ (b % 2 ^ n)) / 2 ^ n = k / 2 ^ n := by
    rw [Nat.xor_div_two_pow, Nat.div_eq_of_lt hb, Nat.xor_zero]
  have hmod : (k % 2 ^ n ^^^ (b % 2 ^ n)) % 2 ^ n = (k ^^^ (b % 2 ^ n)) % 2 ^ n := by
    rw [Nat.xor_mod_two_pow, Nat.mod_mod, ← Nat.xor_mod_two_pow]
  rw [sub_base, WideGang.base, e, hmod, ← hdiv]
  exact Nat.div_add_mod' _ _

/-- MATCH compares pairs, or words that it extends with zeros (R124). -/
theorem eq_of_width_iff (wide : Bool) (a b : DWord) (y z : Word) :
    ((if wide then a else y.setWidth 64) == (if wide then b else z.setWidth 64)) = true ↔ if wide then a = b else y = z := by
  cases wide
  · have : y.setWidth 64 = z.setWidth 64 ↔ y = z := by
      constructor
      · intro h
        simpa using congrArg (BitVec.setWidth 32) h
      · exact congrArg _
    simpa using this
  · simp

/-- The smaller or the larger of two words is that of the numbers that they stand for (R125). -/
theorem num_pickWord {α : Type} [LinearOrder α] (num : Word → α) (larger uns : Bool) (a b : Word)
    (hlt : (if uns then decide (a.toNat < b.toNat) else decide (a.toInt < b.toInt)) = decide (num a < num b)) :
    num (pickWord larger uns a b) = if larger then max (num a) (num b) else min (num a) (num b) := by
  unfold pickWord
  simp only [hlt]
  by_cases h : num a < num b
  · cases larger <;> simp [h, h.le]
  · cases larger <;> simp [h, le_of_not_gt h]

/-- A reduction of words is the reduction of the numbers that they stand for, if each step is. -/
theorem foldl_as_numbers {α : Type} (num : Word → α) (word : α → Word) (hw : ∀ y, word (num y) = y) (step : Word → Word → Word)
    (f : α → α → α) (hstep : ∀ a b, num (step a b) = f (num a) (num b)) (v : Nat → Word) (l : List Nat) (y : Word) :
    l.foldl (fun y j => step y (v j)) y = word (l.foldl (fun y j => f y (num (v j))) (num y)) := by
  rw [List.foldl_hom num (g₁ := fun y j => step y (v j)) fun y j => (hstep y (v j)).symm, hw]

/-- Bits are all 1 or all 0 exactly when no two differ. -/
theorem all_or_all_not_iff (l : List Bool) : (l.all id || l.all not) = true ↔ ∀ a ∈ l, ∀ b ∈ l, a = b := by
  simp only [Bool.or_eq_true, List.all_eq_true, id, Bool.not_eq_true']
  constructor
  · rintro (h | h) a ha b hb
    · exact (h a ha).trans (h b hb).symm
    · exact (h a ha).trans (h b hb).symm
  · intro h
    by_cases ht : true ∈ l
    · exact .inl fun b hb => h b hb true ht
    · exact .inr fun b hb => Bool.eq_false_of_not_eq_true fun e => ht (e ▸ hb)

/-- The reduction of the words `v` of the lanes `l`, with the identity of R104: of words, or for a minimum and a maximum of the numbers that
they stand for (R125). -/
def reduction (op : Nat) (sgn : Bool) (v : Nat → Word) (l : List Nat) : Word :=
  match op with
  | 0 => l.foldl (fun y j => y + v j) 0
  | 1 => if sgn then BitVec.ofInt 32 (l.foldl (fun y j => min y (v j).toInt) 0x7FFFFFFF)
    else BitVec.ofNat 32 (l.foldl (fun y j => min y (v j).toNat) 0xFFFFFFFF)
  | 2 => if sgn then BitVec.ofInt 32 (l.foldl (fun y j => max y (v j).toInt) (-0x80000000))
    else BitVec.ofNat 32 (l.foldl (fun y j => max y (v j).toNat) 0)
  | 3 => l.foldl (fun y j => y &&& v j) 0xFFFFFFFF
  | 4 => l.foldl (fun y j => y ||| v j) 0
  | _ => l.foldl (fun y j => y ^^^ v j) 0

/-- The model's reduction works on words throughout. -/
theorem foldl_reduceStep (op : Nat) (sgn : Bool) (v : Nat → Word) (l : List Nat) :
    l.foldl (fun y j => WideGang.reduceStep op sgn y (v j)) (WideGang.identity op sgn) = reduction op sgn v l := by
  have toN (y : Word) : BitVec.ofNat 32 y.toNat = y := by simp
  match op, sgn with
  | 0, _ => rfl
  | 1, true => exact foldl_as_numbers BitVec.toInt _ ofInt_toInt32 _ min (num_pickWord BitVec.toInt false false · · rfl) v l 0x7FFFFFFF
  | 1, false => exact foldl_as_numbers BitVec.toNat _ toN _ min (num_pickWord BitVec.toNat false true · · rfl) v l 0xFFFFFFFF
  | 2, true => exact foldl_as_numbers BitVec.toInt _ ofInt_toInt32 _ max (num_pickWord BitVec.toInt true false · · rfl) v l 0x80000000
  | 2, false => exact foldl_as_numbers BitVec.toNat _ toN _ max (num_pickWord BitVec.toNat true true · · rfl) v l 0
  | 3, _ => rfl
  | 4, _ => rfl
  | _ + 5, _ => rfl

namespace WideGang

variable (q : WideGang) (x : Ext) (k : Nat)

/-- The contributing lanes of the segment of lane `k` (R122). -/
theorem mem_inSeg (j : Nat) : j ∈ q.inSeg x k ↔ j < 32 ∧ bitAt q.contrib j = true ∧ j / seg x = k / seg x := by
  simp [inSeg, lanesOf, base_eq_iff, and_comm]

theorem nodup_inSeg : (q.inSeg x k).Nodup := (List.nodup_range.filter _).filter _

theorem any_votes : (q.votes x k).any id = true ↔ ∃ j, j ∈ q.inSeg x k ∧ (q.w.lane j).rdP (q.env j) 0 x.a.toNat = true := by
  simp [votes]

theorem all_votes : (q.votes x k).all id = true ↔ ∀ j, j ∈ q.inSeg x k → (q.w.lane j).rdP (q.env j) 0 x.a.toNat = true := by
  simp [votes]

theorem uni_votes : ((q.votes x k).all id || (q.votes x k).all not) = true ↔ ∀ i j, i ∈ q.inSeg x k → j ∈ q.inSeg x k →
    (q.w.lane i).rdP (q.env i) 0 x.a.toNat = (q.w.lane j).rdP (q.env j) 0 x.a.toNat := by
  rw [all_or_all_not_iff]
  simp only [votes, List.forall_mem_map]
  exact ⟨fun h i j hi hj => h i hi j hj, fun h i hi j hj => h i j hi hj⟩

/-- The mask of those of them that satisfy `f`. -/
theorem bitAt_maskOf_inSeg (f : Nat → Bool) (j : Nat) (hj : j < 32) :
    bitAt (maskOf fun j => (q.inSeg x k).contains j && f j) j = true ↔ j ∈ q.inSeg x k ∧ f j = true := by
  rw [bitAt_maskOf _ j hj, Bool.and_eq_true, List.contains_iff_mem]

/-- SHFL, with the source lane that its form gives for the operand (R123). -/
theorem shuffle_eq (src : Nat → Nat → Nat → Nat) (lane : Nat → Nat) (hs : ∀ b, base x k + src (k - base x k) b (seg x) = lane b) :
    q.shuffle x src k =
      let j := lane (if x.bit 12 then x.field 13 5 else ((q.w.lane k).rd (q.env k) 2 x.b.toNat).toNat)
      let there := bitAt q.here j && bitAt q.members j
      { regs := [(x.d.toNat, if there then q.rd j x.a.toNat else 0)], fst := q.partFlag ||| if there then 0 else Flag.wpart } := by
  obtain rfl : (fun b => base x k + src (k - base x k) b (seg x)) = lane := funext hs
  rfl

theorem reduce_eq : q.reduce x k =
    { regs := [(x.d.toNat, reduction (x.field 12 3) (x.bit 15) (fun j => q.rd j x.a.toNat) (q.inSeg x k))], fst := q.partFlag } := by
  rw [← foldl_reduceStep]
  rfl

end WideGang

end Sys2Proof.Machine

open Sys2Proof Sys2Proof.Machine in
/-- Settles O19: the rule of each form, put together. -/
theorem warpWideResults : Obligations.WarpWideResults := by
  unfold Obligations.WarpWideResults
  intro h x q k g
  have hg : g = WideGang.seg x := (seg_eq_getD x).symm
  clear_value g
  subst hg
  intro C pa va part votes masks shfl base
  have hC (j : Nat) : j ∈ q.inSeg x k ↔ C j := q.mem_inSeg x k j
  refine ⟨?any, ?all, ?uni, ?bal, ?idx, ?up, ?down, ?xor, ?same, ?redux⟩
  case any => exact ⟨_, (q.any_votes x k).trans (exists_congr fun j => and_congr_left' (hC j)), rfl⟩
  case all => exact ⟨_, (q.all_votes x k).trans (forall_congr' fun j => imp_congr_left (hC j)), rfl⟩
  case uni => exact ⟨_, (q.uni_votes x k).trans (forall₂_congr fun i j => imp_congr (hC i) (imp_congr_left (hC j))), rfl⟩
  case bal => exact ⟨_, fun j hj => (q.bitAt_maskOf_inSeg x k _ j hj).trans (and_congr_left' (hC j)), rfl⟩
  case idx => exact q.shuffle_eq x k (fun _ b g => b % g) _ fun _ => rfl
  case up => exact q.shuffle_eq x k (fun p b g => (p + g - b % g) % g) _ fun b => congrArg _ (rotate_up _ b (seg_pos x))
  case down => exact q.shuffle_eq x k (fun p b g => (p + b) % g) _ fun _ => rfl
  case xor => exact fun _ => q.shuffle_eq x k (fun p b g => (p ^^^ (b % g)) % g) _ (base_add_xor x k)
  case same => exact ⟨_, fun j hj => (q.bitAt_maskOf_inSeg x k _ j hj).trans (and_congr (hC j) (eq_of_width_iff ..)), rfl⟩
  case redux => exact ⟨q.inSeg x k, q.nodup_inSeg x k, hC, q.reduce_eq x k⟩

end

section
/-! PROOF. The shifts, the funnel shift and the bit fields (R133-R135). -/

namespace Sys2Proof.Machine

/-! Shifts, and the bits that a field replaces, as products and quotients by a power of two. -/

theorem shiftLeft_eq_ofNat {w : Nat} (a : BitVec w) (n : Nat) : a <<< n = BitVec.ofNat w (a.toNat * 2 ^ n) := by
  rw [shiftLeft_eq_mul_ofNat, BitVec.ofNat_mul, BitVec.ofNat_toNat, BitVec.setWidth_eq]

theorem ushiftRight_eq_ofNat {w : Nat} (a : BitVec w) (n : Nat) : a >>> n = BitVec.ofNat w (a.toNat / 2 ^ n) := by
  rw [← Nat.shiftRight_eq_div_pow, ← BitVec.toNat_ushiftRight, BitVec.ofNat_toNat, BitVec.setWidth_eq]

theorem sshiftRight_eq_ofInt {w : Nat} (a : BitVec w) (n : Nat) : a.sshiftRight n = BitVec.ofInt w (a.toInt / 2 ^ n) := by
  rw [← BitVec.ofInt_toInt (x := a.sshiftRight n), BitVec.toInt_sshiftRight, Int.shiftRight_eq_div_pow]
  norm_cast

/-- An arithmetic shift by the width or more leaves copies of the sign. -/
theorem sshiftRight_of_width_le {w n : Nat} (a : BitVec w) (h : w ≤ n) : a.sshiftRight n = if a.msb then BitVec.allOnes w else 0 := by
  refine BitVec.eq_of_getLsbD_eq fun i hi => ?_
  rw [BitVec.getLsbD_sshiftRight, if_neg (by omega)]
  cases a.msb <;> simp [hi]

/-- The two parts of a rotation share no bit, so that they can be added. -/
theorem rotateLeft_eq_add {w : Nat} (a : BitVec w) (n : Nat) : a.rotateLeft n = a <<< (n % w) + a >>> (w - n % w) := by
  rw [BitVec.rotateLeft_def]
  refine (BitVec.add_eq_or_of_and_eq_zero _ _ (BitVec.eq_of_getLsbD_eq fun i hi => ?_)).symm
  by_cases h : i < n % w
  · simp [h]
  · simp [show w ≤ w - n % w + i by omega]

/-- The bits of a number in which the `k` bits from `p` upward are replaced by the low bits of another. -/
theorem testBit_replace (a b p k i : Nat) :
    (b / 2 ^ (p + k) * 2 ^ (p + k) + a % 2 ^ k * 2 ^ p + b % 2 ^ p).testBit i
      = if p ≤ i ∧ i < p + k then a.testBit (i - p) else b.testBit i := by
  have hlow : b % 2 ^ p < 2 ^ p := Nat.mod_lt _ (Nat.two_pow_pos p)
  have hmid : 2 ^ p * (a % 2 ^ k) + b % 2 ^ p < 2 ^ (p + k) := by
    rw [Nat.pow_add, Nat.mul_comm (2 ^ p) (2 ^ k)]
    exact Nat.mul_add_lt_mul_of_lt_of_lt (Nat.mod_lt _ (Nat.two_pow_pos k)) hlow
  rw [Nat.mul_comm _ (2 ^ (p + k)), Nat.mul_comm _ (2 ^ p), Nat.add_assoc, Nat.testBit_two_pow_mul_add _ hmid,
    Nat.testBit_two_pow_mul_add _ hlow, Nat.testBit_div_two_pow, Nat.testBit_mod_two_pow, Nat.testBit_mod_two_pow]
  by_cases hp : i < p
  · simp [hp, show i < p + k by omega, show ¬p ≤ i by omega]
  · by_cases hk : i < p + k
    · simp [hp, hk, show p ≤ i by omega, show i - p < k by omega]
    · simp [hk, show i - (p + k) + (p + k) = i by omega]

section words

variable (a b : Word)

/-! A word shifted by every count (R133). -/

theorem shiftWord_shl (n : Nat) : shiftWord .shl a n = BitVec.ofNat 32 (a.toNat * 2 ^ n) := by
  rw [← shiftLeft_eq_ofNat]
  exact ite_eq_left_iff.2 fun h => (BitVec.shiftLeft_eq_zero (Nat.le_of_not_lt h)).symm

theorem shiftWord_shr (n : Nat) : shiftWord .shr a n = BitVec.ofNat 32 (a.toNat / 2 ^ n) := by
  rw [← ushiftRight_eq_ofNat]
  exact ite_eq_left_iff.2 fun h => (BitVec.ushiftRight_eq_zero (Nat.le_of_not_lt h)).symm

theorem shiftWord_sar (n : Nat) : shiftWord .sar a n = BitVec.ofInt 32 (a.toInt / 2 ^ n) := by
  rw [← sshiftRight_eq_ofInt]
  refine ite_eq_left_iff.2 fun h => ?_
  rw [sshiftRight_of_width_le a (Nat.le_of_not_lt h), BitVec.msb_eq_getLsbD_last]
  rfl

theorem shiftWord_rot (n : Nat) :
    shiftWord .rot a n = BitVec.ofNat 32 (a.toNat * 2 ^ (n % 32) + a.toNat / 2 ^ (32 - n % 32)) := by
  rw [BitVec.ofNat_add, ← shiftLeft_eq_ofNat, ← ushiftRight_eq_ofNat]
  exact (rotateLeft_eq_add a (n % 32)).trans (by rw [Nat.mod_mod])

/-! The bit fields of a word (R135). -/

theorem toNat_pair : (pair a b).toNat = b.toNat * 2 ^ 32 + a.toNat := by
  rw [pair, BitVec.toNat_append, ← Nat.shiftLeft_add_eq_or_of_lt a.isLt, Nat.shiftLeft_eq]

theorem fieldCtl_eq (x : Ext) : fieldCtl x a = if x.bit 12 then (x.field 13 5, x.field 18 6) else (a.toNat % 256, a.toNat / 256 % 256) := by
  simp [fieldCtl, bitsAt]

/-- Sign extension of a number that has the width already. -/
theorem sextInt_of_lt {n y : Nat} (h : y < 2 ^ n) : sextInt n y = if 2 ^ (n - 1) ≤ y then (y : Int) - 2 ^ n else y := by
  have := simm_of_lt h
  simpa only [simm, ← ite_not (2 ^ (n - 1) ≤ y), Nat.not_le] using this

/-- A field of `n` bits as a word, zero-extended or sign-extended. -/
theorem extend_eq (uns : Bool) {n y : Nat} (h : y < 2 ^ n) :
    (if uns then BitVec.ofNat 32 y else BitVec.ofInt 32 (sextInt n y))
      = BitVec.ofInt 32 (if uns = false ∧ 2 ^ (n - 1) ≤ y then (y : Int) - 2 ^ n else y) := by
  cases uns
  · simp [sextInt_of_lt h]
  · simp

theorem bfeWord_eq (uns : Bool) (pos len : Nat) :
    bfeWord uns pos len a = if 32 ≤ pos ∨ len = 0 then 0
      else
        let k := min len (32 - pos)
        let f := a.toNat / 2 ^ pos % 2 ^ k
        BitVec.ofInt 32 (if uns = false ∧ 2 ^ (k - 1) ≤ f then (f : Int) - 2 ^ k else f) := by
  unfold bfeWord
  exact ite_congr (by simp) (fun _ => rfl) fun _ => extend_eq uns (Nat.mod_lt _ (Nat.two_pow_pos _))

theorem bfiWord_eq (pos len : Nat) :
    bfiWord pos len a b = BitVec.ofNat 32 (if 32 ≤ pos ∨ len = 0 then b.toNat
      else
        let k := min len (32 - pos)
        b.toNat / 2 ^ (pos + k) * 2 ^ (pos + k) + a.toNat % 2 ^ k * 2 ^ pos + b.toNat % 2 ^ pos) := by
  unfold bfiWord
  by_cases hn : 32 ≤ pos ∨ len = 0
  · simp [hn]
  · rw [if_neg (by simpa using hn), if_neg hn]
    refine BitVec.eq_of_getLsbD_eq fun i hi => ?_
    rw [BitVec.getLsbD_ofNat, testBit_replace, decide_eq_true hi, Bool.true_and]
    exact bitAt_maskOf _ i hi

end words

/-! The rules of the instructions. -/

@[simp] theorem baseShift_d (d a : BitVec 6) (n : BitVec 5) : (baseShift d a n).d.toNat = d.toNat := bExt_d d a 0
@[simp] theorem baseShift_a (d a : BitVec 6) (n : BitVec 5) : (baseShift d a n).a.toNat = a.toNat := bExt_a d a 0
@[simp] theorem baseShift_sub (d a : BitVec 6) (n : BitVec 5) : (baseShift d a n).sub = 0 := rfl
@[simp] theorem baseShift_count (d a : BitVec 6) (n : BitVec 5) : (baseShift d a n).field 11 5 = n.toNat := by
  have : n.toNat < 2 ^ 5 := n.isLt
  simp [Ext.field, bitsAt, baseShift]
  omega

section rules

variable (h : Hdr) (x : Ext) {k : Shift} {f : Word → Nat → Word} (hf : ∀ a n, shiftWord k a n = f a n)
include hf

/-- R133, base forms: the count is the immediate. -/
theorem shift_base_rule {i : Instr} (d a : BitVec 6) (n : BitVec 5) (hi : ∀ s, exec i s = laneOp h 1 s (laneShift k (baseShift d a n))) :
    LaneRule i h 1 fun e l => .word d.toNat (f (l.rd e 0 a.toNat) n.toNat) := by
  refine word_rule _ _ hi fun e l => ?_
  simpa [laneShift] using wr_eff h.sw l d.toNat _ _ (hf (l.rd e 0 a.toNat) n.toNat)

/-- R133, extended and literal forms: the count is the immediate or vb. -/
theorem shift_ext_rule {i : Instr} (hi : ∀ s, exec i s = laneOp h x.words s (laneShift k x)) :
    LaneRule i h x.words fun e l =>
      .word x.d.toNat (f (l.rd e 0 x.a.toNat) (if x.sub = 1 then (l.rd e 2 x.b.toNat).toNat else x.field 11 5)) :=
  word_rule _ _ hi fun _ l => wr_eff h.sw l _ _ _ (hf _ _)

end rules

variable (h : Hdr) (x : Ext)

/-- R134. -/
theorem shf_rule : LaneRule (.shf h x) h x.words fun e l =>
    let y := (l.rd e 2 x.b.toNat).toNat * 2 ^ 32 + (l.rd e 0 x.a.toNat).toNat
    let n := if x.bit 12 then x.field 13 6 else (l.rd e 4 x.c.toNat).toNat % 64
    .word x.d.toNat (BitVec.ofNat 32 (if x.bit 11 then y / 2 ^ n else y * 2 ^ n % 2 ^ 64 / 2 ^ 32)) :=
  word_rule (laneShf x) _ (fun _ => rfl) fun _ l => wr_eff h.sw l _ _ _ (by rw [toNat_pair])

/-- R135: extraction. -/
theorem bfe_rule : LaneRule (.bfe h x) h x.words fun e l =>
    let r := l.rd e 2 x.b.toNat
    let c := if x.bit 12 then (x.field 13 5, x.field 18 6) else (r.toNat % 256, r.toNat / 256 % 256)
    let k := min c.2 (32 - c.1)
    let f := (l.rd e 0 x.a.toNat).toNat / 2 ^ c.1 % 2 ^ k
    .word x.d.toNat (if 32 ≤ c.1 ∨ c.2 = 0 then 0
      else BitVec.ofInt 32 (if x.bit 11 = false ∧ 2 ^ (k - 1) ≤ f then (f : Int) - 2 ^ k else f)) :=
  word_rule (laneBfe x) _ (fun _ => rfl) fun _ l => wr_eff h.sw l _ _ _ (by rw [fieldCtl_eq, bfeWord_eq])

/-- R135: insertion. -/
theorem bfi_rule : LaneRule (.bfi h x) h x.words fun e l =>
    let r := l.rd e 4 x.c.toNat
    let c := if x.bit 12 then (x.field 13 5, x.field 18 6) else (r.toNat % 256, r.toNat / 256 % 256)
    let k := min c.2 (32 - c.1)
    let a := (l.rd e 0 x.a.toNat).toNat
    let b := (l.rd e 2 x.b.toNat).toNat
    .word x.d.toNat (BitVec.ofNat 32 (if 32 ≤ c.1 ∨ c.2 = 0 then b
      else b / 2 ^ (c.1 + k) * 2 ^ (c.1 + k) + a % 2 ^ k * 2 ^ c.1 + b % 2 ^ c.1)) :=
  word_rule (laneBfi x) _ (fun _ => rfl) fun _ l => wr_eff h.sw l _ _ _ (by rw [fieldCtl_eq, bfiWord_eq])

end Sys2Proof.Machine

open Sys2Proof.Machine in
/-- Settles O9: the rule of each instruction, put together. -/
theorem shiftsAndFields : Obligations.ShiftsAndFields :=
  fun h d a n x => ⟨shift_base_rule h shiftWord_shl d a n fun _ => rfl, shift_ext_rule h x shiftWord_shl fun _ => rfl,
    shift_base_rule h shiftWord_shr d a n fun _ => rfl, shift_ext_rule h x shiftWord_shr fun _ => rfl,
    shift_base_rule h shiftWord_sar d a n fun _ => rfl, shift_ext_rule h x shiftWord_sar fun _ => rfl,
    shift_base_rule h shiftWord_rot d a n fun _ => rfl, shift_ext_rule h x shiftWord_rot fun _ => rfl,
    shf_rule h x, bfe_rule h x, bfi_rule h x⟩

end
